-- ==== Sys2Proof/Word.lean ====
section
/-! DEFINITION. The plain words of the EX-40 model: bytes, 32-bit frame keys, records, the three
channels and a value for each of them, and round-half-up division. -/

namespace Sys2Proof

/-- One byte of a link record or of image memory. -/
abbrev Byte := BitVec 8

/-- A frame key: reel number in the upper 12 bits, frame number in the lower 20 (00_scope.md, Terms). -/
abbrev Key := BitVec 32

/-- A link record as it arrived, byte by byte (R189: "with its bytes as received"). -/
abbrev Record := List Byte

/-- Round-half-up division rhu(a/b) = floor((2a + b) / (2b)) (00_scope.md, Conventions). -/
def rhu (a b : Nat) : Nat := (2 * a + b) / (2 * b)

/-- The distance of two naturals, the |a − b| of R77 and R83. -/
def absDiff (a b : Nat) : Nat := (a - b) + (b - a)

/-- A count that saturates at `top` (00_scope.md, "Saturating counts"). -/
def saturate (top n : Nat) : Nat := if n ≤ top then n else top

/-- The three laser channels, in the order red, green, blue. -/
inductive Channel where
  | red
  | green
  | blue
  deriving DecidableEq, Repr

/-- One value for each channel. -/
structure Rgb (α : Type) where
  r : α
  g : α
  b : α
  deriving DecidableEq, Repr

/-- The value of a channel. -/
def Rgb.get {α : Type} (v : Rgb α) : Channel → α
  | .red => v.r
  | .green => v.g
  | .blue => v.b

/-- Replace the value of one channel. -/
def Rgb.set {α : Type} (v : Rgb α) (c : Channel) (x : α) : Rgb α :=
  match c with
  | .red => { v with r := x }
  | .green => { v with g := x }
  | .blue => { v with b := x }

/-- The same value for the three channels. -/
def Rgb.all {α : Type} (x : α) : Rgb α := ⟨x, x, x⟩

/-- Apply a function to the value of each channel. -/
def Rgb.map {α β : Type} (f : α → β) (v : Rgb α) : Rgb β := ⟨f v.r, f v.g, f v.b⟩

/-- Combine two triples channel by channel. -/
def Rgb.zip {α β γ : Type} (f : α → β → γ) (v : Rgb α) (w : Rgb β) : Rgb γ :=
  ⟨f v.r w.r, f v.g w.g, f v.b w.b⟩

/-- Whether a test holds on every channel. -/
def Rgb.every {α : Type} (p : α → Bool) (v : Rgb α) : Bool := p v.r && p v.g && p v.b

/-- Whether a test holds on some channel. -/
def Rgb.any {α : Type} (p : α → Bool) (v : Rgb α) : Bool := p v.r || p v.g || p v.b

/-- The first channel of a set in the order red, green, blue (R101, R105). -/
def Rgb.firstSet (v : Rgb Bool) : Option Channel :=
  if v.r then some .red else if v.g then some .green else if v.b then some .blue else none

/-- A table of `n` entries from a function of the index. -/
def tabulate {α : Type} (n : Nat) (f : Nat → α) : Vector α n :=
  ⟨((List.range n).map f).toArray, by simp⟩

/-- Apply a function to every entry of a table (by way of lists, which the kernel evaluates). -/
def mapTable {α β : Type} {n : Nat} (f : α → β) (v : Vector α n) : Vector β n :=
  ⟨(v.toList.map f).toArray, by simp⟩

end Sys2Proof
end

