-- ==== Sys2Proof/Syntax.lean ====
section
/-! DEFINITION. The commands of the EX-40: one constructor for each row of spec/opcode_table.json.

The commands are the part's whole and indivisible steps (95_what_each_step_holds.md). A host
record comes in with RECORD_ARRIVAL, byte for byte; the commands named after a request or a line
record are LP's TAKE of that record from the head of its input queue (R190), so what the request
carries stands in the record itself and the command has no operand of its own. A sensor level that
a rule reads on an event is an operand of that event, as are the readings of a sample, the channel
of an event that belongs to one channel, and the scan reference ticks that pass before an SOS or
EOS edge. -/

namespace Sys2Proof

/-- The commands of the block, one for each row of the table. -/
inductive Instr where
  /-- POWER_ON_RESET (R3): power-on, with the door sensor as it stands when the reset ends (R92). -/
  | powerOnReset (doorOpen : Bool)
  /-- LINK_UP (R188): the physical link first reaches its working state. -/
  | linkUp
  /-- LINK_RESET (R198): the LINK RESET control symbol. -/
  | linkReset
  /-- RECORD_ARRIVAL (R189): a record arrives from the host, with its bytes as received. -/
  | recordArrival (bytes : List Byte)
  /-- DROPPED_RECORD (R190): LP takes a record that fails framing, CRC or line format. -/
  | droppedRecord
  /-- UNKNOWN_RECORD (R191): LP takes a record of no REQUEST or LINE kind, or an unknown request. -/
  | unknownRecord
  /-- LINE_RECORD (R9): LP takes a posted line record. -/
  | lineRecord
  /-- IDENTIFY (R196). -/
  | identify
  /-- STATUS (R197). -/
  | status
  /-- CHECKPOINT (R195). -/
  | checkpoint
  /-- SET_PARAMETER (R194). -/
  | setParameter
  /-- SET_NOTICE_MASK (R201). -/
  | setNoticeMask
  /-- OPEN_FRAME (R5). -/
  | openFrame
  /-- CLOSE_FRAME (R13). -/
  | closeFrame
  /-- DISCARD_FRAME (R14). -/
  | discardFrame
  /-- REQUEUE_FRAME (R15). -/
  | requeueFrame
  /-- WRITE_RULE (R28). -/
  | writeRule
  /-- READ_RULE (R30). -/
  | readRule
  /-- LOAD_PROFILE (R46). -/
  | loadProfile
  /-- READ_PROFILE (R48). -/
  | readProfile
  /-- SET_ROLL_TRIM (R69). -/
  | setRollTrim
  /-- SET_FACET_GAINS (R89). -/
  | setFacetGains
  /-- RESTORE_FACETS (R90). -/
  | restoreFacets
  /-- SET_FOOTAGE (R149). -/
  | setFootage
  /-- SET_FAULT_RESPONSE (R158). -/
  | setFaultResponse
  /-- ABORT_FRAME (R133). -/
  | abortFrame
  /-- READ_LOG (R184): a Read Log whose repeat flag byte is not 1. -/
  | readLog
  /-- READ_LOG_REPEAT (R185): a Read Log whose repeat flag byte is 1. -/
  | readLogRepeat
  /-- START_ENGINE (R114), with the film-present sensor as it stands. -/
  | startEngine (filmPresent : Bool)
  /-- RESUME_ENGINE (R117), with the film-present sensor as it stands. -/
  | resumeEngine (filmPresent : Bool)
  /-- STOP_ENGINE (R118). -/
  | stopEngine
  /-- RESET_ENGINE (R120). -/
  | resetEngine
  /-- ADVANCE_FILM (R150). -/
  | advanceFilm
  /-- QUEUE_TAKE (R121): READY takes the queue head. -/
  | queueTake
  /-- SOS (R79): a start-of-scan edge, `ticks` scan reference ticks after the last timed event. -/
  | sos (ticks : Nat)
  /-- EOS (R80): an end-of-scan edge, `ticks` scan reference ticks after the last timed event. -/
  | eos (ticks : Nat)
  /-- INDEX_PULSE (R85). -/
  | indexPulse
  /-- SOS_WATCH_EXPIRY (R81). -/
  | sosWatchExpiry
  /-- LASER_SETTLE_EXPIRY (R94) of one channel. -/
  | laserSettleExpiry (channel : Channel)
  /-- SAMPLE_COMPLETION (R99), with the monitor reading of each channel, 0–4095. -/
  | sampleCompletion (readings : Rgb Nat)
  /-- INTERLOCK_OPENING (R96). -/
  | interlockOpening
  /-- INTERLOCK_CLOSING (R97). -/
  | interlockClosing
  /-- START_TIMER_EXPIRY (R116). -/
  | startTimerExpiry
  /-- POLYGON_STOPPED (R119). -/
  | polygonStopped
  /-- STOP_TIMER_EXPIRY (R119). -/
  | stopTimerExpiry
  /-- WHEEL_IN_POSITION (R123) of one channel's filter wheel. -/
  | wheelInPosition (channel : Channel)
  /-- WHEEL_TIMER_EXPIRY (R123) of one channel's filter wheel. -/
  | wheelTimerExpiry (channel : Channel)
  /-- STAGE_HOME_REPORT (R128). -/
  | stageHomeReport
  /-- STAGE_IN_POSITION (R128). -/
  | stageInPosition
  /-- STAGE_TIMER_EXPIRY (R128). -/
  | stageTimerExpiry
  /-- PAUSE_TIMER_EXPIRY (R132). -/
  | pauseTimerExpiry
  /-- CLAMP_OPEN_CONFIRMATION (R139). -/
  | clampOpenConfirmation
  /-- PERFORATION_EDGE (R140). -/
  | perforationEdge
  /-- CYCLE_END (R140). -/
  | cycleEnd
  /-- CLAMP_CLOSED_CONFIRMATION (R141), with the film-present sensor as it stands. -/
  | clampClosedConfirmation (filmPresent : Bool)
  /-- GATE_SETTLE_EXPIRY (R141). -/
  | gateSettleExpiry
  /-- OPERATION_TIMER_EXPIRY (R142). -/
  | operationTimerExpiry
  /-- SHUTTER_OPEN_CONFIRMATION (R145). -/
  | shutterOpenConfirmation
  /-- SHUTTER_CLOSED_CONFIRMATION (R146). -/
  | shutterClosedConfirmation
  /-- SHUTTER_TIMER_EXPIRY (R146). -/
  | shutterTimerExpiry
  /-- EDGE_PRINT_DONE (R153). -/
  | edgePrintDone
  /-- FAULT_TAKE (R159): the Fault Unit takes the oldest fault raised to it. -/
  | faultTake
  deriving DecidableEq, Repr

end Sys2Proof
end

