-- ==== Sys2Proof/Decode.lean ====
section
/-! DEFINITION. The commands spelled by a word of bits. spec/opcode_table.json gives no row any
bits ("fields" is empty and there is no "fixed" in all 62 rows): the commands are events, and what
the host sends is a link record, which Machine/Operands.lean decodes byte by byte. So no word
spells a command. -/

namespace Sys2Proof

/-- The command a word spells by the table's bits: none, since no row of the table has bits. -/
def decodeTableWord (_nbits _w : Nat) : Option Instr := none

end Sys2Proof
end

