-- ==== Sys2Proof/Config.lean ====
section
/-! DEFINITION. What the manual fixes for every EX-40: the clock, the capacities of its stores and
tables, its identity, its fixed times and the power-on values of its parameters; and the one free value,
the order in which faults raised together are taken. -/

namespace Sys2Proof.Config

/-- Ticks of the 100 MHz scan reference in one millisecond (00_scope.md: one tick is 10 ns). -/
def ticksPerMs : Nat := 100000

/-- A duration in milliseconds, in ticks of the scan reference. -/
def ms (n : Nat) : Nat := n * ticksPerMs

/-- Start timer, 20 s (R114). -/
def startTime : Nat := ms 20000
/-- Stop timer, 10 s (R119). -/
def stopTime : Nat := ms 10000
/-- Filter wheel timer, 1500 ms (R123). -/
def wheelTime : Nat := ms 1500
/-- Stage settle timer of a step, 5 ms (R128). -/
def stepTime : Nat := ms 5
/-- Stage settle timer of a return, 1000 ms (R124, R128). -/
def returnTime : Nat := ms 1000
/-- Gate operation timer, 400 ms (R138). -/
def operationTime : Nat := ms 400
/-- Gate settle timer, 40 ms (R141). -/
def gateSettleTime : Nat := ms 40
/-- Shutter timer, 50 ms (R145, R146). -/
def shutterTime : Nat := ms 50
/-- Print time of one mark: 14 characters at 2 ms each, 28 ms (R153). -/
def markTime : Nat := ms 28

/-- Places in the link input queue (R189). -/
def inputQueuePlaces : Nat := 16
/-- Input queue occupancy at which HOLD is sent (R189). -/
def holdLevel : Nat := 12
/-- Input queue occupancy at which GO is sent (R189). -/
def goLevel : Nat := 4
/-- Entries of the outstanding-request table (R192). -/
def outstandingPlaces : Nat := 4
/-- Shortest record that passes framing (R190). -/
def shortestRecord : Nat := 12
/-- Longest record that passes framing (R190). -/
def longestRecord : Nat := 16402

/-- Greatest frame width in pixels (R2, R5). -/
def maxWidth : Nat := 4096
/-- Greatest frame height in lines (R2, R5). -/
def maxHeight : Nat := 3200

/-- Records the roll log holds (R182). -/
def logPlaces : Nat := 64
/-- Occupancy from which an append announces LOG_NEARLY_FULL (R183). -/
def logNearlyFull : Nat := 56
/-- Most records one Read Log returns (R184). -/
def logBatch : Nat := 8

/-- Fewest USABLE facets the engine exposes with (R87). -/
def fewestFacets : Nat := 4
/-- Speed-lock run at which the polygon is on speed (R77). -/
def lockRun : Nat := 16
/-- Out-of-tolerance run that excludes a facet (R86). -/
def excludeRun : Nat := 3
/-- Missed-SOS run that raises SOS_LOSS (R81). -/
def lossRun : Nat := 8

/-- Perforations of one frame of film (R140). -/
def framePerforations : Nat := 4
/-- Readings of one servo block (R104). -/
def servoBlock : Nat := 16
/-- Greatest power trim, either way (R104). -/
def trimLimit : Int := 31
/-- Greatest roll trim, either way (R69). -/
def rollTrimLimit : Int := 40

/-- First scan position of a reference pulse (R98). -/
def pulseFirst : Nat := 8
/-- Last scan position of a reference pulse (R98). -/
def pulseLast : Nat := 39
/-- On-time of a reference pulse, in sixty-fourths of the pixel period (R98). -/
def pulseOnTime : Nat := 64

/-- Greatest deliverable dose, 3840 × 64 amplitude-sixtyfourths (R62). -/
def fullDose : Nat := 245760

/-- Vendor code, part code and design revision of the identity (12_record_layouts.md, 12.6). -/
def vendorCode : Nat := 0x0E1A
/-- Part code of the identity (12_record_layouts.md, 12.6). -/
def partCode : Nat := 0x0040
/-- Design revision of the parts the manual describes (12_record_layouts.md, 12.6). -/
def revision : Nat := 0x0001
/-- Largest payload of a link record (R187). -/
def maxPayload : Nat := 16390

/-- Which of the faults that may be taken next the Fault Unit takes first, at the n-th of its choices. R159
leaves the order of faults raised together open: a free value, DESIGN CHOICE 3. -/
opaque faultOrder : Nat → Nat

/-- What a byte of image memory that nothing has written reads as. R2 and R3 leave the contents
after power-on unspecified. DESIGN CHOICE 4. -/
def blankImageByte : BitVec 8 := 0

end Sys2Proof.Config
end

