-- ==== Sys2Proof/Machine/State.lean ====
section
/-! DEFINITION. The state of the EX-40 as plain data: one structure for each block of the manual's
Table 2, the records the part sends, the queue of waiting commands, and the state after power-on
reset. -/

namespace Sys2Proof.Machine

/-- The reasons the model stops with a fault. -/
inductive Fault where
  /-- A line record would be stored, or a line driven, at a pixel position outside the
  4096 × 3200 positions of a slot's image memory (R2). Raised by LINE_RECORD and
  SAMPLE_COMPLETION, and only in a state where a slot holds a width above 4096 or a height above
  3200, which no Open Frame makes (R5). Safe: the model stops where the manual names no address. -/
  | imagePosition
  deriving DecidableEq, Repr

/-- The reasons the model refuses a command. -/
inductive Refusal where
  /-- The command has no meaning in the model. Raised by no command: every arm of exec has its
  meaning. Safe. -/
  | notModelled (mnemonic : String)
  deriving DecidableEq, Repr

/-- A timer: stopped, or running with the time left in ticks of the scan reference (LOG 1). -/
abbrev Timer := Option Nat

/-- A label of eight characters, one byte each (R26). -/
abbrev Label := Vector Byte 8

/-! ### Frame Store and Exposure Queue (chapter 1) -/

/-- The states of a non-FREE slot (R1, Table 1-1). -/
inductive Phase where
  | filling
  | queued
  | active
  | held
  deriving DecidableEq, Repr

/-- The record of a non-FREE slot (R1, Table 1-1). -/
structure SlotRecord where
  phase : Phase
  key : Key
  width : Nat
  height : Nat
  rule : Fin 32
  profile : Fin 8
  label : Label
  /-- one presence mark for each line index 0..H−1 -/
  presence : List Bool
  presenceCount : Nat
  rewrites : Nat
  openSeq : Nat
  deriving DecidableEq, Repr

/-- The Frame Store (R1 to R4, R16). A FREE slot is `none`: it holds only its state (R1). -/
structure FrameStore where
  slots : Vector (Option SlotRecord) 4
  openCounter : Nat
  /-- the Exposure Queue, head first -/
  queue : List (Fin 4)
  /-- the image memories of the four slots, byte by byte (Machine/Memory.lean) -/
  image : List Host.Cell
  deriving DecidableEq, Repr

/-! ### Admission Table (chapter 2) -/

/-- One admission rule (R24, Table 2-1). -/
structure Rule where
  valid : Bool
  key : Key
  mask : BitVec 32
  profile : Fin 8
  label : Label
  minHeight : Nat
  deriving DecidableEq, Repr

/-- The Admission Table (R24). -/
structure Admission where
  rules : Vector Rule 32
  deriving DecidableEq, Repr

/-! ### Profile Table (chapter 3) -/

/-- The 33 knots of a calibration curve (R43). -/
abbrev Curve := Vector Nat 33

/-- The per-channel fields of a profile, with its enable flag (R37, Tables 3-1 and 3-2). -/
structure ProfileChannel where
  enabled : Bool
  range : Nat
  scale : Nat
  curve : Curve
  deriving DecidableEq, Repr

/-- One stock profile with its reference count (R37, R49). -/
structure Profile where
  valid : Bool
  stock : Nat
  channels : Rgb ProfileChannel
  refs : Nat
  deriving DecidableEq, Repr

/-- The Profile Table (R37). -/
structure ProfileTable where
  profiles : Vector Profile 8
  deriving DecidableEq, Repr

/-! ### Dose Unit (chapter 4) -/

/-- The 17 shading knots of a channel (R53). -/
abbrev Shading := Vector Nat 17

/-- The values of one channel fixed at PREPARING entry (R53). -/
structure LatchedChannel where
  enabled : Bool
  curve : Curve
  scale : Nat
  trim : Int
  shading : Shading
  deriving DecidableEq, Repr

/-- The values fixed at the start of a line attempt (R56). -/
structure LineLatch where
  facet : Fin 8
  gain : Nat
  trims : Rgb Int
  deriving DecidableEq, Repr

/-- A pair of clip counts, high and low (R68). -/
structure Clips where
  high : Nat
  low : Nat
  deriving DecidableEq, Repr

/-- The Dose Unit (R53). An empty latch is `none`. -/
structure DoseUnit where
  rollTrims : Rgb Int
  shading : Rgb Shading
  frameLatch : Option (Rgb LatchedChannel)
  lineLatch : Option LineLatch
  lineClips : Rgb Clips
  deriving DecidableEq, Repr

/-! ### Scan Timing Unit (chapter 5) -/

/-- The speed state (R75). -/
inductive Speed where
  | idle
  | acquiring
  | running
  deriving DecidableEq, Repr

/-- The measurement state (Table 5-1): ARMED, or TIMING a facet with the ticks since its SOS, the
slipped mark of R85 and the pixel period fixed at its SOS (R84). -/
inductive Measurement where
  | armed
  | timing (facet : Fin 8) (ticks : Nat) (slipped : Bool) (period : Nat)
  deriving DecidableEq, Repr

/-- One entry of the facet table (Table 5-2). -/
structure Facet where
  usable : Bool
  interval : Nat
  measured : Option Nat
  run : Nat
  gain : Nat
  deriving DecidableEq, Repr

/-- The five timing parameters (R88, Table 5-4). -/
structure TimingParams where
  tn : Nat
  pn : Nat
  tolerance : Nat
  nsp : Nat
  l0 : Nat
  deriving DecidableEq, Repr

/-- The four scan statistics (Table 5-1). -/
structure ScanStats where
  strayEos : Nat
  missedEos : Nat
  missedSos : Nat
  slips : Nat
  deriving DecidableEq, Repr

/-- The Scan Timing Unit (Table 5-1). -/
structure ScanUnit where
  speed : Speed
  measurement : Measurement
  counter : Fin 8
  aligned : Bool
  lockRun : Nat
  /-- ticks since the last SOS taken in ACQUIRING, absent before the first (R77) -/
  sinceSos : Option Nat
  watch : Timer
  missedRun : Nat
  facets : Vector Facet 8
  params : TimingParams
  stats : ScanStats
  deriving DecidableEq, Repr

/-! ### Power Loop (chapter 6) -/

/-- The state of a laser channel (R93). -/
inductive Laser where
  | off
  | settling
  | settled
  deriving DecidableEq, Repr

/-- The state of a power window (R101). -/
inductive Window where
  | clear
  | tripped
  deriving DecidableEq, Repr

/-- The limits watched (R100). -/
inductive Direction where
  | low
  | high
  | both
  deriving DecidableEq, Repr

/-- The limit a reading crossed (R101). -/
inductive Limit where
  | lower
  | upper
  deriving DecidableEq, Repr

/-- One laser channel (Table 6-1). `firing` is set from the trigger of a reference pulse to its
sample (R98, R99). -/
structure PowerChannel where
  laser : Laser
  settle : Timer
  trim : Int
  reading : Option Nat
  window : Window
  outRun : Nat
  inRun : Nat
  accumulator : Int
  samples : Nat
  firing : Bool
  deriving DecidableEq, Repr

/-- The power-loop parameters (R108, Table 6-2). -/
structure PowerParams where
  targets : Rgb Nat
  deadband : Nat
  steps : Nat
  direction : Direction
  persistence : Nat
  settleMs : Nat
  deriving DecidableEq, Repr

/-- The Power Loop (Table 6-1). -/
structure PowerLoop where
  interlockOpen : Bool
  channels : Rgb PowerChannel
  params : PowerParams
  deriving DecidableEq, Repr

/-! ### Exposure Sequencer (chapter 7) -/

/-- The twelve engine states (R112, Table 7-2). -/
inductive Engine where
  | offline
  | starting
  | ready
  | preparing
  | exposing
  | paused
  | finishing
  | advancing
  | aborting
  | halted
  | stopping
  | locked
  deriving DecidableEq, Repr

/-- The conditions a wait reason names (Table 7-4; R165, R166 for ABORTING). -/
inductive Wait where
  | speed
  | settle
  | stage
  | gate
  | empty
  | logFull
  | filter
  | film
  | trip
  | shutter
  | print
  | polygon
  deriving DecidableEq, Repr

/-- The requests of the link (Table 11-3). -/
inductive Request where
  | identify
  | status
  | checkpoint
  | setParameter
  | setNoticeMask
  | openFrame
  | closeFrame
  | discardFrame
  | requeueFrame
  | writeRule
  | readRule
  | loadProfile
  | readProfile
  | setRollTrim
  | setFacetGains
  | restoreFacets
  | setFootage
  | setFaultResponse
  | abortFrame
  | readLog
  | startEngine
  | resumeEngine
  | stopEngine
  | resetEngine
  | advanceFilm
  deriving DecidableEq, Repr

/-- A pending long reply: its request and its tag, `none` once a link reset has dropped the tag
(R111). -/
structure PendingReply where
  request : Request
  tag : Option Nat
  deriving DecidableEq, Repr

/-- The four kinds of pending long reply (R113). -/
inductive LongKind where
  | start
  | stop
  | reset
  | advance
  deriving DecidableEq, Repr

/-- At most one pending reply of each kind (R113). -/
structure PendingReplies where
  start : Option PendingReply
  stop : Option PendingReply
  reset : Option PendingReply
  advance : Option PendingReply
  deriving DecidableEq, Repr

/-- The exposure record of the active frame (R136, Table 7-5). "Reservation held" is the roll log's
reservation itself (R182), stored there. -/
structure ExposureRecord where
  slot : Fin 4
  openSeq : Nat
  profile : Fin 8
  line : Nat
  exposed : Nat
  defects : Nat
  pauses : Nat
  clips : Rgb Clips
  trims : Rgb Int
  marked : Bool
  deriving DecidableEq, Repr

/-- The slow-axis stage (R128). In MOVING the timer is stopped once it has expired. -/
inductive Stage where
  | unhomed
  | homing
  | settled (line : Nat)
  | moving (line : Nat) (timer : Timer)
  deriving DecidableEq, Repr

/-- A filter wheel (R123): its position, `none` for UNKNOWN, and its move, the target and the
time left, `none` at rest. -/
structure Wheel where
  position : Option Nat
  move : Option (Nat × Nat)
  deriving DecidableEq, Repr

/-! ### Transport Controller (chapter 8) -/

/-- The gate states (R138, R139). -/
inductive Gate where
  | released
  | clamped
  | releasing
  | pulling
  | clamping
  | settling
  deriving DecidableEq, Repr

/-- The gate operation in flight (R138). -/
inductive GateOp where
  | pullDown
  | clamp
  deriving DecidableEq, Repr

/-- How the last gate operation ended (Table 8-1). -/
inductive GateOutcome where
  | completed
  | count
  | timeout
  | filmEnd
  | cut
  deriving DecidableEq, Repr

/-- The last gate outcome, with the operation and its perforation count (Table 8-1). -/
structure LastOperation where
  outcome : GateOutcome
  op : GateOp
  count : Nat
  deriving DecidableEq, Repr

/-- The shutter states (R145, R146). -/
inductive Shutter where
  | closed
  | opening
  | opened
  | closing
  deriving DecidableEq, Repr

/-- A decimal digit. -/
abbrev Digit := Fin 10

/-- The footage counter, each part held as decimal digits (R148): four digits of feet, two of
frames. -/
structure Footage where
  thousands : Digit
  hundreds : Digit
  tens : Digit
  ones : Digit
  frameTens : Digit
  frameOnes : Digit
  deriving DecidableEq, Repr

/-- The two kinds of margin mark (R153). -/
inductive MarkKind where
  | frame
  | spoil
  deriving DecidableEq, Repr

/-- A mark for the edge-print head: its 14 characters, fixed when it is commanded (R153), and
whether the exposure record it was commanded for still stands (R154; LOG 8). -/
structure Mark where
  kind : MarkKind
  characters : List Byte
  live : Bool
  deriving DecidableEq, Repr

/-- The edge-print head (R153). -/
inductive Head where
  | idle
  | printing (mark : Mark) (left : Nat)
  deriving DecidableEq, Repr

/-- The blank advance record (R150). -/
structure BlankAdvance where
  count : Nat
  completed : Nat
  start : Footage
  deriving DecidableEq, Repr

/-- The Transport Controller (Table 8-1). -/
structure Transport where
  gate : Gate
  op : Option GateOp
  opTimer : Timer
  settleTimer : Timer
  perforations : Nat
  last : Option LastOperation
  shutter : Shutter
  shutterTimer : Timer
  footage : Footage
  gateUsed : Bool
  head : Head
  pendingMark : Option Mark
  blank : Option BlankAdvance
  completedTotal : Nat
  failedTotal : Nat
  deriving DecidableEq, Repr

/-! ### Fault Unit (chapter 9) -/

/-- The fourteen fault kinds (R157, Table 9-1). -/
inductive FaultKind where
  | sosLoss
  | facetShortage
  | syncSlip
  | powerTrip
  | pauseTimeout
  | trimLimit
  | stageTimeout
  | filterTimeout
  | startTimeout
  | transport
  | filmEnd
  | interlock
  | shutter
  | operator
  deriving DecidableEq, Repr

/-- The assigned responses (R157). -/
inductive Response where
  | warn
  | pause
  | abort
  | halt
  deriving DecidableEq, Repr

/-- The responses applied (R159). -/
inductive Applied where
  | notice
  | hold
  | pause
  | abort
  | halt
  | defer
  | lock
  | record
  deriving DecidableEq, Repr

/-- Why a gate operation failed with TRANSPORT (Table 9-4). -/
inductive TransportCause where
  | count
  | timeout
  deriving DecidableEq, Repr

/-- The direction of a shutter movement (R145, R146). -/
inductive ShutterWay where
  | opening
  | closing
  deriving DecidableEq, Repr

/-- A fault as a block raises it: its kind with the data Table 9-4 gives that kind. -/
inductive FaultReport where
  | sosLoss (run : Nat)
  | facetShortage (facet : Fin 8) (usable : Nat)
  | syncSlip (found : Fin 8)
  | powerTrip (tripped : Rgb Bool) (reading : Nat) (limit : Limit)
  | pauseTimeout (tripped : Rgb Bool)
  | trimLimit (channels : Rgb Bool) (trim : Int) (up : Bool)
  | stageTimeout (line : Nat)
  | filterTimeout (channel : Channel) (range : Nat)
  | startTimeout (waiting : List Wait)
  | transport (cause : TransportCause) (gate : Gate) (count : Nat) (op : GateOp)
  | filmEnd (count : Nat) (op : GateOp)
  | interlock
  | shutter (way : ShutterWay)
  | operator (openSeq : Nat)
  deriving DecidableEq, Repr

/-- The last-fault record (R174, Table 9-3). The kind and the channel are those of the report. -/
structure FaultRecord where
  report : FaultReport
  engine : Engine
  applied : Applied
  slot : Option (Fin 4)
  line : Option Nat
  facet : Option (Fin 8)
  footage : Footage
  deriving DecidableEq, Repr

/-- The lock record pair (R172). -/
structure LockPair where
  first : Option FaultRecord
  second : FaultRecord
  deriving DecidableEq, Repr

/-- The Fault Unit (R157, R168, R172, R174, R175). `raised` holds the faults raised and not yet
taken, oldest first (R159; LOG 3), and `choices` counts the choices made among faults raised together:
it is the model's own, the argument of the free value `Config.faultOrder`. -/
structure FaultUnit where
  responses : Vector Response 14
  counts : Vector Nat 14
  lastFault : Option FaultRecord
  inHand : Option FaultRecord
  lockPair : Option LockPair
  raised : List FaultReport
  choices : Nat
  deriving DecidableEq, Repr

/-- The Exposure Sequencer (Table 7-1). The wait reason is `State.waitReason` (LOG 15). -/
structure Sequencer where
  engine : Engine
  stopPending : Bool
  deferredHalt : Option FaultRecord
  replies : PendingReplies
  exposure : Option ExposureRecord
  lineInProgress : Option (Fin 8)
  stage : Stage
  wheels : Rgb Wheel
  startTimer : Timer
  stopTimer : Timer
  pauseTimer : Timer
  linePitch : Nat
  pauseMs : Nat
  deriving DecidableEq, Repr

/-! ### Roll Log (chapter 10) -/

/-- The fault cause of a SPOILED record (R179). -/
inductive Cause where
  | fault (kind : FaultKind)
  | reset
  deriving DecidableEq, Repr

/-- The fields a frame's record carries (R177, Table 10-2). -/
structure FrameEntry where
  key : Key
  slot : Fin 4
  rule : Fin 32
  profile : Fin 8
  stock : Nat
  label : Label
  exposed : Nat
  defects : Nat
  pauses : Nat
  trims : Rgb Int
  clips : Rgb Clips
  deriving DecidableEq, Repr

/-- The outcome of a frame position or run, with the fields present for it (R177). -/
inductive LogBody where
  | exposed (frame : FrameEntry)
  | spoiled (frame : FrameEntry) (cause : Cause)
  | blank (frames : Nat)
  deriving DecidableEq, Repr

/-- A roll log record (R177). -/
structure LogRecord where
  seq : Nat
  footage : Footage
  body : LogBody
  deriving DecidableEq, Repr

/-- A reservation, for a frame with its slot or for a blank run (R180). -/
inductive Reservation where
  | frame (slot : Fin 4)
  | blank
  deriving DecidableEq, Repr

/-- The Roll Log (Table 10-1). The occupancy is the length of `records`. -/
structure RollLog where
  records : List LogRecord
  reservation : Option Reservation
  lastSeq : Nat
  lastBatch : Option (List LogRecord)
  deriving DecidableEq, Repr

/-! ### Notices (chapter 11) -/

/-- The notice kinds, in the order of Table 11-5, and HELLO (R196). -/
inductive NoticeKind where
  | frameStarted
  | queueEmpty
  | frameDone
  | engineState
  | logNearlyFull
  | facetChange
  | trimAtLimit
  | frameSpoiled
  | fault
  | locked
  | interlock
  | hello
  deriving DecidableEq, Repr

/-- The cause a HELLO carries (R196). -/
inductive HelloCause where
  | powerOn
  | linkReset
  deriving DecidableEq, Repr

/-- The payload of a notice, by kind (Table 11-5). -/
inductive NoticePayload where
  | frameStarted (slot : Fin 4) (key : Key) (openSeq : Nat) (footage : Footage)
  | queueEmpty
  | frameDone (slot : Fin 4) (key : Key) (exposed defects seq : Nat)
  | engineState (previous new : Engine) (cause : Option FaultKind)
  | logNearlyFull (occupancy : Nat) (reserved : Bool)
  | facetChange (facet : Option (Fin 8)) (usable : Bool) (usableCount : Nat)
  | trimAtLimit (trims : Rgb (Option Int))
  | frameSpoiled (slot : Fin 4) (key : Key) (openSeq : Nat) (cause : Cause) (exposed seq : Nat)
  | fault (record : FaultRecord)
  | locked (pair : LockPair)
  | interlock (isOpen : Bool)
  | hello (cause : HelloCause)
  deriving DecidableEq, Repr

/-- A notice as it is sent, with its coalesced count (R199). -/
structure Notice where
  count : Nat
  payload : NoticePayload
  deriving DecidableEq, Repr

/-- The Notice Unit (R199): the mask level, and for each kind of Table 11-5 its pending entry,
`none` while the flag is clear. -/
structure NoticeUnit where
  mask : Nat
  pending : Vector (Option Notice) 11
  deriving DecidableEq, Repr

/-! ### Link Port (chapter 11) -/

/-- The flow symbols and the flow state (R189). -/
inductive Flow where
  | go
  | hold
  deriving DecidableEq, Repr

/-- The reasons of a link error (R189 to R191). -/
inductive LinkError where
  | queueOverrun
  | framing
  | badCrc
  | lineFormat
  deriving DecidableEq, Repr

/-- The reasons a line record is refused (R9, Table 1-4). -/
inductive LineReason where
  | badSlot
  | slotNotFilling
  | lineRange
  | widthMismatch
  deriving DecidableEq, Repr

/-- An entry of the outstanding-request table (R191); whether it is long follows from its code. -/
structure Outstanding where
  tag : Nat
  request : Request
  deriving DecidableEq, Repr

/-- The first refusal of the posted-error record (R10). -/
structure FirstRefusal where
  slot : Nat
  line : Nat
  reason : LineReason
  deriving DecidableEq, Repr

/-- The posted-error record (R10). -/
structure PostedErrors where
  count : Nat
  first : Option FirstRefusal
  deriving DecidableEq, Repr

/-- The record LP has in hand: taken from the queue and handed to a block that has not yet decided it
(R190, R198; LOG 27). `tagged` tells whether its tag still stands; a link reset drops it (R198). -/
structure HeldRecord where
  record : Record
  tagged : Bool
  deriving DecidableEq, Repr

/-- The Link Port (Table 11-1), with the record it has in hand (R198). -/
structure LinkPort where
  up : Bool
  queue : List Record
  flow : Flow
  outstanding : List Outstanding
  errors : Nat
  firstError : Option LinkError
  posted : PostedErrors
  held : Option HeldRecord
  deriving DecidableEq, Repr

/-! ### Replies -/

/-- The outcome of a reply (R193). -/
inductive ReplyOutcome where
  | done
  | failed
  | refused
  deriving DecidableEq, Repr

/-- The reasons of Table 12-2; `none_` is the reason byte 0 of a DONE reply. -/
inductive Reason where
  | none_
  | badFormat
  | unknownRequest
  | tagInUse
  | tooMany
  | locked
  | wrongState
  | badValue
  | condition
  | badGeometry
  | duplicateKey
  | noRule
  | profileEmpty
  | noSlot
  | staleSlot
  | slotState
  | missingLines
  | inUse
  | invalidLabel
  | curveOrder
  | logFull
  | abandoned
  | fault (kind : FaultKind)
  deriving DecidableEq, Repr

/-- What Status reports of a laser channel (R109). -/
structure ChannelReport where
  laser : Laser
  trim : Int
  reading : Option Nat
  window : Window
  outRun : Nat
  inRun : Nat
  accumulator : Int
  samples : Nat
  deriving DecidableEq, Repr

/-- What Status reports of a non-FREE slot (R23). -/
structure SlotSummary where
  phase : Phase
  key : Key
  width : Nat
  height : Nat
  rule : Fin 32
  profile : Fin 8
  label : Label
  presenceCount : Nat
  rewrites : Nat
  openSeq : Nat
  deriving DecidableEq, Repr

/-- The Status reply, block by block (R197). -/
structure StatusReport where
  /- LP -/
  up : Bool
  occupancy : Nat
  flow : Flow
  outstanding : List Outstanding
  errors : Nat
  firstError : Option LinkError
  posted : PostedErrors
  /- NU -/
  notices : NoticeUnit
  /- FS (R23) -/
  slots : List (Option SlotSummary)
  queue : List (Fin 4)
  /- PT: valid field, stock code and reference count of each profile -/
  profiles : List (Bool × Nat × Nat)
  /- DU (R72): while a frame is active, its latched trims and clip counts -/
  rollTrims : Rgb Int
  shading : Rgb Shading
  activeDose : Option (Rgb Int × Rgb Clips)
  /- STU (R91) -/
  speed : Speed
  counter : Fin 8
  aligned : Bool
  measurement : Option (Fin 8 × Nat)
  scanStats : ScanStats
  facets : Vector Facet 8
  /- PL (R109) -/
  interlockOpen : Bool
  channels : Rgb ChannelReport
  /- ES (R136) -/
  engine : Engine
  waiting : List Wait
  stopPending : Bool
  deferredHalt : Option FaultKind
  replies : PendingReplies
  stage : Stage
  wheels : Rgb Wheel
  exposure : Option ExposureRecord
  reservationHeld : Bool
  lineInProgress : Option (Fin 8)
  linePitch : Nat
  pauseMs : Nat
  /- TC (R156) -/
  gate : Gate
  gateOp : Option GateOp
  perforations : Nat
  lastGate : Option LastOperation
  shutter : Shutter
  footage : Footage
  gateUsed : Bool
  printing : Option MarkKind
  pendingMark : Option Mark
  blank : Option BlankAdvance
  pullDowns : Nat × Nat
  /- FU (R175) -/
  responses : Vector Response 14
  faultCounts : Vector Nat 14
  lastFault : Option FaultRecord
  inHand : Option FaultRecord
  lockPair : Option LockPair
  /- RL (R186) -/
  logOccupancy : Nat
  reservation : Option Reservation
  lastSeq : Nat
  oldestSeq : Option Nat
  batchLength : Nat
  /- the parameters of Table 11-4 (those of DU and ES stand above) -/
  timing : TimingParams
  power : PowerParams
  deriving DecidableEq, Repr

/-- The data of a reply, as the rule of its request lists it. -/
inductive ReplyData where
  | empty
  /-- Identify (R196) -/
  | identity
  | status (report : StatusReport)
  /-- Checkpoint (R195) -/
  | checkpoint (posted : PostedErrors) (errors : Nat) (first : Option LinkError)
  /-- Set Parameter (R194): the value held before -/
  | oldValue (value : Nat)
  /-- Set Notice Mask (R201): the previous level and the number released -/
  | mask (previous released : Nat)
  /-- Open Frame (R8) -/
  | opened (slot : Fin 4) (rule : Fin 32) (openSeq : Nat)
  /-- Open Frame NO_RULE (R33): the height-fall count and the lowest such index -/
  | heightFalls (count : Nat) (lowest : Option Nat)
  /-- Open Frame PROFILE_EMPTY (R34) -/
  | emptyProfile (rule : Fin 32) (profile : Fin 8)
  /-- STALE_SLOT (R12): the slot's state, `none` for FREE, and open sequence -/
  | stale (phase : Option Phase) (openSeq : Option Nat)
  /-- STALE_SLOT of Abort Frame (R133): the active slot's open sequence -/
  | activeSequence (openSeq : Nat)
  /-- SLOT_STATE (R13 to R15): the slot's state, `none` for FREE -/
  | slotState (phase : Option Phase)
  /-- MISSING_LINES (R13) -/
  | missing (count lowest : Nat)
  /-- Close Frame (R13) -/
  | closed (position rewrites : Nat)
  /-- Requeue Frame (R15) -/
  | position (position : Nat)
  /-- Write Rule (R28), and IN_USE of Load Profile (R46) -/
  | count (count : Nat)
  /-- INVALID_LABEL (R27) -/
  | labelPosition (position : Nat)
  /-- Read Rule (R30) -/
  | rule (index : Nat) (rule : Rule) (count : Nat)
  /-- Load Profile (R47): the index and whether it was loaded before -/
  | loaded (index : Nat) (before : Bool)
  /-- CURVE_ORDER (R46) -/
  | curveOrder (channel : Channel) (knot : Nat)
  /-- Read Profile (R48) -/
  | profile (index : Nat) (profile : Profile)
  /-- Set Roll Trim (R69): the values as stored -/
  | trims (trims : Rgb Int)
  /-- Restore Facets (R90) -/
  | restored (excluded : Nat)
  /-- Set Footage (R149): the previous footage -/
  | footage (previous : Footage)
  /-- Set Fault Response (R158): the response held before -/
  | response (previous : Response)
  /-- a response outside the kind's allowed set (R158) -/
  | allowed (responses : List Response)
  /-- Read Log (R184, R185): records, occupancy, reservation, last sequence number -/
  | log (records : List LogRecord) (occupancy : Nat) (reservation : Option Reservation)
      (lastSeq : Nat)
  /-- CONDITION (R114): whether the interlock is open, and whether film is absent -/
  | conditions (interlockOpen filmAbsent : Bool)
  /-- Advance Film DONE (R151): frames advanced and the footage after them -/
  | advanced (frames : Nat) (footage : Footage)
  /-- Advance Film FAILED (R152): the completed count -/
  | advancedBefore (frames : Nat)
  deriving DecidableEq, Repr

/-- A reply record (R204, Table 12-7): the request's tag and code as received, the outcome and
reason, the engine state at the decision, the field named by BAD_VALUE (its payload offset), the
CLAMPED flag of R69, and the data. -/
structure Reply where
  tag : Nat
  code : Nat
  outcome : ReplyOutcome
  reason : Reason
  engine : Engine
  field : Nat
  clamped : Bool
  data : ReplyData
  deriving DecidableEq, Repr

/-! ### What the part puts out -/

/-- A drive word (A, w) (R63). -/
structure DriveWord where
  amplitude : Nat
  width : Nat
  deriving DecidableEq, Repr

/-- The commands the part gives its mechanisms (00_scope.md, Table 1). -/
inductive MechanismCommand where
  | polygonRun
  | polygonStop
  | stageHome
  | stageStep (line pitch : Nat)
  | stageReturn
  | stageStop
  | wheelMove (channel : Channel) (range : Nat)
  | wheelStop (channel : Channel)
  | clampOpen
  | motorCycle
  | clampClose
  | transportStop
  | shutterOpen
  | shutterClose
  | print (mark : Mark)
  deriving DecidableEq, Repr

/-- What the part puts out, on the link and to its head and mechanisms. -/
inductive Output where
  | flow (symbol : Flow)
  | reply (reply : Reply)
  | notice (notice : Notice)
  | mechanism (command : MechanismCommand)
  /-- the reference pulses of one scan (R98): the amplitude of each channel that fires, over the scan
  positions `first` to `last` with the on-time `onTime`, in pixel periods of `period` -/
  | pulse (amplitudes : Rgb (Option Nat)) (first last onTime period : Nat)
  /-- the reference pulse of each channel named is cut short where it stands (R93; LOG 17) -/
  | pulseCut (channels : Rgb Bool)
  /-- the image portion of one line attempt (R66): pixel x is driven at scan position
  `start` + x, in pixel periods of `period` -/
  | image (line start period : Nat) (words : List (Rgb DriveWord))
  /-- DU stops issuing drive words where the scan stands, and holds every channel at beam-off (R67;
  LOG 17) -/
  | beamOff
  deriving DecidableEq, Repr

/-! ### The machine -/

/-- The state of the EX-40: its blocks (00_scope.md, Table 2), and the model's own three lists:
the replies staged for the end of the present event (LOG 6), what the part has put out, oldest
first (LOG 13), and the commands that are waiting, first in first out. -/
structure State where
  fs : FrameStore
  admission : Admission
  pt : ProfileTable
  du : DoseUnit
  stu : ScanUnit
  pl : PowerLoop
  es : Sequencer
  tc : Transport
  fu : FaultUnit
  rl : RollLog
  nu : NoticeUnit
  lp : LinkPort
  staged : List Reply
  out : List Output
  pending : List Instr
  deriving DecidableEq, Repr

/-! ### Reset values -/

/-- The blank label, eight spaces (R25). -/
def Label.blank : Label := Vector.replicate 8 0x20

/-- An admission rule after power-on (R25). -/
def Rule.blank : Rule := ⟨false, 0, 0, 0, Label.blank, 0⟩

/-- A stock profile after power-on (R39). -/
def Profile.blank : Profile :=
  ⟨false, 0, Rgb.all ⟨false, 0, 0, Vector.replicate 33 0⟩, 0⟩

/-- The default timing parameters (Table 5-4). -/
def TimingParams.default : TimingParams := ⟨160000, 250000, 20, 4400, 128⟩

/-- A facet entry after power-on (Table 5-2). -/
def Facet.reset : Facet := ⟨true, 160000, none, 0, 4096⟩

/-- A laser channel after power-on (Table 6-1). -/
def PowerChannel.reset : PowerChannel := ⟨.off, none, 0, none, .clear, 0, 0, 0, 0, false⟩

/-- The default power-loop parameters (Table 6-2). -/
def PowerParams.default : PowerParams := ⟨Rgb.all 2048, 8, 4, .both, 3, 500⟩

/-- The footage 0000+00 (R148). -/
def Footage.zero : Footage := ⟨0, 0, 0, 0, 0, 0⟩

/-- The default of each kind's response, in the order of Table 9-1 (R157). -/
def defaultResponses : Vector Response 14 :=
  #v[.halt, .halt, .warn, .pause, .abort, .warn, .abort, .halt, .halt, .halt, .halt, .halt,
     .halt, .abort]

/-- FS after power-on (R3). -/
def FrameStore.reset : FrameStore := ⟨Vector.replicate 4 none, 0, [], []⟩

/-- AT after power-on (R25). -/
def Admission.reset : Admission := ⟨Vector.replicate 32 Rule.blank⟩

/-- PT after power-on (R39). -/
def ProfileTable.reset : ProfileTable := ⟨Vector.replicate 8 Profile.blank⟩

/-- DU after power-on (R53). -/
def DoseUnit.reset : DoseUnit :=
  ⟨Rgb.all 0, Rgb.all (Vector.replicate 17 4096), none, none, Rgb.all ⟨0, 0⟩⟩

/-- STU after power-on (R74, Tables 5-1 and 5-2). -/
def ScanUnit.reset : ScanUnit :=
  ⟨.idle, .armed, 7, false, 0, none, none, 0, Vector.replicate 8 Facet.reset,
   TimingParams.default, ⟨0, 0, 0, 0⟩⟩

/-- PL after power-on (R92, Table 6-1), with the interlock taken from the door sensor. -/
def PowerLoop.reset (doorOpen : Bool) : PowerLoop :=
  ⟨doorOpen, Rgb.all PowerChannel.reset, PowerParams.default⟩

/-- ES after power-on (R111, Table 7-1). -/
def Sequencer.reset : Sequencer :=
  ⟨.offline, false, none, ⟨none, none, none, none⟩, none, none, .unhomed, Rgb.all ⟨none, none⟩,
   none, none, none, 4, 2000⟩

/-- TC after power-on (R137, Table 8-1). -/
def Transport.reset : Transport :=
  ⟨.released, none, none, none, 0, none, .closed, none, Footage.zero, true, .idle, none, none,
   0, 0⟩

/-- FU after power-on (R157, R168, R172, R174, R175). -/
def FaultUnit.reset : FaultUnit :=
  ⟨defaultResponses, Vector.replicate 14 0, none, none, none, [], 0⟩

/-- RL after power-on (R176, Table 10-1). -/
def RollLog.reset : RollLog := ⟨[], none, 0, none⟩

/-- NU after power-on (R199). -/
def NoticeUnit.reset : NoticeUnit := ⟨0, Vector.replicate 11 none⟩

/-- LP after power-on (R187, Table 11-1). -/
def LinkPort.reset : LinkPort := ⟨false, [], .go, [], 0, none, ⟨0, none⟩, none⟩

/-- The machine right after power-on reset with the door sensor as given (R3, R92). -/
def State.powerOn (doorOpen : Bool) : State where
  fs := FrameStore.reset
  admission := Admission.reset
  pt := ProfileTable.reset
  du := DoseUnit.reset
  stu := ScanUnit.reset
  pl := PowerLoop.reset doorOpen
  es := Sequencer.reset
  tc := Transport.reset
  fu := FaultUnit.reset
  rl := RollLog.reset
  nu := NoticeUnit.reset
  lp := LinkPort.reset
  staged := []
  out := []
  pending := []

/-- The machine right after reset: power-on with the door closed. R92 reads the interlock from the
door sensor. DESIGN CHOICE 5: the door is closed. -/
def State.reset : State := State.powerOn false

end Sys2Proof.Machine
end

