-- ==== Sys2Proof/Machine/Memory.lean ====
section
/-! DEFINITION. The image memories of the four slots (R2) as one list of (address, byte) cells in
canonical form: addresses strictly rising, and no cell equal to what an unlisted address reads as.

Each slot has 3200 lines of 4096 pixel positions, and each position holds three 10-bit codes. A
position is kept as the four bytes of its pixel word (R203: red in bits 0–9, green in bits 10–19,
blue in bits 20–29, bits 30 and 31 not stored). DESIGN CHOICE 19. -/

namespace Sys2Proof.Machine

/-- The image memories as cells (R2). -/
abbrev Memory := List Host.Cell

/-- The canonical form: addresses strictly rising, no cell holding the unlisted byte. -/
abbrev Memory.wf (m : Memory) : Prop :=
  m.Pairwise (fun c d => c.1 < d.1) ∧ ∀ c ∈ m, c.2 ≠ Config.blankImageByte

/-- The byte at an address. -/
def Memory.read : Memory → Nat → Byte
  | [], _ => Config.blankImageByte
  | (k, v) :: m, a => if k = a then v else Memory.read m a

/-- Store one byte, keeping the canonical form: the unlisted byte is stored by listing nothing. -/
def Memory.write : Memory → Nat → Byte → Memory
  | [], a, b => if b = Config.blankImageByte then [] else [(a, b)]
  | (k, v) :: m, a, b =>
    if a < k then
      if b = Config.blankImageByte then (k, v) :: m else (a, b) :: (k, v) :: m
    else if a = k then
      if b = Config.blankImageByte then m else (a, b) :: m
    else (k, v) :: Memory.write m a b

/-- Store bytes at consecutive addresses. -/
def Memory.writeBytes : Memory → Nat → List Byte → Memory
  | m, _, [] => m
  | m, a, b :: bs => Memory.writeBytes (Memory.write m a b) (a + 1) bs

/-- The address of pixel position x of a line of a slot (R2). -/
def pixelAddress (slot line x : Nat) : Nat :=
  4 * ((slot * Config.maxHeight + line) * Config.maxWidth + x)

/-- Pixel words as stored: bits 30 and 31 of each word are not stored (R203). -/
def storedWords : List Byte → List Byte
  | b0 :: b1 :: b2 :: b3 :: rest => b0 :: b1 :: b2 :: (b3 &&& 0x3F) :: storedWords rest
  | _ => []

/-- Write the pixel words of a line to positions 0..W−1 of the line (R11). -/
def Memory.storeLine (m : Memory) (slot line : Nat) (words : List Byte) : Memory :=
  m.writeBytes (pixelAddress slot line 0) (storedWords words)

/-- The three code values of a pixel position (R2, R203). -/
def Memory.pixel (m : Memory) (slot line x : Nat) : Rgb Nat :=
  let a := pixelAddress slot line x
  let w := (m.read a).toNat + 256 * (m.read (a + 1)).toNat + 65536 * (m.read (a + 2)).toNat +
    16777216 * (m.read (a + 3)).toNat
  ⟨w % 1024, w / 1024 % 1024, w / 1048576 % 1024⟩

end Sys2Proof.Machine
end

