-- ==== Sys2Proof/Machine/Flags.lean ====
section
/-! DEFINITION. What the blocks read of one another as conditions: the wait reason of the engine
state (Table 7-4), the conditions PL gives ES (R107), room in the roll log (R121), the levels of
notices (Table 11-5) and the kinds, channels and responses of faults (chapter 9). -/

namespace Sys2Proof.Machine

/-! ### Power Loop conditions (R107) -/

/-- All three channels are SETTLED (R107). -/
def State.allSettled (s : State) : Bool := s.pl.channels.every (·.laser == .settled)

/-- Every channel is CLEAR (R107). -/
def State.allClear (s : State) : Bool := s.pl.channels.every (·.window == .clear)

/-- The set of TRIPPED channels (R132). -/
def State.trippedSet (s : State) : Rgb Bool := s.pl.channels.map (·.window == .tripped)

/-! ### Roll log and facets -/

/-- Occupancy plus reservations (R182). -/
def RollLog.load (l : RollLog) : Nat := l.records.length + if l.reservation.isSome then 1 else 0

/-- The roll log has room (R121). -/
def State.logHasRoom (s : State) : Bool := s.rl.load < Config.logPlaces

/-- The number of USABLE facets (R87). -/
def State.usableFacets (s : State) : Nat := s.stu.facets.toList.countP (·.usable)

/-! ### Start and PREPARING conditions -/

/-- The wheel targets of a frame: the filter ranges of the profile its exposure record names
(R122). -/
def State.wheelTargets (s : State) (e : ExposureRecord) : Rgb Nat :=
  s.pt.profiles[e.profile].channels.map (·.range)

/-- A wheel at rest at its target (R123). -/
def Wheel.restsAt (w : Wheel) (target : Nat) : Bool :=
  w.position == some target && w.move.isNone

/-- The conditions STARTING still waits for (R114, R115). -/
def State.startWaits (s : State) : List Wait :=
  (if s.stu.speed = .running then [] else [.speed]) ++
  (if s.allSettled then [] else [.settle]) ++
  (if s.es.stage = .settled 0 then [] else [.stage]) ++
  (if s.tc.gate = .clamped then [] else [.gate])

/-- Whether every wheel rests at its target (R123). -/
def State.wheelsReady (s : State) : Bool :=
  match s.es.exposure with
  | none => true
  | some e =>
    let targets := s.wheelTargets e
    s.es.wheels.r.restsAt targets.r && s.es.wheels.g.restsAt targets.g &&
      s.es.wheels.b.restsAt targets.b

/-- The conditions PREPARING still waits for before the shutter is commanded open (R122 to R125).
FILM is met once gate-used is clear: the pull-down's completion clears it (R124). -/
def State.preparingWaits (s : State) : List Wait :=
  (if s.wheelsReady then [] else [.filter]) ++
  (if s.tc.gateUsed then [.film] else []) ++
  (if s.es.stage = .settled 0 then [] else [.stage]) ++
  (if s.allSettled then [] else [.settle]) ++
  (if s.allClear then [] else [.trip])

/-- The stage has a move in flight. -/
def Stage.isMoving : Stage → Bool
  | .moving _ _ => true
  | _ => false

/-- The wait reason: the conditions the present engine state still waits for (Table 7-4, R165,
R166). No wait reason stands in OFFLINE, HALTED and LOCKED (R112). DEDUCED 15: it is read from the
state it speaks of, and not kept beside it. -/
def State.waitReason (s : State) : List Wait :=
  match s.es.engine with
  | .offline => []
  | .starting => s.startWaits
  | .ready =>
    if s.fs.queue.isEmpty then [.empty] else if s.logHasRoom then [] else [.logFull]
  | .preparing =>
    if s.tc.shutter = .opening ∨ s.preparingWaits = [] then [.shutter] else s.preparingWaits
  | .exposing => if s.es.stage.isMoving then [.stage] else []
  | .paused => [.trip]
  | .finishing => [.shutter]
  | .advancing => [.film]
  | .aborting => if s.tc.shutter = .closed then [.print] else [.shutter]
  | .halted => []
  | .stopping => [.polygon]
  | .locked => []

/-! ### Notices -/

/-- The kind of a payload. -/
def NoticePayload.kind : NoticePayload → NoticeKind
  | .frameStarted .. => .frameStarted
  | .queueEmpty => .queueEmpty
  | .frameDone .. => .frameDone
  | .engineState .. => .engineState
  | .logNearlyFull .. => .logNearlyFull
  | .facetChange .. => .facetChange
  | .trimAtLimit .. => .trimAtLimit
  | .frameSpoiled .. => .frameSpoiled
  | .fault .. => .fault
  | .locked .. => .locked
  | .interlock .. => .interlock
  | .hello .. => .hello

/-- The level of a kind (Table 11-5; HELLO has level 7, R196). -/
def NoticeKind.level : NoticeKind → Nat
  | .frameStarted => 1
  | .queueEmpty => 1
  | .frameDone => 2
  | .engineState => 3
  | .logNearlyFull => 3
  | .facetChange => 4
  | .trimAtLimit => 4
  | .frameSpoiled => 5
  | .fault => 6
  | .locked => 7
  | .interlock => 7
  | .hello => 7

/-- The entry of a kind in the pending table, in the order of Table 11-5; HELLO has none (R196). -/
def NoticeKind.entry : NoticeKind → Option (Fin 11)
  | .frameStarted => some 0
  | .queueEmpty => some 1
  | .frameDone => some 2
  | .engineState => some 3
  | .logNearlyFull => some 4
  | .facetChange => some 5
  | .trimAtLimit => some 6
  | .frameSpoiled => some 7
  | .fault => some 8
  | .locked => some 9
  | .interlock => some 10
  | .hello => none

/-- The entries of the pending table in the order in which a lowered mask releases them: higher
level first, and within one level in the order of Table 11-5 (R201). -/
def releaseOrder : List (Fin 11 × Nat) :=
  [(9, 7), (10, 7), (8, 6), (7, 5), (5, 4), (6, 4), (3, 3), (4, 3), (2, 2), (0, 1), (1, 1)]

/-! ### Faults -/

/-- The kind of a fault (Table 9-1). -/
def FaultReport.kind : FaultReport → FaultKind
  | .sosLoss .. => .sosLoss
  | .facetShortage .. => .facetShortage
  | .syncSlip .. => .syncSlip
  | .powerTrip .. => .powerTrip
  | .pauseTimeout .. => .pauseTimeout
  | .trimLimit .. => .trimLimit
  | .stageTimeout .. => .stageTimeout
  | .filterTimeout .. => .filterTimeout
  | .startTimeout .. => .startTimeout
  | .transport .. => .transport
  | .filmEnd .. => .filmEnd
  | .interlock => .interlock
  | .shutter .. => .shutter
  | .operator .. => .operator

/-- The place of a kind in the response table and among the counts (Table 9-1). -/
def FaultKind.index : FaultKind → Fin 14
  | .sosLoss => 0
  | .facetShortage => 1
  | .syncSlip => 2
  | .powerTrip => 3
  | .pauseTimeout => 4
  | .trimLimit => 5
  | .stageTimeout => 6
  | .filterTimeout => 7
  | .startTimeout => 8
  | .transport => 9
  | .filmEnd => 10
  | .interlock => 11
  | .shutter => 12
  | .operator => 13

/-- The allowed responses of a kind (Table 9-1). -/
def FaultKind.allowed : FaultKind → List Response
  | .sosLoss => [.abort, .halt]
  | .facetShortage => [.abort, .halt]
  | .syncSlip => [.warn, .abort]
  | .powerTrip => [.warn, .pause, .abort, .halt]
  | .pauseTimeout => [.abort, .halt]
  | .trimLimit => [.warn, .abort]
  | .stageTimeout => [.abort, .halt]
  | .filterTimeout => [.abort, .halt]
  | .startTimeout => [.halt]
  | .transport => [.halt]
  | .filmEnd => [.halt]
  | .interlock => [.halt]
  | .shutter => [.halt]
  | .operator => [.abort]

/-- The channel field of a fault: the channel its kind names (Table 9-4). -/
def FaultReport.channel : FaultReport → Option Channel
  | .powerTrip tripped _ _ => tripped.firstSet
  | .pauseTimeout tripped => tripped.firstSet
  | .trimLimit channels _ _ => channels.firstSet
  | .filterTimeout c _ => some c
  | _ => none

/-- The facet field of a fault whose own data name one (Table 9-4). -/
def FaultReport.facet : FaultReport → Option (Fin 8)
  | .facetShortage f _ => some f
  | _ => none

/-- The response applied in FINISHING and ADVANCING to a fault assigned ABORT or HALT, by kind
(R164). START_TIMEOUT, OPERATOR and a SHUTTER fault that is no close failure are not raised in
these states; DESIGN CHOICE 11 applies them as NOTICE. -/
def FaultKind.lateApplied : FaultKind → Applied
  | .transport => .halt
  | .filmEnd => .halt
  | .sosLoss => .defer
  | .facetShortage => .defer
  | .stageTimeout => .defer
  | .interlock => .defer
  | .powerTrip => .notice
  | .pauseTimeout => .notice
  | .trimLimit => .notice
  | .syncSlip => .notice
  | .filterTimeout => .notice
  | .startTimeout => .notice
  | .shutter => .notice
  | .operator => .notice

/-- The response applied to a fault that is no close failure, by the assigned response and the
engine state at the take (Table 9-2). -/
def appliedByTable (engine : Engine) (assigned : Response) (kind : FaultKind) : Applied :=
  match engine, assigned with
  | .locked, _ => .record
  | .offline, _ => .notice
  | .stopping, _ => .notice
  | .halted, _ => .notice
  | .starting, .warn => .notice
  | .starting, .pause => .notice
  | .starting, .abort => .halt
  | .starting, .halt => .halt
  | .ready, .warn => .notice
  | .ready, .pause => .notice
  | .ready, .abort => .halt
  | .ready, .halt => .halt
  | .preparing, .warn => .notice
  | .preparing, .pause => .hold
  | .preparing, .abort => .halt
  | .preparing, .halt => .halt
  | .exposing, .warn => .notice
  | .exposing, .pause => .pause
  | .exposing, .abort => .abort
  | .exposing, .halt => .halt
  | .paused, .warn => .notice
  | .paused, .pause => .notice
  | .paused, .abort => .abort
  | .paused, .halt => .halt
  | .finishing, .warn => .notice
  | .finishing, .pause => .notice
  | .finishing, .abort => kind.lateApplied
  | .finishing, .halt => kind.lateApplied
  | .advancing, .warn => .notice
  | .advancing, .pause => .notice
  | .advancing, .abort => kind.lateApplied
  | .advancing, .halt => kind.lateApplied
  | .aborting, .warn => .notice
  | .aborting, .pause => .notice
  | .aborting, .abort => .lock
  | .aborting, .halt => .lock

/-- The response applied to a fault (R159, Table 9-2): a SHUTTER fault with direction CLOSE is
applied as LOCK in every state except LOCKED (R170). -/
def responseApplied (engine : Engine) (assigned : Response) (report : FaultReport) : Applied :=
  match report with
  | .shutter .closing => if engine = .locked then .record else .lock
  | _ => appliedByTable engine assigned report.kind

/-- The response assigned to a kind (R157). -/
def State.assigned (s : State) (k : FaultKind) : Response := s.fu.responses[k.index]

/-- Whether a fault must be taken after another that waits with it: a sample raises POWER_TRIP before TRIM_LIMIT
(R105), an expiry of the SOS watch raises FACET_SHORTAGE before SOS_LOSS (R81), and OPERATOR is taken on the event
of its request (R133) and not in ABORTING (R169). Any other two are taken in either order (R159). LOG 3. -/
def FaultKind.follows : FaultKind → FaultKind → Bool
  | .operator, .operator => false
  | _, .operator => true
  | .trimLimit, .powerTrip => true
  | .sosLoss, .facetShortage => true
  | _, _ => false

/-- The kinds a sample raises (R101, R105). Their faults are taken before scan position 40 (R99), and so before
any later scan event and the next sample, and the image portion of the scan waits for them (R66). LOG 3. -/
def FaultKind.ofSample : FaultKind → Bool
  | .powerTrip => true
  | .trimLimit => true
  | _ => false

/-- The kinds taken before a report that may meet the last condition of STARTING (R115). LOG 3. -/
def FaultKind.beforeStart : FaultKind → Bool
  | .startTimeout => true
  | _ => false

/-- The kinds taken before an SOS, which may be the last condition of STARTING (R99, R115). LOG 3. -/
def FaultKind.beforeSos (k : FaultKind) : Bool := k.ofSample || k.beforeStart

/-- The kinds taken before a sample: those of the last one (R99), and PAUSE_TIMEOUT, since a clear after it finds
ABORTING (R132). LOG 3. -/
def FaultKind.beforeSample : FaultKind → Bool
  | .pauseTimeout => true
  | k => k.ofSample

/-- The kinds taken before the expiry of a wheel's timer: once one wheel has timed out, the others raise no second
FILTER_TIMEOUT (R123). LOG 3. -/
def FaultKind.beforeWheel : FaultKind → Bool
  | .filterTimeout => true
  | _ => false

/-- The kinds whose rule takes the fault on the event that raises it: FACET_SHORTAGE (R87),
OPERATOR (R133), SHUTTER (R145, R146), TRANSPORT and FILM_END (R135, R152). LOG 3. -/
def FaultKind.takenAtOnce : FaultKind → Bool
  | .facetShortage => true
  | .operator => true
  | .shutter => true
  | .transport => true
  | .filmEnd => true
  | _ => false

end Sys2Proof.Machine
end

