-- ==== Sys2Proof/Machine/Ops.lean ====
section
/-! DEFINITION. The operations the commands share: what the part puts out (notices, replies, flow
symbols, mechanism commands), the passage of time, the slots and the Exposure Queue, the profile
reference counts, the roll log, and the raising of a fault. -/

namespace Sys2Proof.Machine

/-! ### Output -/

/-- Put something out. -/
def State.emit (s : State) (o : Output) : State := { s with out := s.out ++ [o] }

/-- Give a mechanism a command. -/
def State.command (s : State) (c : MechanismCommand) : State := s.emit (.mechanism c)

/-- Send a notice record; while the link is DOWN it is discarded (R188). -/
def State.sendNotice (s : State) (n : Notice) : State :=
  if s.lp.up then s.emit (.notice n) else s

/-- Send a flow symbol, which becomes the flow state (R189). -/
def State.sendFlow (s : State) (f : Flow) : State :=
  { s with lp := { s.lp with flow := f } }.emit (.flow f)

/-- A pending entry after one more notice of its kind (R200). -/
def heldNotice (old : Option Notice) (p : NoticePayload) : Notice :=
  match old with
  | none => ⟨1, p⟩
  | some n => ⟨saturate 65535 (n.count + 1), p⟩

/-- Hold a notice in its kind's pending entry (R200). A held TRIM_AT_LIMIT raises its count by 1 too, however many
channels of the sample reached their limit (R105, R110): DESIGN CHOICE 29. -/
def State.holdNotice (s : State) (p : NoticePayload) : State :=
  match p.kind.entry with
  | none => s
  | some i =>
    { s with nu := { s.nu with pending := s.nu.pending.set i (some (heldNotice s.nu.pending[i] p)) } }

/-- NU decides a notice on the event it is given, by its level (R199). -/
def State.notice (s : State) (p : NoticePayload) : State :=
  if p.kind.level = 7 ∨ s.nu.mask < p.kind.level then s.sendNotice ⟨1, p⟩ else s.holdNotice p

/-- Send and clear one pending entry if its kind's level is above the mask (R201). -/
def State.releaseEntry (s : State) (i : Fin 11) (level : Nat) : State :=
  if s.nu.mask < level then
    match s.nu.pending[i] with
    | none => s
    | some n => { s with nu := { s.nu with pending := s.nu.pending.set i none } }.sendNotice n
  else s

/-- The number of pending entries whose level is above a mask level (R201). -/
def NoticeUnit.countAbove (n : NoticeUnit) (m : Nat) : Nat :=
  releaseOrder.countP (fun e => m < e.2 && n.pending[e.1].isSome)

/-- Set the mask level; a lower one releases the entries now above it (R201). -/
def State.setMask (s : State) (m : Nat) : State :=
  let lowered := m < s.nu.mask
  let t := { s with nu := { s.nu with mask := m } }
  if lowered then releaseOrder.foldl (fun t e => t.releaseEntry e.1 e.2) t else t

/-! ### Replies -/

/-- Stage a reply: it is sent at the end of the event, after the event's notices (R193; LOG 6).
The part sends no record while the link is DOWN (R188). -/
def State.stage (s : State) (r : Reply) : State :=
  if s.lp.up then { s with staged := s.staged ++ [r] } else s

/-- Send the staged replies (R193). -/
def State.flush (s : State) : State :=
  { s with out := s.out ++ s.staged.map .reply, staged := [] }

/-! ### Time (LOG 1) -/

/-- A timer after `n` ticks. -/
def Timer.elapse (n : Nat) (t : Timer) : Timer := t.map (· - n)

/-- A measurement after `n` ticks (Table 5-1: the tick count since its SOS). -/
def Measurement.elapse (n : Nat) : Measurement → Measurement
  | .armed => .armed
  | .timing f t slipped p => .timing f (t + n) slipped p

/-- The stage's timer after `n` ticks. -/
def Stage.elapse (n : Nat) : Stage → Stage
  | .moving l t => .moving l (Timer.elapse n t)
  | x => x

/-- A wheel's timer after `n` ticks. -/
def Wheel.elapse (n : Nat) (w : Wheel) : Wheel :=
  { w with move := w.move.map (fun m => (m.1, m.2 - n)) }

/-- The print time left after `n` ticks. -/
def Head.elapse (n : Nat) : Head → Head
  | .idle => .idle
  | .printing m left => .printing m (left - n)

/-- A channel's settle timer after `n` ticks. -/
def PowerChannel.elapse (n : Nat) (c : PowerChannel) : PowerChannel :=
  { c with settle := Timer.elapse n c.settle }

/-- `n` ticks of the scan reference pass: the tick counts rise and the running timers run down.
A timer expires by its own command, and not here. DESIGN CHOICE 1. -/
def State.elapse (s : State) (n : Nat) : State :=
  { s with
    stu := { s.stu with
      measurement := s.stu.measurement.elapse n
      sinceSos := s.stu.sinceSos.map (· + n)
      watch := Timer.elapse n s.stu.watch }
    pl := { s.pl with channels := s.pl.channels.map (PowerChannel.elapse n) }
    es := { s.es with
      stage := s.es.stage.elapse n
      wheels := s.es.wheels.map (Wheel.elapse n)
      startTimer := Timer.elapse n s.es.startTimer
      stopTimer := Timer.elapse n s.es.stopTimer
      pauseTimer := Timer.elapse n s.es.pauseTimer }
    tc := { s.tc with
      opTimer := Timer.elapse n s.tc.opTimer
      settleTimer := Timer.elapse n s.tc.settleTimer
      shutterTimer := Timer.elapse n s.tc.shutterTimer
      head := s.tc.head.elapse n } }

/-! ### Slots, queue and reference counts -/

/-- The record of a slot, `none` for FREE (R1). -/
def State.slot (s : State) (i : Fin 4) : Option SlotRecord := s.fs.slots[i]

/-- Replace a slot's record. -/
def State.setSlot (s : State) (i : Fin 4) (r : Option SlotRecord) : State :=
  { s with fs := { s.fs with slots := s.fs.slots.set i r } }

/-- Set a slot's state, keeping every other field (R1). -/
def State.setPhase (s : State) (i : Fin 4) (p : Phase) : State :=
  match s.slot i with
  | none => s
  | some r => s.setSlot i (some { r with phase := p })

/-- Change a profile's reference count (R49). -/
def State.setRefs (s : State) (p : Fin 8) (f : Nat → Nat) : State :=
  let q := s.pt.profiles[p]
  { s with pt := { s.pt with profiles := s.pt.profiles.set p { q with refs := f q.refs } } }

/-- A slot becomes FREE: its fields become absent and its profile's count falls by 1 (R14, R20,
R49). -/
def State.freeSlot (s : State) (i : Fin 4) : State :=
  match s.slot i with
  | none => s
  | some r => (s.setSlot i none).setRefs r.profile (· - 1)

/-- Replace the Exposure Queue. -/
def State.setQueue (s : State) (q : List (Fin 4)) : State := { s with fs := { s.fs with queue := q } }

/-- A slot becomes QUEUED at the tail (R13, R17). -/
def State.joinTail (s : State) (i : Fin 4) : State :=
  (s.setPhase i .queued).setQueue (s.fs.queue ++ [i])

/-- A slot becomes QUEUED at the head (R15, R17, R22). -/
def State.joinHead (s : State) (i : Fin 4) : State :=
  (s.setPhase i .queued).setQueue (i :: s.fs.queue)

/-- The number of non-FREE slots whose rule index is `i` (R28, R30). -/
def State.admittedUnder (s : State) (i : Fin 32) : Nat :=
  s.fs.slots.toList.countP (fun r => match r with | none => false | some r => r.rule == i)

/-! ### Roll log -/

/-- The number after a sequence number: 4294967295 is followed by 1 (R4, R178). -/
def nextNumber (n : Nat) : Nat := if 4294967295 ≤ n then 1 else n + 1

/-- Grant a reservation (R180). -/
def State.reserve (s : State) (r : Reservation) : State :=
  { s with rl := { s.rl with reservation := some r } }

/-- Release the reservation with no record and no number (R181). -/
def State.release (s : State) : State := { s with rl := { s.rl with reservation := none } }

/-- Append a record, which takes the next number and consumes the reservation (R178, R181). -/
def RollLog.append (l : RollLog) (footage : Footage) (body : LogBody) : RollLog :=
  { l with
    records := l.records ++ [⟨nextNumber l.lastSeq, footage, body⟩]
    reservation := none
    lastSeq := nextNumber l.lastSeq }

/-- Announce a log that an append left at 56 records or more (R183). -/
def State.announceLog (s : State) : State :=
  if Config.logNearlyFull ≤ s.rl.records.length then
    s.notice (.logNearlyFull s.rl.records.length s.rl.reservation.isSome)
  else s

/-- Append a record and announce a nearly full log (R178, R181, R183). The notice is sent at the append, ahead of any
that the event sends after it: DESIGN CHOICE 6, since R183 gives it no place among them. -/
def State.append (s : State) (footage : Footage) (body : LogBody) : State :=
  { s with rl := s.rl.append footage body }.announceLog

/-- The frame fields of a record, from the slot record, the exposure record and the profile the
slot names (R177, R44). -/
def State.frameEntry (s : State) (e : ExposureRecord) (r : SlotRecord) : FrameEntry where
  key := r.key
  slot := e.slot
  rule := r.rule
  profile := r.profile
  stock := s.pt.profiles[r.profile].stock
  label := r.label
  exposed := e.exposed
  defects := e.defects
  pauses := e.pauses
  trims := e.trims
  clips := e.clips

/-! ### Faults -/

/-- A block raises a fault to the Fault Unit (R159). -/
def State.raise (s : State) (f : FaultReport) : State :=
  { s with fu := { s.fu with raised := s.fu.raised ++ [f] } }

/-! ### Footage -/

/-- The feet of a footage as a number. -/
def Footage.feet (f : Footage) : Nat :=
  1000 * f.thousands.val + 100 * f.hundreds.val + 10 * f.tens.val + f.ones.val

/-- The frames of a footage as a number. -/
def Footage.frames (f : Footage) : Nat := 10 * f.frameTens.val + f.frameOnes.val

/-- The decimal digit of a number below ten. -/
def digit (n : Nat) : Digit := ⟨n % 10, Nat.mod_lt n (by decide)⟩

/-- The footage of feet below 10000 and frames below 100, digit by digit. -/
def Footage.ofNumbers (feet frames : Nat) : Footage :=
  ⟨digit (feet / 1000), digit (feet / 100), digit (feet / 10), digit feet,
   digit (frames / 10), digit frames⟩

/-- One decimal digit up, with the carry out of it when it passes 9 (R148). -/
def Digit.up (carry : Bool) (d : Digit) : Digit × Bool :=
  if carry then if d.val = 9 then (0, true) else (digit (d.val + 1), false) else (d, false)

/-- Feet up by one, digit by digit; a carry out of the highest digit is lost (R148). -/
def Footage.upFoot (f : Footage) : Footage :=
  let ones := Digit.up true f.ones
  let tens := Digit.up ones.2 f.tens
  let hundreds := Digit.up tens.2 f.hundreds
  let thousands := Digit.up hundreds.2 f.thousands
  { f with ones := ones.1, tens := tens.1, hundreds := hundreds.1, thousands := thousands.1 }

/-- One frame on: the frames rise by 1, and at 16 they become 00 and the feet rise by 1 (R148). -/
def Footage.advance (f : Footage) : Footage :=
  if f.frames + 1 = 16 then { f with frameTens := 0, frameOnes := 0 }.upFoot
  else { f with frameTens := digit ((f.frames + 1) / 10), frameOnes := digit (f.frames + 1) }

end Sys2Proof.Machine
end

