-- ==== Sys2Proof/Machine/Dose.lean ====
section
/-! DEFINITION. The Dose Unit (chapter 4): its latches and the five stages from code value to drive
word, with the clip counts, for one pixel and for the image portion of one line attempt. -/

namespace Sys2Proof.Machine

/-! ### The five stages -/

/-- The entry of a table of naturals at an index. -/
def knot {n : Nat} (v : Vector Nat n) (i : Nat) : Nat := v[i]?.getD 0

/-- Stage 1 (R57): the log exposure of a code value, by interpolation between two knots. -/
def stage1 (curve : Curve) (v : Nat) : Int :=
  let k := v / 32
  let f := v % 32
  (knot curve k : Int) + (((knot curve (k + 1) : Int) - knot curve k) * f + 16) / 32

/-- A value held within two bounds. -/
def clampInt (lo hi x : Int) : Int := if x < lo then lo else if hi < x then hi else x

/-- Stage 2 (R58): the roll trim, 25 md a point, clamped to 0–3000. -/
def stage2 (q trim : Int) : Nat := (clampInt 0 3000 (q + 25 * trim)).toNat

/-- The thousandth power. -/
def thousandth (x : Nat) : Nat := ((x ^ 10) ^ 10) ^ 10

/-- A power of ten, in parts the kernel evaluates at once. -/
def powerOfTen (d : Nat) : Nat := (10 ^ 100) ^ (d / 100) * 10 ^ (d % 100)

/-- Whether n − 1/2 is at most 65535 × 10^((q − 3000)/1000): both sides doubled and raised to the
thousandth power, which makes them naturals. -/
def notAbove (q n : Nat) : Bool :=
  thousandth (2 * n - 1) * powerOfTen (3000 - q) ≤ thousandth 131070

/-- Stage 3 (R59): the nearest natural to 65535 × 10^((q − 3000)/1000), halves rounded up, which
is the greatest n with n − 1/2 at most that value. The value is below 131072, so the search fixes
n's 17 bits from the highest down. -/
def exponential (q : Nat) : Nat :=
  [16, 15, 14, 13, 12, 11, 10, 9, 8, 7, 6, 5, 4, 3, 2, 1, 0].foldl
    (fun n b => if notAbove q (n + 2 ^ b) then n + 2 ^ b else n) 0

/-- Stage 4, shading (R60): the shading factor of a pixel position, with the floor toward minus
infinity. -/
def shadingAt (knots : Shading) (x : Nat) : Nat :=
  let j := x / 256
  let h := x % 256
  ((knot knots j : Int) +
    (((knot knots (j + 1) : Int) - knot knots j) * h + 128) / 256).toNat

/-- The denominator of stage 4, 65535 × 4096 × 4096 × 50 (R61). -/
def doseDenominator : Nat := 65535 * 4096 * 4096 * 50

/-- Stage 4 (R61): the corrected dose, with one rounding on the final quotient. -/
def stage4 (e scale shade gain : Nat) (trim : Int) : Nat :=
  rhu (e * scale * shade * gain * (50 + trim).toNat) doseDenominator

/-- Beam-off, A = 0 and w = 0. -/
def DriveWord.off : DriveWord := ⟨0, 0⟩

/-- The drive word of a pixel and whether it counts as clip-high or clip-low. -/
structure Dose where
  word : DriveWord
  high : Bool
  low : Bool
  deriving DecidableEq, Repr

/-- Stage 5 (R63, Table 4-3): amplitude and width, and whether clip-low rises. -/
def stage5 (u : Nat) : DriveWord × Bool :=
  if u = 0 then (DriveWord.off, false)
  else if u < 128 then (DriveWord.off, true)
  else if u < 256 then (⟨256, 1⟩, true)
  else if u < 16384 then (⟨(u + u / 256 / 2) / (u / 256), u / 256⟩, false)
  else (⟨(u + 32) / 64, 64⟩, false)

/-- The clamp of stage 4 with its clip-high, then stage 5 (R62, R63). -/
def finishDose (u : Nat) : Dose :=
  let top := Config.fullDose < u
  let v := stage5 (if top then Config.fullDose else u)
  ⟨v.1, top, v.2⟩

/-- The dose of one pixel on one channel: stages 1 to 5 from the code value and the latches (R57 to
R63, R73). A disabled channel is beam-off with no count (R65). -/
def channelDose (c : LatchedChannel) (gain : Nat) (trim : Int) (x v : Nat) : Dose :=
  if c.enabled then
    finishDose
      (stage4 (exponential (stage2 (stage1 c.curve v) c.trim)) c.scale (shadingAt c.shading x)
        gain trim)
  else ⟨DriveWord.off, false, false⟩

/-- The doses of one pixel on the three channels. -/
def pixelDose (f : Rgb LatchedChannel) (l : LineLatch) (x : Nat) (v : Rgb Nat) : Rgb Dose :=
  ⟨channelDose f.r l.gain l.trims.r x v.r, channelDose f.g l.gain l.trims.g x v.g,
   channelDose f.b l.gain l.trims.b x v.b⟩

/-- The doses of a line, pixel by pixel (R66, R73). -/
def lineDoses (m : Memory) (f : Rgb LatchedChannel) (l : LineLatch) (slot line width : Nat) :
    List (Rgb Dose) :=
  (List.range width).map (fun x => pixelDose f l x (m.pixel slot line x))

/-- One more pixel in a pair of clip counts (R62, R63, R68). -/
def Clips.count (c : Clips) (d : Dose) : Clips :=
  ⟨c.high + (if d.high then 1 else 0), c.low + (if d.low then 1 else 0)⟩

/-- The line clip counts of a line, from 0 (R68). -/
def lineClips (ds : List (Rgb Dose)) : Rgb Clips :=
  ds.foldl (fun c d => Rgb.zip Clips.count c d) (Rgb.all ⟨0, 0⟩)

/-- Frame clip counts after a counted line, saturating at 2^32 − 1 (R68). -/
def Clips.add (c d : Clips) : Clips :=
  ⟨saturate 4294967295 (c.high + d.high), saturate 4294967295 (c.low + d.low)⟩

/-! ### The latches -/

/-- The frame latch of a profile under the standing roll trims and shading knots (R54). -/
def latchFrame (p : Rgb ProfileChannel) (trims : Rgb Int) (shading : Rgb Shading) :
    Rgb LatchedChannel :=
  ⟨⟨p.r.enabled, p.r.curve, p.r.scale, trims.r, shading.r⟩,
   ⟨p.g.enabled, p.g.curve, p.g.scale, trims.g, shading.g⟩,
   ⟨p.b.enabled, p.b.curve, p.b.scale, trims.b, shading.b⟩⟩

/-- Fill the frame latch from the profile the active slot names (R54). -/
def State.fillFrameLatch (s : State) (p : Fin 8) : State :=
  { s with du := { s.du with
      frameLatch := some (latchFrame s.pt.profiles[p].channels s.du.rollTrims s.du.shading) } }

/-- Fill the line latch for a scan's facet, and set the line clip counts to 0 (R56, R68). -/
def State.fillLineLatch (s : State) (f : Fin 8) : State :=
  { s with du := { s.du with
      lineLatch := some ⟨f, s.stu.facets[f].gain, s.pl.channels.map (·.trim)⟩
      lineClips := Rgb.all ⟨0, 0⟩ } }

/-- End a line attempt: the line latch is emptied and the line clip counts are discarded or have
been added (R56, R68). -/
def State.emptyLineLatch (s : State) : State :=
  { s with du := { s.du with lineLatch := none, lineClips := Rgb.all ⟨0, 0⟩ } }

/-- Empty both latches: the active slot leaves ACTIVE, or the engine is reset (R53, R55). -/
def State.emptyLatches (s : State) : State :=
  { s with du := { s.du with
      frameLatch := none, lineLatch := none, lineClips := Rgb.all ⟨0, 0⟩ } }

/-! ### Driving a line -/

/-- What the Dose Unit drives a line attempt from: the exposure record and the slot it is of, both
latches, and the pixel period of the scan being timed. -/
def State.attempt (s : State) :
    Option (ExposureRecord × SlotRecord × Rgb LatchedChannel × LineLatch) :=
  match s.es.exposure, s.du.frameLatch, s.du.lineLatch with
  | some e, some f, some l =>
    match s.slot e.slot with
    | some r => some (e, r, f, l)
    | none => none
  | _, _, _ => none

/-- The pixel period of the scan being timed (R84). -/
def State.scanPeriod (s : State) : Nat :=
  match s.stu.measurement with
  | .armed => 0
  | .timing _ _ _ p => p

/-- The line attempt in progress: the engine is EXPOSING with a line in progress (R66). -/
def State.attemptInProgress (s : State) :
    Option (ExposureRecord × SlotRecord × Rgb LatchedChannel × LineLatch) :=
  if s.es.engine = .exposing ∧ s.es.lineInProgress.isSome then s.attempt else none

/-- Whether the line attempt in progress lies within the image memory (R2). -/
def State.attemptInRange (s : State) : Bool :=
  match s.attemptInProgress with
  | none => true
  | some (e, r, _, _) => r.width ≤ Config.maxWidth && e.line < Config.maxHeight

/-- Whether a fault of a sample waits to be taken. -/
def State.sampleFaultWaits (s : State) : Bool := s.fu.raised.any (·.kind.ofSample)

/-- The line attempt, if any, whose image portion is driven once the sample of its SOS is done: every fault of the
sample has been taken, which comes before the image portion (R99), and the engine is still EXPOSING with the line in
progress (R66). A fault of another block may be taken later (LOG 3), and then cuts the portion. An attempt
outside the image memory is not driven: its sample has stopped the model (LOG 19). -/
def State.drivenAttempt (s : State) :
    Option (ExposureRecord × SlotRecord × Rgb LatchedChannel × LineLatch) :=
  if s.sampleFaultWaits = false ∧ s.attemptInRange then s.attemptInProgress else none

/-- Drive the image portion of a line attempt, and count its clipped pixels (R66, R68). The whole portion is put out
and counted here, and a scan end that comes before it is over adds the whole count: DESIGN CHOICE 32. -/
def State.driveLine (s : State) : State :=
  match s.drivenAttempt with
  | none => s
  | some (e, r, f, l) =>
    let ds := lineDoses s.fs.image f l e.slot e.line r.width
    { s with du := { s.du with lineClips := lineClips ds } }.emit
      (.image e.line s.stu.params.l0 s.scanPeriod (ds.map (Rgb.map Dose.word)))

end Sys2Proof.Machine
end

