-- ==== Sys2Proof/Machine/Power.lean ====
section
/-! DEFINITION. The Power Loop (chapter 6): enabling and disabling, the reference pulse, the window
and the servo of one channel. -/

namespace Sys2Proof.Machine

/-! ### Enabling and disabling (R93) -/

/-- A channel goes OFF: its timer stops, its window becomes CLEAR, its runs, accumulator and sample
count become 0 and its pulse is cut short; its trim and last reading are kept (R93). -/
def PowerChannel.turnOff (c : PowerChannel) : PowerChannel :=
  match c.laser with
  | .off => c
  | _ => ⟨.off, none, c.trim, c.reading, .clear, 0, 0, 0, 0, false⟩

/-- A channel that is OFF goes to SETTLING for the settle time (R93). -/
def PowerChannel.enable (settleMs : Nat) (c : PowerChannel) : PowerChannel :=
  match c.laser with
  | .off => { c with laser := .settling, settle := some (Config.ms settleMs) }
  | _ => c

/-- Replace the three channels. -/
def State.setChannels (s : State) (c : Rgb PowerChannel) : State :=
  { s with pl := { s.pl with channels := c } }

/-- Whether a disable cuts a reference pulse of a channel short: the channel has fired, its sample has
not completed, and it goes OFF (R93, R99). -/
def PowerChannel.cut (c : PowerChannel) : Bool := c.firing && c.laser != .off

/-- The disable command: every channel goes OFF, and the reference pulses being fired are cut short
(R93). -/
def State.laserDisable (s : State) : State :=
  let t := s.setChannels (s.pl.channels.map PowerChannel.turnOff)
  if s.pl.channels.any PowerChannel.cut then t.emit (.pulseCut (s.pl.channels.map PowerChannel.cut))
  else t

/-- The enable command, which PL does not carry out while the interlock is OPEN (R93, R97). -/
def State.laserEnable (s : State) : State :=
  if s.pl.interlockOpen then s
  else s.setChannels (s.pl.channels.map (PowerChannel.enable s.pl.params.settleMs))

/-! ### The reference pulse (R98) -/

/-- The amplitude of a reference pulse, rhu(2048 × (50 + t) / 50) (R98). -/
def referenceAmplitude (trim : Int) : Nat := rhu (2048 * (50 + trim).toNat) 50

/-- A SETTLED channel fires on a trigger (R98). A second trigger before the sample of the first has
completed, on which R99 is silent, begins the pulse anew, and the two give one sample: DESIGN CHOICE
25. -/
def PowerChannel.fire (c : PowerChannel) : PowerChannel := { c with firing := c.laser == .settled }

/-- The amplitude a channel fires at, if it is SETTLED (R98). -/
def PowerChannel.pulse (c : PowerChannel) : Option Nat :=
  if c.laser = .settled then some (referenceAmplitude c.trim) else none

/-- STU triggers PL: every SETTLED channel fires one reference pulse, over scan positions 8 to 39 with
the full on-time (R98). The pulse stands whole in the output list, and a disable that cuts it short
puts out `pulseCut` after it: DESIGN CHOICE 17. -/
def State.trigger (s : State) (period : Nat) : State :=
  let t := s.setChannels (s.pl.channels.map PowerChannel.fire)
  if s.pl.channels.any (·.laser == .settled) then
    t.emit (.pulse (s.pl.channels.map PowerChannel.pulse) Config.pulseFirst Config.pulseLast
      Config.pulseOnTime period)
  else t

/-! ### The window (R100 to R102) -/

/-- The lower limit of a window (R100). -/
def windowLower (target steps : Nat) : Nat := target * (32 - steps) / 32

/-- The upper limit of a window (R100). -/
def windowUpper (target steps : Nat) : Nat := min 4095 (target * (32 + steps) / 32)

/-- The limit a reading crosses, if it is out (R100). -/
def crossed (p : PowerParams) (target r : Nat) : Option Limit :=
  if p.direction ≠ .high ∧ r < windowLower target p.steps then some .lower
  else if p.direction ≠ .low ∧ windowUpper target p.steps < r then some .upper
  else none

/-- What one sample did to a channel. -/
structure ChannelSample where
  channel : PowerChannel
  /-- the limit crossed by a reading that tripped the window -/
  trip : Option Limit
  cleared : Bool
  atLimit : Bool
  /-- the direction, up or not, of a refused servo step -/
  refused : Option Bool
  deriving DecidableEq, Repr

/-- Judge a reading against the window (R101, R102). -/
def PowerChannel.judge (c : PowerChannel) (p : PowerParams) (target r : Nat) : ChannelSample :=
  match crossed p target r with
  | some limit =>
    let out := min p.persistence (c.outRun + 1)
    let d := { c with outRun := out, inRun := 0 }
    if c.window = .clear ∧ p.persistence ≤ out then
      ⟨{ d with window := .tripped }, some limit, false, false, none⟩
    else ⟨d, none, false, false, none⟩
  | none =>
    let run := min p.persistence (c.inRun + 1)
    let d := { c with inRun := run, outRun := 0 }
    if c.window = .tripped ∧ p.persistence ≤ run then
      ⟨{ d with window := .clear }, none, true, false, none⟩
    else ⟨d, none, false, false, none⟩

/-! ### The servo (R103 to R105) -/

/-- The step a block mean calls for (R104). -/
def servoStep (deadband : Nat) (mean : Int) : Int :=
  if (deadband : Int) < mean then -1 else if mean < -(deadband : Int) then 1 else 0

/-- The end of a servo block: the mean is truncated toward zero, a step within −31..+31 is made, one
outside it is refused, and the block is cleared (R104, R105). -/
def ChannelSample.endBlock (x : ChannelSample) (deadband : Nat) (total : Int) : ChannelSample :=
  let step := servoStep deadband (total.tdiv Config.servoBlock)
  let trim := x.channel.trim + step
  let fresh := { x.channel with accumulator := 0, samples := 0 }
  if step = 0 then { x with channel := fresh }
  else if -Config.trimLimit ≤ trim ∧ trim ≤ Config.trimLimit then
    { x with
      channel := { fresh with trim := trim }
      atLimit := trim = Config.trimLimit ∨ trim = -Config.trimLimit }
  else { x with channel := fresh, refused := some (0 < step) }

/-- Advance the servo by one reading (R103, R104). -/
def ChannelSample.servo (x : ChannelSample) (deadband target r : Nat) : ChannelSample :=
  let total := x.channel.accumulator + ((r : Int) - target)
  if Config.servoBlock ≤ x.channel.samples + 1 then x.endBlock deadband total
  else { x with
    channel := { x.channel with accumulator := total, samples := x.channel.samples + 1 } }

/-- One channel's part of a sample: a channel that fired and is still SETTLED takes its reading, is
judged and advances its servo, in that order (R99). -/
def PowerChannel.sample (c : PowerChannel) (p : PowerParams) (target r : Nat) : ChannelSample :=
  if c.firing ∧ c.laser = .settled then
    ({ c with reading := some r, firing := false }.judge p target r).servo p.deadband target r
  else ⟨{ c with firing := false }, none, false, false, none⟩

/-- The three channels' parts of a sample (R99). -/
def PowerLoop.sample (l : PowerLoop) (r : Rgb Nat) : Rgb ChannelSample :=
  ⟨l.channels.r.sample l.params l.params.targets.r r.r,
   l.channels.g.sample l.params l.params.targets.g r.g,
   l.channels.b.sample l.params l.params.targets.b r.b⟩

/-! ### The reports of a sample (R101, R105) -/

/-- The one POWER_TRIP of a sample that trips a channel: the set that tripped, with the reading and
the limit of the first in the order red, green, blue (R101). -/
def tripReport (x : Rgb ChannelSample) (r : Rgb Nat) : Option FaultReport :=
  let tripped := x.map (·.trip.isSome)
  match tripped.firstSet with
  | none => none
  | some c =>
    match (x.get c).trip with
    | none => none
    | some limit => some (.powerTrip tripped (r.get c) limit)

/-- The one TRIM_LIMIT of a sample that refuses a step: the set of channels, with the trim and the
step of the first (R105). -/
def trimReport (x : Rgb ChannelSample) : Option FaultReport :=
  let refused := x.map (·.refused.isSome)
  match refused.firstSet with
  | none => none
  | some c =>
    match (x.get c).refused with
    | none => none
    | some up => some (.trimLimit refused (x.get c).channel.trim up)

/-- Raise a fault, if there is one. -/
def State.raise? (s : State) (f : Option FaultReport) : State :=
  match f with
  | none => s
  | some f => s.raise f

/-- The one TRIM_AT_LIMIT notice of a sample: every channel that reached its limit, with its trim
(R105). -/
def State.noticeAtLimit (s : State) (x : Rgb ChannelSample) : State :=
  if x.any (·.atLimit) then
    s.notice (.trimAtLimit (x.map (fun y => if y.atLimit then some y.channel.trim else none)))
  else s

end Sys2Proof.Machine
end

