-- ==== Sys2Proof/Machine/Scan.lean ====
section
/-! DEFINITION. The Scan Timing Unit's operations (chapter 5): the polygon commands, the speed lock,
the pixel period, the filtered interval and the judgement of a facet. -/

namespace Sys2Proof.Machine

/-- Replace STU's state. -/
def State.setStu (s : State) (u : ScanUnit) : State := { s with stu := u }

/-! ### The polygon commands (R75) -/

/-- A facet entry at an entry to ACQUIRING: USABLE, its filtered interval at Tn, no measurement, run
0, its gain kept (R75). -/
def Facet.refresh (tn : Nat) (f : Facet) : Facet := ⟨true, tn, none, 0, f.gain⟩

/-- STU enters ACQUIRING and resets the scan state (R75). -/
def ScanUnit.acquire (u : ScanUnit) : ScanUnit :=
  { u with
    speed := .acquiring
    measurement := .armed
    counter := 7
    aligned := false
    lockRun := 0
    sinceSos := none
    watch := none
    missedRun := 0
    facets := mapTable (Facet.refresh u.params.tn) u.facets
    stats := ⟨0, 0, 0, 0⟩ }

/-- ES commands the polygon to run: STU goes to ACQUIRING from IDLE (R75). -/
def State.polygonRun (s : State) : State :=
  (if s.stu.speed = .idle then s.setStu s.stu.acquire else s).command .polygonRun

/-- STU goes to IDLE from ACQUIRING or RUNNING: the measurement is abandoned and the SOS watch is
stopped (R75). -/
def ScanUnit.rest (u : ScanUnit) : ScanUnit :=
  if u.speed = .idle then u else { u with speed := .idle, measurement := .armed, watch := none }

/-- ES commands the polygon to stop (R75). -/
def State.polygonStop (s : State) : State := (s.setStu s.stu.rest).command .polygonStop

/-! ### Measures -/

/-- Whether an interval is within tolerance of its nominal value (R77, R83). -/
def withinTolerance (tolerance nominal x : Nat) : Bool :=
  absDiff x nominal * 10000 ≤ tolerance * nominal

/-- The pixel period of a scan on a facet, rhu(F × 65536 / Nsp) (R84). -/
def ScanUnit.period (u : ScanUnit) (f : Fin 8) : Nat :=
  rhu (u.facets[f].interval * 65536) u.params.nsp

/-- The filtered interval one eighth of the way toward a measured one, with the floor toward minus
infinity (R83). -/
def filterInterval (f tm : Nat) : Nat := ((f : Int) + ((tm : Int) - f + 4) / 8).toNat

/-- The facet counter one on, from 7 to 0 (R79). -/
def nextFacet (f : Fin 8) : Fin 8 := f + 1

/-- Replace one facet entry. -/
def ScanUnit.setFacet (u : ScanUnit) (f : Fin 8) (e : Facet) : ScanUnit :=
  { u with facets := u.facets.set f e }

/-! ### Judging a facet (R83, R86) -/

/-- A facet entry after a scan judged in tolerance: a USABLE facet updates its filtered interval and
its run becomes 0; an EXCLUDED one keeps both (R83, R86). -/
def Facet.good (e : Facet) (tm : Nat) : Facet :=
  if e.usable then { e with interval := filterInterval e.interval tm, run := 0 } else e

/-- Whether a scan judged out of tolerance excludes the facet: it raises the run of a USABLE facet to
3 (R86). -/
def Facet.excludes (e : Facet) : Bool := e.usable && Config.excludeRun ≤ e.run + 1

/-- A facet entry after a scan judged out of tolerance or a missed EOS: the run of a USABLE facet
rises, and at 3 the facet is EXCLUDED; an EXCLUDED one keeps its run (R86). -/
def Facet.bad (e : Facet) : Facet :=
  if e.excludes then { e with usable := false, run := Config.excludeRun }
  else if e.usable then { e with run := e.run + 1 }
  else e

/-- The four outcomes of a scan end (R78). -/
inductive ScanOutcome where
  | inTolerance
  | outOfTolerance
  | missedEos
  | slipped
  deriving DecidableEq, Repr

/-- The speed-lock run after one more SOS in ACQUIRING (R77): the first only records its time, a
later one judges the interval since the one before. -/
def ScanUnit.lockJudge (u : ScanUnit) : ScanUnit :=
  match u.sinceSos with
  | none => { u with sinceSos := some 0 }
  | some i =>
    { u with
      sinceSos := some 0
      lockRun :=
        if withinTolerance u.params.tolerance u.params.pn i then min Config.lockRun (u.lockRun + 1)
        else 0 }

/-- Whether the polygon is locked on this SOS (R77). -/
def ScanUnit.locks (u : ScanUnit) : Bool := Config.lockRun ≤ u.lockRun && u.aligned

/-- Steps 3 to 5 of an SOS (R79): the missed-SOS run becomes 0, the SOS watch restarts for 2 × Pn,
the pixel period is fixed and the measurement becomes TIMING for the facet counted. -/
def ScanUnit.startTiming (u : ScanUnit) : ScanUnit :=
  { u with
    missedRun := 0
    watch := some (2 * u.params.pn)
    measurement := .timing u.counter 0 false (u.period u.counter) }

end Sys2Proof.Machine
end

