-- ==== Sys2Proof/Machine/Transport.lean ====
section
/-! DEFINITION. The Transport Controller's operations (chapter 8): the gate commands and the end of a
gate operation, the shutter commands, and the edge-print head. -/

namespace Sys2Proof.Machine

/-- Replace the Transport Controller's state. -/
def State.setTc (s : State) (t : Transport) : State := { s with tc := t }

/-! ### The gate -/

/-- A gate operation is taken: its timer starts for 400 ms and the perforation count is 0 (R138). -/
def Transport.begin (t : Transport) (op : GateOp) (gate : Gate) : Transport :=
  { t with gate := gate, op := some op, opTimer := some Config.operationTime, perforations := 0 }

/-- The pull-down command, given when the gate operation is none (R138). It begins at RELEASING with
the gate CLAMPED and at PULLING with the gate RELEASED. -/
def State.pullDown (s : State) : State :=
  if s.tc.op.isSome then s
  else if s.tc.gate = .clamped then
    (s.setTc (s.tc.begin .pullDown .releasing)).command .clampOpen
  else (s.setTc (s.tc.begin .pullDown .pulling)).command .motorCycle

/-- The clamp command, given in STARTING when the gate is RELEASED (R114, R138, R144). A gate that is
CLAMPED already needs none: its condition is met. -/
def State.clampGate (s : State) : State :=
  if s.tc.op.isSome then s
  else if s.tc.gate = .clamped then s
  else (s.setTc (s.tc.begin .clamp .clamping)).command .clampClose

/-- The end of an operation that fails or is cut short (R143): the gate is RELEASED, gate-used is
set, the footage stays, the outcome is recorded and the failed total rises. -/
def Transport.fail (t : Transport) (op : GateOp) (outcome : GateOutcome) : Transport :=
  { t with
    gate := .released
    op := none
    opTimer := none
    settleTimer := none
    gateUsed := true
    last := some ⟨outcome, op, t.perforations⟩
    failedTotal := saturate 4294967295 (t.failedTotal + 1) }

/-- The stop command: an operation in flight is cut short (R138, R143). -/
def State.stopGate (s : State) : State :=
  match s.tc.op with
  | none => s
  | some op => (s.setTc (s.tc.fail op .cut)).command .transportStop

/-- The completion of a pull-down (R141): CLAMPED, the footage one frame on, gate-used clear, the
completed total up. -/
def Transport.completePullDown (t : Transport) : Transport :=
  { t with
    gate := .clamped
    op := none
    opTimer := none
    settleTimer := none
    footage := t.footage.advance
    gateUsed := false
    last := some ⟨.completed, .pullDown, Config.framePerforations⟩
    completedTotal := saturate 4294967295 (t.completedTotal + 1) }

/-- The completion of a clamp (R144): CLAMPED, with neither the footage nor gate-used changed. -/
def Transport.completeClamp (t : Transport) : Transport :=
  { t with
    gate := .clamped
    op := none
    opTimer := none
    settleTimer := none
    last := some ⟨.completed, .clamp, 0⟩ }

/-! ### The shutter -/

/-- The open command, given when the shutter is CLOSED (R145). -/
def State.openShutter (s : State) : State :=
  if s.tc.shutter = .closed then
    (s.setTc { s.tc with shutter := .opening, shutterTimer := some Config.shutterTime }).command
      .shutterOpen
  else s

/-- The close command (R146): OPEN or OPENING becomes CLOSING with a fresh timer, CLOSING goes on
with its timer unchanged, CLOSED stays. -/
def State.closeShutter (s : State) : State :=
  match s.tc.shutter with
  | .closed => s
  | .closing => s
  | _ =>
    (s.setTc { s.tc with shutter := .closing, shutterTimer := some Config.shutterTime }).command
      .shutterClose

/-! ### The edge-print head -/

/-- The code of a decimal digit character (R205). -/
def Digit.code (d : Digit) : Byte := BitVec.ofNat 8 (0x30 + d.val)

/-- The six footage digits of a mark: four of feet, two of frames (R153). -/
def Footage.digits (f : Footage) : List Byte :=
  [f.thousands.code, f.hundreds.code, f.tens.code, f.ones.code, f.frameTens.code, f.frameOnes.code]

/-- The frame mark: the label and the footage digits (R153, R154). -/
def frameMark (label : Label) (f : Footage) : Mark := ⟨.frame, label.toList ++ f.digits, true⟩

/-- The spoil mark: eight letters X and the footage digits (R153, R155). -/
def spoilMark (f : Footage) : Mark := ⟨.spoil, List.replicate 8 0x58 ++ f.digits, true⟩

/-- The head begins a mark: 14 characters at 2 ms each (R153). -/
def State.beginPrint (s : State) (m : Mark) : State :=
  (s.setTc { s.tc with head := .printing m Config.markTime }).command (.print m)

/-- A print command (R153): an IDLE head prints; a PRINTING head keeps the mark as the pending
print. -/
def State.print (s : State) (m : Mark) : State :=
  match s.tc.head with
  | .idle => s.beginPrint m
  | .printing _ _ => s.setTc { s.tc with pendingMark := some m }

/-- The marks no longer belong to a standing exposure record (R154; LOG 8). -/
def Head.disown : Head → Head
  | .idle => .idle
  | .printing m left => .printing { m with live := false } left

/-- Disown the marks of the frame that has ended (R154; LOG 8). -/
def State.disownMarks (s : State) : State :=
  s.setTc { s.tc with
    head := s.tc.head.disown
    pendingMark := s.tc.pendingMark.map (fun m => { m with live := false }) }

end Sys2Proof.Machine
end

