-- ==== Sys2Proof/Machine/Engine.lean ====
section
/-! DEFINITION. The Exposure Sequencer's transitions (chapter 7, and the parts of chapters 8 and 9 it
carries out): replies to long requests, the entries to each engine state, the ends of a frame, of a
blank advance, of ABORTING and of ADVANCING. -/

namespace Sys2Proof.Machine

/-- Replace ES's state. -/
def State.setEs (s : State) (e : Sequencer) : State := { s with es := e }

/-! ### Requests and replies -/

/-- The code of a request (Table 12-2). -/
def Request.code : Request → Nat
  | .identify => 0x01
  | .status => 0x02
  | .checkpoint => 0x03
  | .setParameter => 0x04
  | .setNoticeMask => 0x05
  | .openFrame => 0x10
  | .closeFrame => 0x11
  | .discardFrame => 0x12
  | .requeueFrame => 0x13
  | .writeRule => 0x18
  | .readRule => 0x19
  | .loadProfile => 0x1A
  | .readProfile => 0x1B
  | .setRollTrim => 0x20
  | .setFacetGains => 0x21
  | .restoreFacets => 0x22
  | .setFootage => 0x23
  | .setFaultResponse => 0x24
  | .abortFrame => 0x28
  | .readLog => 0x29
  | .startEngine => 0x30
  | .resumeEngine => 0x31
  | .stopEngine => 0x32
  | .resetEngine => 0x33
  | .advanceFilm => 0x34

/-- What a reply says beside its tag and code. -/
structure Answer where
  outcome : ReplyOutcome
  reason : Reason := .none_
  field : Nat := 0
  clamped : Bool := false
  data : ReplyData := .empty
  deriving DecidableEq, Repr

/-- A request is answered: it leaves the outstanding-request table and its reply is staged with the
engine state as it stands (R192, R204; LOG 6). A request without a tag, which a link reset has
dropped, gets no reply (R111, R198). -/
def State.answer (s : State) (tag : Option Nat) (q : Request) (a : Answer) : State :=
  match tag with
  | none => s
  | some tag =>
    { s with lp := { s.lp with outstanding := s.lp.outstanding.filter (·.tag ≠ tag) } }.stage
      ⟨tag, q.code, a.outcome, a.reason, s.es.engine, a.field, a.clamped, a.data⟩

/-- The pending reply of a kind. -/
def PendingReplies.get (p : PendingReplies) : LongKind → Option PendingReply
  | .start => p.start
  | .stop => p.stop
  | .reset => p.reset
  | .advance => p.advance

/-- Replace the pending reply of a kind. -/
def PendingReplies.set (p : PendingReplies) (k : LongKind) (r : Option PendingReply) :
    PendingReplies :=
  match k with
  | .start => { p with start := r }
  | .stop => { p with stop := r }
  | .reset => { p with reset := r }
  | .advance => { p with advance := r }

/-- A long request is accepted: its reply becomes pending (R113). -/
def State.setPending (s : State) (k : LongKind) (r : Option PendingReply) : State :=
  s.setEs { s.es with replies := s.es.replies.set k r }

/-- A pending reply ends: its entry is cleared, and it is sent unless a link reset has dropped its
tag (R111, R113). -/
def State.endReply (s : State) (k : LongKind) (a : Answer) : State :=
  match s.es.replies.get k with
  | none => s
  | some r => (s.setPending k none).answer r.tag r.request a

/-- The completed count of the blank advance in hand, 0 where there is none. -/
def State.blankCompleted (s : State) : Nat :=
  match s.tc.blank with
  | none => 0
  | some b => b.completed

/-- The answer of a pending reply that ends FAILED: an advance reply carries its completed count
(R152, R204). -/
def failure (k : LongKind) (reason : Reason) (completed : Nat) : Answer :=
  match k with
  | .advance => { outcome := .failed, reason := reason, data := .advancedBefore completed }
  | _ => { outcome := .failed, reason := reason }

/-- A pending reply ends FAILED (R113), an advance reply with the completed count given. -/
def State.failReply (s : State) (k : LongKind) (reason : Reason) (completed : Nat) : State :=
  s.endReply k (failure k reason completed)

/-! ### Engine state -/

/-- DU stops issuing drive words and holds every channel at beam-off on the event that the engine
leaves EXPOSING (R67; LOG 17). -/
def State.holdBeam (s : State) (e : Engine) : State :=
  if s.es.engine = .exposing ∧ e ≠ .exposing then s.emit .beamOff else s

/-- The engine state changes: DU holds beam-off where EXPOSING is left (R67), and an ENGINE_STATE
notice carries the previous state, the new one and the causing kind of an entry to HALTED or LOCKED
(R112). -/
def State.setEngine (s : State) (e : Engine) (cause : Option FaultKind := none) : State :=
  ((s.holdBeam e).setEs { s.es with engine := e }).notice (.engineState s.es.engine e cause)

/-- Fill, or empty, the fault in hand (R168). -/
def State.setInHand (s : State) (r : Option FaultRecord) : State :=
  { s with fu := { s.fu with inHand := r } }

/-! ### Stopping the mechanisms (R127) -/

/-- The stage is commanded to stop, becomes UNHOMED and its timer stops (R127, R128). -/
def State.stopStage (s : State) : State :=
  (s.setEs { s.es with stage := .unhomed }).command .stageStop

/-- A wheel's move is stopped, with its position UNKNOWN; a wheel at rest keeps its position
(R123, R127). -/
def Wheel.stop (w : Wheel) : Wheel :=
  match w.move with
  | none => w
  | some _ => ⟨none, none⟩

/-- Command a moving wheel to stop. -/
def State.commandWheelStop (s : State) (c : Channel) : State :=
  if (s.es.wheels.get c).move.isSome then s.command (.wheelStop c) else s

/-- Every wheel move is stopped (R123, R127). -/
def State.stopWheels (s : State) : State :=
  let t := ((s.commandWheelStop .red).commandWheelStop .green).commandWheelStop .blue
  t.setEs { t.es with wheels := t.es.wheels.map Wheel.stop }

/-- The start and pause timers stop (R127). -/
def State.stopEngineTimers (s : State) : State :=
  s.setEs { s.es with startTimer := none, pauseTimer := none }

/-- The commands given on entry to HALTED, STOPPING and LOCKED (R119, R127, R171): lasers disabled,
polygon, stage, wheels and gate stopped, shutter commanded closed, the start, pause and stage timers
stopped. -/
def State.stopMechanisms (s : State) : State :=
  s.laserDisable.polygonStop.stopStage.stopWheels.stopGate.closeShutter.stopEngineTimers

/-! ### The end of a frame -/

/-- ES's use of the active frame ends: the exposure record and the line in progress become absent,
the latches are emptied (R55) and the frame's marks are no longer its own (R154). -/
def State.dropExposure (s : State) : State :=
  ((s.setEs { s.es with exposure := none, lineInProgress := none }).emptyLatches).disownMarks

/-- The active frame returns from PREPARING to the queue head, its reservation released (R22,
R126). -/
def State.returnFrame (s : State) : State :=
  match s.es.exposure with
  | none => s
  | some e => ((s.joinHead e.slot).release).dropExposure

/-- The active frame is spoiled (R21, R167, R171): its SPOILED record is appended, its slot becomes
HELD, its exposure record becomes absent and FRAME_SPOILED is sent. A LOG_NEARLY_FULL of the append is sent before
FRAME_SPOILED (R167 lists the append first), and so before the ENGINE_STATE of an entry to LOCKED or of a Reset
Engine: DESIGN CHOICE 6. -/
def State.spoilFrame (s : State) (cause : Cause) : State :=
  match s.es.exposure with
  | none => s
  | some e =>
    match s.slot e.slot with
    | none => s.release.dropExposure
    | some r =>
      let t := s.append s.tc.footage (.spoiled (s.frameEntry e r) cause)
      ((t.setPhase e.slot .held).dropExposure).notice
        (.frameSpoiled e.slot r.key r.openSeq cause e.exposed t.rl.lastSeq)

/-- The line in progress ends uncounted: its clip counts are discarded and its latch is emptied
(R131). -/
def State.dropLine (s : State) : State :=
  (s.setEs { s.es with lineInProgress := none }).emptyLineLatch

/-! ### The end of a blank advance -/

/-- The blank advance record becomes absent. -/
def State.dropBlank (s : State) : State := s.setTc { s.tc with blank := none }

/-- The log's part of a blank advance that ends early (R152): its BLANK record is appended if a
pull-down was completed, and its reservation is released if none was. It is done once: either ends
the reservation of the blank run (R181). A LOG_NEARLY_FULL of the append is sent at it, before the ENGINE_STATE of an
entry to LOCKED or HALTED or of a Reset Engine: DESIGN CHOICE 6. -/
def State.closeBlank (s : State) : State :=
  match s.tc.blank with
  | none => s
  | some b =>
    if s.rl.reservation = some .blank then
      if 0 < b.completed then s.append b.start (.blank b.completed) else s.release
    else s

/-- A blank advance ends early (R152): the log's part, unless its failed pull-down has done it
already, and the blank advance record becomes absent. -/
def State.endBlankEarly (s : State) : State := s.closeBlank.dropBlank

/-! ### Entries -/

/-- Entry to OFFLINE (R119): the stop timer stops, and the pending stop and reset replies are DONE. -/
def State.enterOffline (s : State) : State :=
  (((s.setEs { s.es with stopTimer := none }).setEngine .offline).endReply .stop
    { outcome := .done }).endReply .reset { outcome := .done }

/-- Entry to STOPPING (R119): everything is stopped, stop-pending clears, the stop timer starts for
10 s, and no fault stays in hand (R168). -/
def State.enterStopping (s : State) : State :=
  let t := s.stopMechanisms
  ((t.setEs { t.es with stopPending := false, stopTimer := some Config.stopTime }).setInHand
    none).setEngine .stopping

/-- Entry to READY (R112, R121, R168): no fault stays in hand, and an empty queue sends QUEUE_EMPTY, after the
ENGINE_STATE notice of the entry (DESIGN CHOICE 6). -/
def State.enterReady (s : State) : State :=
  let t := (s.setInHand none).setEngine .ready
  if t.fs.queue.isEmpty then t.notice .queueEmpty else t

/-- Entry to HALTED for a fault (R127, R168): everything is stopped, stop-pending and deferred-halt
clear, a slot still ACTIVE in PREPARING returns to the queue head, a blank advance ends early (R152),
and the pending start, stop and advance replies are FAILED with the fault's kind, in this order
(DESIGN CHOICE 6). -/
def State.enterHalted (s : State) (r : FaultRecord) : State :=
  let n := s.blankCompleted
  let reason := Reason.fault r.report.kind
  let t := s.stopMechanisms.returnFrame.endBlankEarly
  let t := (t.setEs { t.es with stopPending := false, deferredHalt := none }).setInHand (some r)
  let t := t.setEngine .halted (some r.report.kind)
  ((t.failReply .start reason n).failReply .stop reason n).failReply .advance reason n

/-- Entry to PAUSED (R131, R132): the line ends uncounted and the pause timer starts. -/
def State.enterPaused (s : State) : State :=
  let t := s.dropLine
  (t.setEs { t.es with pauseTimer := some (Config.ms t.es.pauseMs) }).setEngine .paused

/-- Entry to ABORTING for a fault (R131, R165, R168): the line ends uncounted, the pause timer stops
and the shutter is commanded closed. -/
def State.enterAborting (s : State) (r : FaultRecord) : State :=
  let t := s.dropLine.closeShutter
  ((t.setEs { t.es with pauseTimer := none }).setInHand (some r)).setEngine .aborting

/-- The frame in hand ends at a lock: a frame in PREPARING returns to the queue head, since no light
has reached its film (R181), and a later one is spoiled (R21, R171). DEDUCED 10. -/
def State.endFrameLocked (s : State) (cause : Cause) : State :=
  if s.es.engine = .preparing then s.returnFrame else s.spoilFrame cause

/-- Entry to LOCKED for a fault (R171, R172): everything is stopped, every pending reply is FAILED
with the fault's kind, in the order start, stop, advance, reset (DESIGN CHOICE 6: R171 and R113 give
none), the frame or the blank advance in hand is ended, and the lock record pair is stored and sent.
The notices follow in the order FRAME_SPOILED, ENGINE_STATE, LOCKED. -/
def State.enterLocked (s : State) (r : FaultRecord) : State :=
  let pair : LockPair := ⟨s.fu.inHand, r⟩
  let n := s.blankCompleted
  let reason := Reason.fault r.report.kind
  let t := s.stopMechanisms
  let t := t.setEs { t.es with stopTimer := none, stopPending := false, deferredHalt := none }
  let t := ((t.endFrameLocked (.fault r.report.kind)).endBlankEarly).setEngine .locked
    (some r.report.kind)
  let t := (((t.failReply .start reason n).failReply .stop reason n).failReply .advance reason
    n).failReply .reset reason n
  ({ t with fu := { t.fu with lockPair := some pair } }).notice (.locked pair)

/-! ### The ends of ABORTING and of ADVANCING -/

/-- ABORTING ends (R167): the frame is spoiled with the kind of the fault in hand; under ABORT the
engine goes to STOPPING with stop-pending set, to HALTED with fewer than four USABLE facets, and to
READY otherwise; under HALT it goes to HALTED. -/
def State.endAborting (s : State) : State :=
  match s.fu.inHand with
  | none => s
  | some r =>
    let t := s.spoilFrame (.fault r.report.kind)
    if r.applied = .abort then
      if t.es.stopPending then t.enterStopping
      else if t.usableFacets < Config.fewestFacets then t.enterHalted r
      else t.enterReady
    else t.enterHalted r

/-- ADVANCING ends (R135): to HALTED if deferred-halt is set, to STOPPING if stop-pending is set, and
to READY otherwise. -/
def State.endAdvancing (s : State) : State :=
  match s.es.deferredHalt with
  | some r => s.enterHalted r
  | none => if s.es.stopPending then s.enterStopping else s.enterReady

/-! ### FINISHING -/

/-- Entry to FINISHING (R130, R134): the shutter is commanded closed. -/
def State.enterFinishing (s : State) : State := s.closeShutter.setEngine .finishing

/-- FINISHING's frame is logged (R20, R134): the EXPOSED record is appended, the slot becomes FREE,
the exposure record becomes absent, FRAME_DONE is sent, and ADVANCING begins with one pull-down. -/
def State.finishFrame (s : State) : State :=
  match s.es.exposure with
  | none => s
  | some e =>
    match s.slot e.slot with
    | none => s
    | some r =>
      let t := s.append s.tc.footage (.exposed (s.frameEntry e r))
      let n := t.rl.lastSeq
      (((((t.freeSlot e.slot).dropExposure).notice
        (.frameDone e.slot r.key e.exposed e.defects n)).setEngine .advancing).pullDown)

/-! ### Conditions met -/

/-- STARTING enters READY on the event that meets its last condition (R115). -/
def State.checkStarting (s : State) : State :=
  if s.es.engine = .starting ∧ s.startWaits = [] then
    ((s.setEs { s.es with startTimer := none }).enterReady).endReply .start { outcome := .done }
  else s

/-- PREPARING commands the shutter open on the event that meets its last condition (R125); the
command waits for a shutter that is still closing (LOG 7). -/
def State.checkPreparing (s : State) : State :=
  if s.es.engine = .preparing ∧ s.preparingWaits = [] then s.openShutter else s

end Sys2Proof.Machine
end

