-- ==== Sys2Proof/Machine/FaultUnit.lean ====
section
/-! DEFINITION. The Fault Unit (chapter 9): taking a raised fault, and what every command does about
the faults raised before it and by it (LOG 3). -/

namespace Sys2Proof.Machine

/-! ### Taking a fault (R159) -/

/-- The last-fault record of a fault as the Fault Unit takes it (R174, Tables 9-3 and 9-4). -/
def State.faultRecord (s : State) (f : FaultReport) : FaultRecord where
  report := f
  engine := s.es.engine
  applied := responseApplied s.es.engine (s.assigned f.kind) f
  slot := s.es.exposure.map (·.slot)
  line := s.es.exposure.map (·.line)
  facet := f.facet.or s.es.lineInProgress
  footage := s.tc.footage

/-- Fill the last-fault record anew and raise the kind's count by 1 (R174, R175). -/
def State.recordFault (s : State) (r : FaultRecord) : State :=
  { s with fu := { s.fu with
      lastFault := some r
      counts := s.fu.counts.set r.report.kind.index
        (saturate 65535 (s.fu.counts[r.report.kind.index] + 1)) } }

/-- Announce a fault taken: a FAULT notice, except in LOCKED (R159, R173). -/
def State.announceFault (s : State) (r : FaultRecord) : State :=
  if r.engine = .locked then s else s.notice (.fault r)

/-- Set deferred-halt with a copy of the record if it is clear (R164). -/
def State.deferHalt (s : State) (r : FaultRecord) : State :=
  match s.es.deferredHalt with
  | some _ => s
  | none => s.setEs { s.es with deferredHalt := some r }

/-- Apply HALT (R163): from EXPOSING and PAUSED the engine goes through ABORTING. -/
def State.applyHalt (s : State) (r : FaultRecord) : State :=
  if r.engine = .exposing ∨ r.engine = .paused then s.enterAborting r else s.enterHalted r

/-- Direct ES to the transition of the response applied (R159, R160 to R164, R169, R170). -/
def State.direct (s : State) (r : FaultRecord) : State :=
  match r.applied with
  | .notice => s
  | .hold => s
  | .pause => s.enterPaused
  | .abort => s.enterAborting r
  | .halt => s.applyHalt r
  | .defer => s.deferHalt r
  | .lock => s.enterLocked r
  | .record => s

/-- The Fault Unit takes a fault: it decides the response, records and counts the fault, announces
it and directs ES, in this order (R159). -/
def State.takeFault (s : State) (f : FaultReport) : State :=
  let r := s.faultRecord f
  ((s.recordFault r).announceFault r).direct r

/-! ### Commands and the faults raised (LOG 3) -/

/-- Replace the list of faults raised and not yet taken. -/
def State.setRaised (s : State) (l : List FaultReport) : State :=
  { s with fu := { s.fu with raised := l } }

/-- The image portion of a line attempt still in progress follows on the take of its sample's last fault, and on
no other take (R66, R99). -/
def State.driveAfter (s : State) (f : FaultReport) : State := if f.kind.ofSample then s.driveLine else s

/-- One fault taken as an event of its own, with what it sends (R159, R193). -/
def State.takeEvent (s : State) (f : FaultReport) : State := ((s.takeFault f).driveAfter f).flush

/-- The faults that may be taken next: faults raised together are taken in either order, but for those that a
rule puts after another (R159). -/
def nextFaults (l : List FaultReport) : List FaultReport :=
  l.filter (fun f => l.all (fun g => !f.kind.follows g.kind))

/-- The fault the Fault Unit takes next. Where several may be, which one is the free value
`Config.faultOrder` at the number of such choices so far. DESIGN CHOICE 3. -/
def chooseFault (n : Nat) (l : List FaultReport) : Option FaultReport :=
  match nextFaults l with
  | [] => none
  | [f] => some f
  | ready => ready[Config.faultOrder n % ready.length]?

/-- The number of free choices made once the next fault has been taken. -/
def countChoice (n : Nat) (l : List FaultReport) : Nat :=
  if (nextFaults l).length ≤ 1 then n else n + 1

/-- Replace the number of free choices made. -/
def State.setChoices (s : State) (n : Nat) : State := { s with fu := { s.fu with choices := n } }

/-- One of the faults raised and not yet taken is taken. With none raised there is nothing to take. -/
def State.takeOne (take : State → FaultReport → State) (s : State) : State :=
  match chooseFault s.fu.choices s.fu.raised with
  | none => s
  | some f =>
    take ((s.setRaised (s.fu.raised.erase f)).setChoices (countChoice s.fu.choices s.fu.raised)) f

/-- At most `n` raised faults are taken, one after another, until none waits of the kinds that must be taken. -/
def State.taking (must : FaultKind → Bool) (take : State → FaultReport → State) : Nat → State → State
  | 0, s => s
  | n + 1, s =>
    if s.fu.raised.any (must ·.kind) then State.taking must take n (s.takeOne take) else s

/-- Raised faults are taken, each as an event of its own, until none waits of the kinds that must be taken before
the next command's event. -/
def State.settledFor (s : State) (must : FaultKind → Bool) : State :=
  State.taking must State.takeEvent s.fu.raised.length s

/-- Every raised fault is taken. -/
def State.settled (s : State) : State := s.settledFor (fun _ => true)

/-- One fault taken at the end of a command's event: one due on the event is taken on it, before the replies of the
event go out, and one that waits is an event of its own, after them (R159, R193). -/
def State.takeInTurn (s : State) (f : FaultReport) : State :=
  State.takeEvent (if f.kind.takenAtOnce then s else s.flush) f

/-- The raised faults whose rule takes them on the event that raises them are taken on it (R87, R133, R135, R145,
R146, R152), before or after any that waits (R159). -/
def State.takeDue (s : State) : State :=
  State.taking FaultKind.takenAtOnce State.takeInTurn s.fu.raised.length s

/-- The end of a command's event: the faults due on it are taken, and the replies staged on it are
sent after its notices (R193). -/
def State.concluded (s : State) : State := s.takeDue.flush

/-- One command as one event: its effect, and the event's conclusion. A raised fault is taken before it only by
FAULT_TAKE, so that the event and a take that come together may go in either order (R68, R161, R162, R167).
DESIGN CHOICE 3. -/
def run (s : State) (effect : State → State) : Host.Outcome State Fault Refusal :=
  .next (effect s).concluded

/-- One command before which a rule has some kinds of raised fault taken. -/
def runAfter (must : FaultKind → Bool) (s : State) (effect : State → State) :
    Host.Outcome State Fault Refusal := run (s.settledFor must) effect

/-- FAULT_TAKE (R159): one of the faults raised and not yet taken is taken as an event of its own. -/
def execFaultTake (s : State) : Host.Outcome State Fault Refusal := .next (s.takeOne State.takeEvent)

end Sys2Proof.Machine
end

