-- ==== Sys2Proof/Machine/Operands.lean ====
section
/-! DEFINITION. What a link record holds: the byte readers, the CRC (R190), LP's judgement of a record
(R190, R191), the intake of a request (Tables 11-2 and 12-3), and the decoding of the codes a request
carries (Table 12-2, section 12.2). -/

namespace Sys2Proof.Machine

/-! ### Bytes (little-endian, 00_scope.md) -/

/-- The byte at an offset, 0 beyond the end. -/
def byteAt (r : List Byte) (i : Nat) : Nat := ((r[i]?).getD 0).toNat

/-- The two-byte field at an offset. -/
def wordAt (r : List Byte) (i : Nat) : Nat := byteAt r i + 256 * byteAt r (i + 1)

/-- The four-byte field at an offset. -/
def longAt (r : List Byte) (i : Nat) : Nat := wordAt r i + 65536 * wordAt r (i + 2)

/-- The signed two-byte field at an offset, two's complement (12_record_layouts.md, 12.3). -/
def signedAt (r : List Byte) (i : Nat) : Int := (BitVec.ofNat 16 (wordAt r i)).toInt

/-! ### The check trailer (R190, R202) -/

/-- One bit of the reflected CRC with generator 0x04C11DB7. -/
def crcBit (c : BitVec 32) : BitVec 32 :=
  if c.getLsbD 0 then (c >>> 1) ^^^ 0xEDB88320#32 else c >>> 1

/-- One byte of the CRC. -/
def crcByte (c : BitVec 32) (b : Byte) : BitVec 32 :=
  crcBit (crcBit (crcBit (crcBit (crcBit (crcBit (crcBit (crcBit (c ^^^ b.setWidth 32))))))))

/-- The CRC-32 of bytes: initial value 0xFFFFFFFF, final complement (R190). -/
def crc32 (bs : List Byte) : BitVec 32 := ~~~(bs.foldl crcByte 0xFFFFFFFF#32)

/-! ### LP's judgement of a record (R190, R191) -/

/-- The length of a record's payload by its header (Table 12-1). -/
def payloadLength (r : Record) : Nat := wordAt r 4

/-- The payload of a record. -/
def payloadOf (r : Record) : List Byte := (r.drop 8).take (payloadLength r)

/-- Whether a record passes framing (R190). -/
def framed (r : Record) : Bool :=
  Config.shortestRecord ≤ r.length && r.length ≤ Config.longestRecord &&
    r.length == 12 + payloadLength r

/-- Whether a record's trailer is the CRC of its header and payload (R190, R202). -/
def checked (r : Record) : Bool :=
  (crc32 (r.take (8 + payloadLength r))).toNat == longAt r (8 + payloadLength r)

/-- The request of a code (Table 12-2). -/
def Request.ofCode : Nat → Option Request
  | 0x01 => some .identify
  | 0x02 => some .status
  | 0x03 => some .checkpoint
  | 0x04 => some .setParameter
  | 0x05 => some .setNoticeMask
  | 0x10 => some .openFrame
  | 0x11 => some .closeFrame
  | 0x12 => some .discardFrame
  | 0x13 => some .requeueFrame
  | 0x18 => some .writeRule
  | 0x19 => some .readRule
  | 0x1A => some .loadProfile
  | 0x1B => some .readProfile
  | 0x20 => some .setRollTrim
  | 0x21 => some .setFacetGains
  | 0x22 => some .restoreFacets
  | 0x23 => some .setFootage
  | 0x24 => some .setFaultResponse
  | 0x28 => some .abortFrame
  | 0x29 => some .readLog
  | 0x30 => some .startEngine
  | 0x31 => some .resumeEngine
  | 0x32 => some .stopEngine
  | 0x33 => some .resetEngine
  | 0x34 => some .advanceFilm
  | _ => none

/-- What LP finds a record to be when it takes it. -/
inductive Judgement where
  /-- dropped at framing, at the check or for its line format (R190, R191) -/
  | dropped (error : LinkError)
  /-- of a kind that is neither REQUEST nor LINE (R191) -/
  | otherKind (tag : Nat)
  /-- a REQUEST whose code names no request (R191) -/
  | unknownRequest (tag code : Nat)
  /-- a well-formed line record with its pixel words (R191, R203) -/
  | line (slot line count : Nat) (words : List Byte)
  /-- a REQUEST with its payload -/
  | request (tag : Nat) (request : Request) (payload : List Byte)
  deriving DecidableEq, Repr

/-- The kind of a record that passed framing and check, and what it carries (R191, R203). The spare
bytes and the level byte are not examined (R202). -/
def judgeKind (r : Record) : Judgement :=
  if byteAt r 0 = 0x01 then
    match Request.ofCode (byteAt r 2) with
    | none => .unknownRequest (byteAt r 1) (byteAt r 2)
    | some q => .request (byteAt r 1) q (payloadOf r)
  else if byteAt r 0 = 0x04 then
    let p := payloadOf r
    if payloadLength r = 6 + 4 * wordAt p 3 then
      .line (byteAt p 0) (wordAt p 1) (wordAt p 3) (p.drop 6)
    else .dropped .lineFormat
  else .otherKind (byteAt r 1)

/-- LP judges a record: framing, then the CRC, then its kind (R190, R191). -/
def judge (r : Record) : Judgement :=
  if framed r then
    if checked r then judgeKind r else .dropped .badCrc
  else .dropped .framing

/-- What LP deals with next: the record it has in hand (R198), or else the record at the head of its
input queue; `none` when there is neither. -/
def State.head (s : State) : Option Judgement :=
  ((s.lp.held.map (·.record)).or s.lp.queue.head?).map judge

/-! ### Taking a record (R189, R190) -/

/-- LP removes the record at the head; a take that lowers the occupancy to 4 while the flow state is
HOLD sends GO (R189). -/
def State.removeHead (s : State) : State :=
  let t := { s with lp := { s.lp with queue := s.lp.queue.tail } }
  if t.lp.queue.length = Config.goLevel ∧ s.lp.queue ≠ [] ∧ t.lp.flow = .hold then t.sendFlow .go
  else t

/-- LP deals with its next record: the one in hand, which has left the queue already, or else the one at
the head (R190, R198). -/
def State.takeRecord (s : State) : State :=
  match s.lp.held with
  | some _ => { s with lp := { s.lp with held := none } }
  | none => s.removeHead

/-- A drop is counted: the link error count rises by 1 and the first link error is filled if absent
(R189 to R191). -/
def State.countError (s : State) (e : LinkError) : State :=
  { s with lp := { s.lp with
      errors := saturate 65535 (s.lp.errors + 1)
      firstError := s.lp.firstError.or (some e) } }

/-! ### Intake of a request (Table 11-2) -/

/-- The payload length a request carries (Table 12-3). -/
def Request.payloadBytes : Request → Nat
  | .identify => 0
  | .status => 0
  | .checkpoint => 0
  | .setParameter => 8
  | .setNoticeMask => 1
  | .openFrame => 8
  | .closeFrame => 8
  | .discardFrame => 8
  | .requeueFrame => 8
  | .writeRule => 24
  | .readRule => 1
  | .loadProfile => 230
  | .readProfile => 1
  | .setRollTrim => 6
  | .setFacetGains => 16
  | .restoreFacets => 0
  | .setFootage => 4
  | .setFaultResponse => 2
  | .abortFrame => 8
  | .readLog => 2
  | .startEngine => 0
  | .resumeEngine => 0
  | .stopEngine => 0
  | .resetEngine => 0
  | .advanceFilm => 1

/-- The long requests (R113, Table 11-3). -/
def Request.isLong : Request → Bool
  | .startEngine => true
  | .resumeEngine => true
  | .stopEngine => true
  | .resetEngine => true
  | .advanceFilm => true
  | _ => false

/-- Whether a request is accepted in LOCKED (Table 11-3, R173). -/
def Request.acceptedInLocked : Request → Bool
  | .identify => true
  | .status => true
  | .checkpoint => true
  | .setNoticeMask => true
  | .readLog => true
  | _ => false

/-- The refusal of a request at intake, if any: checks 3 to 5 of Table 11-2. -/
def LinkPort.intakeRefusal (l : LinkPort) (tag : Nat) (q : Request) (p : List Byte) :
    Option Reason :=
  if p.length ≠ q.payloadBytes then some .badFormat
  else if l.outstanding.any (·.tag == tag) then some .tagInUse
  else if Config.outstandingPlaces ≤ l.outstanding.length then some .tooMany
  else none

/-- A request refused at intake is answered on the same event and enters no table (R191, R204). -/
def State.refuseIntake (s : State) (tag code : Nat) (reason : Reason) : State :=
  s.stage ⟨tag, code, .refused, reason, s.es.engine, 0, false, .empty⟩

/-- A request that passes intake enters the outstanding-request table (R191). -/
def State.enterTable (s : State) (tag : Nat) (q : Request) : State :=
  { s with lp := { s.lp with outstanding := s.lp.outstanding ++ [⟨tag, q⟩] } }

/-- A request is refused by its owner (R193). -/
def State.refuse (s : State) (tag : Option Nat) (q : Request) (reason : Reason) (field : Nat := 0)
    (data : ReplyData := .empty) : State :=
  s.answer tag q { outcome := .refused, reason := reason, field := field, data := data }

/-- An immediate request takes effect, or a long one ends, with its data (R193). -/
def State.done (s : State) (tag : Option Nat) (q : Request) (data : ReplyData := .empty) : State :=
  s.answer tag q { outcome := .done, data := data }

/-- What the owner of a request does with it: the state with the request in the table, its tag,
`none` where a link reset has dropped it, and its payload. -/
abbrev Decision := State → Option Nat → List Byte → State

/-- A request reaches its owner, unless the engine is LOCKED and the request is not accepted there
(R173, R193). -/
def State.handToOwner (s : State) (tag : Option Nat) (q : Request) (p : List Byte) (owner : Decision) :
    State :=
  if s.es.engine = .locked ∧ q.acceptedInLocked = false then s.refuse tag q .locked
  else owner s tag p

/-- A request is taken, checked at intake and handed to its owner (R190, R191). One in hand has passed
the intake; where a link reset has dropped its tag it is decided with no reply (R198). -/
def State.takeRequest (s : State) (tag : Nat) (q : Request) (p : List Byte) (owner : Decision) :
    State :=
  let t := s.takeRecord
  match s.lp.held with
  | some h => t.handToOwner (if h.tagged then some tag else none) q p owner
  | none =>
    match t.lp.intakeRefusal tag q p with
    | some reason => t.refuseIntake tag q.code reason
    | none => (t.enterTable tag q).handToOwner (some tag) q p owner

/-- Whether a record is one that LP hands to a block: a line record, or a request that passes the
intake checks (R191). A Checkpoint is none: LP decides it on its take, so that an overrun after the take is
counted after the clear (R195; DEDUCED 27). -/
def LinkPort.handsOver (l : LinkPort) : Judgement → Bool
  | .line .. => true
  | .request tag q p => q != .checkpoint && (l.intakeRefusal tag q p).isNone
  | .dropped _ => false
  | .otherKind _ => false
  | .unknownRequest .. => false

/-- A request that passed intake enters the table; a line record does not (R191). -/
def State.enterRecord (s : State) : Judgement → State
  | .request tag q _ => s.enterTable tag q
  | _ => s

/-- LP, with no record in hand, takes the record at the head and hands it to its block, which decides it
by a command of its own (R190). A record that LP itself deals with stays for its command. DESIGN CHOICE
27. -/
def State.handOver (s : State) : State :=
  match s.lp.held, s.lp.queue.head? with
  | none, some r =>
    if s.lp.handsOver (judge r) then
      let t := s.removeHead.enterRecord (judge r)
      { t with lp := { t.lp with held := some ⟨r, true⟩ } }
    else s
  | _, _ => s

/-- LP's take of a request that stands at the head of the input queue and whose payload passes a
test; with any other record, or none, at the head the step does not arise (LOG 2). -/
def State.onRequestWhen (s : State) (q : Request) (test : List Byte → Bool) (owner : Decision) :
    State :=
  match s.head with
  | some (.request tag q' p) => if q' = q ∧ test p = true then s.takeRequest tag q p owner else s
  | _ => s

/-- LP's take of a request that stands at the head of the input queue (LOG 2). -/
def State.onRequest (s : State) (q : Request) (owner : Decision) : State :=
  s.onRequestWhen q (fun _ => true) owner

/-! ### Codes -/

/-- The fault kind of a code (Table 12-2). -/
def FaultKind.ofCode : Nat → Option FaultKind
  | 0x41 => some .sosLoss
  | 0x42 => some .facetShortage
  | 0x43 => some .syncSlip
  | 0x44 => some .powerTrip
  | 0x45 => some .pauseTimeout
  | 0x46 => some .trimLimit
  | 0x47 => some .stageTimeout
  | 0x48 => some .filterTimeout
  | 0x49 => some .startTimeout
  | 0x4A => some .transport
  | 0x4B => some .filmEnd
  | 0x4C => some .interlock
  | 0x4D => some .shutter
  | 0x4E => some .operator
  | _ => none

/-- The response of a code (Table 12-2). -/
def Response.ofCode : Nat → Option Response
  | 0 => some .warn
  | 1 => some .pause
  | 2 => some .abort
  | 3 => some .halt
  | _ => none

/-- A number below a bound as an index, `none` outside it. -/
def index? (n bound : Nat) : Option (Fin bound) := if h : n < bound then some ⟨n, h⟩ else none

/-- Whether a byte is the code of a label character: space, hyphen, a digit or a capital letter
(R26, R205). -/
def isLabelCharacter (b : Byte) : Bool :=
  b == 0x20 || b == 0x2D || (0x30 ≤ b.toNat && b.toNat ≤ 0x39) ||
    (0x41 ≤ b.toNat && b.toNat ≤ 0x5A)

/-- The eight label bytes at an offset (Table 12-4). -/
def labelAt (p : List Byte) (i : Nat) : Label := tabulate 8 (fun k => (p[i + k]?).getD 0)

/-- The position of the first byte of a label that is not a label character (R27). -/
def badLabelPosition (l : Label) : Option Nat := l.toList.findIdx? (fun b => !isLabelCharacter b)

end Sys2Proof.Machine
end

