-- ==== Sys2Proof/Machine/EngineRequests.lean ====
section
/-! DEFINITION. The requests that direct the engine (sections 7.3 and 8.6), Abort Frame (R133), and the
take of the queue head (R121 to R124). -/

namespace Sys2Proof.Machine

/-! ### Abort Frame (R133) -/

/-- Whether an expected open sequence is carried and differs from the active slot's (R133). -/
def State.abortGuardFails (s : State) (p : List Byte) : Bool :=
  byteAt p 0 == 1 && s.es.exposure.map (·.openSeq) != some (longAt p 4)

/-- The open sequence of the active slot, 0 where there is none. -/
def State.activeSequence (s : State) : Nat :=
  match s.es.exposure with
  | none => 0
  | some e => e.openSeq

/-- ES raises OPERATOR on an Abort Frame accepted in EXPOSING or PAUSED; the reply is DONE on the
event (R133). -/
def decideAbortFrame : Decision := fun s tag p =>
  if s.es.engine ≠ .exposing ∧ s.es.engine ≠ .paused then s.refuse tag .abortFrame .wrongState
  else if 1 < byteAt p 0 then s.refuse tag .abortFrame .badValue
  else if s.abortGuardFails p then
    s.refuse tag .abortFrame .staleSlot 0 (.activeSequence s.activeSequence)
  else (s.raise (.operator s.activeSequence)).done tag .abortFrame

/-- ABORT_FRAME (R133). -/
def execAbortFrame (s : State) : Host.Outcome State Fault Refusal :=
  run s (fun t => t.onRequest .abortFrame decideAbortFrame)

/-! ### Start and Resume (R114, R117) -/

/-- The stage is commanded to home (R114, R128). -/
def State.homeStage (s : State) : State :=
  (s.setEs { s.es with stage := .homing }).command .stageHome

/-- Entry to STARTING (R114): the polygon is run, the lasers enabled, the stage homed, the gate clamped
if it is RELEASED, and the start timer started; no fault stays in hand (R168). -/
def State.enterStarting (s : State) : State :=
  let t := s.polygonRun.laserEnable.homeStage.clampGate
  ((t.setEs { t.es with startTimer := some Config.startTime }).setInHand none).setEngine .starting

/-- The decision of Start Engine and Resume Engine, accepted in one engine state each: the state and
the pending reply, then the conditions (R113, R114, R117). -/
def State.decideStart (s : State) (tag : Option Nat) (q : Request) (from_ : Engine) (filmPresent : Bool) :
    State :=
  if s.es.engine ≠ from_ ∨ s.es.replies.start.isSome then s.refuse tag q .wrongState
  else if s.pl.interlockOpen ∨ filmPresent = false then
    s.refuse tag q .condition 0 (.conditions s.pl.interlockOpen (!filmPresent))
  else (s.setPending .start (some ⟨q, tag⟩)).enterStarting

/-- START_ENGINE (R114). -/
def execStartEngine (filmPresent : Bool) (s : State) : Host.Outcome State Fault Refusal :=
  run s (fun t => t.onRequest .startEngine
    (fun u tag _ => u.decideStart tag .startEngine .offline filmPresent))

/-- RESUME_ENGINE (R117). -/
def execResumeEngine (filmPresent : Bool) (s : State) : Host.Outcome State Fault Refusal :=
  run s (fun t => t.onRequest .resumeEngine
    (fun u tag _ => u.decideStart tag .resumeEngine .halted filmPresent))

/-! ### Stop (R118) -/

/-- The engine states in which a Stop Engine waits for the frame or the advance in hand (R118). -/
def Engine.stopsLater : Engine → Bool
  | .preparing => true
  | .exposing => true
  | .paused => true
  | .finishing => true
  | .advancing => true
  | .aborting => true
  | _ => false

/-- ES decides a Stop Engine by the engine state (R113, R118). -/
def decideStopEngine : Decision := fun s tag _ =>
  let t := s.setPending .stop (some ⟨.stopEngine, tag⟩)
  if s.es.replies.stop.isSome ∨ s.es.stopPending ∨ s.es.engine = .offline ∨
      s.es.engine = .stopping then s.refuse tag .stopEngine .wrongState
  else if s.es.engine.stopsLater then t.setEs { t.es with stopPending := true }
  else if s.es.engine = .starting then t.enterStopping.failReply .start .abandoned 0
  else t.enterStopping

/-- STOP_ENGINE (R118). -/
def execStopEngine (s : State) : Host.Outcome State Fault Refusal :=
  run s (fun t => t.onRequest .stopEngine decideStopEngine)

/-! ### Reset (R120) -/

/-- Steps 1 to 3 of an accepted Reset: the lasers are disabled, the shutter is commanded closed, and
the stage, the wheels and the film transport are stopped (R120). -/
def State.resetMechanisms (s : State) : State :=
  s.laserDisable.closeShutter.stopStage.stopWheels.stopGate

/-- Step 4: every other pending reply is FAILED ABANDONED, in the order start, stop, advance, reset
(R192), and the Reset's own becomes the pending reset reply (R120). -/
def State.abandonReplies (s : State) (tag : Option Nat) : State :=
  let n := s.blankCompleted
  ((((s.failReply .start .abandoned n).failReply .stop .abandoned n).failReply .advance .abandoned
    n).failReply .reset .abandoned n).setPending .reset (some ⟨.resetEngine, tag⟩)

/-- Step 5: stop-pending and deferred-halt clear, the pause and start timers stop, and no fault stays
in hand (R120, R168). -/
def State.clearFlags (s : State) : State :=
  (s.setEs { s.es with
    stopPending := false, deferredHalt := none, pauseTimer := none, startTimer := none }).setInHand
      none

/-- Step 6: the frame or the blank advance in hand ends, by the engine state (R120). -/
def State.endInHand (s : State) : State :=
  match s.es.engine with
  | .preparing => s.returnFrame
  | .exposing => s.spoilFrame .reset
  | .paused => s.spoilFrame .reset
  | .finishing => s.spoilFrame .reset
  | .aborting => s.spoilFrame .reset
  | .advancing => s.endBlankEarly
  | _ => s

/-- Step 7: STOPPING is entered, unless the engine is already STOPPING (R120). -/
def State.resetToStopping (s : State) : State :=
  if s.es.engine = .stopping then s else s.enterStopping

/-- ES carries out an accepted Reset Engine, step by step (R120). -/
def decideResetEngine : Decision := fun s tag _ =>
  ((((s.resetMechanisms).abandonReplies tag).clearFlags).endInHand).resetToStopping

/-- RESET_ENGINE (R120). -/
def execResetEngine (s : State) : Host.Outcome State Fault Refusal :=
  run s (fun t => t.onRequest .resetEngine decideResetEngine)

/-! ### Advance Film (R150) -/

/-- An accepted Advance Film: the reservation, the blank advance record, the pending reply, ADVANCING
and the first pull-down (R150). -/
def State.beginBlank (s : State) (tag : Option Nat) (n : Nat) : State :=
  let t := (s.reserve .blank).setPending .advance (some ⟨.advanceFilm, tag⟩)
  ((t.setTc { t.tc with blank := some ⟨n, 0, t.tc.footage⟩ }).setEngine .advancing).pullDown

/-- ES and TC decide an Advance Film in the order of R150. -/
def decideAdvanceFilm : Decision := fun s tag p =>
  let n := byteAt p 0
  if Config.logPlaces ≤ s.rl.load then s.refuse tag .advanceFilm .logFull
  else if n < 1 ∨ 16 < n then s.refuse tag .advanceFilm .badValue
  else if s.es.engine ≠ .ready ∨ s.es.replies.advance.isSome then
    s.refuse tag .advanceFilm .wrongState
  else s.beginBlank tag n

/-- ADVANCE_FILM (R150). -/
def execAdvanceFilm (s : State) : Host.Outcome State Fault Refusal :=
  run s (fun t => t.onRequest .advanceFilm decideAdvanceFilm)

/-! ### The take (R121 to R124) -/

/-- The exposure record at the take (R122, Table 7-5). -/
def newExposure (slot : Fin 4) (r : SlotRecord) (trims : Rgb Int) : ExposureRecord where
  slot := slot
  openSeq := r.openSeq
  profile := r.profile
  line := 0
  exposed := 0
  defects := 0
  pauses := 0
  clips := Rgb.all ⟨0, 0⟩
  trims := trims
  marked := false

/-- A wheel sent to its target, unless it stands there already (R123). -/
def Wheel.aim (w : Wheel) (target : Nat) : Wheel :=
  if w.position = some target then w else { w with move := some (target, Config.wheelTime) }

/-- Command a wheel that does not stand at its target to move (R123). -/
def State.aimWheel (s : State) (c : Channel) (target : Nat) : State :=
  if (s.es.wheels.get c).position = some target then s
  else
    (s.setEs { s.es with wheels := s.es.wheels.set c ((s.es.wheels.get c).aim target) }).command
      (.wheelMove c target)

/-- Every wheel is aimed at the filter range of its channel (R122, R123). -/
def State.aimWheels (s : State) (targets : Rgb Nat) : State :=
  ((s.aimWheel .red targets.r).aimWheel .green targets.g).aimWheel .blue targets.b

/-- The stage is commanded to return to line 0, with its 1000 ms timer (R124, R128). -/
def State.returnStage (s : State) : State :=
  (s.setEs { s.es with stage := .moving 0 (some Config.returnTime) }).command .stageReturn

/-- The stage is brought to line 0 at the take: it returns from another line, or from a step whose
timer has expired, and a step still timed is waited for (R124). -/
def State.bringStage (s : State) : State :=
  match s.es.stage with
  | .settled n => if n = 0 then s else s.returnStage
  | .moving _ none => s.returnStage
  | .moving _ (some _) => s
  | .unhomed => s
  | .homing => s

/-- A pull-down if gate-used is set at the take (R124). -/
def State.freshFilm (s : State) : State := if s.tc.gateUsed then s.pullDown else s

/-- The take of the queue head: PREPARING is entered with its preparations (R18, R122 to R124). -/
def State.takeSlot (s : State) (i : Fin 4) (rest : List (Fin 4)) (r : SlotRecord) : State :=
  let t := ((((s.setQueue rest).setPhase i .active).reserve (.frame i)).fillFrameLatch r.profile)
  let t := (t.setEs { t.es with exposure := some (newExposure i r t.du.rollTrims) }).setEngine
    .preparing
  (((t.aimWheels (t.pt.profiles[r.profile].channels.map (·.range))).freshFilm).bringStage).checkPreparing

/-- Whether READY takes the queue head (R121). -/
def State.takes (s : State) : Bool :=
  s.es.engine == .ready && s.logHasRoom && !s.es.stopPending

/-- READY takes the queue head when the conditions of R121 hold together. -/
def State.takeHeadSlot (s : State) : State :=
  match s.fs.queue with
  | [] => s
  | i :: rest =>
    match s.slot i with
    | none => s
    | some r => if s.takes then s.takeSlot i rest r else s

/-- QUEUE_TAKE (R121). -/
def execQueueTake (s : State) : Host.Outcome State Fault Refusal := run s State.takeHeadSlot

end Sys2Proof.Machine
end

