-- ==== Sys2Proof/Machine/EngineEvents.lean ====
section
/-! DEFINITION. The events of the engine's timers and of the mechanisms ES commands itself (chapter 7): the
start, stop and pause timers, the tachometer, the filter wheels and the stage. -/

namespace Sys2Proof.Machine

/-! ### Start, stop and pause timers -/

/-- The start timer expires: START_TIMEOUT is raised with the wait reason as it stood (R116). -/
def State.expireStart (s : State) : State :=
  if s.es.startTimer.isSome then
    (s.setEs { s.es with startTimer := none }).raise (.startTimeout s.waitReason)
  else s

/-- START_TIMER_EXPIRY (R116). -/
def execStartTimerExpiry (s : State) : Host.Outcome State Fault Refusal :=
  run s State.expireStart

/-- The tachometer reports the polygon stopped: STOPPING enters OFFLINE (R119). -/
def State.polygonAtRest (s : State) : State :=
  if s.es.engine = .stopping then s.enterOffline else s

/-- POLYGON_STOPPED (R119). -/
def execPolygonStopped (s : State) : Host.Outcome State Fault Refusal := run s State.polygonAtRest

/-- The stop timer expires: STOPPING enters OFFLINE (R119). -/
def State.expireStop (s : State) : State :=
  if s.es.engine = .stopping ∧ s.es.stopTimer.isSome then s.enterOffline else s

/-- STOP_TIMER_EXPIRY (R119). -/
def execStopTimerExpiry (s : State) : Host.Outcome State Fault Refusal := run s State.expireStop

/-- The pause timer expires: PAUSE_TIMEOUT is raised with the tripped channels (R132). -/
def State.expirePause (s : State) : State :=
  if s.es.pauseTimer.isSome then
    (s.setEs { s.es with pauseTimer := none }).raise (.pauseTimeout s.trippedSet)
  else s

/-- PAUSE_TIMER_EXPIRY (R132). -/
def execPauseTimerExpiry (s : State) : Host.Outcome State Fault Refusal :=
  run s State.expirePause

/-! ### The filter wheels (R123) -/

/-- Replace one wheel. -/
def State.setWheel (s : State) (c : Channel) (w : Wheel) : State :=
  s.setEs { s.es with wheels := s.es.wheels.set c w }

/-- A wheel reports in position: its move ends at the target, and PREPARING reads its conditions
(R123, R125). -/
def State.wheelArrived (s : State) (c : Channel) : State :=
  match (s.es.wheels.get c).move with
  | none => s
  | some (target, _) => (s.setWheel c ⟨some target, none⟩).checkPreparing

/-- WHEEL_IN_POSITION (R123). -/
def execWheelInPosition (channel : Channel) (s : State) : Host.Outcome State Fault Refusal :=
  run s (fun t => t.wheelArrived channel)

/-- A wheel's timer expires: the wheel is stopped at UNKNOWN and FILTER_TIMEOUT is raised (R123). -/
def State.wheelExpired (s : State) (c : Channel) : State :=
  match (s.es.wheels.get c).move with
  | none => s
  | some (target, _) =>
    ((s.setWheel c ⟨none, none⟩).command (.wheelStop c)).raise (.filterTimeout c target)

/-- WHEEL_TIMER_EXPIRY (R123). A FILTER_TIMEOUT that waits is taken first, which stops every other move. -/
def execWheelTimerExpiry (channel : Channel) (s : State) : Host.Outcome State Fault Refusal :=
  runAfter FaultKind.beforeWheel s (fun t => t.wheelExpired channel)

/-! ### The stage (R128) -/

/-- Replace the stage. -/
def State.setStage (s : State) (x : Stage) : State := s.setEs { s.es with stage := x }

/-- The stage reports home: HOMING becomes SETTLED at line 0, and STARTING reads its conditions
(R115, R128). -/
def State.stageHomed (s : State) : State :=
  if s.es.stage = .homing then (s.setStage (.settled 0)).checkStarting else s

/-- STAGE_HOME_REPORT (R128). -/
def execStageHomeReport (s : State) : Host.Outcome State Fault Refusal :=
  runAfter FaultKind.beforeStart s State.stageHomed

/-- The stage reports in position: it is SETTLED at its target. In PREPARING another line than 0 calls
for the return, and line 0 meets the STAGE condition (R124, R125, R128). -/
def State.stageArrived (s : State) : State :=
  match s.es.stage with
  | .moving l _ =>
    let t := s.setStage (.settled l)
    if s.es.engine = .preparing ∧ l ≠ 0 then t.returnStage else t.checkPreparing
  | _ => s

/-- STAGE_IN_POSITION (R128). -/
def execStageInPosition (s : State) : Host.Outcome State Fault Refusal := run s State.stageArrived

/-- The stage's settle timer expires: STAGE_TIMEOUT is raised with the target line, and the stage
stays MOVING (R128). In PREPARING a step of an earlier frame has been waited for, and the return is then commanded
(R124), on the same event: DEDUCED 31. -/
def State.stageExpired (s : State) : State :=
  match s.es.stage with
  | .moving l (some _) =>
    let t := (s.setStage (.moving l none)).raise (.stageTimeout l)
    if s.es.engine = .preparing ∧ l ≠ 0 then t.returnStage else t
  | _ => s

/-- STAGE_TIMER_EXPIRY (R128). -/
def execStageTimerExpiry (s : State) : Host.Outcome State Fault Refusal :=
  run s State.stageExpired

end Sys2Proof.Machine
end

