-- ==== Sys2Proof/Machine/Admission.lean ====
section
/-! DEFINITION. The Admission Table (chapter 2): the match and the search (R31 to R35), Write Rule (R27,
R28) and Read Rule (R30). -/

namespace Sys2Proof.Machine

/-! ### Matching (R31, R32) -/

/-- The key test: under the mask, the frame key equals the rule's key (R31). -/
def Rule.keyMatches (r : Rule) (key : Key) : Bool := (key ^^^ r.key) &&& r.mask == 0

/-- The height test (R31). -/
def Rule.heightMatches (r : Rule) (height : Nat) : Bool := r.minHeight == 0 || r.minHeight ≤ height

/-- A rule matches an Open Frame: valid, and both tests pass (R31). -/
def Rule.matches (r : Rule) (key : Key) (height : Nat) : Bool :=
  r.valid && r.keyMatches key && r.heightMatches height

/-- The search: the lowest index of the rules that match (R32). -/
def Admission.search (t : Admission) (key : Key) (height : Nat) : Option (Fin 32) :=
  (List.finRange 32).find? (fun i => t.rules[i].matches key height)

/-- A valid rule that passes the key test and fails the height test (R33). -/
def Rule.fallsByHeight (r : Rule) (key : Key) (height : Nat) : Bool :=
  r.valid && r.keyMatches key && !r.heightMatches height

/-- The height-fall count and the lowest index of such a rule (R33). -/
def Admission.heightFalls (t : Admission) (key : Key) (height : Nat) : Nat × Option Nat :=
  ((List.finRange 32).countP (fun i => t.rules[i].fallsByHeight key height),
   ((List.finRange 32).find? (fun i => t.rules[i].fallsByHeight key height)).map (·.val))

/-! ### Write Rule and Read Rule -/

/-- The rule a Write Rule carries, with the profile index already checked (Table 12-4). -/
def ruleAt (p : List Byte) (profile : Fin 8) : Rule where
  valid := byteAt p 1 == 1
  key := BitVec.ofNat 32 (longAt p 4)
  mask := BitVec.ofNat 32 (longAt p 8)
  profile := profile
  label := labelAt p 12
  minHeight := wordAt p 20

/-- Replace every field of a rule (R28). -/
def State.setRule (s : State) (i : Fin 32) (r : Rule) : State :=
  { s with admission := { s.admission with rules := s.admission.rules.set i r } }

/-- AT writes a rule whose fields are in range, unless its label holds another byte
(Table 2-2, check 5; R28). -/
def State.writeRule (s : State) (tag : Option Nat) (i : Fin 32) (r : Rule) : State :=
  match badLabelPosition r.label with
  | some k => s.refuse tag .writeRule .invalidLabel 0 (.labelPosition k)
  | none => (s.setRule i r).done tag .writeRule (.count (s.admittedUnder i))

/-- AT checks a Write Rule in the order of Table 2-2 (R27). -/
def decideWriteRule : Decision := fun s tag p =>
  match index? (byteAt p 0) 32 with
  | none => s.refuse tag .writeRule .badValue 0
  | some i =>
    if 1 < byteAt p 1 then s.refuse tag .writeRule .badValue 1
    else
      match index? (byteAt p 2) 8 with
      | none => s.refuse tag .writeRule .badValue 2
      | some k =>
        if Config.maxHeight < wordAt p 20 then s.refuse tag .writeRule .badValue 20
        else s.writeRule tag i (ruleAt p k)

/-- WRITE_RULE (R28). -/
def execWriteRule (s : State) : Host.Outcome State Fault Refusal :=
  run s (fun t => t.onRequest .writeRule decideWriteRule)

/-- AT answers a rule as stored, with the count of slots admitted under its index (R30). -/
def decideReadRule : Decision := fun s tag p =>
  match index? (byteAt p 0) 32 with
  | none => s.refuse tag .readRule .badValue
  | some i => s.done tag .readRule (.rule i.val s.admission.rules[i] (s.admittedUnder i))

/-- READ_RULE (R30). -/
def execReadRule (s : State) : Host.Outcome State Fault Refusal :=
  run s (fun t => t.onRequest .readRule decideReadRule)

end Sys2Proof.Machine
end

