-- ==== Sys2Proof/Machine/Frames.lean ====
section
/-! DEFINITION. The requests of the Frame Store (chapter 1): Open, Close, Discard and Requeue Frame. -/

namespace Sys2Proof.Machine

/-! ### Open Frame (R4 to R8) -/

/-- The geometry check (Table 1-3, R6). -/
def State.geometryFits (s : State) (width height : Nat) : Bool :=
  1 ≤ width && width ≤ Config.maxWidth && 1 ≤ height && height ≤ Config.maxHeight &&
    s.stu.params.l0 + width ≤ s.stu.params.nsp

/-- Whether a non-FREE slot holds a frame key (R7). -/
def State.holdsKey (s : State) (key : Key) : Bool :=
  s.fs.slots.toList.any (fun r => match r with | none => false | some r => r.key == key)

/-- The lowest-numbered FREE slot (R8). -/
def State.freeSlotIndex (s : State) : Option (Fin 4) :=
  (List.finRange 4).find? (fun i => (s.slot i).isNone)

/-- The record of a slot just opened (R8). -/
def openedSlot (key : Key) (width height : Nat) (i : Fin 32) (r : Rule) (openSeq : Nat) :
    SlotRecord where
  phase := .filling
  key := key
  width := width
  height := height
  rule := i
  profile := r.profile
  label := r.label
  presence := List.replicate height false
  presenceCount := 0
  rewrites := 0
  openSeq := openSeq

/-- FS fills a slot: the Open counter rises, the slot becomes FILLING and the profile's count rises
by 1 (R4, R8, R49). -/
def State.fillSlot (s : State) (slot : Fin 4) (key : Key) (width height : Nat) (i : Fin 32) : State :=
  let n := nextNumber s.fs.openCounter
  let r := s.admission.rules[i]
  (({ s with fs := { s.fs with openCounter := n } }).setSlot slot
    (some (openedSlot key width height i r n))).setRefs r.profile (· + 1)

/-- An Open Frame whose winning rule is known: the profile check, the slot check and the acceptance
(R34, R35, R8). -/
def State.openUnder (s : State) (tag : Option Nat) (key : Key) (width height : Nat) (i : Fin 32) : State :=
  let profile := s.admission.rules[i].profile
  if s.pt.profiles[profile].valid = false then
    s.refuse tag .openFrame .profileEmpty 0 (.emptyProfile i profile)
  else
    match s.freeSlotIndex with
    | none => s.refuse tag .openFrame .noSlot
    | some slot =>
      (s.fillSlot slot key width height i).done tag .openFrame
        (.opened slot i (nextNumber s.fs.openCounter))

/-- FS and AT decide an Open Frame in the order of Table 1-3 (R5). -/
def State.openFrame (s : State) (tag : Option Nat) (key : Key) (width height : Nat) : State :=
  if s.geometryFits width height = false then s.refuse tag .openFrame .badGeometry
  else if s.holdsKey key then s.refuse tag .openFrame .duplicateKey
  else
    match s.admission.search key height with
    | none =>
      s.refuse tag .openFrame .noRule 0
        (.heightFalls (s.admission.heightFalls key height).1 (s.admission.heightFalls key height).2)
    | some i => s.openUnder tag key width height i

/-- Open Frame (R5, Table 12-3). -/
def decideOpenFrame : Decision := fun s tag p =>
  s.openFrame tag (BitVec.ofNat 32 (longAt p 0)) (wordAt p 4) (wordAt p 6)

/-- OPEN_FRAME (R5). -/
def execOpenFrame (s : State) : Host.Outcome State Fault Refusal :=
  run s (fun t => t.onRequest .openFrame decideOpenFrame)

/-! ### The common checks (R12) -/

/-- Whether the guard of a request meets a slot's open sequence (R12). -/
def State.guardFails (s : State) (i : Fin 4) (p : List Byte) : Bool :=
  byteAt p 1 == 1 &&
    (match s.slot i with
    | none => true
    | some r => r.openSeq != longAt p 4)

/-- The three common checks of Close, Discard and Requeue Frame, then the request's own (R12). -/
def State.addressSlot (s : State) (tag : Option Nat) (q : Request) (p : List Byte) (own : Fin 4 → State) :
    State :=
  match index? (byteAt p 0) 4 with
  | none => s.refuse tag q .badValue 0
  | some i =>
    if 1 < byteAt p 1 then s.refuse tag q .badValue 1
    else if s.guardFails i p then
      s.refuse tag q .staleSlot 0
        (.stale ((s.slot i).map (·.phase)) ((s.slot i).map (·.openSeq)))
    else own i

/-- The SLOT_STATE refusal, with the slot's state as its data. R13 and R15 list that data for Close and
Requeue Frame; for Discard Frame R14 lists none, and the model sends the state there too: DESIGN CHOICE
14. -/
def State.refuseSlotState (s : State) (tag : Option Nat) (q : Request) (i : Fin 4) : State :=
  s.refuse tag q .slotState 0 (.slotState ((s.slot i).map (·.phase)))

/-! ### Close Frame (R13) -/

/-- The number of lines a slot misses and the lowest of them (R13). -/
def SlotRecord.missing (r : SlotRecord) : Nat × Nat :=
  (r.height - r.presenceCount, r.presence.findIdx (fun b => !b))

/-- A Close Frame that passes the common checks (R13). -/
def State.closeSlot (s : State) (tag : Option Nat) (i : Fin 4) : State :=
  match s.slot i with
  | none => s.refuseSlotState tag .closeFrame i
  | some r =>
    if r.phase ≠ .filling then s.refuseSlotState tag .closeFrame i
    else if r.presenceCount < r.height then
      s.refuse tag .closeFrame .missingLines 0 (.missing r.missing.1 r.missing.2)
    else
      (s.joinTail i).done tag .closeFrame (.closed s.fs.queue.length r.rewrites)

/-- Close Frame (R12, R13). -/
def decideCloseFrame : Decision := fun s tag p =>
  s.addressSlot tag .closeFrame p (fun i => s.closeSlot tag i)

/-- CLOSE_FRAME (R13). -/
def execCloseFrame (s : State) : Host.Outcome State Fault Refusal :=
  run s (fun t => t.onRequest .closeFrame decideCloseFrame)

/-! ### Discard Frame (R14) -/

/-- A slot leaves the queue at whatever position it holds (R14). -/
def State.leaveQueue (s : State) (i : Fin 4) : State := s.setQueue (s.fs.queue.filter (· ≠ i))

/-- QUEUE_EMPTY on a Discard Frame that empties the queue while the engine is READY (R121). -/
def State.noticeEmptied (s : State) : State :=
  if s.es.engine = .ready ∧ s.fs.queue = [] then s.notice .queueEmpty else s

/-- A Discard Frame that passes the common checks, by slot state (Table 1-5, R14). -/
def State.discardSlot (s : State) (tag : Option Nat) (i : Fin 4) : State :=
  match s.slot i with
  | none => s.refuseSlotState tag .discardFrame i
  | some r =>
    match r.phase with
    | .filling => (s.freeSlot i).done tag .discardFrame
    | .queued => (((s.freeSlot i).leaveQueue i).noticeEmptied).done tag .discardFrame
    | .active => s.refuse tag .discardFrame .inUse
    | .held => (s.freeSlot i).done tag .discardFrame

/-- Discard Frame (R12, R14). -/
def decideDiscardFrame : Decision := fun s tag p =>
  s.addressSlot tag .discardFrame p (fun i => s.discardSlot tag i)

/-- DISCARD_FRAME (R14). -/
def execDiscardFrame (s : State) : Host.Outcome State Fault Refusal :=
  run s (fun t => t.onRequest .discardFrame decideDiscardFrame)

/-! ### Requeue Frame (R15) -/

/-- A Requeue Frame that passes the common checks: a HELD slot joins the queue at the head (R15). -/
def State.requeueSlot (s : State) (tag : Option Nat) (i : Fin 4) : State :=
  match s.slot i with
  | none => s.refuseSlotState tag .requeueFrame i
  | some r =>
    if r.phase = .held then (s.joinHead i).done tag .requeueFrame (.position 0)
    else s.refuseSlotState tag .requeueFrame i

/-- Requeue Frame (R12, R15). -/
def decideRequeueFrame : Decision := fun s tag p =>
  s.addressSlot tag .requeueFrame p (fun i => s.requeueSlot tag i)

/-- REQUEUE_FRAME (R15). -/
def execRequeueFrame (s : State) : Host.Outcome State Fault Refusal :=
  run s (fun t => t.onRequest .requeueFrame decideRequeueFrame)

end Sys2Proof.Machine
end

