-- ==== Sys2Proof/Machine/GateEvents.lean ====
section
/-! DEFINITION. The events of the film mechanisms (chapter 8): the gate and the pull-down, the shutter and
the edge-print head. -/

namespace Sys2Proof.Machine

/-! ### The stages of a gate operation (R139 to R142) -/

/-- The clamp confirms open: RELEASING becomes PULLING, and the motor runs one cycle (R139). -/
def State.clampOpened (s : State) : State :=
  if s.tc.gate = .releasing then (s.setTc { s.tc with gate := .pulling }).command .motorCycle else s

/-- CLAMP_OPEN_CONFIRMATION (R139). -/
def execClampOpenConfirmation (s : State) : Host.Outcome State Fault Refusal :=
  run s State.clampOpened

/-- A perforation edge in PULLING raises the count, up to 255 (R140). -/
def State.perforation (s : State) : State :=
  if s.tc.gate = .pulling then
    s.setTc { s.tc with perforations := saturate 255 (s.tc.perforations + 1) }
  else s

/-- PERFORATION_EDGE (R140). -/
def execPerforationEdge (s : State) : Host.Outcome State Fault Refusal := run s State.perforation

/-- A gate operation fails: the effects of R143 (the drives are stopped where they stand), then the
BLANK record or the release of a blank advance that ends with it (R152), then its fault is raised. -/
def State.failGate (s : State) (outcome : GateOutcome) (f : GateOp → FaultReport) : State :=
  match s.tc.op with
  | none => s
  | some op =>
    (((s.setTc (s.tc.fail op outcome)).command .transportStop).closeBlank).raise (f op)

/-- TRANSPORT as TC raises it, with the gate state the operation stood in (Table 9-4): R142 says so of
TIMEOUT, and for COUNT it is PULLING by DEDUCED 28. -/
def State.transportFault (s : State) (cause : TransportCause) (op : GateOp) : FaultReport :=
  .transport cause s.tc.gate s.tc.perforations op

/-- The motor reports its cycle end in PULLING: a count of 4 goes on to CLAMPING, and any other fails
the pull-down with COUNT (R139, R140). -/
def State.cycleEnded (s : State) : State :=
  if s.tc.gate = .pulling then
    if s.tc.perforations = Config.framePerforations then
      (s.setTc { s.tc with gate := .clamping }).command .clampClose
    else s.failGate .count (s.transportFault .count)
  else s

/-- CYCLE_END (R140). -/
def execCycleEnd (s : State) : Host.Outcome State Fault Refusal := run s State.cycleEnded

/-- The clamp confirms closed in CLAMPING: with film the gate settles for 40 ms, and without it the
operation fails with FILM_END (R141, R144). -/
def State.clampClosed (s : State) (filmPresent : Bool) : State :=
  if s.tc.gate = .clamping then
    if filmPresent then
      s.setTc { s.tc with gate := .settling, settleTimer := some Config.gateSettleTime }
    else s.failGate .filmEnd (fun op => .filmEnd s.tc.perforations op)
  else s

/-- CLAMP_CLOSED_CONFIRMATION (R141). -/
def execClampClosedConfirmation (filmPresent : Bool) (s : State) :
    Host.Outcome State Fault Refusal :=
  run s (fun t => t.clampClosed filmPresent)

/-- The blank advance ends on its last pull-down (R151): the BLANK record is appended, the blank
advance record becomes absent, the reply is DONE, and the engine leaves ADVANCING. -/
def State.endBlank (s : State) (b : BlankAdvance) : State :=
  let t := (s.append b.start (.blank b.completed)).dropBlank
  (t.endReply .advance
    { outcome := .done, data := .advanced b.completed t.tc.footage }).endAdvancing

/-- A pull-down of a blank advance is completed: the next is commanded, or the advance ends (R151). -/
def State.countBlank (s : State) (b : BlankAdvance) : State :=
  let b := { b with completed := b.completed + 1 }
  if b.completed < b.count then (s.setTc { s.tc with blank := some b }).pullDown
  else s.endBlank b

/-- ES takes the completion of a pull-down: PREPARING reads its conditions (R124, R125), and ADVANCING
goes on with its blank advance or ends (R135, R151). -/
def State.pulledDown (s : State) : State :=
  if s.es.engine = .advancing then
    match s.tc.blank with
    | none => s.endAdvancing
    | some b => s.countBlank b
  else s.checkPreparing

/-- The settle timer of the gate expires: the operation completes with the gate CLAMPED (R141,
R144). -/
def State.gateSettled (s : State) : State :=
  if s.tc.gate = .settling ∧ s.tc.settleTimer.isSome then
    match s.tc.op with
    | none => s
    | some .pullDown => (s.setTc s.tc.completePullDown).pulledDown
    | some .clamp => (s.setTc s.tc.completeClamp).checkStarting
  else s

/-- GATE_SETTLE_EXPIRY (R141). -/
def execGateSettleExpiry (s : State) : Host.Outcome State Fault Refusal :=
  runAfter FaultKind.beforeStart s State.gateSettled

/-- The operation timer expires with an operation in flight, which fails with TIMEOUT (R142). -/
def State.operationExpired (s : State) : State :=
  if s.tc.opTimer.isSome then s.failGate .timeout (s.transportFault .timeout) else s

/-- OPERATION_TIMER_EXPIRY (R142). -/
def execOperationTimerExpiry (s : State) : Host.Outcome State Fault Refusal :=
  run s State.operationExpired

/-! ### The shutter (R145, R146) -/

/-- Whether a POWER_TRIP has been raised and not yet taken. -/
def State.tripWaits (s : State) : Bool := s.fu.raised.any (·.kind == .powerTrip)

/-- A channel that tripped after the shutter was commanded open is handled as a trip in EXPOSING: under
the response PAUSE the engine is PAUSED before the first scan begin (R125). DEDUCED 26: it pauses on
the confirmation itself, by the response then assigned, and no second fault is taken. A POWER_TRIP not yet taken
is applied in EXPOSING at its take (R162). -/
def State.pauseIfTripped (s : State) : State :=
  if s.allClear = false ∧ s.assigned .powerTrip = .pause ∧ s.tripWaits = false then s.enterPaused else s

/-- Exposure begins on the shutter's open confirmation in PREPARING: the frame mark is commanded, the
engine enters EXPOSING and FRAME_STARTED is sent (R125, R154). -/
def State.beginExposing (s : State) : State :=
  match s.es.exposure with
  | none => s
  | some e =>
    match s.slot e.slot with
    | none => s
    | some r =>
      (((s.print (frameMark r.label s.tc.footage)).setEngine .exposing).notice
        (.frameStarted e.slot r.key r.openSeq s.tc.footage)).pauseIfTripped

/-- The shutter confirms open while OPENING: it is OPEN, gate-used is set (R147), and PREPARING begins
exposure (R125, R145). -/
def State.shutterOpened (s : State) : State :=
  if s.tc.shutter = .opening then
    let t := s.setTc { s.tc with shutter := .opened, shutterTimer := none, gateUsed := true }
    if t.es.engine = .preparing then t.beginExposing else t
  else s

/-- SHUTTER_OPEN_CONFIRMATION (R145). -/
def execShutterOpenConfirmation (s : State) : Host.Outcome State Fault Refusal :=
  run s State.shutterOpened

/-- Whether the frame mark of the active frame has been reported printed (R154). -/
def State.markPrinted (s : State) : Bool :=
  match s.es.exposure with
  | none => false
  | some e => e.marked

/-- ABORTING on the closed confirmation: the spoil mark is commanded if the frame mark was printed, and
otherwise ABORTING ends (R155, R166). -/
def State.abortingClosed (s : State) : State :=
  if s.markPrinted then s.print (spoilMark s.tc.footage) else s.endAborting

/-- ES takes the report that the shutter is closed (R134, R146, R166; PREPARING, LOG 7). -/
def State.onClosed (s : State) : State :=
  match s.es.engine with
  | .finishing => s.finishFrame
  | .aborting => s.abortingClosed
  | _ => s.checkPreparing

/-- The shutter confirms closed while CLOSING (R146). -/
def State.shutterClosed (s : State) : State :=
  if s.tc.shutter = .closing then
    (s.setTc { s.tc with shutter := .closed, shutterTimer := none }).onClosed
  else s

/-- SHUTTER_CLOSED_CONFIRMATION (R146). -/
def execShutterClosedConfirmation (s : State) : Host.Outcome State Fault Refusal :=
  run s State.shutterClosed

/-- The direction in which a shutter is moving. -/
def Shutter.way : Shutter → Option ShutterWay
  | .opening => some .opening
  | .closing => some .closing
  | .closed => none
  | .opened => none

/-- The shutter timer expires: SHUTTER is raised with the direction (R145, R146). -/
def State.shutterExpired (s : State) : State :=
  if s.tc.shutterTimer.isSome then
    match s.tc.shutter.way with
    | none => s
    | some w => (s.setTc { s.tc with shutterTimer := none }).raise (.shutter w)
  else s

/-- SHUTTER_TIMER_EXPIRY (R146). -/
def execShutterTimerExpiry (s : State) : Host.Outcome State Fault Refusal := run s State.shutterExpired

/-! ### The edge-print head (R153 to R155, R166) -/

/-- The head ends its mark: it begins the pending print at once, or becomes IDLE (R153). -/
def State.headFree (s : State) : State :=
  match s.tc.pendingMark with
  | none => s.setTc { s.tc with head := .idle }
  | some m => (s.setTc { s.tc with pendingMark := none }).beginPrint m

/-- The frame mark of the standing exposure record is reported printed (R154). -/
def State.frameMarkPrinted (s : State) : State :=
  s.setEs { s.es with exposure := s.es.exposure.map (fun e => { e with marked := true }) }

/-- ES takes the report of a mark whose exposure record still stands: the frame mark is recorded, and
the spoil mark ends ABORTING (R154, R166). Any other report changes nothing in ES (LOG 8). -/
def State.onPrinted (s : State) (m : Mark) : State :=
  if m.live then
    match m.kind with
    | .frame => s.frameMarkPrinted
    | .spoil => if s.es.engine = .aborting then s.endAborting else s
  else s

/-- The head reports a mark printed (R153). -/
def State.markDone (s : State) : State :=
  match s.tc.head with
  | .idle => s
  | .printing m _ => s.headFree.onPrinted m

/-- EDGE_PRINT_DONE (R153). -/
def execEdgePrintDone (s : State) : Host.Outcome State Fault Refusal := run s State.markDone

end Sys2Proof.Machine
end

