-- ==== Sys2Proof/Machine/Link.lean ====
section
/-! DEFINITION. The Link Port's own commands (chapter 11): power-on, link up, link reset, the arrival of
a record, the records dropped or refused at intake, line records, Identify, Checkpoint and Set Notice
Mask. -/

namespace Sys2Proof.Machine

/-! ### Power-on and link (R3, R188, R198) -/

/-- POWER_ON_RESET (R3, R25, R39, R53, R74, R92, R111, R137, R157, R176, R187, R199): every block takes
its power-on state, the interlock that of the door sensor. What the part has put out, the commands
that wait and the number of free choices made stand outside the part (LOG 22). -/
def execPowerOnReset (doorOpen : Bool) (s : State) : Host.Outcome State Fault Refusal :=
  .next { State.powerOn doorOpen with
    fu := { FaultUnit.reset with choices := s.fu.choices }, out := s.out, pending := s.pending }

/-- The link first reaches its working state: UP, GO, HELLO with cause POWER_ON (R188, R196). -/
def State.bringUp (s : State) : State :=
  if s.lp.up then s
  else (({ s with lp := { s.lp with up := true } }).sendFlow .go).notice (.hello .powerOn)

/-- LINK_UP (R188). Once UP the link stays UP. -/
def execLinkUp (s : State) : Host.Outcome State Fault Refusal := run s State.bringUp

/-- A pending reply whose tag a link reset drops (R111, R198). -/
def dropTag (r : Option PendingReply) : Option PendingReply := r.map (fun r => { r with tag := none })

/-- Every pending long reply loses its tag (R111). -/
def PendingReplies.dropTags (p : PendingReplies) : PendingReplies :=
  ⟨dropTag p.start, dropTag p.stop, dropTag p.reset, dropTag p.advance⟩

/-- The input queue, the outstanding-request table and the two error records are cleared
(R198, steps 1 to 3); the record in hand stays, with its tag dropped. -/
def LinkPort.clear (l : LinkPort) : LinkPort :=
  { l with
    queue := [], outstanding := [], errors := 0, firstError := none, posted := ⟨0, none⟩
    held := l.held.map (fun h => { h with tagged := false }) }

/-- The effects of LINK RESET in the order of R198; while the link is DOWN no symbol arrives
(R188; LOG 18). A record in hand is still decided after it, without its tag. -/
def State.resetLink (s : State) : State :=
  if s.lp.up then
    let t := s.setEs { s.es with replies := s.es.replies.dropTags }
    (({ t with lp := t.lp.clear }).sendFlow .go).notice (.hello .linkReset)
  else s

/-- LINK_RESET (R198). -/
def execLinkReset (s : State) : Host.Outcome State Fault Refusal := run s State.resetLink

/-! ### Records (R189 to R191) -/

/-- A record is placed at the tail of the input queue, or dropped with QUEUE_OVERRUN; an arrival that
raises the occupancy to 12 while the flow state is GO sends HOLD (R189). -/
def State.arrive (s : State) (bytes : Record) : State :=
  if s.lp.up then
    if Config.inputQueuePlaces ≤ s.lp.queue.length then s.countError .queueOverrun
    else
      let t := { s with lp := { s.lp with queue := s.lp.queue ++ [bytes] } }
      if t.lp.queue.length = Config.holdLevel ∧ t.lp.flow = .go then t.sendFlow .hold else t
  else s

/-- RECORD_ARRIVAL (R189). -/
def execRecordArrival (bytes : List Byte) (s : State) : Host.Outcome State Fault Refusal :=
  run s (fun t => t.arrive bytes)

/-- LP drops the record at the head, with its reason counted (R190, R191). -/
def State.dropHead (s : State) : State :=
  match s.head with
  | some (.dropped e) => s.takeRecord.countError e
  | _ => s

/-- DROPPED_RECORD (R190). -/
def execDroppedRecord (s : State) : Host.Outcome State Fault Refusal := run s State.dropHead

/-- LP refuses the record at the head: of another kind, BAD_FORMAT with code 0; of an unknown code,
UNKNOWN_REQUEST with the code as received (R191, R204). -/
def State.refuseHead (s : State) : State :=
  match s.head with
  | some (.otherKind tag) => s.takeRecord.refuseIntake tag 0 .badFormat
  | some (.unknownRequest tag code) => s.takeRecord.refuseIntake tag code .unknownRequest
  | _ => s

/-- UNKNOWN_RECORD (R191). -/
def execUnknownRecord (s : State) : Host.Outcome State Fault Refusal := run s State.refuseHead

/-! ### Line records (R9 to R11) -/

/-- The reason a line record is refused, by the order of Table 1-4. -/
def State.lineRefusal (s : State) (slot line count : Nat) : Option LineReason :=
  match index? slot 4 with
  | none => some .badSlot
  | some i =>
    match s.slot i with
    | none => some .slotNotFilling
    | some r =>
      if r.phase ≠ .filling then some .slotNotFilling
      else if r.height ≤ line then some .lineRange
      else if count ≠ r.width then some .widthMismatch
      else none

/-- A refused line record is entered in the posted-error record (R10). -/
def State.postRefusal (s : State) (slot line : Nat) (reason : LineReason) : State :=
  { s with lp := { s.lp with posted :=
      ⟨saturate 65535 (s.lp.posted.count + 1),
       s.lp.posted.first.or (some ⟨slot, line, reason⟩)⟩ } }

/-- A slot record after a line is stored: a new line is marked and counted, a line already present
raises the rewrite count (R11). -/
def SlotRecord.mark (r : SlotRecord) (line : Nat) : SlotRecord :=
  if r.presence[line]?.getD false then { r with rewrites := saturate 65535 (r.rewrites + 1) }
  else { r with presence := r.presence.set line true, presenceCount := r.presenceCount + 1 }

/-- A line is stored into a slot: its pixels replace what the line held (R11). -/
def State.storeLine (s : State) (i : Fin 4) (line : Nat) (words : List Byte) : State :=
  match s.slot i with
  | none => s
  | some r =>
    let t := s.setSlot i (some (r.mark line))
    { t with fs := { t.fs with image := Memory.storeLine t.fs.image i line words } }

/-- FS stores or refuses a line record (R9). -/
def State.decideLine (s : State) (slot line count : Nat) (words : List Byte) : State :=
  match s.lineRefusal slot line count with
  | some reason => s.postRefusal slot line reason
  | none =>
    match index? slot 4 with
    | none => s
    | some i => s.storeLine i line words

/-- Whether a line that FS would store lies within the slot's image memory (R2). -/
def State.lineInRange (s : State) (slot line count : Nat) : Bool :=
  match s.lineRefusal slot line count with
  | some _ => true
  | none => count ≤ Config.maxWidth && line < Config.maxHeight

/-- LINE_RECORD (R9). A slot larger than the image memory, which no Open Frame makes (R5), stops the
model with `imagePosition` (LOG 19). -/
def execLineRecord (s : State) : Host.Outcome State Fault Refusal :=
  match s.head with
  | some (.line slot line count words) =>
    if s.lineInRange slot line count then
      .next (s.takeRecord.decideLine slot line count words).concluded
    else .fault .imagePosition
  | _ => .next s.concluded

/-! ### Identify, Checkpoint and Set Notice Mask -/

/-- LP answers Identify with the identity (R196). -/
def decideIdentify : Decision := fun s tag _ => s.done tag .identify .identity

/-- IDENTIFY (R196). -/
def execIdentify (s : State) : Host.Outcome State Fault Refusal :=
  run s (fun t => t.onRequest .identify decideIdentify)

/-- Both error records are cleared (R195). -/
def LinkPort.clearErrors (l : LinkPort) : LinkPort :=
  { l with errors := 0, firstError := none, posted := ⟨0, none⟩ }

/-- LP answers Checkpoint with both error records, and clears them (R195). -/
def decideCheckpoint : Decision := fun s tag _ =>
  ({ s with lp := s.lp.clearErrors }).done tag .checkpoint
    (.checkpoint s.lp.posted s.lp.errors s.lp.firstError)

/-- CHECKPOINT (R195). -/
def execCheckpoint (s : State) : Host.Outcome State Fault Refusal :=
  run s (fun t => t.onRequest .checkpoint decideCheckpoint)

/-- The number of entries a new mask level releases (R201). -/
def NoticeUnit.released (n : NoticeUnit) (m : Nat) : Nat := if m < n.mask then n.countAbove m else 0

/-- NU sets the mask level and releases what a lowered one no longer holds (R201). -/
def decideSetNoticeMask : Decision := fun s tag p =>
  let m := byteAt p 0
  if 6 < m then s.refuse tag .setNoticeMask .badValue
  else (s.setMask m).done tag .setNoticeMask (.mask s.nu.mask (s.nu.released m))

/-- SET_NOTICE_MASK (R201). -/
def execSetNoticeMask (s : State) : Host.Outcome State Fault Refusal :=
  run s (fun t => t.onRequest .setNoticeMask decideSetNoticeMask)

end Sys2Proof.Machine
end

