-- ==== Sys2Proof/Machine/LogReading.lean ====
section
/-! DEFINITION. Reading the roll log (section 10.5): Read Log with and without the repeat flag. -/

namespace Sys2Proof.Machine

/-- The records a removing Read Log takes (R184). -/
def RollLog.oldest (l : RollLog) (n : Nat) : List LogRecord := l.records.take n

/-- The log after a removing Read Log: the oldest records leave, and those taken, if any, become the
last batch (R184). -/
def RollLog.removeOldest (l : RollLog) (n : Nat) : RollLog :=
  { l with
    records := l.records.drop n
    lastBatch := if l.oldest n = [] then l.lastBatch else some (l.oldest n) }

/-- The data of a Read Log reply (R184, R185). -/
def RollLog.reply (l : RollLog) (records : List LogRecord) : ReplyData :=
  .log records l.records.length l.reservation l.lastSeq

/-- A Read Log whose repeat flag is not 1: a flag byte other than 0 and an n outside 1–8 are refused,
and otherwise the oldest records are removed and returned (R184). -/
def decideReadLog : Decision := fun s tag p =>
  let n := byteAt p 0
  if byteAt p 1 ≠ 0 then s.refuse tag .readLog .badValue 1
  else if n < 1 ∨ Config.logBatch < n then s.refuse tag .readLog .badValue 0
  else
    ({ s with rl := s.rl.removeOldest n }).done tag .readLog
      ((s.rl.removeOldest n).reply (s.rl.oldest n))

/-- Whether a Read Log payload asks for a repeat (R185, Table 12-3; LOG 16). -/
def asksRepeat (p : List Byte) : Bool := p.length == 2 && byteAt p 1 == 1

/-- READ_LOG (R184): a Read Log that asks for no repeat. -/
def execReadLog (s : State) : Host.Outcome State Fault Refusal :=
  run s (fun t => t.onRequestWhen .readLog (fun p => !asksRepeat p) decideReadLog)

/-- A Read Log with the repeat flag 1 returns the last batch again and removes nothing (R185). -/
def decideReadLogRepeat : Decision := fun s tag _ =>
  s.done tag .readLog (s.rl.reply (s.rl.lastBatch.getD []))

/-- READ_LOG_REPEAT (R185). -/
def execReadLogRepeat (s : State) : Host.Outcome State Fault Refusal :=
  run s (fun t => t.onRequestWhen .readLog asksRepeat decideReadLogRepeat)

end Sys2Proof.Machine
end

