-- ==== Sys2Proof/Machine/Parameters.lean ====
section
/-! DEFINITION. Set Parameter (R194) and the settings with requests of their own: roll trims (R69), facet
gains (R89), Restore Facets (R90), Set Footage (R149) and Set Fault Response (R158). -/

namespace Sys2Proof.Machine

/-! ### Parameters (Table 11-4, section 12.2) -/

/-- The parameters of Set Parameter (Table 11-4). -/
inductive Parameter where
  | tn
  | pn
  | tolerance
  | nsp
  | l0
  | target (channel : Channel)
  | deadband
  | steps
  | direction
  | persistence
  | settleTime
  | pauseTimeout
  | linePitch
  | knot (channel : Channel) (j : Fin 17)
  deriving DecidableEq, Repr

/-- The shading knot of an id above the ids of the other parameters: S_c[j] has id
0x0100 + 0x20 × c + j (12_record_layouts.md, 12.2). -/
def Parameter.ofKnotId (n : Nat) : Option Parameter :=
  match index? (n % 32) 17 with
  | none => none
  | some j =>
    if n / 32 = 8 then some (.knot .red j)
    else if n / 32 = 9 then some (.knot .green j)
    else if n / 32 = 10 then some (.knot .blue j)
    else none

/-- The parameter of an id (12_record_layouts.md, 12.2). -/
def Parameter.ofId : Nat → Option Parameter
  | 0x0001 => some .tn
  | 0x0002 => some .pn
  | 0x0003 => some .tolerance
  | 0x0004 => some .nsp
  | 0x0005 => some .l0
  | 0x0010 => some (.target .red)
  | 0x0011 => some (.target .green)
  | 0x0012 => some (.target .blue)
  | 0x0013 => some .deadband
  | 0x0014 => some .steps
  | 0x0015 => some .direction
  | 0x0016 => some .persistence
  | 0x0017 => some .settleTime
  | 0x0020 => some .pauseTimeout
  | 0x0021 => some .linePitch
  | n => Parameter.ofKnotId n

/-- Whether a value lies in a parameter's range (Tables 5-4, 6-2 and 11-4). Pn's lower bound is the
pair check. -/
def Parameter.inRange : Parameter → Nat → Bool
  | .tn, v => 10000 ≤ v && v ≤ 1000000
  | .pn, v => v ≤ 2000000
  | .tolerance, v => 1 ≤ v && v ≤ 500
  | .nsp, v => 4096 ≤ v && v ≤ 8192
  | .l0, v => 64 ≤ v && v ≤ 1023
  | .target _, v => 256 ≤ v && v ≤ 3840
  | .deadband, v => v ≤ 255
  | .steps, v => 1 ≤ v && v ≤ 31
  | .direction, v => v ≤ 2
  | .persistence, v => 1 ≤ v && v ≤ 15
  | .settleTime, v => 100 ≤ v && v ≤ 2000
  | .pauseTimeout, v => 100 ≤ v && v ≤ 10000
  | .linePitch, v => 1 ≤ v && v ≤ 64
  | .knot _ _, v => 2048 ≤ v && v ≤ 8191

/-- The engine states in which a parameter is accepted (Table 11-4). -/
def Parameter.acceptedIn (p : Parameter) (e : Engine) : Bool :=
  match p with
  | .knot _ _ => e != .locked
  | _ => e == .offline

/-- The pair check of R88: Pn stays above Tn. -/
def State.pairHolds (s : State) (p : Parameter) (v : Nat) : Bool :=
  match p with
  | .tn => v < s.stu.params.pn
  | .pn => s.stu.params.tn < v
  | _ => true

/-- Whether every non-FREE slot's width fits between image pixel 0 and the end of the scan (R6). -/
def State.widthsFit (s : State) (nsp l0 : Nat) : Bool :=
  s.fs.slots.toList.all (fun r => match r with | none => true | some r => l0 + r.width ≤ nsp)

/-- The width check of R6 on a change of Nsp or L0. -/
def State.geometryHolds (s : State) (p : Parameter) (v : Nat) : Bool :=
  match p with
  | .nsp => s.widthsFit v s.stu.params.l0
  | .l0 => s.widthsFit s.stu.params.nsp v
  | _ => true

/-- The code of a window direction (12_record_layouts.md, 12.2). -/
def Direction.code : Direction → Nat
  | .low => 0
  | .high => 1
  | .both => 2

/-- The window direction of a code (12_record_layouts.md, 12.2). -/
def Direction.ofCode (v : Nat) : Direction := if v = 0 then .low else if v = 1 then .high else .both

/-- The value a parameter holds. -/
def State.parameter (s : State) : Parameter → Nat
  | .tn => s.stu.params.tn
  | .pn => s.stu.params.pn
  | .tolerance => s.stu.params.tolerance
  | .nsp => s.stu.params.nsp
  | .l0 => s.stu.params.l0
  | .target c => s.pl.params.targets.get c
  | .deadband => s.pl.params.deadband
  | .steps => s.pl.params.steps
  | .direction => s.pl.params.direction.code
  | .persistence => s.pl.params.persistence
  | .settleTime => s.pl.params.settleMs
  | .pauseTimeout => s.es.pauseMs
  | .linePitch => s.es.linePitch
  | .knot c j => (s.du.shading.get c)[j]

/-- Replace the timing parameters. -/
def State.setTiming (s : State) (p : TimingParams) : State := s.setStu { s.stu with params := p }

/-- Replace the power-loop parameters. -/
def State.setPower (s : State) (p : PowerParams) : State := { s with pl := { s.pl with params := p } }

/-- Replace one shading knot of a channel. -/
def State.setKnot (s : State) (c : Channel) (j : Fin 17) (v : Nat) : State :=
  { s with du := { s.du with shading := s.du.shading.set c ((s.du.shading.get c).set j v) } }

/-- A parameter takes a value (R88, R108, R71, R194). -/
def State.setParameter (s : State) (p : Parameter) (v : Nat) : State :=
  match p with
  | .tn => s.setTiming { s.stu.params with tn := v }
  | .pn => s.setTiming { s.stu.params with pn := v }
  | .tolerance => s.setTiming { s.stu.params with tolerance := v }
  | .nsp => s.setTiming { s.stu.params with nsp := v }
  | .l0 => s.setTiming { s.stu.params with l0 := v }
  | .target c => s.setPower { s.pl.params with targets := s.pl.params.targets.set c v }
  | .deadband => s.setPower { s.pl.params with deadband := v }
  | .steps => s.setPower { s.pl.params with steps := v }
  | .direction => s.setPower { s.pl.params with direction := Direction.ofCode v }
  | .persistence => s.setPower { s.pl.params with persistence := v }
  | .settleTime => s.setPower { s.pl.params with settleMs := v }
  | .pauseTimeout => s.setEs { s.es with pauseMs := v }
  | .linePitch => s.setEs { s.es with linePitch := v }
  | .knot c j => s.setKnot c j v

/-- The owner of a parameter checks and takes a value, in the order of R194. -/
def State.decideParameter (s : State) (tag : Option Nat) (p : Parameter) (v : Nat) : State :=
  if p.acceptedIn s.es.engine = false then s.refuse tag .setParameter .wrongState
  else if p.inRange v = false then s.refuse tag .setParameter .badValue 4
  else if s.pairHolds p v = false then s.refuse tag .setParameter .badValue 4
  else if s.geometryHolds p v = false then s.refuse tag .setParameter .badGeometry
  else (s.setParameter p v).done tag .setParameter (.oldValue (s.parameter p))

/-- Set Parameter: the id, then the owner's checks (R194, Table 12-3). -/
def decideSetParameter : Decision := fun s tag p =>
  match Parameter.ofId (wordAt p 0) with
  | none => s.refuse tag .setParameter .badValue
  | some q => s.decideParameter tag q (longAt p 4)

/-- SET_PARAMETER (R194). -/
def execSetParameter (s : State) : Host.Outcome State Fault Refusal :=
  run s (fun t => t.onRequest .setParameter decideSetParameter)

/-! ### Roll trims (R69) -/

/-- The three trims a Set Roll Trim carries (Table 12-3). -/
def trimsAt (p : List Byte) : Rgb Int := ⟨signedAt p 0, signedAt p 2, signedAt p 4⟩

/-- A trim as stored, clamped to −40..+40 (R69). -/
def clampTrim (t : Int) : Int := clampInt (-Config.rollTrimLimit) Config.rollTrimLimit t

/-- DU stores the three trims clamped, and flags a clamp (R69). -/
def decideSetRollTrim : Decision := fun s tag p =>
  let stored := (trimsAt p).map clampTrim
  ({ s with du := { s.du with rollTrims := stored } }).answer tag .setRollTrim
    { outcome := .done, clamped := stored ≠ trimsAt p, data := .trims stored }

/-- SET_ROLL_TRIM (R69). -/
def execSetRollTrim (s : State) : Host.Outcome State Fault Refusal :=
  run s (fun t => t.onRequest .setRollTrim decideSetRollTrim)

/-! ### Facets (R89, R90) -/

/-- Whether a facet gain is in range (R89). -/
def gainInRange (g : Nat) : Bool := 3277 ≤ g && g ≤ 4915

/-- The gain a Set Facet Gains carries for a facet (Table 12-3). -/
def gainAt (p : List Byte) (f : Nat) : Nat := wordAt p (2 * f)

/-- The lowest facet whose gain is out of range (R89). -/
def badGain (p : List Byte) : Option (Fin 8) :=
  (List.finRange 8).find? (fun f => !gainInRange (gainAt p f))

/-- All eight gains replaced (R89). -/
def setGains (v : Vector Facet 8) (p : List Byte) : Vector Facet 8 :=
  tabulate 8 (fun f => { (v[f]?.getD Facet.reset) with gain := gainAt p f })

/-- STU takes the eight gains in OFFLINE and READY (R89). -/
def decideSetFacetGains : Decision := fun s tag p =>
  if s.es.engine ≠ .offline ∧ s.es.engine ≠ .ready then s.refuse tag .setFacetGains .wrongState
  else
    match badGain p with
    | some f => s.refuse tag .setFacetGains .badValue (2 * f)
    | none =>
      (s.setStu { s.stu with facets := setGains s.stu.facets p }).done tag .setFacetGains

/-- SET_FACET_GAINS (R89). -/
def execSetFacetGains (s : State) : Host.Outcome State Fault Refusal :=
  run s (fun t => t.onRequest .setFacetGains decideSetFacetGains)

/-- A facet restored: USABLE with run 0 (R90). -/
def Facet.restore (f : Facet) : Facet := { f with usable := true, run := 0 }

/-- The number of EXCLUDED facets (R90). -/
def State.excludedFacets (s : State) : Nat := s.stu.facets.toList.countP (fun f => !f.usable)

/-- One FACET_CHANGE notice for a restoration that made any facet USABLE (R90). -/
def State.noticeRestored (s : State) (n : Nat) : State :=
  if 0 < n then s.notice (.facetChange none true 8) else s

/-- STU restores every facet in READY and HALTED (R90). -/
def decideRestoreFacets : Decision := fun s tag _ =>
  if s.es.engine ≠ .ready ∧ s.es.engine ≠ .halted then s.refuse tag .restoreFacets .wrongState
  else
    ((s.setStu { s.stu with facets := mapTable Facet.restore s.stu.facets }).noticeRestored
      s.excludedFacets).done tag .restoreFacets (.restored s.excludedFacets)

/-- RESTORE_FACETS (R90). -/
def execRestoreFacets (s : State) : Host.Outcome State Fault Refusal :=
  run s (fun t => t.onRequest .restoreFacets decideRestoreFacets)

/-! ### Footage (R149) -/

/-- The engine states that accept Set Footage (R149). -/
def Engine.takesFootage (e : Engine) : Bool := e == .offline || e == .ready || e == .halted

/-- TC takes the footage carried, and answers the previous one (R149). The feet are tested first, so that with both
fields out of range the reply names the feet: DESIGN CHOICE 30. -/
def decideSetFootage : Decision := fun s tag p =>
  if s.es.engine.takesFootage = false then s.refuse tag .setFootage .wrongState
  else if 9999 < wordAt p 0 then s.refuse tag .setFootage .badValue 0
  else if 15 < byteAt p 2 then s.refuse tag .setFootage .badValue 2
  else
    (s.setTc { s.tc with footage := Footage.ofNumbers (wordAt p 0) (byteAt p 2) }).done tag
      .setFootage (.footage s.tc.footage)

/-- SET_FOOTAGE (R149). -/
def execSetFootage (s : State) : Host.Outcome State Fault Refusal :=
  run s (fun t => t.onRequest .setFootage decideSetFootage)

/-! ### Fault responses (R158) -/

/-- The response a request assigns to a kind, if its code names one that the kind allows (R158). -/
def allowedResponse (k : FaultKind) (code : Nat) : Option Response :=
  match Response.ofCode code with
  | none => none
  | some r => if r ∈ k.allowed then some r else none

/-- Assign a response to a kind (R157, R158). -/
def State.assign (s : State) (k : FaultKind) (r : Response) : State :=
  { s with fu := { s.fu with responses := s.fu.responses.set k.index r } }

/-- FU takes the response of a kind (R158). -/
def decideSetFaultResponse : Decision := fun s tag p =>
  match FaultKind.ofCode (byteAt p 0) with
  | none => s.refuse tag .setFaultResponse .badValue
  | some k =>
    match allowedResponse k (byteAt p 1) with
    | none => s.refuse tag .setFaultResponse .badValue 1 (.allowed k.allowed)
    | some r => (s.assign k r).done tag .setFaultResponse (.response (s.assigned k))

/-- SET_FAULT_RESPONSE (R158). A fault that waits meets the new response at its take. -/
def execSetFaultResponse (s : State) : Host.Outcome State Fault Refusal :=
  run s (fun t => t.onRequest .setFaultResponse decideSetFaultResponse)

end Sys2Proof.Machine
end

