-- ==== Sys2Proof/Machine/PowerEvents.lean ====
section
/-! DEFINITION. The Power Loop's events (chapter 6): the settling of a channel, the completion of a sample,
and the door interlock. -/

namespace Sys2Proof.Machine

/-! ### Settling (R94) -/

/-- Whether a channel's settle timer can expire. -/
def PowerChannel.settling (c : PowerChannel) : Bool := c.laser == .settling && c.settle.isSome

/-- A channel's settle timer expires: it is SETTLED, and ES reads its conditions (R94, R107, R115,
R125). -/
def State.settleChannel (s : State) (c : Channel) : State :=
  let x := s.pl.channels.get c
  if x.settling then
    ((s.setChannels (s.pl.channels.set c { x with laser := .settled, settle := none }))
      ).checkStarting.checkPreparing
  else s

/-- LASER_SETTLE_EXPIRY (R94). -/
def execLaserSettleExpiry (channel : Channel) (s : State) : Host.Outcome State Fault Refusal :=
  runAfter FaultKind.beforeStart s (fun t => t.settleChannel channel)

/-! ### The sample (R99 to R105) -/

/-- The exposure record after a return from PAUSED (R132, Table 7-5). The count stays at 4294967295,
the top of its field in Table 10-2: DESIGN CHOICE 24. -/
def ExposureRecord.resume (e : ExposureRecord) : ExposureRecord :=
  { e with pauses := saturate 4294967295 (e.pauses + 1) }

/-- The return from PAUSED to EXPOSING at the current line (R132). -/
def State.leavePaused (s : State) : State :=
  (s.setEs { s.es with
    pauseTimer := none, exposure := s.es.exposure.map ExposureRecord.resume }).setEngine .exposing

/-- ES reads the window states on a clear report (R102, R107): PAUSED returns to EXPOSING when every
channel is CLEAR (R132), and PREPARING reads its conditions (R125). -/
def State.onClear (s : State) (cleared : Bool) : State :=
  if cleared then
    if s.es.engine = .paused ∧ s.allClear then s.leavePaused else s.checkPreparing
  else s

/-- The reports of a sample in their order: POWER_TRIP, the clear, TRIM_AT_LIMIT, TRIM_LIMIT
(R99, R101, R102, R105). -/
def State.reportSample (s : State) (x : Rgb ChannelSample) (r : Rgb Nat) : State :=
  ((((s.setChannels (x.map (·.channel))).raise? (tripReport x r)).onClear
    (x.any (·.cleared))).noticeAtLimit x).raise? (trimReport x)

/-- PL takes a sample: the readings, the judgements and the servo, then the reports (R99). If no
channel fired there is no sample. -/
def State.takeSample (s : State) (r : Rgb Nat) : State :=
  if s.pl.channels.any (·.firing) then s.reportSample (s.pl.sample r) r else s

/-- Whether a sample is of a trigger: some channel fired (R99) and has not gone OFF since. With every channel that
fired gone OFF before the completion there is no sample event, and no image portion follows: DESIGN CHOICE 32. -/
def State.sampleDue (s : State) : Bool := s.pl.channels.any (·.firing)

/-- SAMPLE_COMPLETION (R99). The image portion of the scan follows on it where R66 drives one
(LOG 17), or, where the sample raised a fault, on the take of its last fault (R99). A line outside the image memory,
which no slot holds (R5), stops the model with `imagePosition` (LOG 19). -/
def execSampleCompletion (readings : Rgb Nat) (s : State) : Host.Outcome State Fault Refusal :=
  let s := s.settledFor FaultKind.beforeSample
  if s.sampleDue then
    let t := s.takeSample readings
    if t.attemptInRange then .next t.driveLine.concluded else .fault .imagePosition
  else .next s.concluded

/-! ### The interlock (R96, R97) -/

/-- The interlock takes a state. -/
def State.setInterlock (s : State) (isOpen : Bool) : State :=
  { s with pl := { s.pl with interlockOpen := isOpen } }

/-- The door opens: every channel goes OFF, the interlock is OPEN, INTERLOCK is raised and the notice
is sent (R96). -/
def State.openDoor (s : State) : State :=
  ((s.laserDisable.setInterlock true).raise .interlock).notice (.interlock true)

/-- INTERLOCK_OPENING (R96). -/
def execInterlockOpening (s : State) : Host.Outcome State Fault Refusal :=
  run s State.openDoor

/-- The door closes: the interlock is CLOSED and the notice is sent (R97). -/
def State.closeDoor (s : State) : State := (s.setInterlock false).notice (.interlock false)

/-- INTERLOCK_CLOSING (R97). -/
def execInterlockClosing (s : State) : Host.Outcome State Fault Refusal := run s State.closeDoor

end Sys2Proof.Machine
end

