-- ==== Sys2Proof/Machine/Profiles.lean ====
section
/-! DEFINITION. The Profile Table's requests (chapter 3): Load Profile (R45 to R47) and Read Profile
(R48). -/

namespace Sys2Proof.Machine

/-! ### The fields of a Load Profile (Table 12-5) -/

/-- The place of a channel in a layout: red 0, green 1, blue 2 (Table 12-2). -/
def channelPlace : Channel → Nat
  | .red => 0
  | .green => 1
  | .blue => 2

/-- The channels in the order red, green, blue. -/
def channels : List Channel := [.red, .green, .blue]

/-- The offset of a channel's enable byte. -/
def enableOffset (c : Channel) : Nat := 2 + channelPlace c
/-- The offset of a channel's filter range. -/
def rangeOffset (c : Channel) : Nat := 8 + 74 * channelPlace c
/-- The offset of a channel's full-dose scale. -/
def scaleOffset (c : Channel) : Nat := 12 + 74 * channelPlace c
/-- The offset of a channel's knot. -/
def knotOffset (c : Channel) (k : Nat) : Nat := 16 + 74 * channelPlace c + 2 * k

/-- The channel and knot pairs, the channels in order and the knots of each ascending (R46). -/
def knotPlaces (first : Nat) : List (Channel × Nat) :=
  channels.flatMap (fun c => (List.range (33 - first)).map (fun k => (c, first + k)))

/-- The per-channel fields a Load Profile carries. -/
def profileChannelAt (p : List Byte) (c : Channel) : ProfileChannel where
  enabled := byteAt p (enableOffset c) == 1
  range := byteAt p (rangeOffset c)
  scale := longAt p (scaleOffset c)
  curve := tabulate 33 (fun k => wordAt p (knotOffset c k))

/-- The profile a Load Profile carries, with a reference count. -/
def profileAt (p : List Byte) (refs : Nat) : Profile where
  valid := byteAt p 1 == 1
  stock := wordAt p 6
  channels := ⟨profileChannelAt p .red, profileChannelAt p .green, profileChannelAt p .blue⟩
  refs := refs

/-! ### The checks of Table 3-4 -/

/-- The offset of the first field out of range after the profile index, by checks 2 to 6 (R46). -/
def badProfileField (p : List Byte) : Option Nat :=
  if 1 < byteAt p 1 then some 1
  else ((channels.map enableOffset).find? (fun i => 1 < byteAt p i)).or
    (((channels.map rangeOffset).find? (fun i => 2 < byteAt p i)).or
      (((channels.map scaleOffset).find?
          (fun i => longAt p i < 1 || Config.fullDose < longAt p i)).or
        (((knotPlaces 0).map (fun x => knotOffset x.1 x.2)).find? (fun i => 3000 < wordAt p i))))

/-- The first knot lower than the one before it on the same channel, by check 7 (R46). -/
def badCurve (p : List Byte) : Option (Channel × Nat) :=
  (knotPlaces 1).find? (fun x => wordAt p (knotOffset x.1 x.2) < wordAt p (knotOffset x.1 (x.2 - 1)))

/-- Replace a profile (R47). -/
def State.setProfile (s : State) (i : Fin 8) (q : Profile) : State :=
  { s with pt := { s.pt with profiles := s.pt.profiles.set i q } }

/-- PT loads a profile whose fields are in range: the curve check, the use check, then the load
(R46, R47). -/
def State.loadProfile (s : State) (tag : Option Nat) (i : Fin 8) (p : List Byte) : State :=
  match badCurve p with
  | some (c, k) => s.refuse tag .loadProfile .curveOrder 0 (.curveOrder c k)
  | none =>
    let old := s.pt.profiles[i]
    if 0 < old.refs then s.refuse tag .loadProfile .inUse 0 (.count old.refs)
    else (s.setProfile i (profileAt p old.refs)).done tag .loadProfile (.loaded i.val old.valid)

/-- PT checks a Load Profile in the order of Table 3-4 (R46). -/
def decideLoadProfile : Decision := fun s tag p =>
  match index? (byteAt p 0) 8 with
  | none => s.refuse tag .loadProfile .badValue 0
  | some i =>
    match badProfileField p with
    | some offset => s.refuse tag .loadProfile .badValue offset
    | none => s.loadProfile tag i p

/-- LOAD_PROFILE (R46). -/
def execLoadProfile (s : State) : Host.Outcome State Fault Refusal :=
  run s (fun t => t.onRequest .loadProfile decideLoadProfile)

/-- PT answers a profile as stored, with its reference count (R48). -/
def decideReadProfile : Decision := fun s tag p =>
  match index? (byteAt p 0) 8 with
  | none => s.refuse tag .readProfile .badValue
  | some i => s.done tag .readProfile (.profile i.val s.pt.profiles[i])

/-- READ_PROFILE (R48). -/
def execReadProfile (s : State) : Host.Outcome State Fault Refusal :=
  run s (fun t => t.onRequest .readProfile decideReadProfile)

end Sys2Proof.Machine
end

