-- ==== Sys2Proof/Machine/ScanEvents.lean ====
section
/-! DEFINITION. The scan events (chapter 5) and the line loop (section 7.7): SOS, EOS, the index pulse and
the SOS watch, with the scan begins and scan ends they give ES. -/

namespace Sys2Proof.Machine

/-! ### Scan begin (R129) -/

/-- Whether a scan begin on a facet starts a line attempt: EXPOSING, the stage SETTLED at the current
line, the facet USABLE and no line in progress (R129). -/
def State.startsLine (s : State) (f : Fin 8) : Bool :=
  match s.es.exposure with
  | none => false
  | some e =>
    s.es.engine == .exposing && s.es.stage == .settled e.line && s.stu.facets[f].usable &&
      s.es.lineInProgress.isNone

/-- ES takes a scan begin: a line attempt begins with the scan's facet, and DU fills its line latch
(R129, R56). -/
def State.scanBegin (s : State) (f : Fin 8) : State :=
  if s.startsLine f then
    (s.setEs { s.es with lineInProgress := some f }).fillLineLatch f
  else s

/-! ### Scan end (R130) -/

/-- The exposure record after one more line is counted (R130, R68). -/
def ExposureRecord.count (e : ExposureRecord) (o : ScanOutcome) (c : Rgb Clips) : ExposureRecord :=
  { e with
    exposed := e.exposed + 1
    defects := e.defects + (if o = .inTolerance then 0 else 1)
    clips := Rgb.zip Clips.add e.clips c }

/-- The stage is commanded one step, to the next line, with its 5 ms timer (R128, R130). -/
def State.stepStage (s : State) (line : Nat) : State :=
  (s.setEs { s.es with stage := .moving line (some Config.stepTime) }).command
    (.stageStep line s.es.linePitch)

/-- The height of the frame in a slot. -/
def State.heightOf (s : State) (i : Fin 4) : Nat :=
  match s.slot i with
  | none => 0
  | some r => r.height

/-- ES counts the line in progress, then steps the stage to the next line, or enters FINISHING after
the last (R130). A scan end before the image portion is over adds the clip counts of the whole line and cuts no
portion short, and one before the line's sample adds none: DESIGN CHOICE 32. -/
def State.countLine (s : State) (e : ExposureRecord) (o : ScanOutcome) : State :=
  let e := e.count o s.du.lineClips
  let t := (s.setEs { s.es with lineInProgress := none, exposure := some e }).emptyLineLatch
  if e.line + 1 < s.heightOf e.slot then
    (t.setEs { t.es with exposure := some { e with line := e.line + 1 } }).stepStage (e.line + 1)
  else t.enterFinishing

/-- ES takes a scan end: the line in progress on that scan is counted (R130). -/
def State.scanEnd (s : State) (f : Fin 8) (o : ScanOutcome) : State :=
  match s.es.exposure with
  | none => s
  | some e =>
    if s.es.engine = .exposing ∧ s.es.lineInProgress = some f then s.countLine e o else s

/-! ### Judgement and exclusion (R86, R87) -/

/-- Replace one facet entry of STU. -/
def State.setFacet (s : State) (f : Fin 8) (e : Facet) : State := s.setStu (s.stu.setFacet f e)

/-- FACET_CHANGE and, with fewer than four facets USABLE, FACET_SHORTAGE, after a scan end that
excluded its facet (R86, R87). -/
def State.announceExclusion (s : State) (f : Fin 8) (excluded : Bool) : State :=
  if excluded then
    let t := s.notice (.facetChange (some f) false s.usableFacets)
    if s.usableFacets < Config.fewestFacets then t.raise (.facetShortage f s.usableFacets) else t
  else s

/-- A scan judged out of tolerance or with its EOS missed: the facet's run rises, ES is given the scan
end, and an exclusion is announced after it (R79, R80, R86, R87). -/
def State.badScan (s : State) (f : Fin 8) (o : ScanOutcome) : State :=
  let e := s.stu.facets[f]
  ((s.setFacet f e.bad).scanEnd f o).announceExclusion f e.excludes

/-- A scan judged in tolerance (R83, R86). -/
def State.goodScan (s : State) (f : Fin 8) (tm : Nat) : State :=
  (s.setFacet f (s.stu.facets[f].good tm)).scanEnd f .inTolerance

/-- The measurement state becomes ARMED. -/
def State.armScan (s : State) : State := s.setStu { s.stu with measurement := .armed }

/-- Replace the scan statistics. -/
def State.setStats (s : State) (x : ScanStats) : State := s.setStu { s.stu with stats := x }

/-- A scan still TIMING at the next SOS or watch expiry is ended as a missed EOS, or SLIPPED if it was
marked so (R79, step 1; R85). A slipped scan is not counted as a missed EOS (LOG 9). -/
def State.endMissed (s : State) : State :=
  match s.stu.measurement with
  | .armed => s
  | .timing f _ slipped _ =>
    if slipped then s.armScan.scanEnd f .slipped
    else
      (s.armScan.setStats
        { s.stu.stats with missedEos := saturate 65535 (s.stu.stats.missedEos + 1) }).badScan f
        .missedEos

/-! ### SOS (R76, R77, R79) -/

/-- The facet counter advances by 1, from 7 to 0 (R76, R79, R81). -/
def State.advanceCounter (s : State) : State :=
  s.setStu { s.stu with counter := nextFacet s.stu.counter }

/-- Steps 3 to 6 of an SOS: the watch, the pixel period, the measurement and the scan begin (R79). -/
def State.beginScan (s : State) : State := (s.setStu s.stu.startTiming).scanBegin s.stu.counter

/-- An SOS in RUNNING, in the order of R79. -/
def State.runningSos (s : State) : State :=
  let t := s.endMissed.advanceCounter.beginScan
  t.trigger (t.stu.period t.stu.counter)

/-- The polygon is on speed: RUNNING, which ES is told, and the scan of the locking SOS begins
(R77, R115). -/
def State.lockSpeed (s : State) : State :=
  (s.setStu { s.stu with speed := .running }).checkStarting.beginScan

/-- An SOS in ACQUIRING: the counter, the trigger, then the speed lock (R76, R77). -/
def State.acquiringSos (s : State) : State :=
  let t := s.advanceCounter
  let t := t.trigger (t.stu.period t.stu.counter)
  let t := t.setStu t.stu.lockJudge
  if t.stu.locks then t.lockSpeed else t

/-- STU takes an SOS by its speed state (R76, R79). -/
def State.takeSos (s : State) : State :=
  match s.stu.speed with
  | .idle => s
  | .acquiring => s.acquiringSos
  | .running => s.runningSos

/-- SOS (R79): `ticks` scan reference ticks pass, then the edge is taken. -/
def execSos (ticks : Nat) (s : State) : Host.Outcome State Fault Refusal :=
  runAfter FaultKind.beforeSos s (fun t => (t.elapse ticks).takeSos)

/-! ### EOS (R80, R83) -/

/-- A measured interval becomes the facet's last measured interval (R83). -/
def State.measure (s : State) (f : Fin 8) (tm : Nat) : State :=
  s.setFacet f { s.stu.facets[f] with measured := some tm }

/-- An EOS that ends the scan being timed (R80, R83, R85). -/
def State.endScan (s : State) (f : Fin 8) (tm : Nat) (slipped : Bool) : State :=
  if slipped then s.armScan.scanEnd f .slipped
  else if withinTolerance s.stu.params.tolerance s.stu.params.tn tm then
    (s.armScan.measure f tm).goodScan f tm
  else (s.armScan.measure f tm).badScan f .outOfTolerance

/-- An EOS that is part of no scan (R80). -/
def State.strayEos (s : State) : State :=
  s.setStats { s.stu.stats with strayEos := saturate 65535 (s.stu.stats.strayEos + 1) }

/-- STU takes an EOS: in RUNNING it ends the scan or is stray, and otherwise it is ignored
(R76, R80). -/
def State.takeEos (s : State) : State :=
  if s.stu.speed = .running then
    match s.stu.measurement with
    | .armed => s.strayEos
    | .timing f tm slipped _ => s.endScan f tm slipped
  else s

/-- EOS (R80): `ticks` scan reference ticks pass, then the edge is taken. -/
def execEos (ticks : Nat) (s : State) : Host.Outcome State Fault Refusal :=
  runAfter FaultKind.ofSample s (fun t => (t.elapse ticks).takeEos)

/-! ### The index pulse (R76, R85) -/

/-- The scan in progress is marked slipped (R85). -/
def Measurement.slip : Measurement → Measurement
  | .armed => .armed
  | .timing f t _ p => .timing f t true p

/-- An index pulse in RUNNING that finds the counter slipped: the counter is set to 7, the slip is
counted, the scan in progress is marked, and SYNC_SLIP is raised (R85). -/
def State.correctSlip (s : State) : State :=
  (s.setStu { s.stu with
    counter := 7
    measurement := s.stu.measurement.slip
    stats := { s.stu.stats with slips := saturate 65535 (s.stu.stats.slips + 1) } }).raise
      (.syncSlip s.stu.counter)

/-- STU takes an index pulse by its speed state (R76, R85). -/
def State.takeIndex (s : State) : State :=
  match s.stu.speed with
  | .idle => s
  | .acquiring => s.setStu { s.stu with counter := 7, aligned := true }
  | .running => if s.stu.counter = 7 then s else s.correctSlip

/-- INDEX_PULSE (R85). -/
def execIndexPulse (s : State) : Host.Outcome State Fault Refusal :=
  run s State.takeIndex

/-! ### The SOS watch (R81) -/

/-- SOS_LOSS at the eighth missed SOS of a run, which then starts anew (R81). -/
def State.lossAtRun (s : State) : State :=
  if Config.lossRun ≤ s.stu.missedRun then
    (s.setStu { s.stu with missedRun := 0 }).raise (.sosLoss s.stu.missedRun)
  else s

/-- A missed SOS is counted: the counter advances, the statistic and the run rise, and the watch
restarts for 2 × Pn (R81). -/
def State.countMissed (s : State) : State :=
  s.setStu { s.stu with
    counter := nextFacet s.stu.counter
    stats := { s.stu.stats with missedSos := saturate 65535 (s.stu.stats.missedSos + 1) }
    missedRun := s.stu.missedRun + 1
    watch := some (2 * s.stu.params.pn) }

/-- The SOS watch expires in RUNNING: the scan in progress ends as a missed EOS, and the missed SOS is
counted (R81). -/
def State.takeWatchExpiry (s : State) : State :=
  if s.stu.speed = .running ∧ s.stu.watch.isSome then s.endMissed.countMissed.lossAtRun else s

/-- SOS_WATCH_EXPIRY (R81). -/
def execSosWatchExpiry (s : State) : Host.Outcome State Fault Refusal :=
  runAfter FaultKind.ofSample s State.takeWatchExpiry

end Sys2Proof.Machine
end

