-- ==== Sys2Proof/Machine/StatusReply.lean ====
section
/-! DEFINITION. The Status request (R197): what each block answers, as its own chapter lists it (R23, R72,
R91, R109, R136, R156, R175, R186). -/

namespace Sys2Proof.Machine

/-- The summary of a non-FREE slot (R23). -/
def SlotRecord.summary (r : SlotRecord) : SlotSummary where
  phase := r.phase
  key := r.key
  width := r.width
  height := r.height
  rule := r.rule
  profile := r.profile
  label := r.label
  presenceCount := r.presenceCount
  rewrites := r.rewrites
  openSeq := r.openSeq

/-- What Status reports of a channel (R109). -/
def PowerChannel.report (c : PowerChannel) : ChannelReport where
  laser := c.laser
  trim := c.trim
  reading := c.reading
  window := c.window
  outRun := c.outRun
  inRun := c.inRun
  accumulator := c.accumulator
  samples := c.samples

/-- The measurement state as Status gives it: in TIMING, the facet and the tick count (R91). -/
def Measurement.report : Measurement → Option (Fin 8 × Nat)
  | .armed => none
  | .timing f t _ _ => some (f, t)

/-- The kind of mark printing (R156). -/
def Head.report : Head → Option MarkKind
  | .idle => none
  | .printing m _ => some m.kind

/-- Every block's part of the Status reply, read at the moment it answers (R197). While the engine is
LOCKED it carries the lock record pair (R172, R175). -/
def State.report (s : State) : StatusReport where
  up := s.lp.up
  occupancy := s.lp.queue.length
  flow := s.lp.flow
  outstanding := s.lp.outstanding
  errors := s.lp.errors
  firstError := s.lp.firstError
  posted := s.lp.posted
  notices := s.nu
  slots := s.fs.slots.toList.map (Option.map SlotRecord.summary)
  queue := s.fs.queue
  profiles := s.pt.profiles.toList.map (fun p => (p.valid, p.stock, p.refs))
  rollTrims := s.du.rollTrims
  shading := s.du.shading
  activeDose := s.es.exposure.map (fun e => (e.trims, e.clips))
  speed := s.stu.speed
  counter := s.stu.counter
  aligned := s.stu.aligned
  measurement := s.stu.measurement.report
  scanStats := s.stu.stats
  facets := s.stu.facets
  interlockOpen := s.pl.interlockOpen
  channels := s.pl.channels.map PowerChannel.report
  engine := s.es.engine
  waiting := s.waitReason
  stopPending := s.es.stopPending
  deferredHalt := s.es.deferredHalt.map (fun r => r.report.kind)
  replies := s.es.replies
  stage := s.es.stage
  wheels := s.es.wheels
  exposure := s.es.exposure
  reservationHeld := s.rl.reservation.isSome
  lineInProgress := s.es.lineInProgress
  gate := s.tc.gate
  gateOp := s.tc.op
  perforations := s.tc.perforations
  lastGate := s.tc.last
  shutter := s.tc.shutter
  footage := s.tc.footage
  gateUsed := s.tc.gateUsed
  printing := s.tc.head.report
  pendingMark := s.tc.pendingMark
  blank := s.tc.blank
  pullDowns := (s.tc.completedTotal, s.tc.failedTotal)
  responses := s.fu.responses
  faultCounts := s.fu.counts
  lastFault := s.fu.lastFault
  inHand := s.fu.inHand
  lockPair := if s.es.engine = .locked then s.fu.lockPair else none
  logOccupancy := s.rl.records.length
  reservation := s.rl.reservation
  lastSeq := s.rl.lastSeq
  oldestSeq := s.rl.records.head?.map (·.seq)
  batchLength := (s.rl.lastBatch.getD []).length
  timing := s.stu.params
  power := s.pl.params
  linePitch := s.es.linePitch
  pauseMs := s.es.pauseMs

/-- LP answers Status with every part, all read at one instant: R197 lets a mechanism event fall between
two parts, and in the model none does (DESIGN CHOICE 23). The Status request itself stands in the table
it reports (R197). -/
def decideStatus : Decision := fun s tag _ => s.done tag .status (.status s.report)

/-- STATUS (R197). -/
def execStatus (s : State) : Host.Outcome State Fault Refusal :=
  run s (fun t => t.onRequest .status decideStatus)

end Sys2Proof.Machine
end

