-- ==== Sys2Proof/Machine/Dispatch.lean ====
section
/-! DEFINITION. The meaning of every command, one arm each. -/

namespace Sys2Proof.Machine

def exec (i : Instr) (s : State) : Host.Outcome State Fault Refusal :=
  match i with
  | .powerOnReset doorOpen => Sys2Proof.Machine.execPowerOnReset doorOpen s
  | .linkUp => Sys2Proof.Machine.execLinkUp s
  | .linkReset => Sys2Proof.Machine.execLinkReset s
  | .recordArrival bytes => Sys2Proof.Machine.execRecordArrival bytes s
  | .droppedRecord => Sys2Proof.Machine.execDroppedRecord s
  | .unknownRecord => Sys2Proof.Machine.execUnknownRecord s
  | .lineRecord => Sys2Proof.Machine.execLineRecord s
  | .identify => Sys2Proof.Machine.execIdentify s
  | .status => Sys2Proof.Machine.execStatus s
  | .checkpoint => Sys2Proof.Machine.execCheckpoint s
  | .setParameter => Sys2Proof.Machine.execSetParameter s
  | .setNoticeMask => Sys2Proof.Machine.execSetNoticeMask s
  | .openFrame => Sys2Proof.Machine.execOpenFrame s
  | .closeFrame => Sys2Proof.Machine.execCloseFrame s
  | .discardFrame => Sys2Proof.Machine.execDiscardFrame s
  | .requeueFrame => Sys2Proof.Machine.execRequeueFrame s
  | .writeRule => Sys2Proof.Machine.execWriteRule s
  | .readRule => Sys2Proof.Machine.execReadRule s
  | .loadProfile => Sys2Proof.Machine.execLoadProfile s
  | .readProfile => Sys2Proof.Machine.execReadProfile s
  | .setRollTrim => Sys2Proof.Machine.execSetRollTrim s
  | .setFacetGains => Sys2Proof.Machine.execSetFacetGains s
  | .restoreFacets => Sys2Proof.Machine.execRestoreFacets s
  | .setFootage => Sys2Proof.Machine.execSetFootage s
  | .setFaultResponse => Sys2Proof.Machine.execSetFaultResponse s
  | .abortFrame => Sys2Proof.Machine.execAbortFrame s
  | .readLog => Sys2Proof.Machine.execReadLog s
  | .readLogRepeat => Sys2Proof.Machine.execReadLogRepeat s
  | .startEngine filmPresent => Sys2Proof.Machine.execStartEngine filmPresent s
  | .resumeEngine filmPresent => Sys2Proof.Machine.execResumeEngine filmPresent s
  | .stopEngine => Sys2Proof.Machine.execStopEngine s
  | .resetEngine => Sys2Proof.Machine.execResetEngine s
  | .advanceFilm => Sys2Proof.Machine.execAdvanceFilm s
  | .queueTake => Sys2Proof.Machine.execQueueTake s
  | .sos ticks => Sys2Proof.Machine.execSos ticks s
  | .eos ticks => Sys2Proof.Machine.execEos ticks s
  | .indexPulse => Sys2Proof.Machine.execIndexPulse s
  | .sosWatchExpiry => Sys2Proof.Machine.execSosWatchExpiry s
  | .laserSettleExpiry channel => Sys2Proof.Machine.execLaserSettleExpiry channel s
  | .sampleCompletion readings => Sys2Proof.Machine.execSampleCompletion readings s
  | .interlockOpening => Sys2Proof.Machine.execInterlockOpening s
  | .interlockClosing => Sys2Proof.Machine.execInterlockClosing s
  | .startTimerExpiry => Sys2Proof.Machine.execStartTimerExpiry s
  | .polygonStopped => Sys2Proof.Machine.execPolygonStopped s
  | .stopTimerExpiry => Sys2Proof.Machine.execStopTimerExpiry s
  | .wheelInPosition channel => Sys2Proof.Machine.execWheelInPosition channel s
  | .wheelTimerExpiry channel => Sys2Proof.Machine.execWheelTimerExpiry channel s
  | .stageHomeReport => Sys2Proof.Machine.execStageHomeReport s
  | .stageInPosition => Sys2Proof.Machine.execStageInPosition s
  | .stageTimerExpiry => Sys2Proof.Machine.execStageTimerExpiry s
  | .pauseTimerExpiry => Sys2Proof.Machine.execPauseTimerExpiry s
  | .clampOpenConfirmation => Sys2Proof.Machine.execClampOpenConfirmation s
  | .perforationEdge => Sys2Proof.Machine.execPerforationEdge s
  | .cycleEnd => Sys2Proof.Machine.execCycleEnd s
  | .clampClosedConfirmation filmPresent => Sys2Proof.Machine.execClampClosedConfirmation filmPresent s
  | .gateSettleExpiry => Sys2Proof.Machine.execGateSettleExpiry s
  | .operationTimerExpiry => Sys2Proof.Machine.execOperationTimerExpiry s
  | .shutterOpenConfirmation => Sys2Proof.Machine.execShutterOpenConfirmation s
  | .shutterClosedConfirmation => Sys2Proof.Machine.execShutterClosedConfirmation s
  | .shutterTimerExpiry => Sys2Proof.Machine.execShutterTimerExpiry s
  | .edgePrintDone => Sys2Proof.Machine.execEdgePrintDone s
  | .faultTake => Sys2Proof.Machine.execFaultTake s

end Sys2Proof.Machine
end

