-- ==== Sys2Proof/Machine/Step.lean ====
section
/-! DEFINITION. One step: the command at the front of the queue is run; with no command waiting, the part
takes the faults raised, LP takes the next record in hand, and one tick of the scan reference passes. -/

namespace Sys2Proof.Machine

/-- A step in which no command comes: the faults raised are taken (R159), LP takes the next record in
hand (R190; LOG 27), and one tick of the scan reference passes. DESIGN CHOICE 1. -/
def State.idle (s : State) : State := s.settled.handOver.elapse 1

/-- Put a command at the front of the queue. -/
def State.withCommand (s : State) (c : Instr) : State := { s with pending := c :: s.pending }

/-- The command at the front of the queue runs on the state with the queue's rest. -/
def step (s : State) : Host.Outcome State Fault Refusal :=
  match s.pending with
  | [] => .next s.idle
  | c :: rest => exec c { s with pending := rest }

/-- Put the command a word spells at the front of the queue. No row of the table has bits, so no word
spells one (Decode.lean). -/
def State.withFetchWord (s : State) (nbits w : Nat) : State :=
  match decodeTableWord nbits w with
  | none => s
  | some c => s.withCommand c

end Sys2Proof.Machine
end

