-- ==== Sys2Proof/Machine/Layouts.lean ====
section
/-! DEFINITION. The parts of the records the part sends (chapter 12, R204, R205): fields and codes, the fault
record, the roll log record, the identity, rules, profiles and the payloads of notices. Where a rule
lists fields without a layout, each field takes the width it has elsewhere in chapter 12, in the order
listed (DEDUCED 14). Which of two widths it takes, and what a field takes that has none, is DESIGN CHOICE 14. -/

namespace Sys2Proof.Machine

/-! ### Fields -/

/-- A one-byte field. -/
def le8 (n : Nat) : List Byte := [BitVec.ofNat 8 n]
/-- A two-byte field, least significant byte first. -/
def le16 (n : Nat) : List Byte := [BitVec.ofNat 8 n, BitVec.ofNat 8 (n / 256)]
/-- A four-byte field, least significant byte first. -/
def le32 (n : Nat) : List Byte := le16 n ++ le16 (n / 65536)
/-- A signed one-byte field, two's complement. -/
def signed8 (x : Int) : List Byte := [BitVec.ofInt 8 x]
/-- A signed two-byte field, two's complement. -/
def signed16 (x : Int) : List Byte := le16 (BitVec.ofInt 16 x).toNat
/-- A flag byte, 0 or 1. -/
def flag (b : Bool) : List Byte := le8 (if b then 1 else 0)
/-- Zero bytes. -/
def zeros (n : Nat) : List Byte := List.replicate n 0
/-- A one-byte slot, channel, facet or index field; absent, 0xFF (R205). -/
def index8 (o : Option Nat) : List Byte := le8 (o.getD 0xFF)
/-- The two-byte line field; absent, 0xFFFF (R205). -/
def line16 (o : Option Nat) : List Byte := le16 (o.getD 0xFFFF)
/-- Bytes padded with zeros, or cut, to a length. -/
def padTo (n : Nat) (bs : List Byte) : List Byte := (bs ++ zeros n).take n

/-! ### Codes (Table 12-2, Table 12-9) -/

/-- The code of a fault kind. -/
def FaultKind.code (k : FaultKind) : Nat := 0x41 + k.index.val

/-- The code of an engine state. -/
def Engine.code : Engine → Nat
  | .offline => 0
  | .starting => 1
  | .ready => 2
  | .preparing => 3
  | .exposing => 4
  | .paused => 5
  | .finishing => 6
  | .advancing => 7
  | .aborting => 8
  | .halted => 9
  | .stopping => 10
  | .locked => 11

/-- The code of a response applied. -/
def Applied.code : Applied → Nat
  | .notice => 0
  | .hold => 1
  | .pause => 2
  | .abort => 3
  | .halt => 4
  | .defer => 5
  | .lock => 6
  | .record => 7

/-- The code of an assigned response. -/
def Response.code : Response → Nat
  | .warn => 0
  | .pause => 1
  | .abort => 2
  | .halt => 3

/-- The code of a notice kind. -/
def NoticeKind.code : NoticeKind → Nat
  | .frameStarted => 0x01
  | .queueEmpty => 0x02
  | .frameDone => 0x03
  | .engineState => 0x04
  | .logNearlyFull => 0x05
  | .facetChange => 0x06
  | .trimAtLimit => 0x07
  | .frameSpoiled => 0x08
  | .fault => 0x09
  | .locked => 0x0A
  | .interlock => 0x0B
  | .hello => 0x0C

/-- The code of a reply outcome. -/
def ReplyOutcome.code : ReplyOutcome → Nat
  | .done => 0
  | .failed => 1
  | .refused => 2

/-- The code of a reason. -/
def Reason.code : Reason → Nat
  | .none_ => 0
  | .badFormat => 0x01
  | .unknownRequest => 0x02
  | .tagInUse => 0x03
  | .tooMany => 0x04
  | .locked => 0x05
  | .wrongState => 0x06
  | .badValue => 0x07
  | .condition => 0x08
  | .badGeometry => 0x09
  | .duplicateKey => 0x0A
  | .noRule => 0x0B
  | .profileEmpty => 0x0C
  | .noSlot => 0x0D
  | .staleSlot => 0x0E
  | .slotState => 0x0F
  | .missingLines => 0x10
  | .inUse => 0x11
  | .invalidLabel => 0x12
  | .curveOrder => 0x13
  | .logFull => 0x14
  | .abandoned => 0x20
  | .fault k => k.code

/-- The code of a fault cause: RESET 0x21, or the fault kind code. -/
def Cause.code : Cause → Nat
  | .reset => 0x21
  | .fault k => k.code

/-- The code of a slot state; FREE 0. -/
def phaseCode : Option Phase → Nat
  | none => 0
  | some .filling => 1
  | some .queued => 2
  | some .active => 3
  | some .held => 4

/-- The code of a posted-error reason. -/
def LineReason.code : LineReason → Nat
  | .badSlot => 1
  | .slotNotFilling => 2
  | .lineRange => 3
  | .widthMismatch => 4

/-- The code of a link error reason. -/
def LinkError.code : LinkError → Nat
  | .queueOverrun => 1
  | .framing => 2
  | .badCrc => 3
  | .lineFormat => 4

/-- A channel set: R in bit 0, G in bit 1, B in bit 2. -/
def channelSet (v : Rgb Bool) : Nat :=
  (if v.r then 1 else 0) + (if v.g then 2 else 0) + (if v.b then 4 else 0)

/-- The code of a gate state (Table 12-9). -/
def Gate.code : Gate → Nat
  | .released => 0
  | .clamped => 1
  | .releasing => 2
  | .pulling => 3
  | .clamping => 4
  | .settling => 5

/-- The code of a gate operation (Table 12-9). -/
def GateOp.code : GateOp → Nat
  | .pullDown => 1
  | .clamp => 2

/-- The wait reason set of START_TIMEOUT (Table 12-9). -/
def startWaitSet (w : List Wait) : Nat :=
  (if w.contains .speed then 1 else 0) + (if w.contains .settle then 2 else 0) +
    (if w.contains .stage then 4 else 0) + (if w.contains .gate then 8 else 0)

/-! ### Footage, fault record and log record -/

/-- Footage as binary numbers: feet in two bytes, frames in one (R205). -/
def Footage.bytes (f : Footage) : List Byte := le16 f.feet ++ le8 f.frames

/-- The eight data bytes of a fault record (Table 12-9), unpadded. -/
def FaultReport.data : FaultReport → List Byte
  | .sosLoss run => le8 run
  | .facetShortage _ usable => le8 usable
  | .syncSlip found => le8 found.val
  | .powerTrip tripped reading limit =>
    le8 (channelSet tripped) ++ flag (limit == .upper) ++ le16 reading
  | .pauseTimeout tripped => le8 (channelSet tripped)
  | .trimLimit set trim up => le8 (channelSet set) ++ signed8 trim ++ flag up
  | .stageTimeout line => le16 line
  | .filterTimeout _ range => le8 range
  | .startTimeout w => le8 (startWaitSet w)
  | .transport cause gate count op =>
    le8 (if cause = .count then 1 else 2) ++ le8 gate.code ++ le8 count ++ le8 op.code
  | .filmEnd count op => zeros 2 ++ le8 count ++ le8 op.code
  | .interlock => []
  | .shutter way => flag (way == .closing)
  | .operator openSeq => le32 openSeq

/-- A fault record, 20 bytes (Table 12-8). -/
def FaultRecord.bytes (r : FaultRecord) : List Byte :=
  le8 r.report.kind.code ++ le8 r.engine.code ++ le8 r.applied.code ++
    index8 (r.slot.map (·.val)) ++ line16 r.line ++ index8 (r.report.channel.map channelPlace) ++
    index8 (r.facet.map (·.val)) ++ r.footage.bytes ++ zeros 1 ++ padTo 8 r.report.data

/-- The LOCKED payload, 44 bytes (section 12.6). -/
def LockPair.bytes (p : LockPair) : List Byte :=
  flag p.first.isSome ++ zeros 3 ++
    (match p.first with
    | none => zeros 20
    | some r => r.bytes) ++ p.second.bytes

/-- A triple of four-byte fields. -/
def rgb32 (v : Rgb Nat) : List Byte := le32 v.r ++ le32 v.g ++ le32 v.b

/-- The fields of a frame's log record from offset 12 on (Table 12-10). -/
def FrameEntry.bytes (e : FrameEntry) : List Byte :=
  le32 e.key.toNat ++ le16 e.stock ++ zeros 1 ++ signed8 e.trims.r ++ signed8 e.trims.g ++
    signed8 e.trims.b ++ zeros 2 ++ e.label.toList ++ le16 e.exposed ++ le16 e.defects ++
    le32 e.pauses ++ rgb32 (e.clips.map (·.high)) ++ rgb32 (e.clips.map (·.low))

/-- The outcome, slot, rule and profile bytes of a frame's log record (Table 12-10). -/
def FrameEntry.head (e : FrameEntry) (outcome : Nat) : List Byte :=
  le8 outcome ++ le8 e.slot.val ++ le8 e.rule.val ++ le8 e.profile.val

/-- A roll log record, 64 bytes (Table 12-10, R205). -/
def LogRecord.bytes (r : LogRecord) : List Byte :=
  le32 r.seq ++
    (match r.body with
    | .exposed e => e.head 1 ++ r.footage.bytes ++ zeros 1 ++ e.bytes
    | .spoiled e c => e.head 2 ++ r.footage.bytes ++ le8 c.code ++ e.bytes
    | .blank n =>
      le8 3 ++ [0xFF, 0xFF, 0xFF] ++ r.footage.bytes ++ zeros 7 ++ le8 n ++ zeros 45)

/-! ### Identity, rules and profiles -/

/-- The identity, 20 bytes, with the cause of a HELLO or 0 (section 12.6). -/
def identityBytes (cause : Nat) : List Byte :=
  le16 Config.vendorCode ++ le16 Config.partCode ++ le16 Config.revision ++
    [3, 8, 4, 8, 32, 64] ++ le16 Config.maxWidth ++ le16 Config.maxHeight ++
    le16 Config.maxPayload ++ le8 cause ++ zeros 1

/-- The code of a HELLO cause (section 12.6). -/
def HelloCause.code : HelloCause → Nat
  | .powerOn => 1
  | .linkReset => 2

/-- A rule, 24 bytes (Table 12-4). -/
def Rule.bytes (r : Rule) (index : Nat) : List Byte :=
  le8 index ++ flag r.valid ++ le8 r.profile.val ++ zeros 1 ++ le32 r.key.toNat ++
    le32 r.mask.toNat ++ r.label.toList ++ le16 r.minHeight ++ zeros 2

/-- The per-channel fields of a profile, 74 bytes (Table 12-5). -/
def ProfileChannel.bytes (c : ProfileChannel) : List Byte :=
  le8 c.range ++ zeros 3 ++ le32 c.scale ++ c.curve.toList.flatMap le16

/-- A profile, 230 bytes (Table 12-5). -/
def Profile.bytes (p : Profile) (index : Nat) : List Byte :=
  le8 index ++ flag p.valid ++ flag p.channels.r.enabled ++ flag p.channels.g.enabled ++
    flag p.channels.b.enabled ++ zeros 1 ++ le16 p.stock ++ p.channels.r.bytes ++
    p.channels.g.bytes ++ p.channels.b.bytes

/-! ### Parts of replies and notices -/

/-- The reservation and reserved slot bytes of a Read Log reply (section 12.6). -/
def reservationBytes : Option Reservation → List Byte
  | none => [0, 0xFF]
  | some (.frame i) => le8 1 ++ le8 i.val
  | some .blank => [2, 0xFF]

/-- The posted-error record in a Checkpoint reply (R10, R195; DEDUCED 14). -/
def PostedErrors.bytes (p : PostedErrors) : List Byte :=
  le16 p.count ++
    (match p.first with
    | none => [0xFF, 0xFF, 0xFF, 0]
    | some f => le8 f.slot ++ le16 f.line ++ le8 f.reason.code)

/-- A facet's state as one byte, for which chapter 12 gives no code: USABLE 1, EXCLUDED 0. DESIGN CHOICE
14. -/
def facetState (usable : Bool) : List Byte := flag usable

/-- The interlock's state as one byte, for which chapter 12 gives no code: OPEN 1, CLOSED 0. DESIGN
CHOICE 14. -/
def interlockState (isOpen : Bool) : List Byte := flag isOpen

/-- The payload of a notice, by kind, its fields in the order of Table 11-5 (Table 12-8; DEDUCED 14). A
FACET_CHANGE names the facet's new state USABLE 1 or EXCLUDED 0, and an INTERLOCK notice the state OPEN
1 or CLOSED 0: DESIGN CHOICE 14, chapter 12 gives neither code. A TRIM_AT_LIMIT carries the channel set and
then three trim bytes, R, G and B, with 0 for a channel not in the set: DESIGN CHOICE 14. -/
def NoticePayload.bytes : NoticePayload → List Byte
  | .frameStarted slot key openSeq footage =>
    le8 slot.val ++ le32 key.toNat ++ le32 openSeq ++ footage.bytes
  | .queueEmpty => []
  | .frameDone slot key exposed defects seq =>
    le8 slot.val ++ le32 key.toNat ++ le16 exposed ++ le16 defects ++ le32 seq
  | .engineState previous new cause =>
    le8 previous.code ++ le8 new.code ++ le8 ((cause.map FaultKind.code).getD 0)
  | .logNearlyFull occupancy reserved => le8 occupancy ++ flag reserved
  | .facetChange facet usable count => index8 (facet.map (·.val)) ++ facetState usable ++ le8 count
  | .trimAtLimit trims =>
    le8 (channelSet (trims.map (·.isSome))) ++ signed8 (trims.r.getD 0) ++
      signed8 (trims.g.getD 0) ++ signed8 (trims.b.getD 0)
  | .frameSpoiled slot key openSeq cause exposed seq =>
    le8 slot.val ++ le32 key.toNat ++ le32 openSeq ++ le8 cause.code ++ le16 exposed ++ le32 seq
  | .fault r => r.bytes
  | .locked pair => pair.bytes
  | .interlock isOpen => interlockState isOpen
  | .hello cause => identityBytes cause.code

end Sys2Proof.Machine
end

