-- ==== Sys2Proof/Machine/StatusLayout.lean ====
section
/-! DEFINITION. The bytes of the Status reply's data (R197, R202, R204, R205). Chapter 12 gives the Status
reply no layout of its own: DESIGN CHOICE 14. The parts stand in the order of R197, and the items of a part
in the order its rule lists them; an absent field has the fixed content of R205, a list is preceded by
its count, a parameter takes the four bytes of a Set Parameter value and stands once, in the part of the
block whose rule lists it, and an item for which Table 12-2 gives no code is coded by its place in its own
table, from 0, but for a wheel (`Wheel.bytes`) and a wait reason (`Wait.bit`). -/

namespace Sys2Proof.Machine

/-! ### Codes without an entry in Table 12-2 (DESIGN CHOICE 14) -/

/-- A signed four-byte field, two's complement. -/
def signed32 (x : Int) : List Byte := le32 (BitVec.ofInt 32 x).toNat

/-- A list preceded by its count. -/
def counted (n : Nat) (body : List Byte) : List Byte := le8 n ++ body

/-- The flow state: GO 0, HOLD 1. -/
def Flow.code : Flow → Nat
  | .go => 0
  | .hold => 1

/-- The speed state: IDLE 0, ACQUIRING 1, RUNNING 2. -/
def Speed.code : Speed → Nat
  | .idle => 0
  | .acquiring => 1
  | .running => 2

/-- The channel state: OFF 0, SETTLING 1, SETTLED 2. -/
def Laser.code : Laser → Nat
  | .off => 0
  | .settling => 1
  | .settled => 2

/-- The window state: CLEAR 0, TRIPPED 1. -/
def Window.code : Window → Nat
  | .clear => 0
  | .tripped => 1

/-- The shutter state: CLOSED 0, OPENING 1, OPEN 2, CLOSING 3. -/
def Shutter.code : Shutter → Nat
  | .closed => 0
  | .opening => 1
  | .opened => 2
  | .closing => 3

/-- The outcome of the last gate operation: COMPLETED 1, COUNT 2, TIMEOUT 3, FILM_END 4, CUT 5; absent,
0. -/
def GateOutcome.code : GateOutcome → Nat
  | .completed => 1
  | .count => 2
  | .timeout => 3
  | .filmEnd => 4
  | .cut => 5

/-- The kind of a mark: frame 1, spoil 2; none, 0. -/
def MarkKind.code : MarkKind → Nat
  | .frame => 1
  | .spoil => 2

/-- The bit of a wait reason in a two-byte set: those of START_TIMEOUT stand at the bits Table 12-9 gives
them, and the others follow in the order of Table 7-4. -/
def Wait.bit : Wait → Nat
  | .speed => 0
  | .settle => 1
  | .stage => 2
  | .gate => 3
  | .empty => 4
  | .logFull => 5
  | .filter => 6
  | .film => 7
  | .trip => 8
  | .shutter => 9
  | .print => 10
  | .polygon => 11

/-- A wait reason as a set of bits, each once. -/
def waitSet (w : List Wait) : List Byte :=
  le16 (([.speed, .settle, .stage, .gate, .empty, .logFull, .filter, .film, .trip, .shutter, .print, .polygon] :
    List Wait).foldl (fun n x => if w.contains x then n + 2 ^ x.bit else n) 0)

/-! ### The items of a part -/

/-- A triple of signed one-byte fields. -/
def rgbSigned8 (v : Rgb Int) : List Byte := signed8 v.r ++ signed8 v.g ++ signed8 v.b

/-- The clip counts of a frame, high then low, as Table 12-10 orders them. -/
def clipBytes (c : Rgb Clips) : List Byte := rgb32 (c.map (·.high)) ++ rgb32 (c.map (·.low))

/-- An entry of the outstanding-request table: its tag, its request code and whether the request is long
(Table 11-1). -/
def Outstanding.bytes (o : Outstanding) : List Byte :=
  le8 o.tag ++ le8 o.request.code ++ flag o.request.isLong

/-- An entry of the pending table: its coalesced count, 0 while it is clear, then the length of its
payload and the payload. -/
def pendingBytes : Option Notice → List Byte
  | none => le16 0 ++ le8 0
  | some n => le16 n.count ++ counted n.payload.bytes.length n.payload.bytes

/-- A slot of the summary (R23). -/
def slotBytes : Option SlotSummary → List Byte
  | none => le8 (phaseCode none) ++ zeros 8 ++ [0xFF, 0xFF] ++ zeros 16
  | some r =>
    le8 (phaseCode (some r.phase)) ++ le32 r.key.toNat ++ le16 r.width ++ le16 r.height ++
      le8 r.rule.val ++ le8 r.profile.val ++ r.label.toList ++ le16 r.presenceCount ++
      le16 r.rewrites ++ le32 r.openSeq

/-- A profile's valid field, stock code and reference count (R197). -/
def profileSummary (p : Bool × Nat × Nat) : List Byte := flag p.1 ++ le16 p.2.1 ++ le8 p.2.2

/-- The shading knots of a channel. -/
def shadingBytes (v : Shading) : List Byte := v.toList.flatMap le32

/-- The latched roll trims and clip counts of the active frame (R72). A latched trim takes one byte, as the roll trims
used of Table 12-10: DESIGN CHOICE 14. -/
def activeDoseBytes : Option (Rgb Int × Rgb Clips) → List Byte
  | none => zeros 28
  | some (trims, clips) => flag true ++ rgbSigned8 trims ++ clipBytes clips

/-- The measurement state (R91). -/
def measurementBytes : Option (Fin 8 × Nat) → List Byte
  | none => le8 0 ++ [0xFF] ++ le32 0
  | some (f, ticks) => le8 1 ++ le8 f.val ++ le32 ticks

/-- A facet entry (Table 5-2): its state, filtered interval, last measured interval with a presence flag,
run and gain. -/
def Facet.bytes (f : Facet) : List Byte :=
  facetState f.usable ++ le32 f.interval ++ flag f.measured.isSome ++ le32 (f.measured.getD 0) ++
    le8 f.run ++ le16 f.gain

/-- A laser channel (R109), with a presence flag before its last reading. -/
def ChannelReport.bytes (c : ChannelReport) : List Byte :=
  le8 c.laser.code ++ signed8 c.trim ++ flag c.reading.isSome ++ le16 (c.reading.getD 0) ++
    le8 c.window.code ++ le8 c.outRun ++ le8 c.inRun ++ signed32 c.accumulator ++ le8 c.samples

/-- A pending long reply: the code of its request, 0 for none, whether it holds a tag, and the tag
(R136). -/
def replyEntry : Option PendingReply → List Byte
  | none => zeros 3
  | some r => le8 r.request.code ++ flag r.tag.isSome ++ le8 (r.tag.getD 0)

/-- The stage: UNHOMED 0, HOMING 1, SETTLED 2, MOVING 3, and its line (R136). -/
def Stage.bytes : Stage → List Byte
  | .unhomed => le8 0 ++ line16 none
  | .homing => le8 1 ++ line16 none
  | .settled l => le8 2 ++ line16 (some l)
  | .moving l _ => le8 3 ++ line16 (some l)

/-- A wheel: its position, whether it moves, and its target (R136). DESIGN CHOICE 14: chapter 12 gives no
code for a position UNKNOWN and no content for the target of a wheel at rest; each is sent as 0xFF, as R205
has an absent one-byte index, and a filter range as its number. -/
def Wheel.bytes (w : Wheel) : List Byte :=
  index8 w.position ++ flag w.move.isSome ++ index8 (w.move.map (·.1))

/-- The exposure record of the active frame after a presence flag, its fields in the order of Table 7-5, a latched
trim in one byte (DESIGN CHOICE 14); the reservation held is the roll log's, given beside it. -/
def exposureBytes (reserved : Bool) : Option ExposureRecord → List Byte
  | none => flag false ++ [0xFF] ++ zeros 4 ++ [0xFF, 0xFF, 0xFF] ++ zeros 37
  | some e =>
    flag true ++ le8 e.slot.val ++ le32 e.openSeq ++ le8 e.profile.val ++ line16 (some e.line) ++
      le16 e.exposed ++ le16 e.defects ++ le32 e.pauses ++ clipBytes e.clips ++ rgbSigned8 e.trims ++
      flag reserved ++ flag e.marked

/-- The last gate outcome (R156). -/
def lastGateBytes : Option LastOperation → List Byte
  | none => zeros 3
  | some l => le8 l.outcome.code ++ le8 l.op.code ++ le8 l.count

/-- The pending print: its kind and its 14 characters (R156). -/
def pendingMarkBytes : Option Mark → List Byte
  | none => zeros 15
  | some m => le8 m.kind.code ++ padTo 14 m.characters

/-- The blank advance record, after a presence flag (R156). -/
def blankBytes : Option BlankAdvance → List Byte
  | none => zeros 6
  | some b => flag true ++ le8 b.count ++ le8 b.completed ++ b.start.bytes

/-- A fault record, 20 bytes; absent, all zero, as section 12.6 has the absent first member of a LOCKED payload:
DESIGN CHOICE 14. -/
def faultBytes : Option FaultRecord → List Byte
  | none => zeros 20
  | some r => r.bytes

/-- The lock record pair, 44 bytes; absent, all zero: DESIGN CHOICE 14. -/
def lockBytes : Option LockPair → List Byte
  | none => zeros 44
  | some p => p.bytes

/-! ### The parts (R197) -/

/-- LP's part. -/
def StatusReport.linkPart (r : StatusReport) : List Byte :=
  flag r.up ++ le8 r.occupancy ++ le8 r.flow.code ++
    counted r.outstanding.length (r.outstanding.flatMap Outstanding.bytes) ++ le16 r.errors ++
    le8 ((r.firstError.map LinkError.code).getD 0) ++ r.posted.bytes

/-- NU's part. -/
def StatusReport.noticePart (r : StatusReport) : List Byte :=
  le8 r.notices.mask ++ r.notices.pending.toList.flatMap pendingBytes

/-- The parts of FS (R23), PT and DU (R72). A standing roll trim takes two bytes, as in Table 12-3: DESIGN CHOICE
14. -/
def StatusReport.framePart (r : StatusReport) : List Byte :=
  r.slots.flatMap slotBytes ++ counted r.queue.length (r.queue.flatMap (fun i => le8 i.val)) ++
    r.profiles.flatMap profileSummary ++
    signed16 r.rollTrims.r ++ signed16 r.rollTrims.g ++ signed16 r.rollTrims.b ++
    shadingBytes r.shading.r ++ shadingBytes r.shading.g ++ shadingBytes r.shading.b ++
    activeDoseBytes r.activeDose

/-- The parts of STU (R91) and PL (R109). -/
def StatusReport.scanPart (r : StatusReport) : List Byte :=
  le8 r.speed.code ++ le8 r.counter.val ++ flag r.aligned ++ measurementBytes r.measurement ++
    le16 r.scanStats.strayEos ++ le16 r.scanStats.missedEos ++ le16 r.scanStats.missedSos ++
    le16 r.scanStats.slips ++ r.facets.toList.flatMap Facet.bytes ++
    interlockState r.interlockOpen ++ r.channels.r.bytes ++ r.channels.g.bytes ++ r.channels.b.bytes

/-- ES's part, in the order of R136: the line pitch and the pause timeout stand before the exposure record. -/
def StatusReport.enginePart (r : StatusReport) : List Byte :=
  le8 r.engine.code ++ waitSet r.waiting ++ flag r.stopPending ++
    le8 ((r.deferredHalt.map FaultKind.code).getD 0) ++ replyEntry r.replies.start ++
    replyEntry r.replies.stop ++ replyEntry r.replies.reset ++ replyEntry r.replies.advance ++
    r.stage.bytes ++ r.wheels.r.bytes ++ r.wheels.g.bytes ++ r.wheels.b.bytes ++
    le32 r.linePitch ++ le32 r.pauseMs ++ exposureBytes r.reservationHeld r.exposure ++
    index8 (r.lineInProgress.map (·.val))

/-- TC's part (R156). -/
def StatusReport.transportPart (r : StatusReport) : List Byte :=
  le8 r.gate.code ++ le8 ((r.gateOp.map GateOp.code).getD 0) ++ le8 r.perforations ++
    lastGateBytes r.lastGate ++ le8 r.shutter.code ++ r.footage.bytes ++ flag r.gateUsed ++
    le8 ((r.printing.map MarkKind.code).getD 0) ++ pendingMarkBytes r.pendingMark ++
    blankBytes r.blank ++ le32 r.pullDowns.1 ++ le32 r.pullDowns.2

/-- The parts of FU (R175) and RL (R186). -/
def StatusReport.faultPart (r : StatusReport) : List Byte :=
  r.responses.toList.flatMap (fun x => le8 x.code) ++ r.faultCounts.toList.flatMap le16 ++
    faultBytes r.lastFault ++ faultBytes r.inHand ++ lockBytes r.lockPair ++
    le8 r.logOccupancy ++ reservationBytes r.reservation ++ le32 r.lastSeq ++
    le32 (r.oldestSeq.getD 0) ++ le8 r.batchLength

/-- The parameters of Table 11-4 in its order that no block's own part lists: the shading knots stand in DU's
part (R72), the pause timeout and the line pitch in ES's (R136). -/
def StatusReport.parameterPart (r : StatusReport) : List Byte :=
  le32 r.timing.tn ++ le32 r.timing.pn ++ le32 r.timing.tolerance ++ le32 r.timing.nsp ++
    le32 r.timing.l0 ++ rgb32 r.power.targets ++ le32 r.power.deadband ++ le32 r.power.steps ++
    le32 r.power.direction.code ++ le32 r.power.persistence ++ le32 r.power.settleMs

/-- The data of a Status reply: the parts in the order of R197. DESIGN CHOICE 14. -/
def StatusReport.bytes (r : StatusReport) : List Byte :=
  r.linkPart ++ r.noticePart ++ r.framePart ++ r.scanPart ++ r.enginePart ++ r.transportPart ++
    r.faultPart ++ r.parameterPart

end Sys2Proof.Machine
end

