-- ==== Sys2Proof/Machine/Records.lean ====
section
/-! DEFINITION. The records the part sends, byte by byte (chapter 12, R202, R204): the record frame with its
check trailer, REPLY records with their prefix and data, and NOTICE records. -/

namespace Sys2Proof.Machine

/-! ### Replies (Table 12-7, R204) -/

/-- The failed conditions of a Start or Resume Engine, one flag byte each: the interlock OPEN, then the
film absent. R114 says only that the reply names each failed condition. DESIGN CHOICE 14. -/
def conditionBytes (interlockOpen filmAbsent : Bool) : List Byte :=
  flag interlockOpen ++ flag filmAbsent

/-- The allowed set of a fault kind, as the list of its response codes in the order of Table 9-1. R158
gives it no coding. DESIGN CHOICE 14. -/
def allowedBytes (responses : List Response) : List Byte := responses.flatMap (fun r => le8 r.code)

/-- The data of a reply, its fields in the order its rule lists them (R204; DEDUCED 14). The stored trims of a Set Roll
Trim take two bytes each, as Table 12-3 has them carried, and not the one byte of Table 12-10; a footage takes its three
bytes with no spare; a field with no width in chapter 12 takes the fewest of one, two and four bytes that hold its
range: DESIGN CHOICE 14. The failed conditions are two flag bytes, the allowed set of a refused Set Fault Response is the list of its codes,
and a Status reply has the layout of StatusReport.bytes: DESIGN CHOICE 14. -/
def ReplyData.bytes : ReplyData → List Byte
  | .empty => []
  | .identity => identityBytes 0
  | .status report => report.bytes
  | .checkpoint p errors first =>
    p.bytes ++ le16 errors ++ le8 ((first.map LinkError.code).getD 0)
  | .oldValue v => le32 v
  | .mask previous released => le8 previous ++ le8 released
  | .opened i r n => le8 i.val ++ le8 r.val ++ le32 n
  | .heightFalls n lowest => le8 n ++ index8 lowest
  | .emptyProfile r p => le8 r.val ++ le8 p.val
  | .stale phase openSeq => le8 (phaseCode phase) ++ le32 (openSeq.getD 0)
  | .activeSequence openSeq => le32 openSeq
  | .slotState phase => le8 (phaseCode phase)
  | .missing n lowest => le16 n ++ le16 lowest
  | .closed n rewrites => le8 n ++ le16 rewrites
  | .position n => le8 n
  | .count n => le8 n
  | .labelPosition n => le8 n
  | .rule i r n => r.bytes i ++ le8 n
  | .loaded i before => le8 i ++ flag before
  | .curveOrder channel knot => le8 (channelPlace channel) ++ le8 knot
  | .profile i p => p.bytes i ++ le8 p.refs
  | .trims t => signed16 t.r ++ signed16 t.g ++ signed16 t.b
  | .restored excluded => le8 excluded
  | .footage previous => previous.bytes
  | .response previous => le8 previous.code
  | .allowed responses => allowedBytes responses
  | .log records occupancy reservation lastSeq =>
    le8 records.length ++ reservationBytes reservation ++ le8 occupancy ++ le32 lastSeq ++
      zeros 4 ++ records.flatMap LogRecord.bytes
  | .conditions interlockOpen filmAbsent => conditionBytes interlockOpen filmAbsent
  | .advanced n f => le8 n ++ f.bytes
  | .advancedBefore frames => le8 frames

/-- The field byte of the prefix, and the full offset ahead of the data when it is above 255 (R204). -/
def fieldBytes (field : Nat) : List Byte × List Byte :=
  if 255 < field then (le8 255, le16 field) else (le8 field, [])

/-- The payload of a reply: the prefix, then the data (Table 12-7, R204). -/
def Reply.payload (r : Reply) : List Byte :=
  le8 r.code ++ le8 r.reason.code ++ le8 r.engine.code ++ (fieldBytes r.field).1 ++
    (fieldBytes r.field).2 ++ r.data.bytes

/-! ### The record frame (Table 12-1, R202) -/

/-- A record: the header, the payload and the CRC of both (Table 12-1, R190, R202). -/
def recordBytes (kind tag code level : Nat) (payload : List Byte) : List Byte :=
  let body := le8 kind ++ le8 tag ++ le8 code ++ le8 level ++ le16 payload.length ++ zeros 2 ++ payload
  body ++ le32 (crc32 body).toNat

/-- A REQUEST record (Table 12-1). -/
def requestRecord (tag : Nat) (q : Request) (payload : List Byte) : List Byte :=
  recordBytes 0x01 tag q.code 0 payload

/-- A REPLY record: the outcome as its code, CLAMPED in the flag byte (R202, R204). -/
def Reply.bytes (r : Reply) : List Byte :=
  recordBytes 0x02 r.tag r.outcome.code (if r.clamped then 1 else 0) r.payload

/-- A NOTICE record: its kind as the code, its level in the level byte and its payload (R199, R202).
The coalesced count of R200, for which chapter 12 gives no place, stands in two bytes after the payload,
so that every offset of section 12.6 holds, and the tag byte is 0: DESIGN CHOICE 14. -/
def Notice.bytes (n : Notice) : List Byte :=
  recordBytes 0x03 0 n.payload.kind.code n.payload.kind.level (n.payload.bytes ++ le16 n.count)

end Sys2Proof.Machine
end

