-- ==== Sys2Proof/Safety.lean ====
section
/-! DEFINITION. What the statements speak of: the state between two commands, a request that stands at the
head of the input queue and passes intake, the reply to it, and the invariants of the part. -/

namespace Sys2Proof.Machine

/-! ### Between commands -/

/-- The part before a command: its own replies are sent, and no fault waits of a kind that is taken on the event
that raises it, or of one that a rule has taken before the command (LOG 3). -/
structure State.Before (s : State) (first : List FaultKind) : Prop where
  raised : ∀ f ∈ s.fu.raised,
    f.kind ∉ [FaultKind.facetShortage, .operator, .shutter, .transport, .filmEnd] ∧ f.kind ∉ first
  staged : s.staged = []

/-- The part between two commands with no fault raised and not yet taken (R193). -/
structure State.Quiet (s : State) : Prop where
  raised : s.fu.raised = []
  staged : s.staged = []

/-- A request stands at the head of the input queue with its payload, the link is UP, LP has no other record
in hand, and the request passes the intake checks of Table 11-2 and is not refused LOCKED (R173, R191). -/
structure State.Accepts (s : State) (tag : Nat) (q : Request) (p : List Byte) : Prop where
  before : s.Before []
  up : s.lp.up = true
  head : s.head = some (.request tag q p)
  size : p.length = q.payloadBytes
  fresh : ∀ o ∈ s.lp.outstanding, o.tag ≠ tag
  room : s.lp.outstanding.length < 4
  unlocked : s.es.engine = .locked → q.acceptedInLocked = true
  free : s.lp.held = none

/-- Send a reply record. -/
def State.replied (s : State) (r : Reply) : State := { s with out := s.out ++ [.reply r] }

/-- Send the DONE reply of a request, with its data and the engine state as it stands (R193, R204). -/
def State.repliedDone (s : State) (tag : Nat) (q : Request) (data : ReplyData) : State :=
  s.replied ⟨tag, q.code, .done, .none_, s.es.engine, 0, false, data⟩

/-- Send the REFUSED reply of a request, with its reason, the field it names and its data (R193,
R204). -/
def State.repliedRefused (s : State) (tag : Nat) (q : Request) (reason : Reason) (field : Nat)
    (data : ReplyData) : State :=
  s.replied ⟨tag, q.code, .refused, reason, s.es.engine, field, false, data⟩

/-- The command that is LP's take of a request with a payload, the film-present sensor as given. -/
def Request.command (q : Request) (film : Bool) (p : List Byte) : Instr :=
  match q with
  | .identify => .identify
  | .status => .status
  | .checkpoint => .checkpoint
  | .setParameter => .setParameter
  | .setNoticeMask => .setNoticeMask
  | .openFrame => .openFrame
  | .closeFrame => .closeFrame
  | .discardFrame => .discardFrame
  | .requeueFrame => .requeueFrame
  | .writeRule => .writeRule
  | .readRule => .readRule
  | .loadProfile => .loadProfile
  | .readProfile => .readProfile
  | .setRollTrim => .setRollTrim
  | .setFacetGains => .setFacetGains
  | .restoreFacets => .restoreFacets
  | .setFootage => .setFootage
  | .setFaultResponse => .setFaultResponse
  | .abortFrame => .abortFrame
  | .readLog => if asksRepeat p then .readLogRepeat else .readLog
  | .startEngine => .startEngine film
  | .resumeEngine => .resumeEngine film
  | .stopEngine => .stopEngine
  | .resetEngine => .resetEngine
  | .advanceFilm => .advanceFilm

/-! ### Tables -/

/-- The fifteen single parameters with their ids and ranges (section 12.2, Tables 5-4, 6-2 and 11-4); the
lower bound of Pn is the pair check (R88). -/
def parameterRows : List (Nat × Parameter × Nat × Nat) :=
  [(0x0001, .tn, 10000, 1000000), (0x0002, .pn, 0, 2000000), (0x0003, .tolerance, 1, 500),
   (0x0004, .nsp, 4096, 8192), (0x0005, .l0, 64, 1023), (0x0010, .target .red, 256, 3840),
   (0x0011, .target .green, 256, 3840), (0x0012, .target .blue, 256, 3840), (0x0013, .deadband, 0, 255),
   (0x0014, .steps, 1, 31), (0x0015, .direction, 0, 2), (0x0016, .persistence, 1, 15),
   (0x0017, .settleTime, 100, 2000), (0x0020, .pauseTimeout, 100, 10000), (0x0021, .linePitch, 1, 64)]

/-- The number of a channel: R 0, G 1, B 2 (Table 12-2). -/
def channelNumber : Channel → Nat
  | .red => 0
  | .green => 1
  | .blue => 2

/-- The fields of a Load Profile in the order of checks 2 to 6 of Table 3-4: the offset and size of each,
and the range that passes (Tables 3-4 and 12-5). -/
def profileFields : List (Nat × Nat × Nat × Nat) :=
  [(1, 1, 0, 1), (2, 1, 0, 1), (3, 1, 0, 1), (4, 1, 0, 1), (8, 1, 0, 2), (82, 1, 0, 2), (156, 1, 0, 2),
   (12, 4, 1, 245760), (86, 4, 1, 245760), (160, 4, 1, 245760)] ++
    (List.range 3).flatMap (fun c => (List.range 33).map (fun k => (16 + 74 * c + 2 * k, 2, 0, 3000)))

/-- Whether a field of a payload, by its offset and size, passes its range. -/
def fieldPasses (p : List Byte) (x : Nat × Nat × Nat × Nat) : Prop :=
  let v := if x.2.1 = 1 then byteAt p x.1 else if x.2.1 = 2 then wordAt p x.1 else longAt p x.1
  x.2.2.1 ≤ v ∧ v ≤ x.2.2.2

/-- The knot a Load Profile carries for a channel (Table 12-5). -/
def carriedKnot (p : List Byte) (c : Channel) (k : Nat) : Nat :=
  wordAt p (16 + 74 * channelNumber c + 2 * k)

/-- Fields in order, each by its size in bytes and its value, least significant byte first (R202). -/
def fieldsOf (l : List (Nat × Nat)) : List Byte :=
  l.flatMap (fun x => (List.range x.1).map (fun k => BitVec.ofNat 8 (x.2 / 256 ^ k)))

/-! ### What a command sends -/

/-- One thing sent: a notice by way of NU (R199), a mechanism command, or anything else put out. -/
inductive Sent where
  | notice (p : NoticePayload)
  | command (c : MechanismCommand)
  | output (o : Output)
  deriving DecidableEq, Repr

/-- Send a list of things in order. NU decides each notice (R199), and what is put out joins `out`. -/
def State.sends (s : State) (l : List Sent) : State :=
  l.foldl (fun t x => match x with
    | .notice p => t.notice p
    | .command c => t.command c
    | .output o => t.emit o) s

/-- A pending long reply ends (R111, R113): its entry is cleared; if it holds a tag, the tag leaves the
outstanding-request table and the reply is staged, to be sent at the end of the event (R193). -/
def State.ends (s : State) (k : LongKind) (outcome : ReplyOutcome) (reason : Reason)
    (data : ReplyData) : State :=
  let es := { s.es with replies := s.es.replies.set k none }
  match s.es.replies.get k with
  | some ⟨q, some tag⟩ =>
    { s with
      es := es
      lp := { s.lp with outstanding := s.lp.outstanding.filter (·.tag ≠ tag) }
      staged := if s.lp.up then
          s.staged ++ [⟨tag, q.code, outcome, reason, s.es.engine, 0, false, data⟩]
        else s.staged }
  | _ => { s with es := es }

/-! ### What the mechanisms are told -/

/-- The shutter told to close: OPEN and OPENING become CLOSING with a 50 ms timer, CLOSING and CLOSED
stay (R146). -/
def Transport.shutting (t : Transport) : Transport :=
  if t.shutter = .opened ∨ t.shutter = .opening then
    { t with shutter := .closing, shutterTimer := some (Config.ms 50) }
  else t

/-- The close command itself, given to an OPEN or OPENING shutter (R146). -/
def Transport.shutCommand (t : Transport) : List Sent :=
  if t.shutter = .opened ∨ t.shutter = .opening then [.command .shutterClose] else []

/-- The gate told to pull down: with no operation in flight one begins, at RELEASING with the gate
CLAMPED and at PULLING otherwise, with a 400 ms timer and a perforation count of 0 (R138). -/
def Transport.pulling (t : Transport) : Transport :=
  if t.op.isSome then t
  else
    { t with
      gate := if t.gate = .clamped then .releasing else .pulling
      op := some .pullDown
      opTimer := some (Config.ms 400)
      perforations := 0 }

/-- The mechanism command that begins a pull-down (R138). -/
def Transport.pullCommand (t : Transport) : List Sent :=
  if t.op.isSome then []
  else if t.gate = .clamped then [.command .clampOpen] else [.command .motorCycle]

/-- A gate operation cut short or failed: the gate is RELEASED, gate-used is set, the footage stays
and the failed total rises (R143). -/
def Transport.failing (t : Transport) (op : GateOp) (outcome : GateOutcome) : Transport :=
  { t with
    gate := .released
    op := none
    opTimer := none
    settleTimer := none
    gateUsed := true
    last := some ⟨outcome, op, t.perforations⟩
    failedTotal := min 4294967295 (t.failedTotal + 1) }

/-- The stop commands of the wheels that move (R123). -/
def State.wheelStops (s : State) : List Sent :=
  ([.red, .green, .blue].filter (fun c => (s.es.wheels.get c).move.isSome)).map
    (fun c => .command (.wheelStop c))

/-- The head told to print: an IDLE head begins the mark, 28 ms long, and a PRINTING head keeps it as
the pending print (R153). -/
def Transport.marking (t : Transport) (m : Mark) : Transport :=
  if t.head = .idle then { t with head := .printing m (Config.ms 28) } else { t with pendingMark := some m }

/-- The print command itself, given to an IDLE head (R153). -/
def Transport.markCommand (t : Transport) (m : Mark) : List Sent :=
  if t.head = .idle then [.command (.print m)] else []

/-- Whether the take commands the stage to return to line 0: it stands at another line, or a step whose
settle timer has expired has not settled (R124). -/
def State.stageReturns (s : State) : Bool :=
  match s.es.stage with
  | .settled l => l != 0
  | .moving _ timer => timer.isNone
  | _ => false

/-- The marks at the head no longer belong to a frame in hand (R154; LOG 8). -/
def Transport.disowned (t : Transport) : Transport :=
  { t with
    head := match t.head with
      | .idle => .idle
      | .printing m left => .printing { m with live := false } left
    pendingMark := t.pendingMark.map (fun m => { m with live := false }) }

/-! ### The engine's conditions -/

/-- What the engine's change of state sends: DU holds beam-off where EXPOSING is left (R67), then the
ENGINE_STATE notice (R112). -/
def engineMoves (previous new : Engine) (cause : Option FaultKind) : List Sent :=
  (if previous = .exposing ∧ new ≠ .exposing then [.output .beamOff] else []) ++
    [.notice (.engineState previous new cause)]

/-- The reference pulses a disable cuts short: those of the channels that have fired, have not given their
sample and are not OFF already (R93). -/
def State.cutsPulses (s : State) : List Sent :=
  let cut : Rgb Bool := s.pl.channels.map (fun c => c.firing && c.laser != .off)
  if cut.r = true ∨ cut.g = true ∨ cut.b = true then [.output (.pulseCut cut)] else []

/-- Entry to READY: no fault stays in hand (R168), and an empty queue sends QUEUE_EMPTY (R121), after the
ENGINE_STATE notice of the entry (LOG 6). -/
def State.entersReady (s : State) : State :=
  State.sends { s with
    es := { s.es with engine := .ready }
    fu := { s.fu with inHand := none } }
    (engineMoves s.es.engine .ready none ++
      if s.fs.queue = [] then [.notice .queueEmpty] else [])

/-- Entry to STOPPING: the mechanisms stopped, stop-pending clear, 10 s on the stop timer (R119), and no
fault in hand (R168). -/
def State.entersStopping (s : State) : State :=
  let t := s.stopMechanisms
  State.sends { t with
    es := { t.es with engine := .stopping, stopPending := false, stopTimer := some (Config.ms 10000) }
    fu := { t.fu with inHand := none } }
    (engineMoves s.es.engine .stopping none)

/-- The end of ADVANCING (R135): HALTED under deferred-halt, STOPPING under stop-pending, or READY. -/
def State.leavesAdvancing (s : State) : State :=
  match s.es.deferredHalt with
  | some r => s.enterHalted r
  | none => if s.es.stopPending then s.entersStopping else s.entersReady

/-- Entry to PAUSED (R131, R132): the line ends uncounted and the pause timer runs. -/
def State.pauses (s : State) : State :=
  State.sends { s with
    es := { s.es with
      engine := .paused, lineInProgress := none, pauseTimer := some (Config.ms s.es.pauseMs) }
    du := { s.du with lineLatch := none, lineClips := Rgb.all ⟨0, 0⟩ } }
    (engineMoves s.es.engine .paused none)

/-- The log's part of a blank advance that ends early (R152), done while its reservation stands: a BLANK
record of its completed pull-downs with the notice of a nearly full log (R183), or the reservation
released. -/
def State.logsBlank (s : State) : State :=
  match s.tc.blank with
  | none => s
  | some b =>
    if s.rl.reservation ≠ some .blank then s
    else if b.completed = 0 then { s with rl := { s.rl with reservation := none } }
    else
      State.sends { s with rl := s.rl.append b.start (.blank b.completed) }
        (if 56 ≤ s.rl.records.length + 1 then
          [.notice (.logNearlyFull (s.rl.records.length + 1) false)]
        else [])

/-- Entry to ABORTING for a fault (R131, R165, R168): the line ends uncounted, the pause timer stops, the
shutter is told to close, and the fault is in hand. -/
def State.aborts (s : State) (r : FaultRecord) : State :=
  State.sends { s with
    es := { s.es with engine := .aborting, lineInProgress := none, pauseTimer := none }
    du := { s.du with lineLatch := none, lineClips := Rgb.all ⟨0, 0⟩ }
    tc := s.tc.shutting
    fu := { s.fu with inHand := some r } }
    (s.tc.shutCommand ++ engineMoves s.es.engine .aborting none)

/-- STARTING enters READY once its four conditions hold together (R115), with the start reply DONE. -/
def State.meetsStart (s : State) : State :=
  if s.es.engine = .starting ∧ s.stu.speed = .running ∧ s.allSettled = true ∧
      s.es.stage = .settled 0 ∧ s.tc.gate = .clamped then
    (State.entersReady { s with es := { s.es with startTimer := none } }).ends .start .done .none_
      .empty
  else s

/-- PREPARING commands the shutter open once its conditions hold together (R125) with the shutter
CLOSED (R145). -/
def State.meetsPreparing (s : State) : State :=
  if s.es.engine = .preparing ∧ s.wheelsReady = true ∧ s.tc.gateUsed = false ∧
      s.es.stage = .settled 0 ∧ s.allSettled = true ∧ s.allClear = true ∧ s.tc.shutter = .closed then
    { s with tc := { s.tc with shutter := .opening, shutterTimer := some (Config.ms 50) } }.sends
      [.command .shutterOpen]
  else s

/-! ### A scan -/

/-- The image portion of the line attempt that is driven, if any (R66), with its line clip counts (R68). -/
def State.drivesImage (s : State) : State :=
  match s.drivenAttempt with
  | none => s
  | some (e, r, f, l) =>
    State.sends { s with du := { s.du with
      lineClips := lineClips (lineDoses s.fs.image f l e.slot e.line r.width) } }
      [.output (.image e.line s.stu.params.l0 s.scanPeriod
        ((lineDoses s.fs.image f l e.slot e.line r.width).map (Rgb.map Dose.word)))]

/-- STU triggers PL: each SETTLED channel fires, at the amplitude its trim gives, and awaits its sample
(R98). -/
def State.fires (s : State) (period : Nat) : State :=
  State.sends { s with pl := { s.pl with
    channels := s.pl.channels.map (fun c => { c with firing := c.laser == .settled }) } }
    (if s.pl.channels.r.laser = .settled ∨ s.pl.channels.g.laser = .settled ∨
        s.pl.channels.b.laser = .settled then
      [.output (.pulse (s.pl.channels.map (fun c =>
        if c.laser = .settled then some (rhu (2048 * (50 + c.trim).toNat) 50) else none)) 8 39 64
          period)]
    else [])

/-- Whether a scan begin starts a line attempt: EXPOSING, the stage SETTLED at the current line, the
facet USABLE and no line in progress (R129). -/
def State.mayStart (s : State) : Prop :=
  s.es.engine = .exposing ∧ s.stu.facets[s.stu.counter].usable = true ∧ s.es.lineInProgress = none ∧
    ∃ e, s.es.exposure = some e ∧ s.es.stage = .settled e.line

/-- The pixel period of a scan on the facet counted (R84). -/
def State.pixelPeriod (s : State) : Nat :=
  rhu (s.stu.facets[s.stu.counter].interval * 65536) s.stu.params.nsp

/-- Steps 3 to 5 of an SOS (R79): the missed-SOS run clears, the watch runs for 2 × Pn and the facet
counted is TIMING with its pixel period fixed. -/
def State.timesScan (s : State) : State :=
  { s with stu := { s.stu with
    missedRun := 0
    watch := some (2 * s.stu.params.pn)
    measurement := .timing s.stu.counter 0 false s.pixelPeriod } }

/-- A line attempt begins on the scan of the facet counted, and the line latch takes the facet's gain and
the power trims (R56, R68, R129). -/
def State.beginsLine (s : State) : State :=
  { s with
    es := { s.es with lineInProgress := some s.stu.counter }
    du := { s.du with
      lineLatch := some ⟨s.stu.counter, s.stu.facets[s.stu.counter].gain,
        s.pl.channels.map (·.trim)⟩
      lineClips := Rgb.all ⟨0, 0⟩ } }

/-- A scan on a facet judged out of tolerance or with its EOS missed (R86, R87): the run of a USABLE facet
rises, and at 3 it is EXCLUDED; ES is given the scan end; then an exclusion sends FACET_CHANGE, and with
fewer than four facets left raises FACET_SHORTAGE. -/
def State.failsScan (s : State) (f : Fin 8) (o : ScanOutcome) : State :=
  let e := s.stu.facets[f]
  let v : Facet :=
    if e.usable = false then e
    else if 3 ≤ e.run + 1 then { e with usable := false, run := 3 }
    else { e with run := e.run + 1 }
  let t := State.scanEnd { s with stu := { s.stu with facets := s.stu.facets.set f v } } f o
  let n := t.usableFacets
  if e.usable = true ∧ 3 ≤ e.run + 1 then
    let u := t.sends [.notice (.facetChange (some f) false n)]
    if n < 4 then { u with fu := { u.fu with raised := u.fu.raised ++ [.facetShortage f n] } } else u
  else t

/-- Put a list of things out. -/
def State.puts (s : State) (l : List Output) : State := { s with out := s.out ++ l }

/-! ### Invariants -/

/-- The engine states in which the lasers are disabled (R95). -/
def Engine.dark : Engine → Bool
  | .offline => true
  | .stopping => true
  | .halted => true
  | .locked => true
  | _ => false

/-- Every laser channel is OFF (R95). -/
def State.allOff (s : State) : Prop :=
  s.pl.channels.r.laser = .off ∧ s.pl.channels.g.laser = .off ∧ s.pl.channels.b.laser = .off

/-- R95: all laser channels are disabled whenever the interlock is open or the engine is in OFFLINE,
STOPPING, HALTED or LOCKED. -/
def LasersDark (s : State) : Prop :=
  s.pl.interlockOpen = true ∨ s.es.engine.dark = true → s.allOff

/-- The engine states with a slot ACTIVE (R19, Table 7-2). -/
def Engine.holdsFrame : Engine → Bool
  | .preparing => true
  | .exposing => true
  | .paused => true
  | .finishing => true
  | .aborting => true
  | _ => false

/-- The state of a slot, `none` for FREE. -/
def State.phaseOf (s : State) (i : Fin 4) : Option Phase := (s.slot i).map (·.phase)

/-- R16, R19, R136, R182: the exposure record exists exactly in the engine states with a slot ACTIVE;
the ACTIVE slot is the one it names, and no other; the queue holds each QUEUED slot once and nothing
else; a blank advance is in flight only in ADVANCING; the reservation is held for the frame or the
blank run in hand, and exists only for one; occupancy plus reservations never exceeds 64; a line is in
progress only in EXPOSING;
and the latches are full exactly while there is an exposure record and a line in progress (R53 to R56). -/
structure InHand (s : State) : Prop where
  present : s.es.exposure.isSome = s.es.engine.holdsFrame
  active : ∀ i, s.phaseOf i = some .active ↔ ∃ e, s.es.exposure = some e ∧ e.slot = i
  queued : ∀ i, i ∈ s.fs.queue ↔ s.phaseOf i = some .queued
  once : s.fs.queue.Nodup
  blank : s.tc.blank.isSome = true → s.es.engine = .advancing
  reserved : s.rl.reservation =
    match s.es.exposure with
    | some e => some (.frame e.slot)
    | none => if s.tc.blank.isSome then some .blank else none
  bound : s.rl.load ≤ 64
  line : s.es.lineInProgress.isSome = true → s.es.engine = .exposing
  latched : s.du.frameLatch.isSome = s.es.exposure.isSome
  lineLatched : s.du.lineLatch.map (·.facet) = s.es.lineInProgress

/-- The number of non-FREE slots that name a profile (R49). -/
def State.naming (s : State) (p : Fin 8) : Nat :=
  s.fs.slots.toList.countP (fun r => match r with | none => false | some r => r.profile == p)

/-- R49, R50, R52: each profile's reference count is the number of non-FREE slots that name it, and a
profile that is named is loaded. -/
structure ProfilesHeld (s : State) : Prop where
  counts : ∀ p : Fin 8, s.pt.profiles[p].refs = s.naming p
  loaded : ∀ p : Fin 8, 0 < s.naming p → s.pt.profiles[p].valid = true

/-- Log records that carry consecutive numbers, oldest to newest, ending at the number given (R178). -/
def consecutive : List LogRecord → Nat → Prop
  | [], _ => True
  | [r], last => r.seq = last
  | r :: q :: rest, last => q.seq = nextNumber r.seq ∧ consecutive (q :: rest) last

/-- R178: the records carry consecutive numbers, and the newest carries the last sequence number. -/
def LogNumbered (s : State) : Prop := consecutive s.rl.records s.rl.lastSeq

/-- The image memory has its canonical form (Machine/Memory.lean). -/
def ImageCanonical (s : State) : Prop := Memory.wf s.fs.image

/-- R192: at most four requests are outstanding, and their tags are distinct. -/
def TagsDistinct (s : State) : Prop :=
  s.lp.outstanding.length ≤ 4 ∧ (s.lp.outstanding.map (·.tag)).Nodup

/-- R199, R200: a pending entry is of a kind whose level is no higher than the mask, and of no level 7
kind. -/
def NoticesHeldLow (s : State) : Prop :=
  ∀ e ∈ releaseOrder, (s.nu.pending[e.1]).isSome = true → e.2 ≤ s.nu.mask ∧ e.2 ≠ 7

/-- R104: every channel's power trim lies within −31 to +31. -/
def TrimsInRange (s : State) : Prop :=
  ∀ c : Channel, -31 ≤ (s.pl.channels.get c).trim ∧ (s.pl.channels.get c).trim ≤ 31

/-- R157: the response assigned to each kind is one of the kind's allowed responses. -/
def ResponsesAllowed (s : State) : Prop := ∀ k : FaultKind, s.assigned k ∈ k.allowed

/-- R11: a slot marks as many lines as its presence count says, no more than its height, and a slot
that has left FILLING has every line present. -/
def SlotRecord.Present (r : SlotRecord) : Prop :=
  r.presence.length = r.height ∧ r.presence.countP (fun b => b) = r.presenceCount ∧
    (r.phase ≠ .filling → r.presenceCount = r.height)

/-- R5, R6, R7, R11: no two non-FREE slots hold the same key, every one keeps its presence law, its size
is within 4096 × 3200 and its width fits the scan; and the current line is one of the frame in hand
(R129, R130). -/
structure SlotsSound (s : State) : Prop where
  keys : ∀ i j ri rj, s.slot i = some ri → s.slot j = some rj → ri.key = rj.key → i = j
  present : ∀ i r, s.slot i = some r → r.Present
  fits : ∀ i r, s.slot i = some r → s.stu.params.l0 + r.width ≤ s.stu.params.nsp
  size : ∀ i r, s.slot i = some r → r.width ≤ 4096 ∧ 1 ≤ r.height ∧ r.height ≤ 3200
  line : ∀ e r, s.es.exposure = some e → s.slot e.slot = some r → e.line < r.height

end Sys2Proof.Machine
end

