-- ==== Sys2Proof/Certificates/Slice0/Obligations.lean ====
section
/-! DEFINITION. The statements about the model, for the provers. -/

open Sys2Proof Sys2Proof.Machine

/-! ### The queue and power-on -/

/-- A step with a command at the front of the queue is that command's meaning on the state with the
queue's rest. With no command waiting every raised fault is taken first, one after another, and then LP takes up the next
record (the model's choice, LOG 27) and one tick passes (LOG 1). Time passes by ticks: every tick count rises by them, and every running
timer runs down by them and stays at its end; nothing else changes. -/
def Obligations.StepRunsFront : Prop :=
  ∀ s : State,
    (∀ (c : Instr) (rest : List Instr), s.pending = c :: rest →
      step s = exec c { s with pending := rest }) ∧
    (s.pending = [] → s.Quiet → step s = .next (s.handOver.elapse 1)) ∧
    (∀ t, s.pending = [] → s.fu.raised ≠ [] → exec .faultTake s = .next t → step s = step t) ∧
    (∀ n : Nat, s.elapse n = { s with
      stu := { s.stu with
        measurement := match s.stu.measurement with
          | .armed => .armed
          | .timing f t slipped p => .timing f (t + n) slipped p
        sinceSos := s.stu.sinceSos.map (· + n)
        watch := s.stu.watch.map (· - n) }
      pl := { s.pl with channels :=
        s.pl.channels.map (fun c => { c with settle := c.settle.map (· - n) }) }
      es := { s.es with
        stage := match s.es.stage with
          | .moving l t => .moving l (t.map (· - n))
          | x => x
        wheels := s.es.wheels.map (fun w => { w with move := w.move.map (fun m => (m.1, m.2 - n)) })
        startTimer := s.es.startTimer.map (· - n)
        stopTimer := s.es.stopTimer.map (· - n)
        pauseTimer := s.es.pauseTimer.map (· - n) }
      tc := { s.tc with
        opTimer := s.tc.opTimer.map (· - n)
        settleTimer := s.tc.settleTimer.map (· - n)
        shutterTimer := s.tc.shutterTimer.map (· - n)
        head := match s.tc.head with
          | .idle => .idle
          | .printing m left => .printing m (left - n) } }) ∧
    (∀ m n : Nat, (s.elapse m).elapse n = s.elapse (m + n))

/-- Power-on reset answers the next state in which every block holds the value its chapter gives after
power-on, field by field. The part's own output list, the waiting commands and the model's count of free
choices are kept (LOG 22, LOG 3), image memory lists nothing (LOG 4), and LP has no record in hand
(LOG 27). -/
def Obligations.PowerOnState : Prop :=
  ∀ (door : Bool) (s : State), exec (.powerOnReset door) s = .next
    { fs := { slots := Vector.replicate 4 none, openCounter := 0, queue := [], image := [] }
      admission := ⟨Vector.replicate 32
        { valid := false, key := 0, mask := 0, profile := 0, label := Vector.replicate 8 0x20,
          minHeight := 0 }⟩
      pt := ⟨Vector.replicate 8
        { valid := false, stock := 0, refs := 0,
          channels := Rgb.all { enabled := false, range := 0, scale := 0,
                                curve := Vector.replicate 33 0 } }⟩
      du :=
        { rollTrims := ⟨0, 0, 0⟩, shading := Rgb.all (Vector.replicate 17 4096), frameLatch := none,
          lineLatch := none, lineClips := Rgb.all ⟨0, 0⟩ }
      stu :=
        { speed := .idle, measurement := .armed, counter := 7, aligned := false, lockRun := 0,
          sinceSos := none, watch := none, missedRun := 0,
          facets := Vector.replicate 8 { usable := true, interval := 160000, measured := none,
                                         run := 0, gain := 4096 },
          params := { tn := 160000, pn := 250000, tolerance := 20, nsp := 4400, l0 := 128 },
          stats := { strayEos := 0, missedEos := 0, missedSos := 0, slips := 0 } }
      pl :=
        { interlockOpen := door,
          channels := Rgb.all { laser := .off, settle := none, trim := 0, reading := none,
                                window := .clear, outRun := 0, inRun := 0, accumulator := 0,
                                samples := 0, firing := false },
          params := { targets := Rgb.all 2048, deadband := 8, steps := 4, direction := .both,
                      persistence := 3, settleMs := 500 } }
      es :=
        { engine := .offline, stopPending := false, deferredHalt := none,
          replies := { start := none, stop := none, reset := none, advance := none },
          exposure := none, lineInProgress := none, stage := .unhomed,
          wheels := Rgb.all { position := none, move := none },
          startTimer := none, stopTimer := none, pauseTimer := none, linePitch := 4,
          pauseMs := 2000 }
      tc :=
        { gate := .released, op := none, opTimer := none, settleTimer := none, perforations := 0,
          last := none, shutter := .closed, shutterTimer := none, footage := ⟨0, 0, 0, 0, 0, 0⟩,
          gateUsed := true, head := .idle, pendingMark := none, blank := none,
          completedTotal := 0, failedTotal := 0 }
      fu :=
        { responses := #v[.halt, .halt, .warn, .pause, .abort, .warn, .abort, .halt, .halt, .halt,
            .halt, .halt, .halt, .abort],
          counts := Vector.replicate 14 0, lastFault := none, inHand := none, lockPair := none,
          raised := [], choices := s.fu.choices }
      rl := { records := [], reservation := none, lastSeq := 0, lastBatch := none }
      nu := { mask := 0, pending := Vector.replicate 11 none }
      lp :=
        { up := false, queue := [], flow := .go, outstanding := [], errors := 0, firstError := none,
          posted := { count := 0, first := none }, held := none }
      staged := []
      out := s.out
      pending := s.pending }

/-- The invariants stated below hold after power-on reset, with the door open or closed. -/
def Obligations.InvariantsAtPowerOn : Prop :=
  ∀ door : Bool, LasersDark (State.powerOn door) ∧ InHand (State.powerOn door) ∧
    ProfilesHeld (State.powerOn door) ∧ LogNumbered (State.powerOn door) ∧
    ImageCanonical (State.powerOn door) ∧ TagsDistinct (State.powerOn door) ∧
    NoticesHeldLow (State.powerOn door) ∧ ResponsesAllowed (State.powerOn door) ∧
    TrimsInRange (State.powerOn door) ∧ SlotsSound (State.powerOn door)

/-! ### The link -/

/-- Link up and link reset, each with all it changes and puts out. A record in hand at a link reset stays in
hand without its tag, and every immediate request so left is decided as it would have been, with its reply
not sent; a long one is accepted with no tag, as the Stop Engine given here shows. LP's hand is the model's
own (LOG 27). -/
def Obligations.LinkUpAndReset : Prop :=
  (∀ s : State, s.Before [] →
    (s.lp.up = false → exec .linkUp s =
      .next (State.puts { s with lp := { s.lp with up := true, flow := .go } }
        [.flow .go, .notice ⟨1, .hello .powerOn⟩])) ∧
    (s.lp.up = true → exec .linkReset s =
      .next (State.puts { s with
        lp := ⟨true, [], .go, [], 0, none, ⟨0, none⟩, s.lp.held.map (fun h => ⟨h.record, false⟩)⟩
        es := { s.es with replies :=
          ⟨s.es.replies.start.map (fun r => ⟨r.request, none⟩),
           s.es.replies.stop.map (fun r => ⟨r.request, none⟩),
           s.es.replies.reset.map (fun r => ⟨r.request, none⟩),
           s.es.replies.advance.map (fun r => ⟨r.request, none⟩)⟩ } }
        [.flow .go, .notice ⟨1, .hello .linkReset⟩]))) ∧
  (∀ (s t u : State) (r : Record) (tag : Nat) (q : Request) (p : List Byte) (film : Bool),
    s.Accepts tag q p → s.lp.queue.head? = some r →
    u = { s.takeRecord with lp := { s.takeRecord.lp with held := some ⟨r, false⟩ } } →
    (q.isLong = false → exec (q.command film p) s = .next t →
      (∃ reply, t.out.getLast? = some (.reply reply)) ∧
      exec (q.command film p) u = .next { t with out := t.out.dropLast }) ∧
    (q = .stopEngine → s.es.engine.stopsLater = true → s.es.replies.stop = none →
      s.es.stopPending = false → exec .stopEngine u = .next { s.takeRecord with
        es := { s.es with
          stopPending := true
          replies := { s.es.replies with stop := some ⟨.stopEngine, none⟩ } } }))

/-- A record that arrives is queued, with HOLD at an occupancy of 12, or dropped at 16; LP's take
removes the head, with GO at an occupancy of 4 in HOLD. A line record, or a request other than Checkpoint
that passes intake, may be taken in hand before it is decided, the request with its entry in the table; then
its decision is what it would have been (LOG 27). -/
def Obligations.QueueFlows : Prop :=
  (∀ (s : State) (r : List Byte), s.Before [] → s.lp.up = true →
    exec (.recordArrival r) s = .next
      (if 16 ≤ s.lp.queue.length then
        { s with lp := { s.lp with
            errors := min 65535 (s.lp.errors + 1)
            firstError := some (s.lp.firstError.getD .queueOverrun) } }
      else if s.lp.queue.length + 1 = 12 ∧ s.lp.flow = .go then
        State.puts { s with lp := { s.lp with queue := s.lp.queue ++ [r], flow := .hold } } [.flow .hold]
      else { s with lp := { s.lp with queue := s.lp.queue ++ [r] } })) ∧
  (∀ (s : State) (r : Record) (rest : List Record), s.lp.held = none → s.lp.queue = r :: rest →
    s.takeRecord =
      (if rest.length = 4 ∧ s.lp.flow = .hold then
        State.puts { s with lp := { s.lp with queue := rest, flow := .go } } [.flow .go]
      else { s with lp := { s.lp with queue := rest } }) ∧
    (∀ slot line count words, judge r = .line slot line count words →
      s.handOver = { s.takeRecord with lp := { s.takeRecord.lp with held := some ⟨r, true⟩ } }) ∧
    (∀ tag q p, judge r = .request tag q p →
      (q ≠ .checkpoint ∧ p.length = q.payloadBytes ∧ (∀ o ∈ s.lp.outstanding, o.tag ≠ tag) ∧
          s.lp.outstanding.length < 4 →
        s.handOver = { s.takeRecord with lp := { s.takeRecord.lp with
          outstanding := s.lp.outstanding ++ [⟨tag, q⟩], held := some ⟨r, true⟩ } }) ∧
      (q = .checkpoint ∨ p.length ≠ q.payloadBytes ∨ (∃ o ∈ s.lp.outstanding, o.tag = tag) ∨
          4 ≤ s.lp.outstanding.length → s.handOver = s)) ∧
    ((∀ slot line count words, judge r ≠ .line slot line count words) →
      (∀ tag q p, judge r ≠ .request tag q p) → s.handOver = s)) ∧
  (∀ s : State, s.lp.held ≠ none ∨ s.lp.queue = [] → s.handOver = s) ∧
  (∀ (s : State) (h : HeldRecord), s.lp.held = some h →
    s.takeRecord = { s with lp := { s.lp with held := none } }) ∧
  (∀ (s : State) (tag : Nat) (q : Request) (p : List Byte) (film : Bool), s.Accepts tag q p →
    exec (q.command film p) s.handOver = exec (q.command film p) s) ∧
  (∀ (s : State) (slot line count : Nat) (words : List Byte), s.lp.held = none →
    s.head = some (.line slot line count words) → exec .lineRecord s.handOver = exec .lineRecord s)

/-- A record is judged in order: framing by its length, then the CRC, then its kind. A record that LP drops is
counted; one it refuses as of another kind, or as an unknown request, is answered on the event. -/
def Obligations.RecordsJudged : Prop :=
  (∀ r : Record,
      (r.length < 12 ∨ 16402 < r.length ∨ r.length ≠ 12 + payloadLength r →
        judge r = .dropped .framing) ∧
      (12 ≤ r.length → r.length ≤ 16402 → r.length = 12 + payloadLength r →
        ((crc32 (r.take (8 + payloadLength r))).toNat ≠ longAt r (8 + payloadLength r) →
          judge r = .dropped .badCrc) ∧
        ((crc32 (r.take (8 + payloadLength r))).toNat = longAt r (8 + payloadLength r) →
          (byteAt r 0 ≠ 1 → byteAt r 0 ≠ 4 → judge r = .otherKind (byteAt r 1)) ∧
          (byteAt r 0 = 1 → judge r = match Request.ofCode (byteAt r 2) with
            | none => .unknownRequest (byteAt r 1) (byteAt r 2)
            | some q => .request (byteAt r 1) q (payloadOf r)) ∧
          (byteAt r 0 = 4 → judge r =
            if payloadLength r = 6 + 4 * wordAt (payloadOf r) 3 then
              .line (byteAt (payloadOf r) 0) (wordAt (payloadOf r) 1) (wordAt (payloadOf r) 3)
                ((payloadOf r).drop 6)
            else .dropped .lineFormat)))) ∧
  (∀ s : State, s.Before [] → s.lp.up = true →
      (∀ e, s.head = some (.dropped e) → exec .droppedRecord s =
        .next { s.takeRecord with lp := { s.takeRecord.lp with
          errors := min 65535 (s.lp.errors + 1)
          firstError := some (s.lp.firstError.getD e) } }) ∧
      (∀ tag, s.head = some (.otherKind tag) → exec .unknownRecord s =
        .next (s.takeRecord.replied
          ⟨tag, 0, .refused, .badFormat, s.es.engine, 0, false, .empty⟩)) ∧
      (∀ tag code, s.head = some (.unknownRequest tag code) → exec .unknownRecord s =
        .next (s.takeRecord.replied
          ⟨tag, code, .refused, .unknownRequest, s.es.engine, 0, false, .empty⟩)))

/-- The byte layouts of chapter 12 in the records the part sends, and the code values of Tables 12-2 and 12-9:
the record frame with its CRC, the reply prefix, the data of every reply, the notice record, the payload of every
notice kind, the fault record with the data of each kind, the lock record pair, the roll log record and the identity.
Every request framed as section 12.1 says, with its tag and payload, is judged that request. Chapter 12 gives most
replies and notices no layout: their fields stand in the order their rules list them, each with the width it has
elsewhere in the chapter. That, the two bytes of a stored roll trim where the chapter has two widths and one of a
latched trim, the width of a field that has none, the Status reply, the codes of a facet's and the interlock's state, the conditions, the
allowed set and the trims of TRIM_AT_LIMIT, the tag byte of a notice and the place of its coalesced count are the
model's reading and choices (LOG 14). -/
def Obligations.RecordLayouts : Prop :=
  (∀ (tag : Nat) (q : Request) (p : List Byte), tag < 256 → p.length ≤ 16390 →
    judge (requestRecord tag q p) = .request tag q p) ∧
  (∀ (kind tag code level : Nat) (p r : List Byte), kind < 256 → tag < 256 → code < 256 →
    level < 256 → p.length ≤ 16390 → r = recordBytes kind tag code level p →
    r.length = 12 + p.length ∧ byteAt r 0 = kind ∧ byteAt r 1 = tag ∧ byteAt r 2 = code ∧
      byteAt r 3 = level ∧ wordAt r 4 = p.length ∧ wordAt r 6 = 0 ∧ payloadOf r = p ∧
      longAt r (8 + p.length) = (crc32 (r.take (8 + p.length))).toNat) ∧
  (∀ r : Reply,
    r.bytes = recordBytes 2 r.tag r.outcome.code (if r.clamped = true then 1 else 0) r.payload ∧
    byteAt r.payload 0 = r.code % 256 ∧ byteAt r.payload 1 = r.reason.code ∧
    byteAt r.payload 2 = r.engine.code ∧ byteAt r.payload 3 = min 255 r.field ∧
    (r.field ≤ 255 → r.payload.drop 4 = r.data.bytes) ∧
    (255 < r.field → wordAt r.payload 4 = r.field % 65536 ∧ r.payload.drop 6 = r.data.bytes)) ∧
  (∀ n : Notice, ∃ count : List Byte, count.length = 2 ∧ wordAt count 0 = n.count % 65536 ∧
    n.bytes = recordBytes 3 0 n.payload.kind.code n.payload.kind.level (n.payload.bytes ++ count)) ∧
  (∀ (r : FaultRecord) (b : List Byte), b = r.bytes →
    b.length = 20 ∧ byteAt b 0 = 0x41 + r.report.kind.index.val ∧ byteAt b 1 = r.engine.code ∧
    byteAt b 2 = r.applied.code ∧
    byteAt b 3 = (match r.slot with | none => 0xFF | some i => i.val) ∧
    wordAt b 4 = (match r.line with | none => 0xFFFF | some l => l % 65536) ∧
    byteAt b 6 = (match r.report.channel with | none => 0xFF | some c => channelNumber c) ∧
    byteAt b 7 = (match r.facet with | none => 0xFF | some f => f.val) ∧
    wordAt b 8 = r.footage.feet ∧ byteAt b 10 = r.footage.frames ∧ byteAt b 11 = 0 ∧
    (match r.report with
    | .sosLoss run => byteAt b 12 = run % 256 ∧ b.drop 13 = List.replicate 7 0
    | .facetShortage _ n => byteAt b 12 = n % 256 ∧ b.drop 13 = List.replicate 7 0
    | .syncSlip f => byteAt b 12 = f.val ∧ b.drop 13 = List.replicate 7 0
    | .powerTrip t reading limit =>
      byteAt b 12 = (if t.r then 1 else 0) + (if t.g then 2 else 0) + (if t.b then 4 else 0) ∧
        byteAt b 13 = (if limit = .lower then 0 else 1) ∧ wordAt b 14 = reading % 65536 ∧
        b.drop 16 = List.replicate 4 0
    | .pauseTimeout t =>
      byteAt b 12 = (if t.r then 1 else 0) + (if t.g then 2 else 0) + (if t.b then 4 else 0) ∧
        b.drop 13 = List.replicate 7 0
    | .trimLimit t trim up =>
      byteAt b 12 = (if t.r then 1 else 0) + (if t.g then 2 else 0) + (if t.b then 4 else 0) ∧
        (byteAt b 13 : Int) = trim % 256 ∧ byteAt b 14 = (if up then 1 else 0) ∧
        b.drop 15 = List.replicate 5 0
    | .stageTimeout l => wordAt b 12 = l % 65536 ∧ b.drop 14 = List.replicate 6 0
    | .filterTimeout _ range => byteAt b 12 = range % 256 ∧ b.drop 13 = List.replicate 7 0
    | .startTimeout w =>
      byteAt b 12 = (if Wait.speed ∈ w then 1 else 0) + (if Wait.settle ∈ w then 2 else 0) +
        (if Wait.stage ∈ w then 4 else 0) + (if Wait.gate ∈ w then 8 else 0) ∧
        b.drop 13 = List.replicate 7 0
    | .transport cause gate n op =>
      byteAt b 12 = (if cause = .count then 1 else 2) ∧ byteAt b 13 = gate.code ∧
        byteAt b 14 = n % 256 ∧ byteAt b 15 = op.code ∧ b.drop 16 = List.replicate 4 0
    | .filmEnd n op => byteAt b 14 = n % 256 ∧ byteAt b 15 = op.code ∧ wordAt b 12 = 0 ∧
        b.drop 16 = List.replicate 4 0
    | .interlock => b.drop 12 = List.replicate 8 0
    | .shutter way => byteAt b 12 = (if way = .opening then 0 else 1) ∧
        b.drop 13 = List.replicate 7 0
    | .operator n => longAt b 12 = n % 4294967296 ∧ b.drop 16 = List.replicate 4 0)) ∧
  (∀ p : LockPair, p.bytes = (match p.first with
    | none => List.replicate 24 0
    | some r => [1, 0, 0, 0] ++ r.bytes) ++ p.second.bytes) ∧
  (∀ (r : LogRecord) (b : List Byte), b = r.bytes →
    b.length = 64 ∧ longAt b 0 = r.seq % 4294967296 ∧ wordAt b 8 = r.footage.feet ∧
    byteAt b 10 = r.footage.frames ∧ wordAt b 22 = 0 ∧
    (∀ e, r.body = .exposed e ∨ (∃ c, r.body = .spoiled e c) →
      byteAt b 5 = e.slot.val ∧ byteAt b 6 = e.rule.val ∧ byteAt b 7 = e.profile.val ∧
      longAt b 12 = e.key.toNat ∧ wordAt b 16 = e.stock % 65536 ∧ byteAt b 18 = 0 ∧
      (byteAt b 19 : Int) = e.trims.r % 256 ∧ (byteAt b 20 : Int) = e.trims.g % 256 ∧
      (byteAt b 21 : Int) = e.trims.b % 256 ∧ (b.drop 24).take 8 = e.label.toList ∧
      wordAt b 32 = e.exposed % 65536 ∧ wordAt b 34 = e.defects % 65536 ∧
      longAt b 36 = e.pauses % 4294967296 ∧ longAt b 40 = e.clips.r.high % 4294967296 ∧
      longAt b 44 = e.clips.g.high % 4294967296 ∧ longAt b 48 = e.clips.b.high % 4294967296 ∧
      longAt b 52 = e.clips.r.low % 4294967296 ∧ longAt b 56 = e.clips.g.low % 4294967296 ∧
      longAt b 60 = e.clips.b.low % 4294967296) ∧
    (∀ e, r.body = .exposed e → byteAt b 4 = 1 ∧ byteAt b 11 = 0) ∧
    (∀ e, r.body = .spoiled e .reset → byteAt b 4 = 2 ∧ byteAt b 11 = 0x21) ∧
    (∀ e k, r.body = .spoiled e (.fault k) → byteAt b 4 = 2 ∧ byteAt b 11 = 0x41 + k.index.val) ∧
    (∀ n, r.body = .blank n → byteAt b 4 = 3 ∧ byteAt b 5 = 0xFF ∧ byteAt b 6 = 0xFF ∧
      byteAt b 7 = 0xFF ∧ byteAt b 11 = 0 ∧ longAt b 12 = 0 ∧ wordAt b 16 = 0 ∧
      byteAt b 18 = n % 256 ∧ b.drop 19 = List.replicate 45 0)) ∧
  (∀ (records : List LogRecord) (occupancy last : Nat) (held : Option Reservation) (b : List Byte),
    b = ReplyData.bytes (.log records occupancy held last) →
    byteAt b 0 = records.length % 256 ∧
    byteAt b 1 = (match held with
      | none => 0
      | some (.frame _) => 1
      | some .blank => 2) ∧
    byteAt b 2 = (match held with
      | some (.frame i) => i.val
      | _ => 0xFF) ∧
    byteAt b 3 = occupancy % 256 ∧ longAt b 4 = last % 4294967296 ∧ longAt b 8 = 0 ∧
    b.drop 12 = records.flatMap LogRecord.bytes) ∧
  (∀ (cause : Option HelloCause) (b : List Byte),
    b = (match cause with
      | none => ReplyData.bytes .identity
      | some c => NoticePayload.bytes (.hello c)) →
    b.length = 20 ∧ wordAt b 0 = 0x0E1A ∧ wordAt b 2 = 0x0040 ∧ wordAt b 4 = 1 ∧
    (b.drop 6).take 6 = [3, 8, 4, 8, 32, 64] ∧ wordAt b 12 = 4096 ∧ wordAt b 14 = 3200 ∧
    wordAt b 16 = 16390 ∧ byteAt b 19 = 0 ∧ byteAt b 18 = (match cause with
      | none => 0
      | some .powerOn => 1
      | some .linkReset => 2)) ∧
  (∀ r : FaultRecord, NoticePayload.bytes (.fault r) = r.bytes) ∧
  (∀ p : LockPair, NoticePayload.bytes (.locked p) = p.bytes) ∧
  (∀ (i n : Nat) (r : Rule) (b : List Byte), i < 32 → b = ReplyData.bytes (.rule i r n) →
    b.length = 25 ∧ byteAt b 0 = i ∧ byteAt b 1 = (if r.valid = true then 1 else 0) ∧
    byteAt b 2 = r.profile.val ∧ byteAt b 3 = 0 ∧ longAt b 4 = r.key.toNat ∧
    longAt b 8 = r.mask.toNat ∧ (b.drop 12).take 8 = r.label.toList ∧
    wordAt b 20 = r.minHeight % 65536 ∧ wordAt b 22 = 0 ∧ byteAt b 24 = n % 256) ∧
  (∀ (i : Nat) (q : Profile) (b : List Byte), i < 8 → b = ReplyData.bytes (.profile i q) →
    b.length = 231 ∧ byteAt b 0 = i ∧ byteAt b 1 = (if q.valid = true then 1 else 0) ∧
    byteAt b 5 = 0 ∧ wordAt b 6 = q.stock % 65536 ∧ byteAt b 230 = q.refs % 256 ∧
    ∀ (c : Channel) (n : Nat) (x : ProfileChannel), n = channelNumber c → x = q.channels.get c →
      byteAt b (2 + n) = (if x.enabled = true then 1 else 0) ∧
      byteAt b (8 + 74 * n) = x.range % 256 ∧ (b.drop (9 + 74 * n)).take 3 = [0, 0, 0] ∧
      longAt b (12 + 74 * n) = x.scale % 4294967296 ∧
      ∀ k : Fin 33, wordAt b (16 + 74 * n + 2 * k.val) = x.curve[k] % 65536) ∧
  (∀ d : ReplyData, match d with
    | .empty => d.bytes = []
    | .identity => True
    | .status _ => True
    | .checkpoint p errors first => d.bytes = fieldsOf
      ([(2, p.count)] ++ (match p.first with
        | none => [(1, 0xFF), (2, 0xFFFF), (1, 0)]
        | some f => [(1, f.slot), (2, f.line), (1, f.reason.code)]) ++
        [(2, errors), (1, match first with
          | none => 0
          | some e => e.code)])
    | .oldValue v => d.bytes = fieldsOf [(4, v)]
    | .mask previous released => d.bytes = fieldsOf [(1, previous), (1, released)]
    | .opened slot rule openSeq => d.bytes = fieldsOf [(1, slot.val), (1, rule.val), (4, openSeq)]
    | .heightFalls n lowest => d.bytes = fieldsOf [(1, n), (1, lowest.getD 0xFF)]
    | .emptyProfile rule profile => d.bytes = fieldsOf [(1, rule.val), (1, profile.val)]
    | .stale phase openSeq => d.bytes = fieldsOf [(1, phaseCode phase), (4, openSeq.getD 0)]
    | .activeSequence openSeq => d.bytes = fieldsOf [(4, openSeq)]
    | .slotState phase => d.bytes = fieldsOf [(1, phaseCode phase)]
    | .missing n lowest => d.bytes = fieldsOf [(2, n), (2, lowest)]
    | .closed position rewrites => d.bytes = fieldsOf [(1, position), (2, rewrites)]
    | .position n => d.bytes = fieldsOf [(1, n)]
    | .count n => d.bytes = fieldsOf [(1, n)]
    | .labelPosition n => d.bytes = fieldsOf [(1, n)]
    | .rule _ _ _ => True
    | .loaded i before => d.bytes = fieldsOf [(1, i), (1, before.toNat)]
    | .curveOrder c knot => d.bytes = fieldsOf [(1, channelNumber c), (1, knot)]
    | .profile _ _ => True
    | .trims x => d.bytes = fieldsOf
      [(2, (x.r % 65536).toNat), (2, (x.g % 65536).toNat), (2, (x.b % 65536).toNat)]
    | .restored n => d.bytes = fieldsOf [(1, n)]
    | .footage f => d.bytes = fieldsOf [(2, f.feet), (1, f.frames)]
    | .response r => d.bytes = fieldsOf [(1, r.code)]
    | .allowed l => d.bytes = fieldsOf (l.map (fun r => (1, r.code)))
    | .log _ _ _ _ => True
    | .conditions door film => d.bytes = fieldsOf [(1, door.toNat), (1, film.toNat)]
    | .advanced n f => d.bytes = fieldsOf [(1, n), (2, f.feet), (1, f.frames)]
    | .advancedBefore n => d.bytes = fieldsOf [(1, n)]) ∧
  (∀ p : NoticePayload, match p with
    | .frameStarted slot key openSeq f => p.bytes =
      fieldsOf [(1, slot.val), (4, key.toNat), (4, openSeq), (2, f.feet), (1, f.frames)]
    | .queueEmpty => p.bytes = []
    | .frameDone slot key exposed defects seq => p.bytes =
      fieldsOf [(1, slot.val), (4, key.toNat), (2, exposed), (2, defects), (4, seq)]
    | .engineState previous new cause => p.bytes =
      fieldsOf [(1, previous.code), (1, new.code), (1, match cause with
        | none => 0
        | some k => (Reason.fault k).code)]
    | .logNearlyFull occupancy held => p.bytes = fieldsOf [(1, occupancy), (1, held.toNat)]
    | .facetChange facet usable count => p.bytes =
      fieldsOf [(1, match facet with
        | none => 0xFF
        | some f => f.val), (1, usable.toNat), (1, count)]
    | .trimAtLimit x => p.bytes = fieldsOf
      [(1, (if x.r.isSome then 1 else 0) + (if x.g.isSome then 2 else 0) + (if x.b.isSome then 4 else 0)),
        (1, (x.r.getD 0 % 256).toNat), (1, (x.g.getD 0 % 256).toNat), (1, (x.b.getD 0 % 256).toNat)]
    | .frameSpoiled slot key openSeq cause exposed seq => p.bytes =
      fieldsOf [(1, slot.val), (4, key.toNat), (4, openSeq), (1, match cause with
        | .reset => 0x21
        | .fault k => (Reason.fault k).code), (2, exposed), (4, seq)]
    | .fault r => p.bytes = r.bytes
    | .locked pair => p.bytes = pair.bytes
    | .interlock isOpen => p.bytes = fieldsOf [(1, isOpen.toNat)]
    | .hello _ => True) ∧
  (∀ r : StatusReport, r.bytes =
    fieldsOf ([(1, r.up.toNat), (1, r.occupancy), (1, if r.flow = .go then 0 else 1),
        (1, r.outstanding.length)] ++
      r.outstanding.flatMap (fun o => [(1, o.tag), (1, o.request.code), (1, o.request.isLong.toNat)]) ++
      [(2, r.errors), (1, match r.firstError with
        | none => 0
        | some e => e.code), (2, r.posted.count)] ++
      (match r.posted.first with
        | none => [(1, 0xFF), (2, 0xFFFF), (1, 0)]
        | some f => [(1, f.slot), (2, f.line), (1, f.reason.code)]) ++ [(1, r.notices.mask)]) ++
    r.notices.pending.toList.flatMap (fun
      | none => fieldsOf [(2, 0), (1, 0)]
      | some n => fieldsOf [(2, n.count), (1, n.payload.bytes.length)] ++ n.payload.bytes) ++
    r.slots.flatMap (fun
      | none => fieldsOf [(1, 0), (4, 0), (2, 0), (2, 0), (1, 0xFF), (1, 0xFF)] ++ List.replicate 16 0
      | some x => fieldsOf [(1, phaseCode (some x.phase)), (4, x.key.toNat), (2, x.width), (2, x.height),
          (1, x.rule.val), (1, x.profile.val)] ++ x.label.toList ++
          fieldsOf [(2, x.presenceCount), (2, x.rewrites), (4, x.openSeq)]) ++
    fieldsOf ([(1, r.queue.length)] ++ r.queue.map (fun i => (1, i.val)) ++
      r.profiles.flatMap (fun p => [(1, p.1.toNat), (2, p.2.1), (1, p.2.2)]) ++
      [(2, (r.rollTrims.r % 65536).toNat), (2, (r.rollTrims.g % 65536).toNat),
        (2, (r.rollTrims.b % 65536).toNat)] ++
      (r.shading.r.toList ++ r.shading.g.toList ++ r.shading.b.toList).map (fun v => (4, v)) ++
      (match r.activeDose with
        | none => List.replicate 28 (1, 0)
        | some (x, c) => [(1, 1), (1, (x.r % 256).toNat), (1, (x.g % 256).toNat), (1, (x.b % 256).toNat),
          (4, c.r.high), (4, c.g.high), (4, c.b.high), (4, c.r.low), (4, c.g.low), (4, c.b.low)]) ++
      [(1, match r.speed with
        | .idle => 0
        | .acquiring => 1
        | .running => 2), (1, r.counter.val), (1, r.aligned.toNat)] ++
      (match r.measurement with
        | none => [(1, 0), (1, 0xFF), (4, 0)]
        | some (f, n) => [(1, 1), (1, f.val), (4, n)]) ++
      [(2, r.scanStats.strayEos), (2, r.scanStats.missedEos), (2, r.scanStats.missedSos),
        (2, r.scanStats.slips)] ++
      r.facets.toList.flatMap (fun f => [(1, f.usable.toNat), (4, f.interval), (1, f.measured.isSome.toNat),
        (4, f.measured.getD 0), (1, f.run), (2, f.gain)]) ++
      [(1, r.interlockOpen.toNat)] ++
      [r.channels.r, r.channels.g, r.channels.b].flatMap (fun c => [(1, match c.laser with
          | .off => 0
          | .settling => 1
          | .settled => 2), (1, (c.trim % 256).toNat), (1, c.reading.isSome.toNat), (2, c.reading.getD 0),
        (1, if c.window = .clear then 0 else 1), (1, c.outRun), (1, c.inRun),
        (4, (c.accumulator % 4294967296).toNat), (1, c.samples)]) ++
      [(1, r.engine.code), (2, ([(Wait.speed, 1), (.settle, 2), (.stage, 4), (.gate, 8), (.empty, 16),
        (.logFull, 32), (.filter, 64), (.film, 128), (.trip, 256), (.shutter, 512), (.print, 1024),
        (.polygon, 2048)].map (fun x => if x.1 ∈ r.waiting then x.2 else 0)).sum),
        (1, r.stopPending.toNat), (1, match r.deferredHalt with
          | none => 0
          | some k => (Reason.fault k).code)] ++
      [r.replies.start, r.replies.stop, r.replies.reset, r.replies.advance].flatMap (fun
        | none => [(1, 0), (1, 0), (1, 0)]
        | some x => [(1, x.request.code), (1, x.tag.isSome.toNat), (1, x.tag.getD 0)]) ++
      (match r.stage with
        | .unhomed => [(1, 0), (2, 0xFFFF)]
        | .homing => [(1, 1), (2, 0xFFFF)]
        | .settled l => [(1, 2), (2, l)]
        | .moving l _ => [(1, 3), (2, l)]) ++
      [r.wheels.r, r.wheels.g, r.wheels.b].flatMap (fun w => [(1, w.position.getD 0xFF),
        (1, w.move.isSome.toNat), (1, (w.move.map (·.1)).getD 0xFF)]) ++
      [(4, r.linePitch), (4, r.pauseMs)] ++
      (match r.exposure with
        | none => [(1, 0), (1, 0xFF), (4, 0), (1, 0xFF), (2, 0xFFFF)] ++ List.replicate 37 (1, 0)
        | some e => [(1, 1), (1, e.slot.val), (4, e.openSeq), (1, e.profile.val), (2, e.line),
          (2, e.exposed), (2, e.defects), (4, e.pauses), (4, e.clips.r.high), (4, e.clips.g.high),
          (4, e.clips.b.high), (4, e.clips.r.low), (4, e.clips.g.low), (4, e.clips.b.low),
          (1, (e.trims.r % 256).toNat), (1, (e.trims.g % 256).toNat), (1, (e.trims.b % 256).toNat),
          (1, r.reservationHeld.toNat), (1, e.marked.toNat)]) ++
      [(1, match r.lineInProgress with
        | none => 0xFF
        | some f => f.val), (1, r.gate.code), (1, match r.gateOp with
        | none => 0
        | some op => op.code), (1, r.perforations)] ++
      (match r.lastGate with
        | none => [(1, 0), (1, 0), (1, 0)]
        | some x => [(1, match x.outcome with
            | .completed => 1
            | .count => 2
            | .timeout => 3
            | .filmEnd => 4
            | .cut => 5), (1, x.op.code), (1, x.count)]) ++
      [(1, match r.shutter with
          | .closed => 0
          | .opening => 1
          | .opened => 2
          | .closing => 3), (2, r.footage.feet), (1, r.footage.frames), (1, r.gateUsed.toNat),
        (1, match r.printing with
          | none => 0
          | some k => if k = .frame then 1 else 2)]) ++
    (match r.pendingMark with
      | none => List.replicate 15 0
      | some m => fieldsOf [(1, if m.kind = .frame then 1 else 2)] ++
        (m.characters ++ List.replicate 14 0).take 14) ++
    fieldsOf ((match r.blank with
        | none => List.replicate 6 (1, 0)
        | some b => [(1, 1), (1, b.count), (1, b.completed), (2, b.start.feet), (1, b.start.frames)]) ++
      [(4, r.pullDowns.1), (4, r.pullDowns.2)] ++ r.responses.toList.map (fun x => (1, x.code)) ++
      r.faultCounts.toList.map (fun n => (2, n))) ++
    [r.lastFault, r.inHand].flatMap (fun
      | none => List.replicate 20 0
      | some x => x.bytes) ++
    (match r.lockPair with
      | none => List.replicate 44 0
      | some p => p.bytes) ++
    fieldsOf ([(1, r.logOccupancy)] ++
      (match r.reservation with
        | none => [(1, 0), (1, 0xFF)]
        | some (.frame i) => [(1, 1), (1, i.val)]
        | some .blank => [(1, 2), (1, 0xFF)]) ++
      [(4, r.lastSeq), (4, r.oldestSeq.getD 0), (1, r.batchLength), (4, r.timing.tn), (4, r.timing.pn),
        (4, r.timing.tolerance), (4, r.timing.nsp), (4, r.timing.l0), (4, r.power.targets.r),
        (4, r.power.targets.g), (4, r.power.targets.b), (4, r.power.deadband), (4, r.power.steps),
        (4, match r.power.direction with
          | .low => 0
          | .high => 1
          | .both => 2), (4, r.power.persistence), (4, r.power.settleMs)]) ∧
    ReplyData.bytes (.status r) = r.bytes) ∧
  [ReplyOutcome.done, .failed, .refused].map ReplyOutcome.code = [0x00, 0x01, 0x02] ∧
  [Request.identify, .status, .checkpoint, .setParameter, .setNoticeMask, .openFrame, .closeFrame,
    .discardFrame, .requeueFrame, .writeRule, .readRule, .loadProfile, .readProfile, .setRollTrim,
    .setFacetGains, .restoreFacets, .setFootage, .setFaultResponse, .abortFrame, .readLog,
    .startEngine, .resumeEngine, .stopEngine, .resetEngine, .advanceFilm].map Request.code =
    [0x01, 0x02, 0x03, 0x04, 0x05, 0x10, 0x11, 0x12, 0x13, 0x18, 0x19, 0x1A, 0x1B, 0x20, 0x21, 0x22,
      0x23, 0x24, 0x28, 0x29, 0x30, 0x31, 0x32, 0x33, 0x34] ∧
  (∀ (n : Nat) (q : Request), Request.ofCode n = some q ↔ q.code = n) ∧
  [Reason.none_, .badFormat, .unknownRequest, .tagInUse, .tooMany, .locked, .wrongState, .badValue,
    .condition, .badGeometry, .duplicateKey, .noRule, .profileEmpty, .noSlot, .staleSlot, .slotState,
    .missingLines, .inUse, .invalidLabel, .curveOrder, .logFull, .abandoned].map Reason.code =
    [0x00, 0x01, 0x02, 0x03, 0x04, 0x05, 0x06, 0x07, 0x08, 0x09, 0x0A, 0x0B, 0x0C, 0x0D, 0x0E, 0x0F,
      0x10, 0x11, 0x12, 0x13, 0x14, 0x20] ∧
  [FaultKind.sosLoss, .facetShortage, .syncSlip, .powerTrip, .pauseTimeout, .trimLimit,
    .stageTimeout, .filterTimeout, .startTimeout, .transport, .filmEnd, .interlock, .shutter,
    .operator].map (fun k => (Reason.fault k).code) =
    [0x41, 0x42, 0x43, 0x44, 0x45, 0x46, 0x47, 0x48, 0x49, 0x4A, 0x4B, 0x4C, 0x4D, 0x4E] ∧
  (∀ k : FaultKind, (Reason.fault k).code = 0x41 + k.index.val) ∧
  (∀ (n : Nat) (k : FaultKind), FaultKind.ofCode n = some k ↔ (Reason.fault k).code = n) ∧
  [Response.warn, .pause, .abort, .halt].map Response.code = [0, 1, 2, 3] ∧
  (∀ (n : Nat) (r : Response), Response.ofCode n = some r ↔ r.code = n) ∧
  [Applied.notice, .hold, .pause, .abort, .halt, .defer, .lock, .record].map Applied.code =
    [0, 1, 2, 3, 4, 5, 6, 7] ∧
  [Engine.offline, .starting, .ready, .preparing, .exposing, .paused, .finishing, .advancing,
    .aborting, .halted, .stopping, .locked].map Engine.code =
    [0, 1, 2, 3, 4, 5, 6, 7, 8, 9, 10, 11] ∧
  [NoticeKind.frameStarted, .queueEmpty, .frameDone, .engineState, .logNearlyFull, .facetChange,
    .trimAtLimit, .frameSpoiled, .fault, .locked, .interlock, .hello].map
    (fun k => (k.code, k.level)) =
    [(0x01, 1), (0x02, 1), (0x03, 2), (0x04, 3), (0x05, 3), (0x06, 4), (0x07, 4), (0x08, 5),
      (0x09, 6), (0x0A, 7), (0x0B, 7), (0x0C, 7)] ∧
  [LineReason.badSlot, .slotNotFilling, .lineRange, .widthMismatch].map LineReason.code =
    [1, 2, 3, 4] ∧
  [LinkError.queueOverrun, .framing, .badCrc, .lineFormat].map LinkError.code = [1, 2, 3, 4] ∧
  [none, some Phase.filling, some .queued, some .active, some .held].map phaseCode =
    [0, 1, 2, 3, 4] ∧
  [Gate.released, .clamped, .releasing, .pulling, .clamping, .settling].map Gate.code =
    [0, 1, 2, 3, 4, 5] ∧
  [GateOp.pullDown, .clamp].map GateOp.code = [1, 2]

/-- Every request refused at intake: a wrong payload length, a tag in use, a full table, in this
order; and the payload length of each of the 25 requests. The command is LP's take of the record at the head
(LOG 2, LOG 16). -/
def Obligations.IntakeRefuses : Prop :=
  [Request.identify, .status, .checkpoint, .setParameter, .setNoticeMask, .openFrame, .closeFrame,
    .discardFrame, .requeueFrame, .writeRule, .readRule, .loadProfile, .readProfile, .setRollTrim,
    .setFacetGains, .restoreFacets, .setFootage, .setFaultResponse, .abortFrame, .readLog,
    .startEngine, .resumeEngine, .stopEngine, .resetEngine, .advanceFilm].map Request.payloadBytes =
    [0, 0, 0, 8, 1, 8, 8, 8, 8, 24, 1, 230, 1, 6, 16, 0, 4, 2, 8, 2, 0, 0, 0, 0, 1] ∧
  ∀ (s : State) (tag : Nat) (q : Request) (p : List Byte) (film : Bool) (reason : Reason),
    s.Before [] → s.lp.up = true → s.lp.held = none → s.head = some (.request tag q p) →
    ((p.length ≠ q.payloadBytes ∧ reason = .badFormat) ∨
      (p.length = q.payloadBytes ∧ (∃ o ∈ s.lp.outstanding, o.tag = tag) ∧ reason = .tagInUse) ∨
      (p.length = q.payloadBytes ∧ (∀ o ∈ s.lp.outstanding, o.tag ≠ tag) ∧
        4 ≤ s.lp.outstanding.length ∧ reason = .tooMany)) →
    exec (q.command film p) s = .next (s.takeRecord.repliedRefused tag q reason 0 .empty)

/-- In LOCKED every request but Identify, Status, Checkpoint, Set Notice Mask and Read Log is refused
LOCKED and changes nothing. One already in hand when the engine becomes LOCKED is refused so too, with its tag, or
with no reply where a link reset has dropped the tag; LP's hand is the model's own (LOG 27). -/
def Obligations.LockedRefuses : Prop :=
  (∀ (s : State) (tag : Nat) (q : Request) (p : List Byte) (film : Bool),
    s.Before [] → s.lp.up = true → s.lp.held = none → s.head = some (.request tag q p) →
    p.length = q.payloadBytes →
    (∀ o ∈ s.lp.outstanding, o.tag ≠ tag) → s.lp.outstanding.length < 4 →
    s.es.engine = .locked →
    q ∉ [Request.identify, .status, .checkpoint, .setNoticeMask, .readLog] →
    exec (q.command film p) s = .next (s.takeRecord.repliedRefused tag q .locked 0 .empty)) ∧
  ∀ (s t : State) (r : HeldRecord) (tag : Nat) (q : Request) (p : List Byte) (film : Bool),
    s.Before [] → s.lp.up = true → s.lp.held = some r → judge r.record = .request tag q p →
    s.es.engine = .locked →
    q ∉ [Request.identify, .status, .checkpoint, .setNoticeMask, .readLog] →
    t = { s with lp := { s.lp with
      held := none
      outstanding := if r.tagged = true then s.lp.outstanding.filter (·.tag ≠ tag)
        else s.lp.outstanding } } →
    exec (q.command film p) s = .next
      (if r.tagged = true then t.repliedRefused tag q .locked 0 .empty else t)

/-! ### Line records -/

/-- A line record that passes the four checks is stored: its pixels, its mark and its count. In a slot larger
than the image memory, which the invariant SlotsSound rules out, the model stops by name (LOG 19). -/
def Obligations.LineStored : Prop :=
  ∀ (s : State) (i : Fin 4) (line count : Nat) (words : List Byte) (r : SlotRecord), s.Before [] →
    s.head = some (.line i.val line count words) → s.slot i = some r → r.phase = .filling →
    line < r.height → count = r.width →
    (r.width ≤ 4096 → line < 3200 → exec .lineRecord s = .next { s.takeRecord with fs := { s.fs with
      slots := s.fs.slots.set i (some (
        if r.presence[line]?.getD false then { r with rewrites := min 65535 (r.rewrites + 1) }
        else { r with presence := r.presence.set line true, presenceCount := r.presenceCount + 1 }))
      image := Memory.storeLine s.fs.image i line words } }) ∧
    (4096 < r.width ∨ 3200 ≤ line → exec .lineRecord s = .fault .imagePosition)

/-- A line record that fails a check of Table 1-4, in its order, changes the posted-error record
alone. -/
def Obligations.LineRefused : Prop :=
  ∀ (s : State) (slot line count : Nat) (words : List Byte) (reason : LineReason), s.Before [] →
    s.head = some (.line slot line count words) →
    ((3 < slot ∧ reason = .badSlot) ∨
      (∃ i : Fin 4, i.val = slot ∧ s.phaseOf i ≠ some .filling ∧ reason = .slotNotFilling) ∨
      (∃ (i : Fin 4) (r : SlotRecord), i.val = slot ∧ s.slot i = some r ∧ r.phase = .filling ∧
        ((r.height ≤ line ∧ reason = .lineRange) ∨
          (line < r.height ∧ count ≠ r.width ∧ reason = .widthMismatch)))) →
    exec .lineRecord s = .next { s.takeRecord with lp := { s.takeRecord.lp with posted :=
      ⟨min 65535 (s.lp.posted.count + 1),
       some (s.lp.posted.first.getD ⟨slot, line, reason⟩)⟩ } }

/-- The stored bytes of a line: its pixel words less bits 30 and 31, at its positions, and every other
byte of image memory as before. So each pixel of the line reads back as the red code in bits 0 to 9 of its
word, the green in bits 10 to 19 and the blue in bits 20 to 29, and every other pixel position as before.
Where a pixel is kept, and what an
unwritten byte reads as, are the model's choices (LOG 19, LOG 4). -/
def Obligations.LineBytes : Prop :=
  (∀ (m : Memory) (slot line a : Nat) (words : List Byte), m.wf →
    Memory.read (m.storeLine slot line words) a =
      if pixelAddress slot line 0 ≤ a ∧ a < pixelAddress slot line 0 + (storedWords words).length then
        (storedWords words)[a - pixelAddress slot line 0]?.getD 0
      else Memory.read m a) ∧
  (∀ (words : List Byte) (n : Nat), words.length = 4 * n → (storedWords words).length = 4 * n ∧
    ∀ x, x < n → longAt (storedWords words) (4 * x) = longAt words (4 * x) % 1073741824) ∧
  (∀ (m : Memory) (slot line n : Nat) (words : List Byte), m.wf → slot < 4 → line < 3200 → n ≤ 4096 →
    words.length = 4 * n →
    (∀ x w, x < n → w = longAt words (4 * x) → (m.storeLine slot line words).pixel slot line x =
      ⟨w % 1024, w / 1024 % 1024, w / 1048576 % 1024⟩) ∧
    (∀ slot' line' x, slot' < 4 → line' < 3200 → x < 4096 →
      slot' ≠ slot ∨ line' ≠ line ∨ n ≤ x →
      (m.storeLine slot line words).pixel slot' line' x = m.pixel slot' line' x))

/-! ### Requests -/

/-- Identify, Status and Checkpoint are DONE with their data, and Checkpoint clears both error records;
the Status report holds each item the chapters list, as it stands, read at one instant (LOG 23), with the
wait reason read from the engine's conditions (LOG 15), as TimeoutsRaised spells it out. Set Notice Mask sets the level and answers the old
one with the number released, and is refused above 6. -/
def Obligations.LinkPortAnswers : Prop :=
  ∀ (s : State) (tag : Nat) (p : List Byte),
    (s.Accepts tag .identify p → exec .identify s =
      .next (s.takeRecord.repliedDone tag .identify .identity)) ∧
    (s.Accepts tag .status p → exec .status s =
      .next (s.takeRecord.repliedDone tag .status (.status
        { up := true
          occupancy := s.lp.queue.length - 1
          flow := s.takeRecord.lp.flow
          outstanding := s.lp.outstanding ++ [⟨tag, .status⟩]
          errors := s.lp.errors
          firstError := s.lp.firstError
          posted := s.lp.posted
          notices := s.nu
          slots := [s.slot 0, s.slot 1, s.slot 2, s.slot 3].map (Option.map (fun r =>
            { phase := r.phase, key := r.key, width := r.width, height := r.height, rule := r.rule,
              profile := r.profile, label := r.label, presenceCount := r.presenceCount,
              rewrites := r.rewrites, openSeq := r.openSeq }))
          queue := s.fs.queue
          profiles := (List.finRange 8).map (fun i =>
            (s.pt.profiles[i].valid, s.pt.profiles[i].stock, s.pt.profiles[i].refs))
          rollTrims := s.du.rollTrims
          shading := s.du.shading
          activeDose := s.es.exposure.map (fun e => (e.trims, e.clips))
          speed := s.stu.speed
          counter := s.stu.counter
          aligned := s.stu.aligned
          measurement := match s.stu.measurement with
            | .armed => none
            | .timing f n _ _ => some (f, n)
          scanStats := s.stu.stats
          facets := s.stu.facets
          interlockOpen := s.pl.interlockOpen
          channels := s.pl.channels.map (fun c =>
            { laser := c.laser, trim := c.trim, reading := c.reading, window := c.window,
              outRun := c.outRun, inRun := c.inRun, accumulator := c.accumulator,
              samples := c.samples })
          engine := s.es.engine
          waiting := s.waitReason
          stopPending := s.es.stopPending
          deferredHalt := s.es.deferredHalt.map (fun r => r.report.kind)
          replies := s.es.replies
          stage := s.es.stage
          wheels := s.es.wheels
          exposure := s.es.exposure
          reservationHeld := s.rl.reservation.isSome
          lineInProgress := s.es.lineInProgress
          gate := s.tc.gate
          gateOp := s.tc.op
          perforations := s.tc.perforations
          lastGate := s.tc.last
          shutter := s.tc.shutter
          footage := s.tc.footage
          gateUsed := s.tc.gateUsed
          printing := match s.tc.head with
            | .idle => none
            | .printing m _ => some m.kind
          pendingMark := s.tc.pendingMark
          blank := s.tc.blank
          pullDowns := (s.tc.completedTotal, s.tc.failedTotal)
          responses := s.fu.responses
          faultCounts := s.fu.counts
          lastFault := s.fu.lastFault
          inHand := s.fu.inHand
          lockPair := if s.es.engine = .locked then s.fu.lockPair else none
          logOccupancy := s.rl.records.length
          reservation := s.rl.reservation
          lastSeq := s.rl.lastSeq
          oldestSeq := s.rl.records.head?.map (·.seq)
          batchLength := (s.rl.lastBatch.getD []).length
          timing := s.stu.params
          power := s.pl.params
          linePitch := s.es.linePitch
          pauseMs := s.es.pauseMs }))) ∧
    (s.Accepts tag .checkpoint p → exec .checkpoint s =
      .next (State.repliedDone { s.takeRecord with lp := { s.takeRecord.lp with
          errors := 0, firstError := none, posted := ⟨0, none⟩ } } tag .checkpoint
        (.checkpoint s.lp.posted s.lp.errors s.lp.firstError))) ∧
    (s.Accepts tag .setNoticeMask p → exec .setNoticeMask s = .next
      (if 6 < byteAt p 0 then s.takeRecord.repliedRefused tag .setNoticeMask .badValue 0 .empty
      else (s.takeRecord.setMask (byteAt p 0)).repliedDone tag .setNoticeMask
        (.mask s.nu.mask (if byteAt p 0 < s.nu.mask then
          releaseOrder.countP (fun e => byteAt p 0 < e.2 && (s.nu.pending[e.1]).isSome) else 0))))

/-- The entry of each notice kind in the pending table, which has one for each kind of Table 11-5 in its order and
none for HELLO, and the order of release with each entry's level: higher level first, and within a level by Table
11-5. A lowered mask clears every pending entry now above it and sends it, higher level first, with the link
UP; every other entry stays, and nothing else changes. A notice of level 7 or above the mask is sent with
the count 1, and discarded while the link is DOWN; any other is held, with its count raised and its payload
replaced. So a held TRIM_AT_LIMIT counts notices, one a sample (LOG 29). What a list of things sent puts out, one
after another: a notice as said here, a mechanism command and any other output as itself, at the end of the list of
what the part has put out (LOG 13). -/
def Obligations.NoticesDecided : Prop :=
  [NoticeKind.frameStarted, .queueEmpty, .frameDone, .engineState, .logNearlyFull, .facetChange,
    .trimAtLimit, .frameSpoiled, .fault, .locked, .interlock, .hello].map NoticeKind.entry =
    [some 0, some 1, some 2, some 3, some 4, some 5, some 6, some 7, some 8, some 9, some 10, none] ∧
  releaseOrder =
    [(9, 7), (10, 7), (8, 6), (7, 5), (5, 4), (6, 4), (3, 3), (4, 3), (2, 2), (0, 1), (1, 1)] ∧
  (∀ (s : State) (m : Nat),
      (s.setMask m).nu.mask = m ∧
      (∀ e ∈ releaseOrder, (s.setMask m).nu.pending[e.1] =
        if m < s.nu.mask ∧ m < e.2 then none else s.nu.pending[e.1]) ∧
      (s.setMask m).out = s.out ++
        (if m < s.nu.mask ∧ s.lp.up = true then
          (releaseOrder.filter (fun e => m < e.2)).filterMap
            (fun e => (s.nu.pending[e.1]).map Output.notice)
        else []) ∧
      { s.setMask m with nu := s.nu, out := s.out } = s) ∧
  (∀ (s : State) (p : NoticePayload),
      (p.kind.level = 7 ∨ s.nu.mask < p.kind.level →
        s.notice p = if s.lp.up = true then s.puts [.notice ⟨1, p⟩] else s) ∧
      (∀ i, p.kind.entry = some i → p.kind.level ≠ 7 → p.kind.level ≤ s.nu.mask →
        s.notice p = { s with nu := { s.nu with pending := s.nu.pending.set i (some
          (match s.nu.pending[i] with
          | none => ⟨1, p⟩
          | some n => ⟨min 65535 (n.count + 1), p⟩)) } })) ∧
  (∀ (s : State) (c : MechanismCommand) (o : Output) (x : Sent) (l : List Sent),
      s.command c = { s with out := s.out ++ [Output.mechanism c] } ∧ s.emit o = { s with out := s.out ++ [o] } ∧
      s.puts [o] = { s with out := s.out ++ [o] } ∧ s.sends [] = s ∧
      s.sends (x :: l) = (match x with
        | .notice p => s.notice p
        | .command c => { s with out := s.out ++ [Output.mechanism c] }
        | .output o => { s with out := s.out ++ [o] }).sends l)

/-- Set Parameter accepted: the parameter takes the value, which reads back, every other parameter keeps its
own, nothing but the parameters' fields changes, and the reply carries the old value. The field each parameter
is read from is given one by one. Refused, in the order of its checks, nothing changes. The ids and
the ranges are those of section 12.2 and Tables 5-4, 6-2 and 11-4, and the states, the pair and the width
check those of R88, R108, R71 and R6. -/
def Obligations.ParameterDecided : Prop :=
  (∀ (s : State) (tag : Nat) (p : List Byte) (q : Parameter), s.Accepts tag .setParameter p →
      Parameter.ofId (wordAt p 0) = some q → q.acceptedIn s.es.engine = true →
      q.inRange (longAt p 4) = true → s.pairHolds q (longAt p 4) = true →
      s.geometryHolds q (longAt p 4) = true →
      exec .setParameter s = .next ((s.takeRecord.setParameter q (longAt p 4)).repliedDone tag
        .setParameter (.oldValue (s.parameter q))) ∧
      (s.setParameter q (longAt p 4)).parameter q = longAt p 4 ∧
      (∀ q', q' ≠ q → (s.setParameter q (longAt p 4)).parameter q' = s.parameter q')) ∧
  (∀ (s : State) (tag : Nat) (p : List Byte), s.Accepts tag .setParameter p →
      (Parameter.ofId (wordAt p 0) = none → exec .setParameter s =
        .next (s.takeRecord.repliedRefused tag .setParameter .badValue 0 .empty)) ∧
      (∀ q, Parameter.ofId (wordAt p 0) = some q →
        (q.acceptedIn s.es.engine = false → exec .setParameter s =
          .next (s.takeRecord.repliedRefused tag .setParameter .wrongState 0 .empty)) ∧
        (q.acceptedIn s.es.engine = true →
          q.inRange (longAt p 4) = false ∨ s.pairHolds q (longAt p 4) = false →
          exec .setParameter s =
            .next (s.takeRecord.repliedRefused tag .setParameter .badValue 4 .empty)) ∧
        (q.acceptedIn s.es.engine = true → q.inRange (longAt p 4) = true →
          s.pairHolds q (longAt p 4) = true → s.geometryHolds q (longAt p 4) = false →
          exec .setParameter s =
            .next (s.takeRecord.repliedRefused tag .setParameter .badGeometry 0 .empty)))) ∧
  (∀ x ∈ parameterRows, Parameter.ofId x.1 = some x.2.1 ∧
    (∀ v, x.2.1.inRange v = true ↔ x.2.2.1 ≤ v ∧ v ≤ x.2.2.2) ∧
    (∀ e, x.2.1.acceptedIn e = true ↔ e = .offline)) ∧
  (∀ (c : Channel) (j : Fin 17),
    Parameter.ofId (0x0100 + 0x20 * channelNumber c + j.val) = some (.knot c j) ∧
    (∀ v, (Parameter.knot c j).inRange v = true ↔ 2048 ≤ v ∧ v ≤ 8191) ∧
    (∀ e, (Parameter.knot c j).acceptedIn e = true ↔ e ≠ .locked)) ∧
  (∀ n : Nat, (∀ x ∈ parameterRows, x.1 ≠ n) →
    (∀ (c : Channel) (j : Fin 17), 0x0100 + 0x20 * channelNumber c + j.val ≠ n) →
    Parameter.ofId n = none) ∧
  (∀ (s : State) (q : Parameter) (v : Nat),
    (s.pairHolds q v = true ↔
      (q = .tn → v < s.stu.params.pn) ∧ (q = .pn → s.stu.params.tn < v)) ∧
    (s.geometryHolds q v = true ↔ ∀ i r, s.slot i = some r →
      (q = .nsp → s.stu.params.l0 + r.width ≤ v) ∧ (q = .l0 → v + r.width ≤ s.stu.params.nsp)) ∧
    (∀ t : State, t = s.setParameter q v → s = { t with
      stu := { t.stu with params := s.stu.params }
      pl := { t.pl with params := s.pl.params }
      es := { t.es with linePitch := s.es.linePitch, pauseMs := s.es.pauseMs }
      du := { t.du with shading := s.du.shading } })) ∧
  (∀ s : State,
    [Parameter.tn, .pn, .tolerance, .nsp, .l0].map s.parameter =
      [s.stu.params.tn, s.stu.params.pn, s.stu.params.tolerance, s.stu.params.nsp, s.stu.params.l0] ∧
    [Parameter.deadband, .steps, .direction, .persistence, .settleTime].map s.parameter =
      [s.pl.params.deadband, s.pl.params.steps,
        match s.pl.params.direction with
        | .low => 0
        | .high => 1
        | .both => 2,
        s.pl.params.persistence, s.pl.params.settleMs] ∧
    s.parameter .pauseTimeout = s.es.pauseMs ∧ s.parameter .linePitch = s.es.linePitch ∧
    (∀ c, s.parameter (.target c) = s.pl.params.targets.get c) ∧
    (∀ (c : Channel) (j : Fin 17), s.parameter (.knot c j) = (s.du.shading.get c)[j]))

/-- A rule matches exactly when it is valid, agrees with the key on every bit under a 1 of the mask, and
the height reaches its minimum or the minimum is 0; the search finds the lowest index that matches. -/
def Obligations.AdmissionSearch : Prop :=
  (∀ (r : Rule) (key : Key) (height : Nat), r.matches key height = true ↔
    r.valid = true ∧ (∀ b, b < 32 → r.mask.getLsbD b = true → key.getLsbD b = r.key.getLsbD b) ∧
      (r.minHeight = 0 ∨ r.minHeight ≤ height)) ∧
  (∀ (t : Admission) (key : Key) (height : Nat),
    (∀ i, t.search key height = some i ↔
      (t.rules[i].matches key height = true ∧
        ∀ j : Fin 32, j < i → t.rules[j].matches key height = false)) ∧
    (t.search key height = none ↔ ∀ i : Fin 32, t.rules[i].matches key height = false))

/-- Open Frame accepted: the lowest FREE slot is filled under the winning rule, the Open counter and
the profile's count rise, and nothing else changes. -/
def Obligations.FrameOpened : Prop :=
  ∀ (s : State) (tag : Nat) (p : List Byte) (i : Fin 32) (slot : Fin 4) (q : Fin 8) (n : Nat),
    s.Accepts tag .openFrame p →
    1 ≤ wordAt p 4 → wordAt p 4 ≤ 4096 → 1 ≤ wordAt p 6 → wordAt p 6 ≤ 3200 →
    s.stu.params.l0 + wordAt p 4 ≤ s.stu.params.nsp →
    (∀ j r, s.slot j = some r → r.key ≠ BitVec.ofNat 32 (longAt p 0)) →
    s.admission.search (BitVec.ofNat 32 (longAt p 0)) (wordAt p 6) = some i →
    s.admission.rules[i].profile = q → s.pt.profiles[q].valid = true →
    s.slot slot = none → (∀ j, j < slot → s.slot j ≠ none) →
    n = (if 4294967295 ≤ s.fs.openCounter then 1 else s.fs.openCounter + 1) →
    ∃ t : State, exec .openFrame s = .next (t.repliedDone tag .openFrame (.opened slot i n)) ∧
      t.slot slot = some
        { phase := .filling, key := BitVec.ofNat 32 (longAt p 0), width := wordAt p 4,
          height := wordAt p 6, rule := i, profile := q, label := s.admission.rules[i].label,
          presence := List.replicate (wordAt p 6) false, presenceCount := 0, rewrites := 0,
          openSeq := n } ∧
      (∀ j, j ≠ slot → t.slot j = s.slot j) ∧ t.fs.openCounter = n ∧ t.fs.queue = s.fs.queue ∧
      t.fs.image = s.fs.image ∧
      t.pt.profiles[q] = { s.pt.profiles[q] with refs := s.pt.profiles[q].refs + 1 } ∧
      (∀ k : Fin 8, k ≠ q → t.pt.profiles[k] = s.pt.profiles[k]) ∧
      t = { s.takeRecord with fs := t.fs, pt := t.pt }

/-- Open Frame refused for geometry, a duplicate key, no rule, an empty profile or no slot, in this
order, with nothing changed. The geometry, the key held and the NO_RULE data (the number of valid rules that
pass the key test and fail the height test alone, with the lowest of their indexes) are spelled out. -/
def Obligations.OpenRefused : Prop :=
  (∀ (s : State) (tag : Nat) (p : List Byte) (reason : Reason) (data : ReplyData),
    s.Accepts tag .openFrame p →
    ((s.geometryFits (wordAt p 4) (wordAt p 6) = false ∧ reason = .badGeometry ∧ data = .empty) ∨
      (s.geometryFits (wordAt p 4) (wordAt p 6) = true ∧
        ((s.holdsKey (BitVec.ofNat 32 (longAt p 0)) = true ∧ reason = .duplicateKey ∧
            data = .empty) ∨
          (s.holdsKey (BitVec.ofNat 32 (longAt p 0)) = false ∧
            ((s.admission.search (BitVec.ofNat 32 (longAt p 0)) (wordAt p 6) = none ∧
                reason = .noRule ∧ data = .heightFalls
                  (s.admission.heightFalls (BitVec.ofNat 32 (longAt p 0)) (wordAt p 6)).1
                  (s.admission.heightFalls (BitVec.ofNat 32 (longAt p 0)) (wordAt p 6)).2) ∨
              ∃ i, s.admission.search (BitVec.ofNat 32 (longAt p 0)) (wordAt p 6) = some i ∧
                ((s.pt.profiles[s.admission.rules[i].profile].valid = false ∧
                    reason = .profileEmpty ∧
                    data = .emptyProfile i s.admission.rules[i].profile) ∨
                  (s.pt.profiles[s.admission.rules[i].profile].valid = true ∧
                    (∀ j, s.slot j ≠ none) ∧ reason = .noSlot ∧ data = .empty))))))) →
    exec .openFrame s = .next (s.takeRecord.repliedRefused tag .openFrame reason 0 data)) ∧
  (∀ (s : State) (width height : Nat), s.geometryFits width height = true ↔
    1 ≤ width ∧ width ≤ 4096 ∧ 1 ≤ height ∧ height ≤ 3200 ∧
      s.stu.params.l0 + width ≤ s.stu.params.nsp) ∧
  (∀ (s : State) (key : Key), s.holdsKey key = true ↔ ∃ i r, s.slot i = some r ∧ r.key = key) ∧
  (∀ (t : Admission) (key : Key) (height : Nat) (falls : Fin 32 → Prop),
    (∀ i, falls i ↔ t.rules[i].valid = true ∧
      (∀ b, b < 32 → t.rules[i].mask.getLsbD b = true → key.getLsbD b = t.rules[i].key.getLsbD b) ∧
      t.rules[i].minHeight ≠ 0 ∧ height < t.rules[i].minHeight) →
    (∀ l : List (Fin 32), l.Nodup → (∀ i, i ∈ l ↔ falls i) → (t.heightFalls key height).1 = l.length) ∧
    (∀ n, (t.heightFalls key height).2 = some n ↔
      ∃ i : Fin 32, i.val = n ∧ falls i ∧ ∀ j, j < i → ¬ falls j) ∧
    ((t.heightFalls key height).2 = none ↔ ∀ i, ¬ falls i))

/-- The common checks of Close, Discard and Requeue Frame: the slot number, the guard byte, then the
guard, with nothing changed; a FREE slot, and a Close of a slot not FILLING, is refused SLOT_STATE. That the
SLOT_STATE refusal of a Discard Frame carries the slot's state is the model's choice (LOG 14). -/
def Obligations.AddressChecks : Prop :=
  ∀ (s : State) (tag : Nat) (q : Request) (p : List Byte) (film : Bool),
    q = .closeFrame ∨ q = .discardFrame ∨ q = .requeueFrame → s.Accepts tag q p →
    (3 < byteAt p 0 → exec (q.command film p) s =
      .next (s.takeRecord.repliedRefused tag q .badValue 0 .empty)) ∧
    (∀ i : Fin 4, i.val = byteAt p 0 →
      (1 < byteAt p 1 → exec (q.command film p) s =
        .next (s.takeRecord.repliedRefused tag q .badValue 1 .empty)) ∧
      (byteAt p 1 = 1 → (s.slot i).map (·.openSeq) ≠ some (longAt p 4) →
        exec (q.command film p) s = .next (s.takeRecord.repliedRefused tag q .staleSlot 0
          (.stale (s.phaseOf i) ((s.slot i).map (·.openSeq))))) ∧
      (byteAt p 1 = 0 ∨ (byteAt p 1 = 1 ∧ (s.slot i).map (·.openSeq) = some (longAt p 4)) →
        s.slot i = none ∨ (q = .closeFrame ∧ s.phaseOf i ≠ some .filling) →
        exec (q.command film p) s = .next (s.takeRecord.repliedRefused tag q .slotState 0
          (.slotState (s.phaseOf i)))))

/-- Close Frame of a FILLING slot: with every line present it joins the queue at the tail, and
otherwise it is refused with the missing lines. -/
def Obligations.FrameClosed : Prop :=
  ∀ (s : State) (tag : Nat) (p : List Byte) (i : Fin 4) (r : SlotRecord),
    s.Accepts tag .closeFrame p → i.val = byteAt p 0 → s.slot i = some r → r.phase = .filling →
    byteAt p 1 = 0 ∨ (byteAt p 1 = 1 ∧ r.openSeq = longAt p 4) →
    exec .closeFrame s = .next
      (if r.presenceCount < r.height then
        s.takeRecord.repliedRefused tag .closeFrame .missingLines 0
          (.missing (r.height - r.presenceCount) (r.presence.findIdx (fun b => !b)))
      else
        State.repliedDone { s.takeRecord with fs := { s.fs with
            slots := s.fs.slots.set i (some { r with phase := .queued })
            queue := s.fs.queue ++ [i] } } tag .closeFrame
          (.closed s.fs.queue.length r.rewrites))

/-- Discard Frame by slot state, and Requeue Frame: the slot, its profile's count and the queue, and
nothing else; a READY engine whose queue a Discard empties announces it. -/
def Obligations.FrameDiscardedOrRequeued : Prop :=
  ∀ (s : State) (tag : Nat) (p : List Byte) (i : Fin 4) (r : SlotRecord),
    i.val = byteAt p 0 → s.slot i = some r →
    byteAt p 1 = 0 ∨ (byteAt p 1 = 1 ∧ r.openSeq = longAt p 4) →
    (s.Accepts tag .discardFrame p →
      (r.phase = .active → exec .discardFrame s =
        .next (s.takeRecord.repliedRefused tag .discardFrame .inUse 0 .empty)) ∧
      (r.phase ≠ .active → ∃ t : State, exec .discardFrame s = .next
          ((t.sends (if r.phase = .queued ∧ s.es.engine = .ready ∧ t.fs.queue = [] then
            [.notice .queueEmpty] else [])).repliedDone tag .discardFrame .empty) ∧
        t.slot i = none ∧ (∀ j, j ≠ i → t.slot j = s.slot j) ∧
        t.fs.queue = (if r.phase = .queued then s.fs.queue.filter (· ≠ i) else s.fs.queue) ∧
        t.fs.image = s.fs.image ∧ t.fs.openCounter = s.fs.openCounter ∧
        t.pt.profiles[r.profile] =
          { s.pt.profiles[r.profile] with refs := s.pt.profiles[r.profile].refs - 1 } ∧
        (∀ k : Fin 8, k ≠ r.profile → t.pt.profiles[k] = s.pt.profiles[k]) ∧
        t = { s.takeRecord with fs := t.fs, pt := t.pt })) ∧
    (s.Accepts tag .requeueFrame p →
      (r.phase = .held → exec .requeueFrame s = .next
        (State.repliedDone { s.takeRecord with fs := { s.fs with
            slots := s.fs.slots.set i (some { r with phase := .queued })
            queue := i :: s.fs.queue } } tag .requeueFrame (.position 0))) ∧
      (r.phase ≠ .held → exec .requeueFrame s =
        .next (s.takeRecord.repliedRefused tag .requeueFrame .slotState 0
          (.slotState (some r.phase)))))

/-- Write Rule and Read Rule: the rule replaced whole or returned whole, with the number of non-FREE slots
admitted under its index. A label is made of the 38 label characters. Load Profile replaces a profile no slot names, and refuses IN_USE for one that a slot
names; Read Profile returns a profile whole. The rule and the profile carried have each field at its offset of
Tables 12-4 and 12-5. -/
def Obligations.RulesAndProfiles : Prop :=
  (∀ (s : State) (tag : Nat) (p : List Byte) (i : Fin 32), i.val = byteAt p 0 →
      (s.Accepts tag .writeRule p → ∀ k : Fin 8, k.val = byteAt p 2 → byteAt p 1 ≤ 1 →
        wordAt p 20 ≤ 3200 → (∀ b ∈ (labelAt p 12).toList, isLabelCharacter b = true) →
        ∀ w : Rule,
          w = ⟨byteAt p 1 == 1, BitVec.ofNat 32 (longAt p 4), BitVec.ofNat 32 (longAt p 8), k,
            labelAt p 12, wordAt p 20⟩ →
          exec .writeRule s = .next
            (State.repliedDone { s.takeRecord with admission := ⟨s.admission.rules.set i w⟩ } tag .writeRule
              (.count (s.admittedUnder i)))) ∧
      (s.Accepts tag .readRule p → exec .readRule s =
        .next (s.takeRecord.repliedDone tag .readRule
          (.rule i.val s.admission.rules[i] (s.admittedUnder i))))) ∧
  (∀ (s : State) (tag : Nat) (p : List Byte) (i : Fin 8), i.val = byteAt p 0 →
      (s.Accepts tag .loadProfile p → badProfileField p = none → badCurve p = none →
        ∀ q : Profile, q = profileAt p s.pt.profiles[i].refs → exec .loadProfile s = .next
          (if 0 < s.pt.profiles[i].refs then
            s.takeRecord.repliedRefused tag .loadProfile .inUse 0 (.count s.pt.profiles[i].refs)
          else
            State.repliedDone { s.takeRecord with pt := ⟨s.pt.profiles.set i q⟩ } tag .loadProfile
              (.loaded i.val s.pt.profiles[i].valid))) ∧
      (s.Accepts tag .readProfile p → exec .readProfile s =
        .next (s.takeRecord.repliedDone tag .readProfile (.profile i.val s.pt.profiles[i])))) ∧
  (∀ b : Byte, isLabelCharacter b = true ↔ b.toNat = 0x20 ∨ b.toNat = 0x2D ∨
    (0x30 ≤ b.toNat ∧ b.toNat ≤ 0x39) ∨ (0x41 ≤ b.toNat ∧ b.toNat ≤ 0x5A)) ∧
  (∀ (s : State) (i : Fin 32) (l : List (Fin 4)), l.Nodup →
    (∀ j, j ∈ l ↔ ∃ r, s.slot j = some r ∧ r.rule = i) → s.admittedUnder i = l.length) ∧
  (∀ (p : List Byte) (k : Fin 8), ((labelAt p 12)[k]).toNat = byteAt p (12 + k.val)) ∧
  (∀ (p : List Byte) (refs : Nat) (q : Profile), q = profileAt p refs →
    q.refs = refs ∧ q.valid = (byteAt p 1 == 1) ∧ q.stock = wordAt p 6 ∧
    (∀ c : Channel,
      (q.channels.get c).enabled = (byteAt p (2 + channelNumber c) == 1) ∧
      (q.channels.get c).range = byteAt p (8 + 74 * channelNumber c) ∧
      (q.channels.get c).scale = longAt p (12 + 74 * channelNumber c) ∧
      (∀ k : Fin 33, (q.channels.get c).curve[k] = wordAt p (16 + 74 * channelNumber c + 2 * k.val))))

/-- Set Roll Trim stores the three trims clamped to −40..+40, and flags a clamp. Set Facet Gains in OFFLINE
and READY, and Restore Facets in READY and HALTED: the eight facets after it, with one FACET_CHANGE for a
restore of an EXCLUDED facet and the number of those in the reply; in any other engine state WRONG_STATE. -/
def Obligations.TrimsAndFacetsSet : Prop :=
  (∀ (s : State) (tag : Nat) (p : List Byte) (stored : Rgb Int), s.Accepts tag .setRollTrim p →
      stored = ⟨max (-40) (min 40 (signedAt p 0)), max (-40) (min 40 (signedAt p 2)),
        max (-40) (min 40 (signedAt p 4))⟩ →
      exec .setRollTrim s = .next
        (State.replied { s.takeRecord with du := { s.du with rollTrims := stored } }
          ⟨tag, 0x20, .done, .none_, s.es.engine, 0,
            decide (stored ≠ (⟨signedAt p 0, signedAt p 2, signedAt p 4⟩ : Rgb Int)), .trims stored⟩)) ∧
  (∀ (s : State) (tag : Nat) (p : List Byte),
      (s.Accepts tag .setFacetGains p →
        (s.es.engine = .offline ∨ s.es.engine = .ready →
          (∀ f : Fin 8, 3277 ≤ wordAt p (2 * f) ∧ wordAt p (2 * f) ≤ 4915) →
          ∃ v : Vector Facet 8,
            (∀ f : Fin 8, v[f] = { s.stu.facets[f] with gain := wordAt p (2 * f) }) ∧
            exec .setFacetGains s = .next (State.repliedDone { s.takeRecord with stu := { s.stu with facets := v }
              } tag .setFacetGains .empty)) ∧
        (s.es.engine ≠ .offline → s.es.engine ≠ .ready → exec .setFacetGains s =
          .next (s.takeRecord.repliedRefused tag .setFacetGains .wrongState 0 .empty))) ∧
      (s.Accepts tag .restoreFacets p →
        (s.es.engine = .ready ∨ s.es.engine = .halted →
          ∃ v : Vector Facet 8,
            (∀ f : Fin 8, v[f] = { s.stu.facets[f] with usable := true, run := 0 }) ∧
            exec .restoreFacets s = .next
              ((State.sends { s.takeRecord with stu := { s.stu with facets := v } }
                (if 0 < s.excludedFacets then [.notice (.facetChange none true 8)] else [])
                ).repliedDone tag .restoreFacets (.restored s.excludedFacets))) ∧
        (s.es.engine ≠ .ready → s.es.engine ≠ .halted → exec .restoreFacets s =
          .next (s.takeRecord.repliedRefused tag .restoreFacets .wrongState 0 .empty)))) ∧
  (∀ (s : State) (l : List (Fin 8)), l.Nodup → (∀ i, i ∈ l ↔ s.stu.facets[i].usable = false) →
    s.excludedFacets = l.length)

/-- Set Footage in OFFLINE, READY and HALTED sets the six digits and answers the previous footage, and
is refused elsewhere; one frame on is the successor in 16 frames to the foot, and 9999+15 is followed
by 0000+00. -/
def Obligations.FootageSet : Prop :=
  (∀ (s : State) (tag : Nat) (p : List Byte), s.Accepts tag .setFootage p →
    (s.es.engine = .offline ∨ s.es.engine = .ready ∨ s.es.engine = .halted →
      wordAt p 0 ≤ 9999 → byteAt p 2 ≤ 15 →
      ∃ f : Footage, f.feet = wordAt p 0 ∧ f.frames = byteAt p 2 ∧ exec .setFootage s = .next
        (State.repliedDone { s.takeRecord with tc := { s.tc with footage := f } } tag .setFootage
          (.footage s.tc.footage))) ∧
    (s.es.engine ≠ .offline → s.es.engine ≠ .ready → s.es.engine ≠ .halted →
      exec .setFootage s =
        .next (s.takeRecord.repliedRefused tag .setFootage .wrongState 0 .empty))) ∧
  (∀ f : Footage, f.frames ≤ 15 →
    f.advance.frames = (f.frames + 1) % 16 ∧
    f.advance.feet = (if f.frames = 15 then (f.feet + 1) % 10000 else f.feet))

/-- Set Fault Response assigns an allowed response and answers the one before; any other code is
refused with the allowed set. The allowed set of each of the fourteen kinds is that of Table 9-1. The new response
governs a fault of the kind taken after it, one that waits included, and no other kind. -/
def Obligations.FaultResponseSet : Prop :=
  [FaultKind.sosLoss, .facetShortage, .syncSlip, .powerTrip, .pauseTimeout, .trimLimit, .stageTimeout,
    .filterTimeout, .startTimeout, .transport, .filmEnd, .interlock, .shutter, .operator].map
      FaultKind.allowed =
    [[.abort, .halt], [.abort, .halt], [.warn, .abort], [.warn, .pause, .abort, .halt], [.abort, .halt],
      [.warn, .abort], [.abort, .halt], [.abort, .halt], [.halt], [.halt], [.halt], [.halt], [.halt],
      [.abort]] ∧
  ∀ (s : State) (tag : Nat) (p : List Byte) (k : FaultKind), s.Accepts tag .setFaultResponse p →
    FaultKind.ofCode (byteAt p 0) = some k →
    (∀ r, Response.ofCode (byteAt p 1) = some r → r ∈ k.allowed →
      exec .setFaultResponse s = .next
        (State.repliedDone { s.takeRecord with fu := { s.fu with responses := s.fu.responses.set k.index r }
          } tag .setFaultResponse (.response (s.assigned k)))) ∧
    ((∀ r, Response.ofCode (byteAt p 1) = some r → r ∉ k.allowed) →
      exec .setFaultResponse s = .next
        (s.takeRecord.repliedRefused tag .setFaultResponse .badValue 1 (.allowed k.allowed))) ∧
    (∀ t r, Response.ofCode (byteAt p 1) = some r → r ∈ k.allowed → exec .setFaultResponse s = .next t →
      t.fu.raised = s.fu.raised ∧ t.assigned k = r ∧ (∀ j, j ≠ k → t.assigned j = s.assigned j) ∧
      ∀ f : FaultReport, (t.faultRecord f).applied =
        responseApplied s.es.engine (if f.kind = k then r else s.assigned f.kind) f)

/-- Read Log removes and returns the oldest records, which become the last batch; with the repeat flag
it returns the last batch and changes nothing.
The two commands divide Read Log by its
repeat flag (LOG 16). -/
def Obligations.LogRead : Prop :=
  ∀ (s : State) (tag : Nat) (p : List Byte), s.Accepts tag .readLog p →
    (byteAt p 1 = 0 → 1 ≤ byteAt p 0 → byteAt p 0 ≤ 8 → exec .readLog s = .next
      (State.repliedDone { s.takeRecord with rl := { s.rl with
          records := s.rl.records.drop (byteAt p 0)
          lastBatch := if s.rl.records = [] then s.rl.lastBatch
            else some (s.rl.records.take (byteAt p 0)) } } tag .readLog
        (.log (s.rl.records.take (byteAt p 0)) (s.rl.records.length - byteAt p 0)
          s.rl.reservation s.rl.lastSeq))) ∧
    (byteAt p 1 = 1 → exec .readLogRepeat s = .next
      (s.takeRecord.repliedDone tag .readLog
        (.log (s.rl.lastBatch.getD []) s.rl.records.length s.rl.reservation s.rl.lastSeq)))

/-- Requests refused for a value out of range, each with the field it names, in the order of their
checks, with nothing changed. That a Set Footage with both fields out of range names the feet is the model's
choice (LOG 30). A label fails at its first byte that is none of the 38 label characters. For Load Profile the field named is the first of Table 3-4's fields that is out
of its range, and the curve fails at its first falling knot. -/
def Obligations.ValuesRefused : Prop :=
  (∀ (s : State) (tag : Nat) (p : List Byte),
    (s.Accepts tag .writeRule p → ∀ field,
      (31 < byteAt p 0 ∧ field = 0) ∨ (byteAt p 0 ≤ 31 ∧ 1 < byteAt p 1 ∧ field = 1) ∨
        (byteAt p 0 ≤ 31 ∧ byteAt p 1 ≤ 1 ∧ 7 < byteAt p 2 ∧ field = 2) ∨
        (byteAt p 0 ≤ 31 ∧ byteAt p 1 ≤ 1 ∧ byteAt p 2 ≤ 7 ∧ 3200 < wordAt p 20 ∧ field = 20) →
      exec .writeRule s =
        .next (s.takeRecord.repliedRefused tag .writeRule .badValue field .empty)) ∧
    (s.Accepts tag .writeRule p → byteAt p 0 ≤ 31 → byteAt p 1 ≤ 1 → byteAt p 2 ≤ 7 →
      wordAt p 20 ≤ 3200 → ∀ k : Fin 8, isLabelCharacter (labelAt p 12)[k] = false →
      (∀ j : Fin 8, j < k → isLabelCharacter (labelAt p 12)[j] = true) → exec .writeRule s =
        .next (s.takeRecord.repliedRefused tag .writeRule .invalidLabel 0 (.labelPosition k))) ∧
    (s.Accepts tag .readRule p → 31 < byteAt p 0 → exec .readRule s =
      .next (s.takeRecord.repliedRefused tag .readRule .badValue 0 .empty)) ∧
    (s.Accepts tag .loadProfile p →
      (7 < byteAt p 0 → exec .loadProfile s =
        .next (s.takeRecord.repliedRefused tag .loadProfile .badValue 0 .empty)) ∧
      (∀ field, byteAt p 0 ≤ 7 → badProfileField p = some field → exec .loadProfile s =
        .next (s.takeRecord.repliedRefused tag .loadProfile .badValue field .empty)) ∧
      (∀ c k, byteAt p 0 ≤ 7 → badProfileField p = none → badCurve p = some (c, k) →
        exec .loadProfile s =
          .next (s.takeRecord.repliedRefused tag .loadProfile .curveOrder 0 (.curveOrder c k)))) ∧
    (s.Accepts tag .readProfile p → 7 < byteAt p 0 → exec .readProfile s =
      .next (s.takeRecord.repliedRefused tag .readProfile .badValue 0 .empty)) ∧
    (s.Accepts tag .setFacetGains p → s.es.engine = .offline ∨ s.es.engine = .ready →
      ∀ f : Fin 8, wordAt p (2 * f) < 3277 ∨ 4915 < wordAt p (2 * f) →
      (∀ g : Fin 8, g < f → 3277 ≤ wordAt p (2 * g) ∧ wordAt p (2 * g) ≤ 4915) →
      exec .setFacetGains s =
        .next (s.takeRecord.repliedRefused tag .setFacetGains .badValue (2 * f) .empty)) ∧
    (s.Accepts tag .setFootage p →
      s.es.engine = .offline ∨ s.es.engine = .ready ∨ s.es.engine = .halted → ∀ field,
      (9999 < wordAt p 0 ∧ field = 0) ∨ (wordAt p 0 ≤ 9999 ∧ 15 < byteAt p 2 ∧ field = 2) →
      exec .setFootage s =
        .next (s.takeRecord.repliedRefused tag .setFootage .badValue field .empty)) ∧
    (s.Accepts tag .setFaultResponse p → FaultKind.ofCode (byteAt p 0) = none →
      exec .setFaultResponse s =
        .next (s.takeRecord.repliedRefused tag .setFaultResponse .badValue 0 .empty)) ∧
    (s.Accepts tag .readLog p → ∀ field,
      (1 < byteAt p 1 ∧ field = 1) ∨
        (byteAt p 1 = 0 ∧ (byteAt p 0 = 0 ∨ 8 < byteAt p 0) ∧ field = 0) →
      exec .readLog s =
        .next (s.takeRecord.repliedRefused tag .readLog .badValue field .empty))) ∧
  (∀ b : Byte, isLabelCharacter b = true ↔ b.toNat = 0x20 ∨ b.toNat = 0x2D ∨
    (0x30 ≤ b.toNat ∧ b.toNat ≤ 0x39) ∨ (0x41 ≤ b.toNat ∧ b.toNat ≤ 0x5A)) ∧
  (∀ p : List Byte,
    (badProfileField p = none ↔ ∀ x ∈ profileFields, fieldPasses p x) ∧
    (∀ offset, badProfileField p = some offset ↔ ∃ before x after,
      profileFields = before ++ x :: after ∧ x.1 = offset ∧ ¬ fieldPasses p x ∧
        ∀ y ∈ before, fieldPasses p y) ∧
    (badCurve p = none ↔ ∀ (c : Channel) (k : Nat), 1 ≤ k → k ≤ 32 →
      carriedKnot p c (k - 1) ≤ carriedKnot p c k) ∧
    (∀ c k, badCurve p = some (c, k) ↔
      1 ≤ k ∧ k ≤ 32 ∧ carriedKnot p c k < carriedKnot p c (k - 1) ∧
        ∀ (d : Channel) (j : Nat), 1 ≤ j → j ≤ 32 →
          channelNumber d < channelNumber c ∨ (d = c ∧ j < k) →
          carriedKnot p d (j - 1) ≤ carriedKnot p d j))

/-! ### The engine -/

/-- Abort Frame by engine state: WRONG_STATE outside EXPOSING and PAUSED, then its own checks, and
accepted it takes the OPERATOR fault into ABORTING on the event, with the reply DONE.
The fault's take at the end of the event is
the model's reading (LOG 3), and the reply carries the engine state of its decision, EXPOSING or PAUSED, by the
model's choice (LOG 6); an image portion under way is cut where it stands (LOG 17). -/
def Obligations.FrameAborted : Prop :=
  ∀ (s : State) (tag : Nat) (p : List Byte), s.Accepts tag .abortFrame p →
    (s.es.engine ≠ .exposing → s.es.engine ≠ .paused → exec .abortFrame s =
      .next (s.takeRecord.repliedRefused tag .abortFrame .wrongState 0 .empty)) ∧
    (s.es.engine = .exposing ∨ s.es.engine = .paused →
      (1 < byteAt p 0 → exec .abortFrame s =
        .next (s.takeRecord.repliedRefused tag .abortFrame .badValue 0 .empty)) ∧
      (∀ e, s.es.exposure = some e →
        (byteAt p 0 = 1 → e.openSeq ≠ longAt p 4 → exec .abortFrame s =
          .next (s.takeRecord.repliedRefused tag .abortFrame .staleSlot 0
            (.activeSequence e.openSeq))) ∧
        (byteAt p 0 = 0 ∨ (byteAt p 0 = 1 ∧ e.openSeq = longAt p 4) →
          s.assigned .operator = .abort → ∀ r : FaultRecord,
          r = ⟨.operator e.openSeq, s.es.engine, .abort, some e.slot, some e.line,
            s.es.lineInProgress, s.tc.footage⟩ →
          exec .abortFrame s = .next
            ((State.sends { s.takeRecord with
              es := { s.es with engine := .aborting, lineInProgress := none, pauseTimer := none }
              du := { s.du with lineLatch := none, lineClips := Rgb.all ⟨0, 0⟩ }
              tc := s.tc.shutting
              fu := { s.fu with
                lastFault := some r
                inHand := some r
                counts := s.fu.counts.set 13 (min 65535 (s.fu.counts[13] + 1)) } }
              ([.notice (.fault r)] ++ s.tc.shutCommand ++
                engineMoves s.es.engine .aborting none)).replied
              ⟨tag, 0x28, .done, .none_, s.es.engine, 0, false, .empty⟩))))

/-- Start Engine in OFFLINE and Resume Engine in HALTED: refused WRONG_STATE in another state or with a
start reply pending, refused CONDITION with the door open or no film, and otherwise into STARTING with
every start command given.
The film-present sensor is an operand (LOG 12). -/
def Obligations.EngineStarted : Prop :=
  ∀ (s : State) (tag : Nat) (p : List Byte) (film : Bool) (q : Request) (from_ : Engine),
    (q = .startEngine ∧ from_ = .offline) ∨ (q = .resumeEngine ∧ from_ = .halted) →
    s.Accepts tag q p →
    (s.es.engine ≠ from_ ∨ s.es.replies.start ≠ none → exec (q.command film p) s =
      .next (s.takeRecord.repliedRefused tag q .wrongState 0 .empty)) ∧
    (s.es.engine = from_ → s.es.replies.start = none →
      (s.pl.interlockOpen = true ∨ film = false → exec (q.command film p) s =
        .next (s.takeRecord.repliedRefused tag q .condition 0
          (.conditions s.pl.interlockOpen (!film)))) ∧
      (s.pl.interlockOpen = false → film = true → exec (q.command film p) s = .next
        (State.sends { s.takeRecord.enterTable tag q with
          stu := if s.stu.speed = .idle then
              ⟨.acquiring, .armed, 7, false, 0, none, none, 0,
                mapTable (fun f => ⟨true, s.stu.params.tn, none, 0, f.gain⟩) s.stu.facets,
                s.stu.params, ⟨0, 0, 0, 0⟩⟩
            else s.stu
          pl := { s.pl with channels := s.pl.channels.map (fun c =>
            if c.laser = .off then
              { c with laser := .settling, settle := some (Config.ms s.pl.params.settleMs) }
            else c) }
          es := { s.es with
            engine := .starting
            replies := { s.es.replies with start := some ⟨q, some tag⟩ }
            stage := .homing
            startTimer := some (Config.ms 20000) }
          tc := if s.tc.op = none ∧ s.tc.gate ≠ .clamped then
              { s.tc with
                gate := .clamping, op := some .clamp, opTimer := some (Config.ms 400)
                perforations := 0 }
            else s.tc
          fu := { s.fu with inHand := none } }
          ([.command .polygonRun, .command .stageHome] ++
            (if s.tc.op = none ∧ s.tc.gate ≠ .clamped then [.command .clampClose] else []) ++
            [.notice (.engineState from_ .starting none)]))))

/-- The commands given on entry to HALTED, STOPPING and LOCKED: every channel OFF with its trim and last
reading kept and a reference pulse it is firing cut short (LOG 17), the polygon at IDLE, the stage
UNHOMED, a moving wheel UNKNOWN, a gate operation cut short, the shutter told to close, and the start and pause timers stopped; nothing else changes. -/
def Obligations.MechanismsStopped : Prop :=
  ∀ s : State, s.stopMechanisms =
    State.sends { s with
      pl := { s.pl with channels := s.pl.channels.map (fun c =>
        if c.laser = .off then c
        else ⟨.off, none, c.trim, c.reading, .clear, 0, 0, 0, 0, false⟩) }
      stu := if s.stu.speed = .idle then s.stu
        else { s.stu with speed := .idle, measurement := .armed, watch := none }
      es := { s.es with
        stage := .unhomed
        wheels := s.es.wheels.map (fun w => if w.move = none then w else ⟨none, none⟩)
        startTimer := none
        pauseTimer := none }
      tc := (match s.tc.op with
        | none => s.tc
        | some op => s.tc.failing op .cut).shutting }
      (s.cutsPulses ++ [.command .polygonStop, .command .stageStop] ++ s.wheelStops ++
        (if s.tc.op = none then [] else [.command .transportStop]) ++ s.tc.shutCommand)

/-- Stop Engine by engine state: refused WRONG_STATE in OFFLINE and STOPPING and while a stop is pending;
in READY, HALTED and STARTING into STOPPING, with a pending start reply ABANDONED from STARTING; and
elsewhere stop-pending set with the engine state unchanged.
The engine state in a reply is the one at its
decision (LOG 6). -/
def Obligations.EngineStopped : Prop :=
  ∀ (s : State) (tag : Nat) (p : List Byte), s.Accepts tag .stopEngine p →
    (s.es.engine = .offline ∨ s.es.engine = .stopping ∨ s.es.replies.stop ≠ none ∨
        s.es.stopPending = true →
      exec .stopEngine s =
        .next (s.takeRecord.repliedRefused tag .stopEngine .wrongState 0 .empty)) ∧
    (s.es.replies.stop = none → s.es.stopPending = false →
      (s.es.engine ∈ [Engine.preparing, .exposing, .paused, .finishing, .advancing, .aborting] →
        exec .stopEngine s = .next { s.takeRecord.enterTable tag .stopEngine with
          es := { s.es with
            stopPending := true
            replies := { s.es.replies with stop := some ⟨.stopEngine, some tag⟩ } } }) ∧
      (s.es.engine ∈ [Engine.ready, .halted, .starting] → ∀ t u : State,
        t = (s.takeRecord.enterTable tag .stopEngine).stopMechanisms →
        u = State.sends { t with
          es := { t.es with
            engine := .stopping
            stopTimer := some (Config.ms 10000)
            replies := { s.es.replies with stop := some ⟨.stopEngine, some tag⟩ } }
          fu := { s.fu with inHand := none } }
            [.notice (.engineState s.es.engine .stopping none)] →
        exec .stopEngine s = .next
          (if s.es.engine = .starting then (u.ends .start .failed .abandoned .empty).flush
          else u)))

/-- Reset Engine in every engine state but LOCKED, as an equation in the order of R120: the lasers disabled,
the shutter told to close, the stage, the wheels and the gate stopped; every other pending reply FAILED
ABANDONED in the order start, stop, advance, reset, each with the engine state of its decision (LOG 6); the
flags and timers cleared and its own reply pending; the frame or the blank advance in hand ended by the engine
state; and STOPPING entered, with the polygon stopped, unless the engine is there already. Then, with the frame
in hand in agreement, the fields it leaves. Pulses and an image portion under way are cut where they stand
(LOG 17). A LOG_NEARLY_FULL goes out at its append, before FRAME_SPOILED and ENGINE_STATE (LOG 6). -/
def Obligations.EngineReset : Prop :=
  (∀ (s : State) (tag n : Nat) (p : List Byte) (u v w x y : State), s.Accepts tag .resetEngine p →
    n = (match s.tc.blank with
      | none => 0
      | some b => b.completed) →
    u = State.sends { s.takeRecord.enterTable tag .resetEngine with
      pl := { s.pl with channels := s.pl.channels.map (fun c =>
        if c.laser = .off then c
        else ⟨.off, none, c.trim, c.reading, .clear, 0, 0, 0, 0, false⟩) }
      es := { s.es with
        stage := .unhomed
        wheels := s.es.wheels.map (fun w => if w.move = none then w else ⟨none, none⟩) }
      tc := (match s.tc.op with
        | none => s.tc
        | some op => s.tc.failing op .cut).shutting }
      (s.cutsPulses ++ s.tc.shutCommand ++ [.command .stageStop] ++ s.wheelStops ++
        (if s.tc.op = none then [] else [.command .transportStop])) →
    v = (((u.ends .start .failed .abandoned .empty).ends .stop .failed .abandoned .empty).ends .advance
      .failed .abandoned (.advancedBefore n)).ends .reset .failed .abandoned .empty →
    w = { v with
      es := { v.es with
        replies := { v.es.replies with reset := some ⟨.resetEngine, some tag⟩ }
        stopPending := false, deferredHalt := none, startTimer := none, pauseTimer := none }
      fu := { s.fu with inHand := none } } →
    x = (if s.es.engine = .preparing then w.returnFrame
      else if s.es.engine ∈ [Engine.exposing, .paused, .finishing, .aborting] then w.spoilFrame .reset
      else if s.es.engine = .advancing then w.endBlankEarly else w) →
    y = (if s.es.engine = .stopping then x else x.entersStopping) →
    exec .resetEngine s = .next y.flush) ∧
  ∀ (s : State) (tag : Nat) (p : List Byte), s.Accepts tag .resetEngine p → InHand s →
    ∃ t : State, exec .resetEngine s = .next t ∧
      t.allOff ∧ t.es.engine = .stopping ∧
      t.es.stage = .unhomed ∧ (∀ c, ((t.es.wheels.get c).move = none ∧
        (t.es.wheels.get c).position = if (s.es.wheels.get c).move = none then
          (s.es.wheels.get c).position else none)) ∧
      t.es.stopPending = false ∧ t.es.deferredHalt = none ∧ t.es.startTimer = none ∧
      t.es.pauseTimer = none ∧ t.es.exposure = none ∧ t.es.lineInProgress = none ∧
      t.es.replies = ⟨none, none, some ⟨.resetEngine, some tag⟩, none⟩ ∧
      t.es.stopTimer = (if s.es.engine = .stopping then s.es.stopTimer
        else some (Config.ms 10000)) ∧
      t.tc.shutter = s.tc.shutting.shutter ∧ t.tc.op = none ∧ t.tc.blank = none ∧
      t.tc.footage = s.tc.footage ∧
      (s.tc.op ≠ none → t.tc.gate = .released ∧ t.tc.gateUsed = true) ∧
      (s.tc.op = none → t.tc.gate = s.tc.gate ∧ t.tc.gateUsed = s.tc.gateUsed) ∧
      t.fu = { s.fu with inHand := none } ∧
      (∀ e r, s.es.exposure = some e → s.slot e.slot = some r →
        (s.es.engine = .preparing → t.slot e.slot = some { r with phase := .queued } ∧
          t.fs.queue = e.slot :: s.fs.queue ∧ t.rl = { s.rl with reservation := none }) ∧
        (s.es.engine ≠ .preparing → t.slot e.slot = some { r with phase := .held } ∧
          t.fs.queue = s.fs.queue ∧
          t.rl = s.rl.append s.tc.footage (.spoiled (s.frameEntry e r) .reset))) ∧
      (s.es.exposure = none → t.fs = s.fs) ∧
      (∀ b, s.tc.blank = some b → t.rl = if 0 < b.completed then
          s.rl.append b.start (.blank b.completed) else { s.rl with reservation := none }) ∧
      (s.es.exposure = none → s.tc.blank = none → t.rl = s.rl) ∧
      (∀ j, (∀ e, s.es.exposure = some e → e.slot ≠ j) → t.slot j = s.slot j) ∧
      t.fs.image = s.fs.image ∧ t.fs.openCounter = s.fs.openCounter ∧
      t.admission = s.admission ∧ t.pt = s.pt ∧
      t.du = { s.du with
        frameLatch := none, lineLatch := none
        lineClips := if s.es.exposure = none then s.du.lineClips else Rgb.all ⟨0, 0⟩ } ∧
      t.stu.speed = (if s.es.engine = .stopping then s.stu.speed else .idle) ∧
      t.stu.params = s.stu.params ∧ t.stu.facets = s.stu.facets ∧ t.pl.params = s.pl.params ∧
      (∀ c, (t.pl.channels.get c).trim = (s.pl.channels.get c).trim) ∧
      t.es.linePitch = s.es.linePitch ∧ t.es.pauseMs = s.es.pauseMs ∧
      t.pending = s.pending

/-- Advance Film, decided in its order: LOG_FULL, a count outside 1–16, a state other than READY or a
pending advance; accepted, it reserves a record, holds its reply and begins the first pull-down in
ADVANCING. -/
def Obligations.FilmAdvanced : Prop :=
  ∀ (s : State) (tag : Nat) (p : List Byte), s.Accepts tag .advanceFilm p →
    (∀ reason,
      (64 ≤ s.rl.load ∧ reason = .logFull) ∨
        (s.rl.load < 64 ∧ (byteAt p 0 = 0 ∨ 16 < byteAt p 0) ∧ reason = .badValue) ∨
        (s.rl.load < 64 ∧ 1 ≤ byteAt p 0 ∧ byteAt p 0 ≤ 16 ∧
          (s.es.engine ≠ .ready ∨ s.es.replies.advance ≠ none) ∧ reason = .wrongState) →
      exec .advanceFilm s =
        .next (s.takeRecord.repliedRefused tag .advanceFilm reason 0 .empty)) ∧
    (s.rl.load < 64 → 1 ≤ byteAt p 0 → byteAt p 0 ≤ 16 → s.es.engine = .ready →
      s.es.replies.advance = none → exec .advanceFilm s = .next
        (State.sends { s.takeRecord.enterTable tag .advanceFilm with
          rl := { s.rl with reservation := some .blank }
          es := { s.es with
            engine := .advancing
            replies := { s.es.replies with advance := some ⟨.advanceFilm, some tag⟩ } }
          tc := { s.tc.pulling with blank := some ⟨byteAt p 0, 0, s.tc.footage⟩ } }
          (.notice (.engineState .ready .advancing none) :: s.tc.pullCommand)))

/-- The take of the queue head in READY with room in the log and no stop pending: the slot ACTIVE, the
record reserved, the exposure record and the frame latch, the wheels, the fresh film and the stage, and
the shutter if nothing is left to wait for; with any of the conditions unmet, no change.
The take is a step of its own (LOG 20), and the open command
waits for a CLOSED shutter (LOG 7). -/
def Obligations.FrameTaken : Prop :=
  ∀ s : State, s.Before [] →
    (s.fs.queue = [] ∨ s.es.engine ≠ .ready ∨ 64 ≤ s.rl.load ∨ s.es.stopPending = true →
      exec .queueTake s = .next s) ∧
    (∀ (i : Fin 4) (rest : List (Fin 4)) (r : SlotRecord) (q : Rgb ProfileChannel)
        (latch : Rgb LatchedChannel),
      s.fs.queue = i :: rest → s.slot i = some r → s.pt.profiles[r.profile].channels = q →
      (∀ c, latch.get c = ⟨(q.get c).enabled, (q.get c).curve, (q.get c).scale,
        s.du.rollTrims.get c, s.du.shading.get c⟩) →
      s.es.engine = .ready → s.rl.load < 64 → s.es.stopPending = false →
      exec .queueTake s = .next
        (State.sends { s with
          fs := { s.fs with
            queue := rest
            slots := s.fs.slots.set i (some { r with phase := .active }) }
          rl := { s.rl with reservation := some (.frame i) }
          du := { s.du with frameLatch := some latch }
          es := { s.es with
            engine := .preparing
            exposure := some ⟨i, r.openSeq, r.profile, 0, 0, 0, 0, Rgb.all ⟨0, 0⟩,
              s.du.rollTrims, false⟩
            wheels := Rgb.zip (fun w range => if w.position = some range then w
              else { w with move := some (range, Config.ms 1500) }) s.es.wheels (q.map (·.range))
            stage := if s.stageReturns then .moving 0 (some (Config.ms 1000)) else s.es.stage }
          tc := if s.tc.gateUsed then s.tc.pulling else s.tc }
          ([.notice (.engineState .ready .preparing none)] ++
            ([.red, .green, .blue].filter (fun c =>
              (s.es.wheels.get c).position ≠ some (q.get c).range)).map
                (fun c => .command (.wheelMove c (q.get c).range)) ++
            (if s.tc.gateUsed then s.tc.pullCommand else []) ++
            (if s.stageReturns then [.command .stageReturn] else []))).meetsPreparing)

/-! ### The scan -/

/-- An SOS: in IDLE ignored; in RUNNING it ends a scan still timed, counts the next facet, times it,
begins a line attempt where R129 allows, and triggers PL, in this order; in ACQUIRING it counts, triggers
and judges the speed, and with a run of 16 and the aligned flag the polygon is on speed.
The ticks before the edge pass first (LOG 1). FACET_SHORTAGE of a scan it ends is taken at the end of the event,
and a fault that waits stays raised (LOG 3); a trigger before the last one's sample begins the
pulse anew (LOG 25). An entry to READY sends ENGINE_STATE before QUEUE_EMPTY (LOG 6). -/
def Obligations.SosTaken : Prop :=
  ∀ (s u : State) (ticks : Nat), s.Before [.powerTrip, .trimLimit, .startTimeout] →
    u = s.elapse ticks →
    (s.stu.speed = .idle → exec (.sos ticks) s = .next u) ∧
    (s.stu.speed = .running → ∀ t v : State,
      t = { u.endMissed with stu := { u.endMissed.stu with
        counter := u.endMissed.stu.counter + 1 } } →
      (t.mayStart → v = t.timesScan.beginsLine) → (¬ t.mayStart → v = t.timesScan) →
      exec (.sos ticks) s = .next (v.fires t.pixelPeriod).concluded ∧
      (s.stu.measurement = .armed → exec (.sos ticks) s = .next (v.fires t.pixelPeriod))) ∧
    (s.stu.speed = .acquiring → ∀ (n : Nat) (t v : State),
      n = (match s.stu.sinceSos with
        | none => s.stu.lockRun
        | some i =>
          if absDiff (i + ticks) s.stu.params.pn * 10000 ≤ s.stu.params.tolerance * s.stu.params.pn
          then min 16 (s.stu.lockRun + 1) else 0) →
      t = { u with stu := { u.stu with counter := u.stu.counter + 1 } } →
      v = { t.fires t.pixelPeriod with stu := { t.stu with sinceSos := some 0, lockRun := n } } →
      (n < 16 ∨ s.stu.aligned = false → exec (.sos ticks) s = .next v) ∧
      (16 ≤ n → s.stu.aligned = true → ∀ w : State,
        w = State.meetsStart { v with stu := { v.stu with speed := .running } } →
        (w.mayStart → exec (.sos ticks) s = .next w.timesScan.beginsLine.flush) ∧
        (¬ w.mayStart → exec (.sos ticks) s = .next w.timesScan.flush)))

/-- An EOS: ignored outside RUNNING, stray in ARMED; in TIMING it measures and ends the scan, SLIPPED,
IN_TOLERANCE with the filtered interval one eighth of the way on, or OUT_OF_TOLERANCE.
The ticks before the edge pass first (LOG 1). A FACET_SHORTAGE it raises is taken at the end of the event, and a
fault that waits stays raised (LOG 3). -/
def Obligations.EosTaken : Prop :=
  ∀ (s u : State) (ticks : Nat), s.Before [.powerTrip, .trimLimit] →
    u = s.elapse ticks →
    (s.stu.speed ≠ .running → exec (.eos ticks) s = .next u) ∧
    (s.stu.speed = .running →
      (s.stu.measurement = .armed → exec (.eos ticks) s = .next { u with stu := { u.stu with
        stats := { u.stu.stats with strayEos := min 65535 (u.stu.stats.strayEos + 1) } } }) ∧
      (∀ f n p, s.stu.measurement = .timing f n true p → exec (.eos ticks) s = .next
        (State.scanEnd { u with stu := { u.stu with measurement := .armed } } f .slipped)) ∧
      (∀ f n p tm (v w : Facet), s.stu.measurement = .timing f n false p → tm = n + ticks →
        v = { u.stu.facets[f] with measured := some tm } →
        w = (if v.usable = true then
            { v with interval := ((v.interval : Int) + ((tm : Int) - v.interval + 4) / 8).toNat, run := 0 }
          else v) →
        (absDiff tm s.stu.params.tn * 10000 ≤ s.stu.params.tolerance * s.stu.params.tn →
          exec (.eos ticks) s = .next (State.scanEnd { u with stu := { u.stu with
            measurement := .armed, facets := u.stu.facets.set f w } } f .inTolerance)) ∧
        (s.stu.params.tolerance * s.stu.params.tn < absDiff tm s.stu.params.tn * 10000 →
          exec (.eos ticks) s = .next (State.failsScan { u with stu := { u.stu with
            measurement := .armed, facets := u.stu.facets.set f v } } f .outOfTolerance).concluded)))

/-- A scan end: the line in progress on that scan is counted, with a defect unless it was in tolerance,
with the line's clip counts added to the frame's up to 4294967295, and the stage steps or the frame is finished;
on any other scan nothing changes. A scan still timed at the next SOS or watch expiry ends SLIPPED if marked so, and
MISSED_EOS otherwise. The statistic of a slipped scan is the model's reading (LOG 9), and that a scan end before the
image portion is over adds the clip counts of all that was put out is its choice (LOG 32). -/
def Obligations.ScanEnds : Prop :=
  (∀ (s : State) (f : Fin 8) (o : ScanOutcome),
    (s.es.engine ≠ .exposing ∨ s.es.lineInProgress ≠ some f → s.scanEnd f o = s) ∧
    (∀ (e d : ExposureRecord) (r : SlotRecord), s.es.engine = .exposing →
      s.es.lineInProgress = some f → s.es.exposure = some e → s.slot e.slot = some r →
      d = { e with
        exposed := e.exposed + 1
        defects := e.defects + (if o = .inTolerance then 0 else 1)
        clips := Rgb.zip Clips.add e.clips s.du.lineClips } →
      s.scanEnd f o =
        if e.line + 1 < r.height then
          State.sends { s with
            es := { s.es with
              lineInProgress := none
              exposure := some { d with line := e.line + 1 }
              stage := .moving (e.line + 1) (some (Config.ms 5)) }
            du := { s.du with lineLatch := none, lineClips := Rgb.all ⟨0, 0⟩ } }
            [.command (.stageStep (e.line + 1) s.es.linePitch)]
        else
          State.sends { s with
            es := { s.es with engine := .finishing, lineInProgress := none, exposure := some d }
            du := { s.du with lineLatch := none, lineClips := Rgb.all ⟨0, 0⟩ }
            tc := s.tc.shutting }
            (s.tc.shutCommand ++ engineMoves .exposing .finishing none))) ∧
  (∀ c d : Clips,
    Clips.add c d = ⟨min 4294967295 (c.high + d.high), min 4294967295 (c.low + d.low)⟩) ∧
  (∀ (s : State) (l : List (Fin 8)), l.Nodup → (∀ i, i ∈ l ↔ s.stu.facets[i].usable = true) →
    s.usableFacets = l.length) ∧
  (∀ s : State,
    (s.stu.measurement = .armed → s.endMissed = s) ∧
    (∀ f n p, s.stu.measurement = .timing f n true p → s.endMissed =
      State.scanEnd { s with stu := { s.stu with measurement := .armed } } f .slipped) ∧
    (∀ f n p, s.stu.measurement = .timing f n false p → s.endMissed =
      State.failsScan { s with stu := { s.stu with
        measurement := .armed
        stats := { s.stu.stats with missedEos := min 65535 (s.stu.stats.missedEos + 1) } } } f
        .missedEos))

/-- The index pulse aligns the counter in ACQUIRING, and in RUNNING corrects a slip and raises SYNC_SLIP behind
the faults that wait (LOG 3); the SOS watch counts a missed SOS, and raises SOS_LOSS at the eighth of a run. At the end of the watch's event a
FACET_SHORTAGE is taken, while SOS_LOSS and any fault that waits stay raised unless the free order takes one before it (LOG 3). -/
def Obligations.IndexAndWatch : Prop :=
  (∀ s : State, s.Before [] →
    (s.stu.speed = .idle ∨ (s.stu.speed = .running ∧ s.stu.counter = 7) →
      exec .indexPulse s = .next s) ∧
    (s.stu.speed = .acquiring → exec .indexPulse s =
      .next { s with stu := { s.stu with counter := 7, aligned := true } }) ∧
    (s.stu.speed = .running → s.stu.counter ≠ 7 → exec .indexPulse s = .next { s with
      stu := { s.stu with
        counter := 7
        measurement := match s.stu.measurement with
          | .armed => .armed
          | .timing f n _ p => .timing f n true p
        stats := { s.stu.stats with slips := min 65535 (s.stu.stats.slips + 1) } }
      fu := { s.fu with raised := s.fu.raised ++ [.syncSlip s.stu.counter] } })) ∧
  ∀ s : State, s.Before [.powerTrip, .trimLimit] →
    (s.stu.speed ≠ .running ∨ s.stu.watch = none → exec .sosWatchExpiry s = .next s) ∧
    (s.stu.speed = .running → s.stu.watch ≠ none → ∀ (t u : State) (n : Nat), t = s.endMissed →
      n = t.stu.missedRun + 1 →
      u = { t with
        stu := { t.stu with
          counter := t.stu.counter + 1
          stats := { t.stu.stats with missedSos := min 65535 (t.stu.stats.missedSos + 1) }
          missedRun := if 8 ≤ n then 0 else n
          watch := some (2 * t.stu.params.pn) }
        fu := { t.fu with raised := t.fu.raised ++ (if 8 ≤ n then [.sosLoss n] else []) } } →
      exec .sosWatchExpiry s = .next u.concluded ∧
      (s.stu.measurement = .armed → exec .sosWatchExpiry s = .next u))

/-! ### The lasers -/

/-- A channel's settle timer expires: SETTLING becomes SETTLED, and STARTING and PREPARING read their
conditions; without a settling channel nothing changes. The door's opening turns every channel OFF with its
trim and reading kept, cuts a reference pulse being fired (LOG 17) and raises INTERLOCK behind the faults that
wait (LOG 3); opening and closing each send their notice. In PREPARING the open command waits for a CLOSED shutter (LOG 7), and an entry to READY sends ENGINE_STATE before
QUEUE_EMPTY (LOG 6). -/
def Obligations.LasersAndDoor : Prop :=
  (∀ (s : State) (c : Channel) (x : PowerChannel), s.Before [.startTimeout] → s.pl.channels.get c = x →
      (x.laser ≠ .settling ∨ x.settle = none → exec (.laserSettleExpiry c) s = .next s) ∧
      (x.laser = .settling → x.settle ≠ none → exec (.laserSettleExpiry c) s = .next
        (State.meetsStart { s with pl := { s.pl with
          channels := s.pl.channels.set c { x with laser := .settled, settle := none } }
          }).meetsPreparing.flush)) ∧
  (∀ s : State, s.Before [] →
      exec .interlockOpening s = .next
        (State.sends { s with
          pl := { s.pl with
            interlockOpen := true
            channels := s.pl.channels.map (fun c => if c.laser = .off then c
              else ⟨.off, none, c.trim, c.reading, .clear, 0, 0, 0, 0, false⟩) }
          fu := { s.fu with raised := s.fu.raised ++ [.interlock] } }
          (s.cutsPulses ++ [.notice (.interlock true)]))) ∧
  (∀ s : State, s.Before [] → exec .interlockClosing s = .next
    (State.sends { s with pl := { s.pl with interlockOpen := false } } [.notice (.interlock false)]))

/-- One channel's part of a sample: its reading, its runs and its window against the limits, then its
servo, one reading of a block or the step at the block's end. -/
def Obligations.SampleJudged : Prop :=
  ∀ (c : PowerChannel) (p : PowerParams) (target r : Nat) (x : ChannelSample) (isOut : Prop)
    (total step : Int),
    x = c.sample p target r →
    (isOut ↔ (p.direction ≠ .high ∧ r < target * (32 - p.steps) / 32) ∨
      (p.direction ≠ .low ∧ min 4095 (target * (32 + p.steps) / 32) < r)) →
    total = c.accumulator + ((r : Int) - target) →
    step = (if (p.deadband : Int) < total.tdiv 16 then -1
      else if total.tdiv 16 < -(p.deadband : Int) then 1 else 0) →
    (¬ (c.firing = true ∧ c.laser = .settled) →
      x = ⟨{ c with firing := false }, none, false, false, none⟩) ∧
    (c.firing = true → c.laser = .settled →
      x.channel.reading = some r ∧ x.channel.firing = false ∧ x.channel.laser = .settled ∧
      x.channel.settle = c.settle ∧
      (isOut → x.channel.outRun = min p.persistence (c.outRun + 1) ∧ x.channel.inRun = 0 ∧
        x.cleared = false ∧
        (c.window = .clear → p.persistence ≤ c.outRun + 1 → x.channel.window = .tripped ∧
          (p.direction ≠ .high → r < target * (32 - p.steps) / 32 → x.trip = some .lower) ∧
          (p.direction = .high ∨ target * (32 - p.steps) / 32 ≤ r → x.trip = some .upper)) ∧
        (c.window = .tripped ∨ c.outRun + 1 < p.persistence →
          x.channel.window = c.window ∧ x.trip = none)) ∧
      (¬ isOut → x.channel.inRun = min p.persistence (c.inRun + 1) ∧ x.channel.outRun = 0 ∧
        x.trip = none ∧
        (c.window = .tripped → p.persistence ≤ c.inRun + 1 →
          x.channel.window = .clear ∧ x.cleared = true) ∧
        (c.window = .clear ∨ c.inRun + 1 < p.persistence →
          x.channel.window = c.window ∧ x.cleared = false)) ∧
      (c.samples + 1 < 16 → x.channel.accumulator = total ∧ x.channel.samples = c.samples + 1 ∧
        x.channel.trim = c.trim ∧ x.atLimit = false ∧ x.refused = none) ∧
      (16 ≤ c.samples + 1 → x.channel.accumulator = 0 ∧ x.channel.samples = 0 ∧
        (step = 0 → x.channel.trim = c.trim ∧ x.atLimit = false ∧ x.refused = none) ∧
        (step ≠ 0 → -31 ≤ c.trim + step → c.trim + step ≤ 31 →
          x.channel.trim = c.trim + step ∧ x.refused = none ∧
          (x.atLimit = true ↔ c.trim + step = 31 ∨ c.trim + step = -31)) ∧
        (step ≠ 0 → c.trim + step < -31 ∨ 31 < c.trim + step →
          x.channel.trim = c.trim ∧ x.atLimit = false ∧ x.refused = some (decide (0 < step)))))

/-- A sample completion: with no channel awaiting one it does not arise; otherwise the three channels'
parts, POWER_TRIP, the clear, TRIM_AT_LIMIT and TRIM_LIMIT in this order, behind the faults that wait (LOG 3),
and then the image portion of a line in progress where no fault of the sample waits: one that does is taken before
it, and the portion follows on the take of the last (FaultTaken). Then the data of the two
faults, the first channel in the order red, green, blue with the set, and when and from what the image portion is
driven. The premises on the slots and the line are
part of the invariant SlotsSound; without them a line outside the image memory stops the model by name (LOG 19).
The image portion is one output of the sample (LOG 17); in PREPARING the open command waits for a CLOSED shutter
(LOG 7); the pauses count stays at its top (LOG 24). With every channel that fired gone OFF there is no sample and no
image portion, by the model's choice (LOG 32). -/
def Obligations.SampleTaken : Prop :=
  (∀ (s : State) (x : Rgb Nat), s.Before [.powerTrip, .trimLimit, .pauseTimeout] →
    (∀ i r, s.slot i = some r → r.width ≤ 4096) → (∀ e, s.es.exposure = some e → e.line < 3200) →
    ((∀ c, (s.pl.channels.get c).firing = false) → exec (.sampleCompletion x) s = .next s) ∧
    (∀ c, (s.pl.channels.get c).firing = true →
      ∀ (y : Rgb ChannelSample) (t u v w : State), y = s.pl.sample x →
      t = { s with
        pl := { s.pl with channels := y.map (·.channel) }
        fu := { s.fu with raised := s.fu.raised ++ (tripReport y x).toList } } →
      u = (if y.r.cleared = false ∧ y.g.cleared = false ∧ y.b.cleared = false then t
        else if s.es.engine = .paused ∧ t.allClear = true then
          State.sends { t with es := { t.es with
            engine := .exposing
            pauseTimer := none
            exposure := t.es.exposure.map (fun e =>
              { e with pauses := min 4294967295 (e.pauses + 1) }) } }
            [.notice (.engineState .paused .exposing none)]
        else t.meetsPreparing) →
      v = (if y.r.atLimit = false ∧ y.g.atLimit = false ∧ y.b.atLimit = false then u
        else u.sends [.notice (.trimAtLimit (y.map (fun z =>
          if z.atLimit = true then some z.channel.trim else none)))]) →
      w = { v with fu := { v.fu with raised := v.fu.raised ++ (trimReport y).toList } } →
      exec (.sampleCompletion x) s = .next w.drivesImage)) ∧
  (∀ (s : State) (x : Rgb Nat) (c : Channel) (e : ExposureRecord) (r : SlotRecord),
    s.Before [.powerTrip, .trimLimit, .pauseTimeout] → (s.pl.channels.get c).firing = true →
    s.es.engine = .exposing → s.es.lineInProgress ≠ none → s.es.exposure = some e →
    s.slot e.slot = some r → s.du.frameLatch ≠ none → s.du.lineLatch ≠ none →
    4096 < r.width ∨ 3200 ≤ e.line → exec (.sampleCompletion x) s = .fault .imagePosition) ∧
  (∀ (y : Rgb ChannelSample) (x : Rgb Nat),
    ((∀ c, (y.get c).trip = none) → tripReport y x = none) ∧
    (∀ c limit, (y.get c).trip = some limit →
      (∀ d, channelNumber d < channelNumber c → (y.get d).trip = none) → ∀ f : FaultReport,
      f = .powerTrip (y.map (fun z => z.trip.isSome)) (x.get c) limit →
      tripReport y x = some f ∧ f.channel = some c) ∧
    ((∀ c, (y.get c).refused = none) → trimReport y = none) ∧
    (∀ c up, (y.get c).refused = some up →
      (∀ d, channelNumber d < channelNumber c → (y.get d).refused = none) → ∀ f : FaultReport,
      f = .trimLimit (y.map (fun z => z.refused.isSome)) (y.get c).channel.trim up →
      trimReport y = some f ∧ f.channel = some c)) ∧
  (∀ s : State,
    (∀ e r f l, s.drivenAttempt = some (e, r, f, l) ↔
      s.es.engine = .exposing ∧ s.es.lineInProgress ≠ none ∧ s.es.exposure = some e ∧
      s.slot e.slot = some r ∧ s.du.frameLatch = some f ∧ s.du.lineLatch = some l ∧
      r.width ≤ 4096 ∧ e.line < 3200 ∧
      ∀ g ∈ s.fu.raised, g.kind ∉ [FaultKind.powerTrip, .trimLimit]) ∧
    (s.drivenAttempt = none → s.drivesImage = s) ∧
    (∀ e r f l d, s.drivenAttempt = some (e, r, f, l) →
      d = lineDoses s.fs.image f l e.slot e.line r.width →
      s.drivesImage = { s with
        du := { s.du with lineClips := lineClips d }
        out := s.out ++ [.image e.line s.stu.params.l0 s.scanPeriod (d.map (Rgb.map Dose.word))] }) ∧
    s.scanPeriod = (match s.stu.measurement with
      | .armed => 0
      | .timing _ _ _ period => period) ∧
    (s.allClear = true ↔ ∀ c, (s.pl.channels.get c).window = .clear))

/-- The dose, stage by stage. Stage 1 interpolates between two knots of the curve; stage 2 adds 25 md a point
and holds the sum within 0 to 3000; stage 3 rounds 65535 × 10^((q − 3000)/1000) to the nearest natural,
halves up; stage 4 interpolates the shading, rounds its quotient once, halves up, and holds it at full dose
with clip-high; and stage 5 makes the drive word by its ranges, with clip-low below 256 and above 0. A channel
takes them in this order from its latches, or stays at beam-off when it is disabled; a line takes them pixel by
pixel, and counts each clipped pixel once. -/
def Obligations.DoseComputed : Prop :=
  (∀ (K : Curve) (v k f : Nat) (h : k < 32), f < 32 → v = 32 * k + f →
    stage1 K v = (K[k] : Int) + (((K[k + 1] : Int) - K[k]) * f + 16) / 32 ∧
    (K[k] ≤ K[k + 1] → (K[k] : Int) ≤ stage1 K v ∧ stage1 K v ≤ K[k + 1])) ∧
  (∀ q trim : Int, (stage2 q trim : Int) = max 0 (min 3000 (q + 25 * trim))) ∧
  (∀ q n : Nat, q ≤ 3000 →
    (exponential q = n ↔ (2 * n - 1) ^ 1000 * 10 ^ (3000 - q) ≤ 131070 ^ 1000 ∧
      131070 ^ 1000 < (2 * n + 1) ^ 1000 * 10 ^ (3000 - q))) ∧
  (∀ q r : Nat, q ≤ r → r ≤ 3000 → exponential q ≤ exponential r) ∧
  (∀ (S : Shading) (x j h : Nat) (hj : j < 16), h < 256 → x = 256 * j + h →
    (shadingAt S x : Int) = (S[j] : Int) + (((S[j + 1] : Int) - S[j]) * h + 128) / 256 ∧
    min S[j] S[j + 1] ≤ shadingAt S x ∧ shadingAt S x ≤ max S[j] S[j + 1]) ∧
  (∀ (e scale shade gain u : Nat) (trim : Int), -50 ≤ trim →
    (stage4 e scale shade gain trim = u ↔
      2 * (u : Int) * (65535 * 4096 * 4096 * 50) ≤
        2 * (e * scale * shade * gain * (50 + trim)) + 65535 * 4096 * 4096 * 50 ∧
      2 * (e * scale * shade * gain * (50 + trim)) + 65535 * 4096 * 4096 * 50 <
        2 * ((u : Int) + 1) * (65535 * 4096 * 4096 * 50))) ∧
  (∀ u : Nat,
    (u = 0 → finishDose u = ⟨⟨0, 0⟩, false, false⟩) ∧
    (1 ≤ u → u ≤ 127 → finishDose u = ⟨⟨0, 0⟩, false, true⟩) ∧
    (128 ≤ u → u ≤ 255 → finishDose u = ⟨⟨256, 1⟩, false, true⟩) ∧
    (256 ≤ u → u ≤ 16383 → finishDose u = ⟨⟨rhu u (u / 256), u / 256⟩, false, false⟩) ∧
    (16384 ≤ u → u ≤ 245760 → finishDose u = ⟨⟨rhu u 64, 64⟩, false, false⟩) ∧
    (245760 < u → finishDose u = ⟨⟨3840, 64⟩, true, false⟩)) ∧
  (∀ (c : LatchedChannel) (gain x v : Nat) (trim : Int),
    (c.enabled = true → channelDose c gain trim x v = finishDose
      (stage4 (exponential (stage2 (stage1 c.curve v) c.trim)) c.scale (shadingAt c.shading x) gain
        trim)) ∧
    (c.enabled = false → channelDose c gain trim x v = ⟨⟨0, 0⟩, false, false⟩)) ∧
  (∀ (m : Memory) (f : Rgb LatchedChannel) (l : LineLatch) (slot line width : Nat),
    (lineDoses m f l slot line width).length = width ∧
    (∀ x, x < width → (lineDoses m f l slot line width)[x]? = some
      ⟨channelDose f.r l.gain l.trims.r x (m.pixel slot line x).r,
       channelDose f.g l.gain l.trims.g x (m.pixel slot line x).g,
       channelDose f.b l.gain l.trims.b x (m.pixel slot line x).b⟩)) ∧
  (∀ (ds : List (Rgb Dose)) (c : Channel), (lineClips ds).get c =
    ⟨ds.countP (fun d => (d.get c).high), ds.countP (fun d => (d.get c).low)⟩)

/-! ### Timers and mechanisms -/

/-- The start timer, the pause timer, a wheel's timer and the stage's timer expire: each raises its fault
with its data, and a timer that does not run changes nothing. The data of START_TIMEOUT is the wait reason,
given here for every engine state: the conditions of STARTING and PREPARING not yet met, SHUTTER in PREPARING
once all are met, and the one reason of each other state. It is read from the state it speaks of (LOG 15),
and while a shutter still closing keeps the open command back, PREPARING waits for SHUTTER (LOG 7).
An expiry may come
whenever its timer runs (LOG 1), and FU takes the fault as a command of its own; it is raised behind those that
wait (LOG 3). In PREPARING the step of an earlier frame that times out is followed by the return to line 0, on the
expiry itself, before the fault's take, by the model's reading (LOG 31). -/
def Obligations.TimeoutsRaised : Prop :=
  (∀ s : State, s.Before [] →
    exec .startTimerExpiry s = .next (if s.es.startTimer = none then s else { s with
      es := { s.es with startTimer := none }
      fu := { s.fu with raised := s.fu.raised ++ [.startTimeout s.waitReason] } }) ∧
    exec .pauseTimerExpiry s = .next (if s.es.pauseTimer = none then s else { s with
      es := { s.es with pauseTimer := none }
      fu := { s.fu with raised := s.fu.raised ++
        [.pauseTimeout (s.pl.channels.map (fun c => c.window == .tripped))] } }) ∧
    (s.Before [.filterTimeout] → ∀ c, exec (.wheelTimerExpiry c) s = .next
      (match (s.es.wheels.get c).move with
      | none => s
      | some (target, _) => State.sends { s with
          es := { s.es with wheels := s.es.wheels.set c ⟨none, none⟩ }
          fu := { s.fu with raised := s.fu.raised ++ [.filterTimeout c target] } } [.command (.wheelStop c)])) ∧
    (∀ l n, s.es.stage = .moving l (some n) →
      ∀ t : State, t = { s with fu := { s.fu with raised := s.fu.raised ++ [.stageTimeout l] } } →
      (s.es.engine ≠ .preparing ∨ l = 0 →
        exec .stageTimerExpiry s = .next { t with es := { s.es with stage := .moving l none } }) ∧
      (s.es.engine = .preparing → l ≠ 0 → exec .stageTimerExpiry s = .next
        (State.sends { t with es := { s.es with stage := .moving 0 (some (Config.ms 1000)) } }
          [.command .stageReturn]))) ∧
    ((∀ l n, s.es.stage ≠ .moving l (some n)) → exec .stageTimerExpiry s = .next s)) ∧
  (∀ s : State, match s.es.engine with
    | .offline => s.waitReason = []
    | .starting => ∀ w, w ∈ s.waitReason ↔
      (w = .speed ∧ s.stu.speed ≠ .running) ∨
      (w = .settle ∧ ∃ c, (s.pl.channels.get c).laser ≠ .settled) ∨
      (w = .stage ∧ s.es.stage ≠ .settled 0) ∨ (w = .gate ∧ s.tc.gate ≠ .clamped)
    | .ready => s.waitReason =
      (if s.fs.queue = [] then [.empty]
      else if s.rl.records.length + (if s.rl.reservation = none then 0 else 1) < 64 then []
      else [.logFull])
    | .preparing => ∀ (e : ExposureRecord) (waits : Wait → Prop), s.es.exposure = some e →
      (∀ w, waits w ↔
        (w = .filter ∧ ∃ c, s.es.wheels.get c ≠
          ⟨some (s.pt.profiles[e.profile].channels.get c).range, none⟩) ∨
        (w = .film ∧ s.tc.gateUsed = true) ∨ (w = .stage ∧ s.es.stage ≠ .settled 0) ∨
        (w = .settle ∧ ∃ c, (s.pl.channels.get c).laser ≠ .settled) ∨
        (w = .trip ∧ ∃ c, (s.pl.channels.get c).window = .tripped)) →
      (s.tc.shutter = .opening ∨ (∀ w, ¬ waits w) → s.waitReason = [.shutter]) ∧
      (s.tc.shutter ≠ .opening → (∃ w, waits w) → ∀ w, w ∈ s.waitReason ↔ waits w)
    | .exposing => ((∃ l t, s.es.stage = .moving l t) → s.waitReason = [.stage]) ∧
      ((∀ l t, s.es.stage ≠ .moving l t) → s.waitReason = [])
    | .paused => s.waitReason = [.trip]
    | .finishing => s.waitReason = [.shutter]
    | .advancing => s.waitReason = [.film]
    | .aborting => s.waitReason = (if s.tc.shutter = .closed then [.print] else [.shutter])
    | .halted => s.waitReason = []
    | .stopping => s.waitReason = [.polygon]
    | .locked => s.waitReason = [])

/-- The tachometer's report and the stop timer's expiry take STOPPING to OFFLINE with the pending stop and
reset replies DONE, and change nothing in any other state. -/
def Obligations.OfflineEntered : Prop :=
  ∀ s t : State, s.Before [] →
    (s.es.engine ≠ .stopping → exec .polygonStopped s = .next s ∧
      exec .stopTimerExpiry s = .next s) ∧
    (s.es.engine = .stopping →
      t = (((State.sends { s with es := { s.es with engine := .offline, stopTimer := none } }
        [.notice (.engineState .stopping .offline none)]).ends .stop .done .none_ .empty).ends .reset
          .done .none_ .empty).flush →
      exec .polygonStopped s = .next t ∧
      (s.es.stopTimer ≠ none → exec .stopTimerExpiry s = .next t) ∧
      (s.es.stopTimer = none → exec .stopTimerExpiry s = .next s))

/-- A wheel, the stage homing and the stage moving report: the move ends at its target, and STARTING or
PREPARING reads its conditions; a report for no move changes nothing. The wheels are ready with each at
rest at the range of the frame's profile, and the lasers with every channel SETTLED, and every window CLEAR.
In PREPARING the open command waits for a CLOSED
shutter (LOG 7), and an entry to READY sends ENGINE_STATE before QUEUE_EMPTY (LOG 6). -/
def Obligations.PositionsReported : Prop :=
  ∀ s : State, s.Before [] →
    (∀ e, s.es.exposure = some e → (s.wheelsReady = true ↔ ∀ c, s.es.wheels.get c =
      ⟨some (s.pt.profiles[e.profile].channels.get c).range, none⟩)) ∧
    (s.allSettled = true ↔ ∀ c, (s.pl.channels.get c).laser = .settled) ∧
    (s.allClear = true ↔ ∀ c, (s.pl.channels.get c).window = .clear) ∧
    (∀ c, exec (.wheelInPosition c) s = .next
      (match (s.es.wheels.get c).move with
      | none => s
      | some (target, _) => State.meetsPreparing { s with es := { s.es with
          wheels := s.es.wheels.set c ⟨some target, none⟩ } })) ∧
    (s.es.stage ≠ .homing → s.Before [.startTimeout] → exec .stageHomeReport s = .next s) ∧
    (s.es.stage = .homing → s.Before [.startTimeout] → exec .stageHomeReport s = .next
      (State.meetsStart { s with es := { s.es with stage := .settled 0 } }).flush) ∧
    ((∀ l n, s.es.stage ≠ .moving l n) → exec .stageInPosition s = .next s) ∧
    (∀ l n, s.es.stage = .moving l n → exec .stageInPosition s = .next
      (if s.es.engine = .preparing ∧ l ≠ 0 then
        State.sends { s with es := { s.es with stage := .moving 0 (some (Config.ms 1000)) } }
          [.command .stageReturn]
      else State.meetsPreparing { s with es := { s.es with stage := .settled l } }))

/-- The stages of a gate operation: RELEASING to PULLING on the clamp open, perforations counted up to 255
in PULLING, to CLAMPING at the cycle end with four, and to SETTLING with film on the clamp closed; a
report in any other gate state changes nothing. -/
def Obligations.GateStages : Prop :=
  ∀ s : State, s.Before [] →
    exec .clampOpenConfirmation s = .next
      (if s.tc.gate = .releasing then
        State.sends { s with tc := { s.tc with gate := .pulling } } [.command .motorCycle]
      else s) ∧
    exec .perforationEdge s = .next
      (if s.tc.gate = .pulling then
        { s with tc := { s.tc with perforations := min 255 (s.tc.perforations + 1) } }
      else s) ∧
    (s.tc.gate ≠ .pulling → exec .cycleEnd s = .next s) ∧
    (s.tc.gate = .pulling → s.tc.perforations = 4 → exec .cycleEnd s = .next
      (State.sends { s with tc := { s.tc with gate := .clamping } } [.command .clampClose])) ∧
    (∀ film, s.tc.gate ≠ .clamping → exec (.clampClosedConfirmation film) s = .next s) ∧
    (s.tc.gate = .clamping → exec (.clampClosedConfirmation true) s = .next
      { s with tc := { s.tc with gate := .settling, settleTimer := some (Config.ms 40) } })

/-- A gate operation fails on its event, with its drives stopped, the BLANK record or the release of a blank
advance that ends with it, and its fault taken: COUNT at a cycle end
without four perforations, FILM_END without film, TIMEOUT at 400 ms. The shutter's timer raises SHUTTER
with its direction, taken on its event. A timer that does not run changes nothing. A fault
that waits may be taken before it on the event (R159), as FaultTaken says of the event's end.
These faults are taken on their event by the
model's reading (LOG 3), and that the data of COUNT names the gate state PULLING is its reading too
(LOG 28). That the LOG_NEARLY_FULL of a BLANK record goes before the FAULT notice is the model's choice (LOG 6). -/
def Obligations.GateAndShutterFail : Prop :=
  ∀ s : State, s.Before [] →
    (∀ (op : GateOp) (c : Instr) (outcome : GateOutcome) (f : FaultReport) (t : State), s.tc.op = some op →
      (c = .cycleEnd ∧ s.tc.gate = .pulling ∧ s.tc.perforations ≠ 4 ∧ outcome = .count ∧
          f = .transport .count .pulling s.tc.perforations op) ∨
        (c = .clampClosedConfirmation false ∧ s.tc.gate = .clamping ∧ outcome = .filmEnd ∧
          f = .filmEnd s.tc.perforations op) ∨
        (c = .operationTimerExpiry ∧ s.tc.opTimer ≠ none ∧ outcome = .timeout ∧
          f = .transport .timeout s.tc.gate s.tc.perforations op) →
      t = (State.sends { s with tc := s.tc.failing op outcome } [.command .transportStop]).logsBlank →
      exec c s =
        .next (State.concluded { t with fu := { s.fu with raised := s.fu.raised ++ [f] } }) ∧
      (s.fu.raised = [] → exec c s = .next (t.takeFault f).flush)) ∧
    (s.tc.opTimer = none → exec .operationTimerExpiry s = .next s) ∧
    (s.tc.shutterTimer = none → exec .shutterTimerExpiry s = .next s) ∧
    (s.tc.shutterTimer ≠ none → ∀ way t, (s.tc.shutter = .opening ∧ way = .opening) ∨
        (s.tc.shutter = .closing ∧ way = .closing) →
      t = { s with tc := { s.tc with shutterTimer := none } } →
      exec .shutterTimerExpiry s = .next (State.concluded { t with fu := { s.fu with
        raised := s.fu.raised ++ [.shutter way] } }) ∧
      (s.fu.raised = [] → exec .shutterTimerExpiry s = .next (t.takeFault (.shutter way)).flush))

/-- The gate's 40 ms end: a clamp is CLAMPED with footage and gate-used as they were; a pull-down is
CLAMPED with the footage one frame on and gate-used clear, and PREPARING reads its conditions, ADVANCING
ends, or its blank advance goes on to the next pull-down or ends with its BLANK record and its reply.
In PREPARING the open command waits for
a CLOSED shutter (LOG 7), and an entry to READY sends ENGINE_STATE before QUEUE_EMPTY, and LOG_NEARLY_FULL at the
append before both (LOG 6). -/
def Obligations.GateSettles : Prop :=
  ∀ s : State, s.Before [.startTimeout] →
    (s.tc.gate ≠ .settling ∨ s.tc.settleTimer = none → exec .gateSettleExpiry s = .next s) ∧
    (s.tc.gate = .settling → s.tc.settleTimer ≠ none →
      (s.tc.op = some .clamp → exec .gateSettleExpiry s = .next
        (State.meetsStart { s with tc := { s.tc with
          gate := .clamped, op := none, opTimer := none, settleTimer := none
          last := some ⟨.completed, .clamp, 0⟩ } }).flush) ∧
      (s.tc.op = some .pullDown → ∀ t : State,
        t = { s with tc := { s.tc with
          gate := .clamped, op := none, opTimer := none, settleTimer := none
          footage := s.tc.footage.advance
          gateUsed := false
          last := some ⟨.completed, .pullDown, 4⟩
          completedTotal := min 4294967295 (s.tc.completedTotal + 1) } } →
        (s.es.engine ≠ .advancing → exec .gateSettleExpiry s = .next t.meetsPreparing) ∧
        (s.es.engine = .advancing →
          (s.tc.blank = none → exec .gateSettleExpiry s = .next t.leavesAdvancing.flush) ∧
          (∀ b, s.tc.blank = some b →
            (b.completed + 1 < b.count → exec .gateSettleExpiry s = .next
              (State.sends { t with tc := { t.tc.pulling with
                blank := some { b with completed := b.completed + 1 } } } [.command .clampOpen])) ∧
            (b.count ≤ b.completed + 1 → exec .gateSettleExpiry s = .next
              ((((State.sends { t with
                rl := s.rl.append b.start (.blank (b.completed + 1))
                tc := { t.tc with blank := none } }
                (if 56 ≤ s.rl.records.length + 1 then
                  [.notice (.logNearlyFull (s.rl.records.length + 1) false)]
                else [])).ends .advance .done .none_
                  (.advanced (b.completed + 1) s.tc.footage.advance)).leavesAdvancing).flush))))))

/-- The shutter confirms open: PREPARING enters EXPOSING with the frame mark and FRAME_STARTED, and goes on to
PAUSED when a channel has tripped meanwhile under the response PAUSE and its POWER_TRIP has been taken (LOG 26). It confirms
closed: FINISHING's frame is logged EXPOSED, its slot FREE and its pull-down begun, and ABORTING prints the
spoil mark or ends. A confirmation out of place changes nothing. A mark is the label, or eight
letters X, with four digits of feet and two of frames.
The open command of PREPARING waits for a CLOSED shutter
(LOG 7), and a mark remembers its frame (LOG 8). That the LOG_NEARLY_FULL of FINISHING's append goes before
FRAME_DONE and ENGINE_STATE is the model's choice (LOG 6). -/
def Obligations.ShutterConfirms : Prop :=
  (∀ (l : Label) (f : Footage) (digits : List Byte),
    digits = [f.feet / 1000, f.feet / 100 % 10, f.feet / 10 % 10, f.feet % 10, f.frames / 10,
      f.frames % 10].map (fun d => BitVec.ofNat 8 (0x30 + d)) →
    frameMark l f = ⟨.frame, l.toList ++ digits, true⟩ ∧
    spoilMark f = ⟨.spoil, [0x58, 0x58, 0x58, 0x58, 0x58, 0x58, 0x58, 0x58] ++ digits, true⟩) ∧
  ∀ s : State, s.Before [] →
    (s.tc.shutter ≠ .opening → exec .shutterOpenConfirmation s = .next s) ∧
    (s.tc.shutter = .opening → ∀ t : State,
      t = { s with tc := { s.tc with
        shutter := .opened, shutterTimer := none, gateUsed := true } } →
      (s.es.engine ≠ .preparing → exec .shutterOpenConfirmation s = .next t) ∧
      (∀ e r, s.es.engine = .preparing → s.es.exposure = some e → s.slot e.slot = some r →
        ∀ u : State, u = State.sends { t with
            tc := t.tc.marking (frameMark r.label s.tc.footage)
            es := { s.es with engine := .exposing } }
            (s.tc.markCommand (frameMark r.label s.tc.footage) ++
              [.notice (.engineState .preparing .exposing none),
               .notice (.frameStarted e.slot r.key r.openSeq s.tc.footage)]) →
          exec .shutterOpenConfirmation s = .next
            (if s.allClear = false ∧ s.assigned .powerTrip = .pause ∧
                (∀ f ∈ s.fu.raised, f.kind ≠ .powerTrip) then u.pauses else u))) ∧
    (s.tc.shutter ≠ .closing → exec .shutterClosedConfirmation s = .next s) ∧
    (s.tc.shutter = .closing → ∀ t : State,
      t = { s with tc := { s.tc with shutter := .closed, shutterTimer := none } } →
      (s.es.engine ≠ .finishing → s.es.engine ≠ .aborting →
        exec .shutterClosedConfirmation s = .next t.meetsPreparing) ∧
      (∀ e r (q : Profile), s.es.engine = .finishing → s.es.exposure = some e →
        s.slot e.slot = some r →
        q = { s.pt.profiles[r.profile] with refs := s.pt.profiles[r.profile].refs - 1 } →
        exec .shutterClosedConfirmation s = .next
          (State.sends { t with
            fs := { s.fs with slots := s.fs.slots.set e.slot none }
            pt := ⟨s.pt.profiles.set r.profile q⟩
            du := { s.du with frameLatch := none, lineLatch := none, lineClips := Rgb.all ⟨0, 0⟩ }
            es := { s.es with engine := .advancing, exposure := none, lineInProgress := none }
            tc := t.tc.disowned.pulling
            rl := s.rl.append s.tc.footage (.exposed (s.frameEntry e r)) }
            ((if 56 ≤ s.rl.records.length + 1 then
                [.notice (.logNearlyFull (s.rl.records.length + 1) false)]
              else []) ++
              [.notice (.frameDone e.slot r.key e.exposed e.defects (nextNumber s.rl.lastSeq)),
               .notice (.engineState .finishing .advancing none)] ++ s.tc.pullCommand))) ∧
      (∀ e, s.es.engine = .aborting → s.es.exposure = some e →
        (e.marked = true → exec .shutterClosedConfirmation s = .next
          (State.sends { t with tc := t.tc.marking (spoilMark s.tc.footage) }
            (s.tc.markCommand (spoilMark s.tc.footage)))) ∧
        (e.marked = false → exec .shutterClosedConfirmation s = .next t.endAborting.flush)))

/-- The head reports a mark printed: it begins the pending print or becomes IDLE; the mark of a frame
still exposed is recorded printed, and the spoil mark ends ABORTING. With the head IDLE nothing
changes.
A mark remembers whether its frame still stands, and the pending print is one mark
(LOG 8). -/
def Obligations.MarkPrinted : Prop :=
  ∀ s : State, s.Before [] →
    (s.tc.head = .idle → exec .edgePrintDone s = .next s) ∧
    (∀ m left, s.tc.head = .printing m left → ∀ t : State,
      t = (match s.tc.pendingMark with
        | none => { s with tc := { s.tc with head := .idle } }
        | some k => State.sends { s with tc := { s.tc with
            head := .printing k (Config.ms 28), pendingMark := none } } [.command (.print k)]) →
      (m.live = false ∨ (m.kind = .spoil ∧ s.es.engine ≠ .aborting) →
        exec .edgePrintDone s = .next t) ∧
      (m.live = true → m.kind = .frame → exec .edgePrintDone s = .next { t with
        es := { s.es with exposure := s.es.exposure.map (fun e => { e with marked := true }) } }) ∧
      (m.live = true → m.kind = .spoil → s.es.engine = .aborting →
        exec .edgePrintDone s = .next t.endAborting.flush))

/-! ### The ends of frames and the faults -/

/-- How a frame or a blank advance in hand ends, each of which changes nothing where there is none: spoiled, returned to the queue head, or with its BLANK
record or its reservation released, unless its failed pull-down has done that already; and how ABORTING ends. An append takes the
next number, 1 after 4294967295, and ends the reservation, and LOG_NEARLY_FULL goes out at it (LOG 6). The
marks of a frame that has ended no longer belong to one (LOG 8). An entry to READY sends ENGINE_STATE before
QUEUE_EMPTY (LOG 6). -/
def Obligations.FrameEnds : Prop :=
  (∀ n : Nat, n < 4294967295 → nextNumber n = n + 1) ∧ nextNumber 4294967295 = 1 ∧
  (∀ (l : RollLog) (f : Footage) (b : LogBody), l.append f b =
    ⟨l.records ++ [⟨nextNumber l.lastSeq, f, b⟩], none, nextNumber l.lastSeq, l.lastBatch⟩) ∧
  (∀ (s : State) (l : List (Fin 8)), l.Nodup → (∀ i, i ∈ l ↔ s.stu.facets[i].usable = true) →
    s.usableFacets = l.length) ∧
  (∀ (s : State) (e : ExposureRecord) (r : SlotRecord) (t : State), s.es.exposure = some e →
    s.slot e.slot = some r →
    t = { s with
      es := { s.es with exposure := none, lineInProgress := none }
      du := { s.du with frameLatch := none, lineLatch := none, lineClips := Rgb.all ⟨0, 0⟩ }
      tc := s.tc.disowned } →
    s.frameEntry e r = ⟨r.key, e.slot, r.rule, r.profile, s.pt.profiles[r.profile].stock, r.label,
      e.exposed, e.defects, e.pauses, e.trims, e.clips⟩ ∧
    (∀ cause, s.spoilFrame cause = State.sends { t with
      fs := { s.fs with slots := s.fs.slots.set e.slot (some { r with phase := .held }) }
      rl := s.rl.append s.tc.footage (.spoiled (s.frameEntry e r) cause) }
      ((if 56 ≤ s.rl.records.length + 1 then
          [.notice (.logNearlyFull (s.rl.records.length + 1) false)]
        else []) ++
        [.notice (.frameSpoiled e.slot r.key r.openSeq cause e.exposed
          (nextNumber s.rl.lastSeq))])) ∧
    s.returnFrame = { t with
      fs := { s.fs with
        slots := s.fs.slots.set e.slot (some { r with phase := .queued })
        queue := e.slot :: s.fs.queue }
      rl := { s.rl with reservation := none } }) ∧
  (∀ s : State, s.es.exposure = none → (∀ cause, s.spoilFrame cause = s) ∧ s.returnFrame = s) ∧
  (∀ (s : State) (b : BlankAdvance), s.tc.blank = some b → s.endBlankEarly =
    if s.rl.reservation ≠ some .blank then { s with tc := { s.tc with blank := none } }
    else if b.completed = 0 then { s with
      tc := { s.tc with blank := none }, rl := { s.rl with reservation := none } }
    else State.sends { s with
      tc := { s.tc with blank := none }
      rl := s.rl.append b.start (.blank b.completed) }
      (if 56 ≤ s.rl.records.length + 1 then
        [.notice (.logNearlyFull (s.rl.records.length + 1) false)]
      else [])) ∧
  (∀ s : State, s.tc.blank = none → s.endBlankEarly = s) ∧
  (∀ (s t : State) (r : FaultRecord), s.fu.inHand = some r →
    t = s.spoilFrame (.fault r.report.kind) →
    (r.applied = .halt → s.endAborting = t.enterHalted r) ∧
    (r.applied = .abort → s.endAborting =
      if s.es.stopPending = true then t.entersStopping
      else if s.usableFacets < 4 then t.enterHalted r
      else t.entersReady))

/-- Entry to HALTED and entry to LOCKED for a fault: the mechanisms stopped, the frame or the blank
advance in hand ended, the flags clear, the pending replies FAILED with the fault's kind, and for LOCKED
the pair stored and sent.
A lock in PREPARING returns its frame to the queue head (LOG 10), and HALTED with a slot ACTIVE returns it
(LOG 21). The failed replies go in the order start, stop, advance, reset, each with the engine state of its
decision, and a LOG_NEARLY_FULL at its append, before FRAME_SPOILED and ENGINE_STATE (LOG 6); pulses and an image
portion under way are cut where they stand (LOG 17). -/
def Obligations.HaltedAndLocked : Prop :=
  ∀ (s t u v : State) (r : FaultRecord) (reason : Reason) (n : Nat),
    reason = .fault r.report.kind → n = (match s.tc.blank with
      | none => 0
      | some b => b.completed) →
    t = s.stopMechanisms.returnFrame.endBlankEarly →
    u = { s.stopMechanisms with es := { s.stopMechanisms.es with
      stopTimer := none, stopPending := false, deferredHalt := none } } →
    v = (if s.es.engine = .preparing then u.returnFrame
      else u.spoilFrame (.fault r.report.kind)).endBlankEarly →
    s.enterHalted r =
      (((State.sends { t with
        es := { t.es with engine := .halted, stopPending := false, deferredHalt := none }
        fu := { t.fu with inHand := some r } }
        (engineMoves s.es.engine .halted (some r.report.kind))).ends .start .failed reason
          .empty).ends .stop .failed reason .empty).ends .advance .failed reason
            (.advancedBefore n) ∧
    s.enterLocked r = State.sends
      { (((((State.sends { v with es := { v.es with engine := .locked } }
        (engineMoves s.es.engine .locked (some r.report.kind))).ends .start .failed reason
          .empty).ends .stop .failed reason .empty).ends .advance .failed reason
            (.advancedBefore n)).ends .reset .failed reason .empty) with
        fu := { v.fu with lockPair := some ⟨s.fu.inHand, r⟩ } }
      [.notice (.locked ⟨s.fu.inHand, r⟩)]

/-- The Fault Unit takes a fault: the last-fault record with its ten fields, the kind's count, the FAULT
notice except in LOCKED, and the transition of the response applied; and the channel and the facet of the record.
FAULT_TAKE takes one of the faults raised: where several are, any may be the next, but that an OPERATOR comes before
any other, a TRIM_LIMIT after the POWER_TRIP of its sample and a SOS_LOSS after the FACET_SHORTAGE of its expiry, and
which one is the free value Config.faultOrder. The take of a sample's last fault is followed by the image portion of
a line still in progress. The end of an event takes faults in the same way while one is left that is due on it: the
replies staged on the event go out after the notices of a fault due on it, and before a fault that waits is taken.
A command takes none before it but those that a rule puts before it:
a sample's before a later scan event and the next sample, START_TIMEOUT before a report that may
meet the last condition of STARTING, PAUSE_TIMEOUT before a sample, and FILTER_TIMEOUT before another wheel's timer.
A Set Fault Response takes none, and a fault that waits meets the response it assigns (R158).
Which faults are due on their event, and which are taken before a command, is the model's reading (LOG 3). -/
def Obligations.FaultTaken : Prop :=
  (∀ (s t : State) (f : FaultReport) (r : FaultRecord),
    r = ⟨f, s.es.engine, responseApplied s.es.engine (s.assigned f.kind) f,
      s.es.exposure.map (·.slot), s.es.exposure.map (·.line), f.facet.or s.es.lineInProgress,
      s.tc.footage⟩ →
    t = State.sends { s with fu := { s.fu with
      lastFault := some r
      counts := s.fu.counts.set f.kind.index (min 65535 (s.fu.counts[f.kind.index] + 1)) } }
      (if s.es.engine = .locked then [] else [.notice (.fault r)]) →
    s.takeFault f = match r.applied with
      | .notice => t
      | .hold => t
      | .record => t
      | .pause => t.pauses
      | .abort => t.aborts r
      | .halt =>
        if s.es.engine = .exposing ∨ s.es.engine = .paused then t.aborts r else t.enterHalted r
      | .defer => { t with es := { t.es with
          deferredHalt := some (s.es.deferredHalt.getD r) } }
      | .lock => t.enterLocked r) ∧
  (∀ (f : FaultReport) (c : Channel), f.channel = some c ↔ match f with
    | .powerTrip set _ _ => set.get c = true ∧ ∀ d, channelNumber d < channelNumber c → set.get d = false
    | .trimLimit set _ _ => set.get c = true ∧ ∀ d, channelNumber d < channelNumber c → set.get d = false
    | .pauseTimeout set => set.get c = true ∧ ∀ d, channelNumber d < channelNumber c → set.get d = false
    | .filterTimeout d _ => c = d
    | _ => False) ∧
  (∀ (f : FaultReport) (n : Fin 8), f.facet = some n ↔ ∃ usable, f = .facetShortage n usable) ∧
  (∀ (s t : State) (ready : List FaultReport) (n : Nat) (f : FaultReport),
    ready = s.fu.raised.filter (fun f =>
      (f.kind = .operator ∨ ∀ g ∈ s.fu.raised, g.kind ≠ .operator) ∧
      (f.kind = .trimLimit → ∀ g ∈ s.fu.raised, g.kind ≠ .powerTrip) ∧
      (f.kind = .sosLoss → ∀ g ∈ s.fu.raised, g.kind ≠ .facetShortage)) →
    n = (if ready.length ≤ 1 then 0 else Config.faultOrder s.fu.choices % ready.length) →
    ready[n]? = some f →
    t = { s with fu := { s.fu with
      raised := s.fu.raised.erase f
      choices := if ready.length ≤ 1 then s.fu.choices else s.fu.choices + 1 } } →
    (∀ u v : State, v = (if f.kind ∈ [FaultKind.powerTrip, .trimLimit] then (u.takeFault f).drivesImage
        else u.takeFault f).flush →
      (u = t → exec .faultTake s = .next v) ∧
      (u = (if f.kind ∈ [FaultKind.facetShortage, .operator, .shutter, .transport, .filmEnd] then t
          else t.flush) →
        (∃ g ∈ s.fu.raised, g.kind ∈ [FaultKind.facetShortage, .operator, .shutter, .transport, .filmEnd]) →
        s.concluded = v.concluded))) ∧
  (∀ s : State, (s.fu.raised = [] → exec .faultTake s = .next s) ∧
    ((∀ g ∈ s.fu.raised, g.kind ∉ [FaultKind.facetShortage, .operator, .shutter, .transport, .filmEnd]) →
      s.concluded = s.flush) ∧
    s.flush = { s with out := s.out ++ s.staged.map .reply, staged := [] }) ∧
  (∀ (s t : State) (first : List FaultKind), exec .faultTake s = .next t →
    (∃ g ∈ s.fu.raised, g.kind ∈ first) →
    (first = [.powerTrip, .trimLimit] →
      (∀ n, exec (.eos n) s = exec (.eos n) t) ∧ exec .sosWatchExpiry s = exec .sosWatchExpiry t) ∧
    (first = [.startTimeout] →
      (∀ c, exec (.laserSettleExpiry c) s = exec (.laserSettleExpiry c) t) ∧
      exec .stageHomeReport s = exec .stageHomeReport t ∧
      exec .gateSettleExpiry s = exec .gateSettleExpiry t) ∧
    (first = [.powerTrip, .trimLimit, .startTimeout] → ∀ n, exec (.sos n) s = exec (.sos n) t) ∧
    (first = [.powerTrip, .trimLimit, .pauseTimeout] →
      ∀ x, exec (.sampleCompletion x) s = exec (.sampleCompletion x) t) ∧
    (first = [.filterTimeout] →
      ∀ c, exec (.wheelTimerExpiry c) s = exec (.wheelTimerExpiry c) t))

/-- The response applied, by the engine state at the take and the response assigned; a close failure of
the shutter locks in every state but LOCKED, and a late HALT is applied by kind. -/
def Obligations.ResponseApplied : Prop :=
  ∀ (engine : Engine) (assigned : Response) (f : FaultReport) (x : Applied),
    x = responseApplied engine assigned f →
    (engine = .locked → x = .record) ∧
    (engine ≠ .locked → f = .shutter .closing → x = .lock) ∧
    (f ≠ .shutter .closing →
      (engine ∈ [Engine.offline, .stopping, .halted] → x = .notice) ∧
      (engine ≠ .locked → assigned = .warn → x = .notice) ∧
      (engine ∈ [Engine.starting, .ready] → assigned = .pause → x = .notice) ∧
      (engine = .preparing → assigned = .pause → x = .hold) ∧
      (engine = .exposing → assigned = .pause → x = .pause) ∧
      (engine ∈ [Engine.paused, .finishing, .advancing, .aborting] → assigned = .pause →
        x = .notice) ∧
      (engine ∈ [Engine.starting, .ready, .preparing] → assigned = .abort ∨ assigned = .halt →
        x = .halt) ∧
      (engine = .exposing ∨ engine = .paused → (assigned = .abort → x = .abort) ∧
        (assigned = .halt → x = .halt)) ∧
      (engine = .aborting → assigned = .abort ∨ assigned = .halt → x = .lock) ∧
      (engine = .finishing ∨ engine = .advancing → assigned = .abort ∨ assigned = .halt →
        (f.kind ∈ [FaultKind.transport, .filmEnd] → x = .halt) ∧
        (f.kind ∈ [FaultKind.sosLoss, .facetShortage, .stageTimeout, .interlock] → x = .defer) ∧
        (f.kind ∈ [FaultKind.powerTrip, .pauseTimeout, .trimLimit, .syncSlip, .filterTimeout] →
          x = .notice)))

/-! ### Invariants -/

/-- R95: every step from a state that keeps the lasers dark where they must be keeps them so. -/
def Obligations.LasersDarkKept : Prop :=
  ∀ s t : State, LasersDark s → step s = .next t → LasersDark t

/-- The frame in hand: every step from a state in which the slots, the queue, the exposure record, the
latches, the blank advance and the reservation agree leaves them in agreement, given that each kind's response is
an allowed one (the invariant SettingsKept). -/
def Obligations.InHandKept : Prop :=
  ∀ s t : State, InHand s → ResponsesAllowed s → step s = .next t → InHand t

/-- Every step keeps the reference counts equal to the slots that name each profile, and, with the frame in
hand in agreement, the keys distinct, the presence counts true, every frame within 4096 × 3200 and the scan,
and the current line within the frame. -/
def Obligations.SlotsAndProfilesKept : Prop :=
  ∀ s t : State, step s = .next t →
    (ProfilesHeld s → ProfilesHeld t) ∧ (InHand s → SlotsSound s → SlotsSound t)

/-- Every step keeps the log's numbering, and the form of the image memory.
The image form is the model's (LOG 19). -/
def Obligations.LogAndImageKept : Prop :=
  ∀ s t : State, step s = .next t →
    (LogNumbered s → LogNumbered t) ∧ (ImageCanonical s → ImageCanonical t)

/-- Every step keeps at most four outstanding requests with distinct tags, and the
held notices no higher than the mask. -/
def Obligations.LinkKept : Prop :=
  ∀ s t : State, step s = .next t →
    (TagsDistinct s → TagsDistinct t) ∧ (NoticesHeldLow s → NoticesHeldLow t)

/-- Every step keeps each kind's response an allowed one, and each power trim within −31 to
+31. -/
def Obligations.SettingsKept : Prop :=
  ∀ s t : State, step s = .next t →
    (ResponsesAllowed s → ResponsesAllowed t) ∧ (TrimsInRange s → TrimsInRange t)
end

