-- ==== Sys2Proof/Laws/State.lean ====
section
/-! SUPPORT. One lemma for each field that an operation of the machine leaves alone, so that no proof
unfolds a record update. -/

namespace Sys2Proof.Machine

@[simp] theorem State.emit_fs (s : State) (o : Output) :
    (s.emit o).fs = s.fs := rfl
@[simp] theorem State.emit_admission (s : State) (o : Output) :
    (s.emit o).admission = s.admission := rfl
@[simp] theorem State.emit_pt (s : State) (o : Output) :
    (s.emit o).pt = s.pt := rfl
@[simp] theorem State.emit_du (s : State) (o : Output) :
    (s.emit o).du = s.du := rfl
@[simp] theorem State.emit_stu (s : State) (o : Output) :
    (s.emit o).stu = s.stu := rfl
@[simp] theorem State.emit_pl (s : State) (o : Output) :
    (s.emit o).pl = s.pl := rfl
@[simp] theorem State.emit_es (s : State) (o : Output) :
    (s.emit o).es = s.es := rfl
@[simp] theorem State.emit_tc (s : State) (o : Output) :
    (s.emit o).tc = s.tc := rfl
@[simp] theorem State.emit_fu (s : State) (o : Output) :
    (s.emit o).fu = s.fu := rfl
@[simp] theorem State.emit_rl (s : State) (o : Output) :
    (s.emit o).rl = s.rl := rfl
@[simp] theorem State.emit_nu (s : State) (o : Output) :
    (s.emit o).nu = s.nu := rfl
@[simp] theorem State.emit_lp (s : State) (o : Output) :
    (s.emit o).lp = s.lp := rfl
@[simp] theorem State.emit_staged (s : State) (o : Output) :
    (s.emit o).staged = s.staged := rfl
@[simp] theorem State.emit_pending (s : State) (o : Output) :
    (s.emit o).pending = s.pending := rfl
@[simp] theorem State.command_fs (s : State) (c : MechanismCommand) :
    (s.command c).fs = s.fs := rfl
@[simp] theorem State.command_admission (s : State) (c : MechanismCommand) :
    (s.command c).admission = s.admission := rfl
@[simp] theorem State.command_pt (s : State) (c : MechanismCommand) :
    (s.command c).pt = s.pt := rfl
@[simp] theorem State.command_du (s : State) (c : MechanismCommand) :
    (s.command c).du = s.du := rfl
@[simp] theorem State.command_stu (s : State) (c : MechanismCommand) :
    (s.command c).stu = s.stu := rfl
@[simp] theorem State.command_pl (s : State) (c : MechanismCommand) :
    (s.command c).pl = s.pl := rfl
@[simp] theorem State.command_es (s : State) (c : MechanismCommand) :
    (s.command c).es = s.es := rfl
@[simp] theorem State.command_tc (s : State) (c : MechanismCommand) :
    (s.command c).tc = s.tc := rfl
@[simp] theorem State.command_fu (s : State) (c : MechanismCommand) :
    (s.command c).fu = s.fu := rfl
@[simp] theorem State.command_rl (s : State) (c : MechanismCommand) :
    (s.command c).rl = s.rl := rfl
@[simp] theorem State.command_nu (s : State) (c : MechanismCommand) :
    (s.command c).nu = s.nu := rfl
@[simp] theorem State.command_lp (s : State) (c : MechanismCommand) :
    (s.command c).lp = s.lp := rfl
@[simp] theorem State.command_staged (s : State) (c : MechanismCommand) :
    (s.command c).staged = s.staged := rfl
@[simp] theorem State.command_pending (s : State) (c : MechanismCommand) :
    (s.command c).pending = s.pending := rfl
@[simp] theorem State.sendFlow_fs (s : State) (f : Flow) :
    (s.sendFlow f).fs = s.fs := rfl
@[simp] theorem State.sendFlow_admission (s : State) (f : Flow) :
    (s.sendFlow f).admission = s.admission := rfl
@[simp] theorem State.sendFlow_pt (s : State) (f : Flow) :
    (s.sendFlow f).pt = s.pt := rfl
@[simp] theorem State.sendFlow_du (s : State) (f : Flow) :
    (s.sendFlow f).du = s.du := rfl
@[simp] theorem State.sendFlow_stu (s : State) (f : Flow) :
    (s.sendFlow f).stu = s.stu := rfl
@[simp] theorem State.sendFlow_pl (s : State) (f : Flow) :
    (s.sendFlow f).pl = s.pl := rfl
@[simp] theorem State.sendFlow_es (s : State) (f : Flow) :
    (s.sendFlow f).es = s.es := rfl
@[simp] theorem State.sendFlow_tc (s : State) (f : Flow) :
    (s.sendFlow f).tc = s.tc := rfl
@[simp] theorem State.sendFlow_fu (s : State) (f : Flow) :
    (s.sendFlow f).fu = s.fu := rfl
@[simp] theorem State.sendFlow_rl (s : State) (f : Flow) :
    (s.sendFlow f).rl = s.rl := rfl
@[simp] theorem State.sendFlow_nu (s : State) (f : Flow) :
    (s.sendFlow f).nu = s.nu := rfl
@[simp] theorem State.sendFlow_staged (s : State) (f : Flow) :
    (s.sendFlow f).staged = s.staged := rfl
@[simp] theorem State.sendFlow_pending (s : State) (f : Flow) :
    (s.sendFlow f).pending = s.pending := rfl
@[simp] theorem State.flush_fs (s : State) :
    (s.flush).fs = s.fs := rfl
@[simp] theorem State.flush_admission (s : State) :
    (s.flush).admission = s.admission := rfl
@[simp] theorem State.flush_pt (s : State) :
    (s.flush).pt = s.pt := rfl
@[simp] theorem State.flush_du (s : State) :
    (s.flush).du = s.du := rfl
@[simp] theorem State.flush_stu (s : State) :
    (s.flush).stu = s.stu := rfl
@[simp] theorem State.flush_pl (s : State) :
    (s.flush).pl = s.pl := rfl
@[simp] theorem State.flush_es (s : State) :
    (s.flush).es = s.es := rfl
@[simp] theorem State.flush_tc (s : State) :
    (s.flush).tc = s.tc := rfl
@[simp] theorem State.flush_fu (s : State) :
    (s.flush).fu = s.fu := rfl
@[simp] theorem State.flush_rl (s : State) :
    (s.flush).rl = s.rl := rfl
@[simp] theorem State.flush_nu (s : State) :
    (s.flush).nu = s.nu := rfl
@[simp] theorem State.flush_lp (s : State) :
    (s.flush).lp = s.lp := rfl
@[simp] theorem State.flush_pending (s : State) :
    (s.flush).pending = s.pending := rfl
@[simp] theorem State.elapse_fs (s : State) (n : Nat) :
    (s.elapse n).fs = s.fs := rfl
@[simp] theorem State.elapse_admission (s : State) (n : Nat) :
    (s.elapse n).admission = s.admission := rfl
@[simp] theorem State.elapse_pt (s : State) (n : Nat) :
    (s.elapse n).pt = s.pt := rfl
@[simp] theorem State.elapse_du (s : State) (n : Nat) :
    (s.elapse n).du = s.du := rfl
@[simp] theorem State.elapse_fu (s : State) (n : Nat) :
    (s.elapse n).fu = s.fu := rfl
@[simp] theorem State.elapse_rl (s : State) (n : Nat) :
    (s.elapse n).rl = s.rl := rfl
@[simp] theorem State.elapse_nu (s : State) (n : Nat) :
    (s.elapse n).nu = s.nu := rfl
@[simp] theorem State.elapse_lp (s : State) (n : Nat) :
    (s.elapse n).lp = s.lp := rfl
@[simp] theorem State.elapse_staged (s : State) (n : Nat) :
    (s.elapse n).staged = s.staged := rfl
@[simp] theorem State.elapse_out (s : State) (n : Nat) :
    (s.elapse n).out = s.out := rfl
@[simp] theorem State.elapse_pending (s : State) (n : Nat) :
    (s.elapse n).pending = s.pending := rfl
@[simp] theorem State.setSlot_admission (s : State) (i : Fin 4) (r : Option SlotRecord) :
    (s.setSlot i r).admission = s.admission := rfl
@[simp] theorem State.setSlot_pt (s : State) (i : Fin 4) (r : Option SlotRecord) :
    (s.setSlot i r).pt = s.pt := rfl
@[simp] theorem State.setSlot_du (s : State) (i : Fin 4) (r : Option SlotRecord) :
    (s.setSlot i r).du = s.du := rfl
@[simp] theorem State.setSlot_stu (s : State) (i : Fin 4) (r : Option SlotRecord) :
    (s.setSlot i r).stu = s.stu := rfl
@[simp] theorem State.setSlot_pl (s : State) (i : Fin 4) (r : Option SlotRecord) :
    (s.setSlot i r).pl = s.pl := rfl
@[simp] theorem State.setSlot_es (s : State) (i : Fin 4) (r : Option SlotRecord) :
    (s.setSlot i r).es = s.es := rfl
@[simp] theorem State.setSlot_tc (s : State) (i : Fin 4) (r : Option SlotRecord) :
    (s.setSlot i r).tc = s.tc := rfl
@[simp] theorem State.setSlot_fu (s : State) (i : Fin 4) (r : Option SlotRecord) :
    (s.setSlot i r).fu = s.fu := rfl
@[simp] theorem State.setSlot_rl (s : State) (i : Fin 4) (r : Option SlotRecord) :
    (s.setSlot i r).rl = s.rl := rfl
@[simp] theorem State.setSlot_nu (s : State) (i : Fin 4) (r : Option SlotRecord) :
    (s.setSlot i r).nu = s.nu := rfl
@[simp] theorem State.setSlot_lp (s : State) (i : Fin 4) (r : Option SlotRecord) :
    (s.setSlot i r).lp = s.lp := rfl
@[simp] theorem State.setSlot_staged (s : State) (i : Fin 4) (r : Option SlotRecord) :
    (s.setSlot i r).staged = s.staged := rfl
@[simp] theorem State.setSlot_out (s : State) (i : Fin 4) (r : Option SlotRecord) :
    (s.setSlot i r).out = s.out := rfl
@[simp] theorem State.setSlot_pending (s : State) (i : Fin 4) (r : Option SlotRecord) :
    (s.setSlot i r).pending = s.pending := rfl
@[simp] theorem State.setRefs_fs (s : State) (p : Fin 8) (f : Nat → Nat) :
    (s.setRefs p f).fs = s.fs := rfl
@[simp] theorem State.setRefs_admission (s : State) (p : Fin 8) (f : Nat → Nat) :
    (s.setRefs p f).admission = s.admission := rfl
@[simp] theorem State.setRefs_du (s : State) (p : Fin 8) (f : Nat → Nat) :
    (s.setRefs p f).du = s.du := rfl
@[simp] theorem State.setRefs_stu (s : State) (p : Fin 8) (f : Nat → Nat) :
    (s.setRefs p f).stu = s.stu := rfl
@[simp] theorem State.setRefs_pl (s : State) (p : Fin 8) (f : Nat → Nat) :
    (s.setRefs p f).pl = s.pl := rfl
@[simp] theorem State.setRefs_es (s : State) (p : Fin 8) (f : Nat → Nat) :
    (s.setRefs p f).es = s.es := rfl
@[simp] theorem State.setRefs_tc (s : State) (p : Fin 8) (f : Nat → Nat) :
    (s.setRefs p f).tc = s.tc := rfl
@[simp] theorem State.setRefs_fu (s : State) (p : Fin 8) (f : Nat → Nat) :
    (s.setRefs p f).fu = s.fu := rfl
@[simp] theorem State.setRefs_rl (s : State) (p : Fin 8) (f : Nat → Nat) :
    (s.setRefs p f).rl = s.rl := rfl
@[simp] theorem State.setRefs_nu (s : State) (p : Fin 8) (f : Nat → Nat) :
    (s.setRefs p f).nu = s.nu := rfl
@[simp] theorem State.setRefs_lp (s : State) (p : Fin 8) (f : Nat → Nat) :
    (s.setRefs p f).lp = s.lp := rfl
@[simp] theorem State.setRefs_staged (s : State) (p : Fin 8) (f : Nat → Nat) :
    (s.setRefs p f).staged = s.staged := rfl
@[simp] theorem State.setRefs_out (s : State) (p : Fin 8) (f : Nat → Nat) :
    (s.setRefs p f).out = s.out := rfl
@[simp] theorem State.setRefs_pending (s : State) (p : Fin 8) (f : Nat → Nat) :
    (s.setRefs p f).pending = s.pending := rfl
@[simp] theorem State.setQueue_admission (s : State) (q : List (Fin 4)) :
    (s.setQueue q).admission = s.admission := rfl
@[simp] theorem State.setQueue_pt (s : State) (q : List (Fin 4)) :
    (s.setQueue q).pt = s.pt := rfl
@[simp] theorem State.setQueue_du (s : State) (q : List (Fin 4)) :
    (s.setQueue q).du = s.du := rfl
@[simp] theorem State.setQueue_stu (s : State) (q : List (Fin 4)) :
    (s.setQueue q).stu = s.stu := rfl
@[simp] theorem State.setQueue_pl (s : State) (q : List (Fin 4)) :
    (s.setQueue q).pl = s.pl := rfl
@[simp] theorem State.setQueue_es (s : State) (q : List (Fin 4)) :
    (s.setQueue q).es = s.es := rfl
@[simp] theorem State.setQueue_tc (s : State) (q : List (Fin 4)) :
    (s.setQueue q).tc = s.tc := rfl
@[simp] theorem State.setQueue_fu (s : State) (q : List (Fin 4)) :
    (s.setQueue q).fu = s.fu := rfl
@[simp] theorem State.setQueue_rl (s : State) (q : List (Fin 4)) :
    (s.setQueue q).rl = s.rl := rfl
@[simp] theorem State.setQueue_nu (s : State) (q : List (Fin 4)) :
    (s.setQueue q).nu = s.nu := rfl
@[simp] theorem State.setQueue_lp (s : State) (q : List (Fin 4)) :
    (s.setQueue q).lp = s.lp := rfl
@[simp] theorem State.setQueue_staged (s : State) (q : List (Fin 4)) :
    (s.setQueue q).staged = s.staged := rfl
@[simp] theorem State.setQueue_out (s : State) (q : List (Fin 4)) :
    (s.setQueue q).out = s.out := rfl
@[simp] theorem State.setQueue_pending (s : State) (q : List (Fin 4)) :
    (s.setQueue q).pending = s.pending := rfl
@[simp] theorem State.reserve_fs (s : State) (r : Reservation) :
    (s.reserve r).fs = s.fs := rfl
@[simp] theorem State.reserve_admission (s : State) (r : Reservation) :
    (s.reserve r).admission = s.admission := rfl
@[simp] theorem State.reserve_pt (s : State) (r : Reservation) :
    (s.reserve r).pt = s.pt := rfl
@[simp] theorem State.reserve_du (s : State) (r : Reservation) :
    (s.reserve r).du = s.du := rfl
@[simp] theorem State.reserve_stu (s : State) (r : Reservation) :
    (s.reserve r).stu = s.stu := rfl
@[simp] theorem State.reserve_pl (s : State) (r : Reservation) :
    (s.reserve r).pl = s.pl := rfl
@[simp] theorem State.reserve_es (s : State) (r : Reservation) :
    (s.reserve r).es = s.es := rfl
@[simp] theorem State.reserve_tc (s : State) (r : Reservation) :
    (s.reserve r).tc = s.tc := rfl
@[simp] theorem State.reserve_fu (s : State) (r : Reservation) :
    (s.reserve r).fu = s.fu := rfl
@[simp] theorem State.reserve_nu (s : State) (r : Reservation) :
    (s.reserve r).nu = s.nu := rfl
@[simp] theorem State.reserve_lp (s : State) (r : Reservation) :
    (s.reserve r).lp = s.lp := rfl
@[simp] theorem State.reserve_staged (s : State) (r : Reservation) :
    (s.reserve r).staged = s.staged := rfl
@[simp] theorem State.reserve_out (s : State) (r : Reservation) :
    (s.reserve r).out = s.out := rfl
@[simp] theorem State.reserve_pending (s : State) (r : Reservation) :
    (s.reserve r).pending = s.pending := rfl
@[simp] theorem State.release_fs (s : State) :
    (s.release).fs = s.fs := rfl
@[simp] theorem State.release_admission (s : State) :
    (s.release).admission = s.admission := rfl
@[simp] theorem State.release_pt (s : State) :
    (s.release).pt = s.pt := rfl
@[simp] theorem State.release_du (s : State) :
    (s.release).du = s.du := rfl
@[simp] theorem State.release_stu (s : State) :
    (s.release).stu = s.stu := rfl
@[simp] theorem State.release_pl (s : State) :
    (s.release).pl = s.pl := rfl
@[simp] theorem State.release_es (s : State) :
    (s.release).es = s.es := rfl
@[simp] theorem State.release_tc (s : State) :
    (s.release).tc = s.tc := rfl
@[simp] theorem State.release_fu (s : State) :
    (s.release).fu = s.fu := rfl
@[simp] theorem State.release_nu (s : State) :
    (s.release).nu = s.nu := rfl
@[simp] theorem State.release_lp (s : State) :
    (s.release).lp = s.lp := rfl
@[simp] theorem State.release_staged (s : State) :
    (s.release).staged = s.staged := rfl
@[simp] theorem State.release_out (s : State) :
    (s.release).out = s.out := rfl
@[simp] theorem State.release_pending (s : State) :
    (s.release).pending = s.pending := rfl
@[simp] theorem State.raise_fs (s : State) (f : FaultReport) :
    (s.raise f).fs = s.fs := rfl
@[simp] theorem State.raise_admission (s : State) (f : FaultReport) :
    (s.raise f).admission = s.admission := rfl
@[simp] theorem State.raise_pt (s : State) (f : FaultReport) :
    (s.raise f).pt = s.pt := rfl
@[simp] theorem State.raise_du (s : State) (f : FaultReport) :
    (s.raise f).du = s.du := rfl
@[simp] theorem State.raise_stu (s : State) (f : FaultReport) :
    (s.raise f).stu = s.stu := rfl
@[simp] theorem State.raise_pl (s : State) (f : FaultReport) :
    (s.raise f).pl = s.pl := rfl
@[simp] theorem State.raise_es (s : State) (f : FaultReport) :
    (s.raise f).es = s.es := rfl
@[simp] theorem State.raise_tc (s : State) (f : FaultReport) :
    (s.raise f).tc = s.tc := rfl
@[simp] theorem State.raise_rl (s : State) (f : FaultReport) :
    (s.raise f).rl = s.rl := rfl
@[simp] theorem State.raise_nu (s : State) (f : FaultReport) :
    (s.raise f).nu = s.nu := rfl
@[simp] theorem State.raise_lp (s : State) (f : FaultReport) :
    (s.raise f).lp = s.lp := rfl
@[simp] theorem State.raise_staged (s : State) (f : FaultReport) :
    (s.raise f).staged = s.staged := rfl
@[simp] theorem State.raise_out (s : State) (f : FaultReport) :
    (s.raise f).out = s.out := rfl
@[simp] theorem State.raise_pending (s : State) (f : FaultReport) :
    (s.raise f).pending = s.pending := rfl
@[simp] theorem State.setRaised_fs (s : State) (l : List FaultReport) :
    (s.setRaised l).fs = s.fs := rfl
@[simp] theorem State.setRaised_admission (s : State) (l : List FaultReport) :
    (s.setRaised l).admission = s.admission := rfl
@[simp] theorem State.setRaised_pt (s : State) (l : List FaultReport) :
    (s.setRaised l).pt = s.pt := rfl
@[simp] theorem State.setRaised_du (s : State) (l : List FaultReport) :
    (s.setRaised l).du = s.du := rfl
@[simp] theorem State.setRaised_stu (s : State) (l : List FaultReport) :
    (s.setRaised l).stu = s.stu := rfl
@[simp] theorem State.setRaised_pl (s : State) (l : List FaultReport) :
    (s.setRaised l).pl = s.pl := rfl
@[simp] theorem State.setRaised_es (s : State) (l : List FaultReport) :
    (s.setRaised l).es = s.es := rfl
@[simp] theorem State.setRaised_tc (s : State) (l : List FaultReport) :
    (s.setRaised l).tc = s.tc := rfl
@[simp] theorem State.setRaised_rl (s : State) (l : List FaultReport) :
    (s.setRaised l).rl = s.rl := rfl
@[simp] theorem State.setRaised_nu (s : State) (l : List FaultReport) :
    (s.setRaised l).nu = s.nu := rfl
@[simp] theorem State.setRaised_lp (s : State) (l : List FaultReport) :
    (s.setRaised l).lp = s.lp := rfl
@[simp] theorem State.setRaised_staged (s : State) (l : List FaultReport) :
    (s.setRaised l).staged = s.staged := rfl
@[simp] theorem State.setRaised_out (s : State) (l : List FaultReport) :
    (s.setRaised l).out = s.out := rfl
@[simp] theorem State.setRaised_pending (s : State) (l : List FaultReport) :
    (s.setRaised l).pending = s.pending := rfl
@[simp] theorem State.setRaised_fu (s : State) (l : List FaultReport) :
    (s.setRaised l).fu = { s.fu with raised := l } := rfl
@[simp] theorem State.setChoices_fs (s : State) (n : Nat) :
    (s.setChoices n).fs = s.fs := rfl
@[simp] theorem State.setChoices_admission (s : State) (n : Nat) :
    (s.setChoices n).admission = s.admission := rfl
@[simp] theorem State.setChoices_pt (s : State) (n : Nat) :
    (s.setChoices n).pt = s.pt := rfl
@[simp] theorem State.setChoices_du (s : State) (n : Nat) :
    (s.setChoices n).du = s.du := rfl
@[simp] theorem State.setChoices_stu (s : State) (n : Nat) :
    (s.setChoices n).stu = s.stu := rfl
@[simp] theorem State.setChoices_pl (s : State) (n : Nat) :
    (s.setChoices n).pl = s.pl := rfl
@[simp] theorem State.setChoices_es (s : State) (n : Nat) :
    (s.setChoices n).es = s.es := rfl
@[simp] theorem State.setChoices_tc (s : State) (n : Nat) :
    (s.setChoices n).tc = s.tc := rfl
@[simp] theorem State.setChoices_rl (s : State) (n : Nat) :
    (s.setChoices n).rl = s.rl := rfl
@[simp] theorem State.setChoices_nu (s : State) (n : Nat) :
    (s.setChoices n).nu = s.nu := rfl
@[simp] theorem State.setChoices_lp (s : State) (n : Nat) :
    (s.setChoices n).lp = s.lp := rfl
@[simp] theorem State.setChoices_staged (s : State) (n : Nat) :
    (s.setChoices n).staged = s.staged := rfl
@[simp] theorem State.setChoices_out (s : State) (n : Nat) :
    (s.setChoices n).out = s.out := rfl
@[simp] theorem State.setChoices_pending (s : State) (n : Nat) :
    (s.setChoices n).pending = s.pending := rfl
@[simp] theorem State.setChoices_fu (s : State) (n : Nat) :
    (s.setChoices n).fu = { s.fu with choices := n } := rfl
@[simp] theorem State.setTc_fs (s : State) (t : Transport) :
    (s.setTc t).fs = s.fs := rfl
@[simp] theorem State.setTc_admission (s : State) (t : Transport) :
    (s.setTc t).admission = s.admission := rfl
@[simp] theorem State.setTc_pt (s : State) (t : Transport) :
    (s.setTc t).pt = s.pt := rfl
@[simp] theorem State.setTc_du (s : State) (t : Transport) :
    (s.setTc t).du = s.du := rfl
@[simp] theorem State.setTc_stu (s : State) (t : Transport) :
    (s.setTc t).stu = s.stu := rfl
@[simp] theorem State.setTc_pl (s : State) (t : Transport) :
    (s.setTc t).pl = s.pl := rfl
@[simp] theorem State.setTc_es (s : State) (t : Transport) :
    (s.setTc t).es = s.es := rfl
@[simp] theorem State.setTc_fu (s : State) (t : Transport) :
    (s.setTc t).fu = s.fu := rfl
@[simp] theorem State.setTc_rl (s : State) (t : Transport) :
    (s.setTc t).rl = s.rl := rfl
@[simp] theorem State.setTc_nu (s : State) (t : Transport) :
    (s.setTc t).nu = s.nu := rfl
@[simp] theorem State.setTc_lp (s : State) (t : Transport) :
    (s.setTc t).lp = s.lp := rfl
@[simp] theorem State.setTc_staged (s : State) (t : Transport) :
    (s.setTc t).staged = s.staged := rfl
@[simp] theorem State.setTc_out (s : State) (t : Transport) :
    (s.setTc t).out = s.out := rfl
@[simp] theorem State.setTc_pending (s : State) (t : Transport) :
    (s.setTc t).pending = s.pending := rfl
@[simp] theorem State.setEs_fs (s : State) (e : Sequencer) :
    (s.setEs e).fs = s.fs := rfl
@[simp] theorem State.setEs_admission (s : State) (e : Sequencer) :
    (s.setEs e).admission = s.admission := rfl
@[simp] theorem State.setEs_pt (s : State) (e : Sequencer) :
    (s.setEs e).pt = s.pt := rfl
@[simp] theorem State.setEs_du (s : State) (e : Sequencer) :
    (s.setEs e).du = s.du := rfl
@[simp] theorem State.setEs_stu (s : State) (e : Sequencer) :
    (s.setEs e).stu = s.stu := rfl
@[simp] theorem State.setEs_pl (s : State) (e : Sequencer) :
    (s.setEs e).pl = s.pl := rfl
@[simp] theorem State.setEs_tc (s : State) (e : Sequencer) :
    (s.setEs e).tc = s.tc := rfl
@[simp] theorem State.setEs_fu (s : State) (e : Sequencer) :
    (s.setEs e).fu = s.fu := rfl
@[simp] theorem State.setEs_rl (s : State) (e : Sequencer) :
    (s.setEs e).rl = s.rl := rfl
@[simp] theorem State.setEs_nu (s : State) (e : Sequencer) :
    (s.setEs e).nu = s.nu := rfl
@[simp] theorem State.setEs_lp (s : State) (e : Sequencer) :
    (s.setEs e).lp = s.lp := rfl
@[simp] theorem State.setEs_staged (s : State) (e : Sequencer) :
    (s.setEs e).staged = s.staged := rfl
@[simp] theorem State.setEs_out (s : State) (e : Sequencer) :
    (s.setEs e).out = s.out := rfl
@[simp] theorem State.setEs_pending (s : State) (e : Sequencer) :
    (s.setEs e).pending = s.pending := rfl
@[simp] theorem State.setStu_fs (s : State) (u : ScanUnit) :
    (s.setStu u).fs = s.fs := rfl
@[simp] theorem State.setStu_admission (s : State) (u : ScanUnit) :
    (s.setStu u).admission = s.admission := rfl
@[simp] theorem State.setStu_pt (s : State) (u : ScanUnit) :
    (s.setStu u).pt = s.pt := rfl
@[simp] theorem State.setStu_du (s : State) (u : ScanUnit) :
    (s.setStu u).du = s.du := rfl
@[simp] theorem State.setStu_pl (s : State) (u : ScanUnit) :
    (s.setStu u).pl = s.pl := rfl
@[simp] theorem State.setStu_es (s : State) (u : ScanUnit) :
    (s.setStu u).es = s.es := rfl
@[simp] theorem State.setStu_tc (s : State) (u : ScanUnit) :
    (s.setStu u).tc = s.tc := rfl
@[simp] theorem State.setStu_fu (s : State) (u : ScanUnit) :
    (s.setStu u).fu = s.fu := rfl
@[simp] theorem State.setStu_rl (s : State) (u : ScanUnit) :
    (s.setStu u).rl = s.rl := rfl
@[simp] theorem State.setStu_nu (s : State) (u : ScanUnit) :
    (s.setStu u).nu = s.nu := rfl
@[simp] theorem State.setStu_lp (s : State) (u : ScanUnit) :
    (s.setStu u).lp = s.lp := rfl
@[simp] theorem State.setStu_staged (s : State) (u : ScanUnit) :
    (s.setStu u).staged = s.staged := rfl
@[simp] theorem State.setStu_out (s : State) (u : ScanUnit) :
    (s.setStu u).out = s.out := rfl
@[simp] theorem State.setStu_pending (s : State) (u : ScanUnit) :
    (s.setStu u).pending = s.pending := rfl
@[simp] theorem State.setChannels_fs (s : State) (c : Rgb PowerChannel) :
    (s.setChannels c).fs = s.fs := rfl
@[simp] theorem State.setChannels_admission (s : State) (c : Rgb PowerChannel) :
    (s.setChannels c).admission = s.admission := rfl
@[simp] theorem State.setChannels_pt (s : State) (c : Rgb PowerChannel) :
    (s.setChannels c).pt = s.pt := rfl
@[simp] theorem State.setChannels_du (s : State) (c : Rgb PowerChannel) :
    (s.setChannels c).du = s.du := rfl
@[simp] theorem State.setChannels_stu (s : State) (c : Rgb PowerChannel) :
    (s.setChannels c).stu = s.stu := rfl
@[simp] theorem State.setChannels_es (s : State) (c : Rgb PowerChannel) :
    (s.setChannels c).es = s.es := rfl
@[simp] theorem State.setChannels_tc (s : State) (c : Rgb PowerChannel) :
    (s.setChannels c).tc = s.tc := rfl
@[simp] theorem State.setChannels_fu (s : State) (c : Rgb PowerChannel) :
    (s.setChannels c).fu = s.fu := rfl
@[simp] theorem State.setChannels_rl (s : State) (c : Rgb PowerChannel) :
    (s.setChannels c).rl = s.rl := rfl
@[simp] theorem State.setChannels_nu (s : State) (c : Rgb PowerChannel) :
    (s.setChannels c).nu = s.nu := rfl
@[simp] theorem State.setChannels_lp (s : State) (c : Rgb PowerChannel) :
    (s.setChannels c).lp = s.lp := rfl
@[simp] theorem State.setChannels_staged (s : State) (c : Rgb PowerChannel) :
    (s.setChannels c).staged = s.staged := rfl
@[simp] theorem State.setChannels_out (s : State) (c : Rgb PowerChannel) :
    (s.setChannels c).out = s.out := rfl
@[simp] theorem State.setChannels_pending (s : State) (c : Rgb PowerChannel) :
    (s.setChannels c).pending = s.pending := rfl
@[simp] theorem State.setInterlock_fs (s : State) (b : Bool) :
    (s.setInterlock b).fs = s.fs := rfl
@[simp] theorem State.setInterlock_admission (s : State) (b : Bool) :
    (s.setInterlock b).admission = s.admission := rfl
@[simp] theorem State.setInterlock_pt (s : State) (b : Bool) :
    (s.setInterlock b).pt = s.pt := rfl
@[simp] theorem State.setInterlock_du (s : State) (b : Bool) :
    (s.setInterlock b).du = s.du := rfl
@[simp] theorem State.setInterlock_stu (s : State) (b : Bool) :
    (s.setInterlock b).stu = s.stu := rfl
@[simp] theorem State.setInterlock_es (s : State) (b : Bool) :
    (s.setInterlock b).es = s.es := rfl
@[simp] theorem State.setInterlock_tc (s : State) (b : Bool) :
    (s.setInterlock b).tc = s.tc := rfl
@[simp] theorem State.setInterlock_fu (s : State) (b : Bool) :
    (s.setInterlock b).fu = s.fu := rfl
@[simp] theorem State.setInterlock_rl (s : State) (b : Bool) :
    (s.setInterlock b).rl = s.rl := rfl
@[simp] theorem State.setInterlock_nu (s : State) (b : Bool) :
    (s.setInterlock b).nu = s.nu := rfl
@[simp] theorem State.setInterlock_lp (s : State) (b : Bool) :
    (s.setInterlock b).lp = s.lp := rfl
@[simp] theorem State.setInterlock_staged (s : State) (b : Bool) :
    (s.setInterlock b).staged = s.staged := rfl
@[simp] theorem State.setInterlock_out (s : State) (b : Bool) :
    (s.setInterlock b).out = s.out := rfl
@[simp] theorem State.setInterlock_pending (s : State) (b : Bool) :
    (s.setInterlock b).pending = s.pending := rfl
@[simp] theorem State.setInHand_fs (s : State) (r : Option FaultRecord) :
    (s.setInHand r).fs = s.fs := rfl
@[simp] theorem State.setInHand_admission (s : State) (r : Option FaultRecord) :
    (s.setInHand r).admission = s.admission := rfl
@[simp] theorem State.setInHand_pt (s : State) (r : Option FaultRecord) :
    (s.setInHand r).pt = s.pt := rfl
@[simp] theorem State.setInHand_du (s : State) (r : Option FaultRecord) :
    (s.setInHand r).du = s.du := rfl
@[simp] theorem State.setInHand_stu (s : State) (r : Option FaultRecord) :
    (s.setInHand r).stu = s.stu := rfl
@[simp] theorem State.setInHand_pl (s : State) (r : Option FaultRecord) :
    (s.setInHand r).pl = s.pl := rfl
@[simp] theorem State.setInHand_es (s : State) (r : Option FaultRecord) :
    (s.setInHand r).es = s.es := rfl
@[simp] theorem State.setInHand_tc (s : State) (r : Option FaultRecord) :
    (s.setInHand r).tc = s.tc := rfl
@[simp] theorem State.setInHand_rl (s : State) (r : Option FaultRecord) :
    (s.setInHand r).rl = s.rl := rfl
@[simp] theorem State.setInHand_nu (s : State) (r : Option FaultRecord) :
    (s.setInHand r).nu = s.nu := rfl
@[simp] theorem State.setInHand_lp (s : State) (r : Option FaultRecord) :
    (s.setInHand r).lp = s.lp := rfl
@[simp] theorem State.setInHand_staged (s : State) (r : Option FaultRecord) :
    (s.setInHand r).staged = s.staged := rfl
@[simp] theorem State.setInHand_out (s : State) (r : Option FaultRecord) :
    (s.setInHand r).out = s.out := rfl
@[simp] theorem State.setInHand_pending (s : State) (r : Option FaultRecord) :
    (s.setInHand r).pending = s.pending := rfl
@[simp] theorem State.laserDisable_fs (s : State) :
    (s.laserDisable).fs = s.fs := by
  unfold State.laserDisable; dsimp only; split <;> rfl
@[simp] theorem State.laserDisable_admission (s : State) :
    (s.laserDisable).admission = s.admission := by
  unfold State.laserDisable; dsimp only; split <;> rfl
@[simp] theorem State.laserDisable_pt (s : State) :
    (s.laserDisable).pt = s.pt := by
  unfold State.laserDisable; dsimp only; split <;> rfl
@[simp] theorem State.laserDisable_du (s : State) :
    (s.laserDisable).du = s.du := by
  unfold State.laserDisable; dsimp only; split <;> rfl
@[simp] theorem State.laserDisable_stu (s : State) :
    (s.laserDisable).stu = s.stu := by
  unfold State.laserDisable; dsimp only; split <;> rfl
@[simp] theorem State.laserDisable_es (s : State) :
    (s.laserDisable).es = s.es := by
  unfold State.laserDisable; dsimp only; split <;> rfl
@[simp] theorem State.laserDisable_tc (s : State) :
    (s.laserDisable).tc = s.tc := by
  unfold State.laserDisable; dsimp only; split <;> rfl
@[simp] theorem State.laserDisable_fu (s : State) :
    (s.laserDisable).fu = s.fu := by
  unfold State.laserDisable; dsimp only; split <;> rfl
@[simp] theorem State.laserDisable_rl (s : State) :
    (s.laserDisable).rl = s.rl := by
  unfold State.laserDisable; dsimp only; split <;> rfl
@[simp] theorem State.laserDisable_nu (s : State) :
    (s.laserDisable).nu = s.nu := by
  unfold State.laserDisable; dsimp only; split <;> rfl
@[simp] theorem State.laserDisable_lp (s : State) :
    (s.laserDisable).lp = s.lp := by
  unfold State.laserDisable; dsimp only; split <;> rfl
@[simp] theorem State.laserDisable_staged (s : State) :
    (s.laserDisable).staged = s.staged := by
  unfold State.laserDisable; dsimp only; split <;> rfl
@[simp] theorem State.laserDisable_pending (s : State) :
    (s.laserDisable).pending = s.pending := by
  unfold State.laserDisable; dsimp only; split <;> rfl
@[simp] theorem State.setPending_fs (s : State) (k : LongKind) (r : Option PendingReply) :
    (s.setPending k r).fs = s.fs := rfl
@[simp] theorem State.setPending_admission (s : State) (k : LongKind) (r : Option PendingReply) :
    (s.setPending k r).admission = s.admission := rfl
@[simp] theorem State.setPending_pt (s : State) (k : LongKind) (r : Option PendingReply) :
    (s.setPending k r).pt = s.pt := rfl
@[simp] theorem State.setPending_du (s : State) (k : LongKind) (r : Option PendingReply) :
    (s.setPending k r).du = s.du := rfl
@[simp] theorem State.setPending_stu (s : State) (k : LongKind) (r : Option PendingReply) :
    (s.setPending k r).stu = s.stu := rfl
@[simp] theorem State.setPending_pl (s : State) (k : LongKind) (r : Option PendingReply) :
    (s.setPending k r).pl = s.pl := rfl
@[simp] theorem State.setPending_tc (s : State) (k : LongKind) (r : Option PendingReply) :
    (s.setPending k r).tc = s.tc := rfl
@[simp] theorem State.setPending_fu (s : State) (k : LongKind) (r : Option PendingReply) :
    (s.setPending k r).fu = s.fu := rfl
@[simp] theorem State.setPending_rl (s : State) (k : LongKind) (r : Option PendingReply) :
    (s.setPending k r).rl = s.rl := rfl
@[simp] theorem State.setPending_nu (s : State) (k : LongKind) (r : Option PendingReply) :
    (s.setPending k r).nu = s.nu := rfl
@[simp] theorem State.setPending_lp (s : State) (k : LongKind) (r : Option PendingReply) :
    (s.setPending k r).lp = s.lp := rfl
@[simp] theorem State.setPending_staged (s : State) (k : LongKind) (r : Option PendingReply) :
    (s.setPending k r).staged = s.staged := rfl
@[simp] theorem State.setPending_out (s : State) (k : LongKind) (r : Option PendingReply) :
    (s.setPending k r).out = s.out := rfl
@[simp] theorem State.setPending_pending (s : State) (k : LongKind) (r : Option PendingReply) :
    (s.setPending k r).pending = s.pending := rfl
@[simp] theorem State.dropBlank_fs (s : State) :
    (s.dropBlank).fs = s.fs := rfl
@[simp] theorem State.dropBlank_admission (s : State) :
    (s.dropBlank).admission = s.admission := rfl
@[simp] theorem State.dropBlank_pt (s : State) :
    (s.dropBlank).pt = s.pt := rfl
@[simp] theorem State.dropBlank_du (s : State) :
    (s.dropBlank).du = s.du := rfl
@[simp] theorem State.dropBlank_stu (s : State) :
    (s.dropBlank).stu = s.stu := rfl
@[simp] theorem State.dropBlank_pl (s : State) :
    (s.dropBlank).pl = s.pl := rfl
@[simp] theorem State.dropBlank_es (s : State) :
    (s.dropBlank).es = s.es := rfl
@[simp] theorem State.dropBlank_fu (s : State) :
    (s.dropBlank).fu = s.fu := rfl
@[simp] theorem State.dropBlank_rl (s : State) :
    (s.dropBlank).rl = s.rl := rfl
@[simp] theorem State.dropBlank_nu (s : State) :
    (s.dropBlank).nu = s.nu := rfl
@[simp] theorem State.dropBlank_lp (s : State) :
    (s.dropBlank).lp = s.lp := rfl
@[simp] theorem State.dropBlank_staged (s : State) :
    (s.dropBlank).staged = s.staged := rfl
@[simp] theorem State.dropBlank_out (s : State) :
    (s.dropBlank).out = s.out := rfl
@[simp] theorem State.dropBlank_pending (s : State) :
    (s.dropBlank).pending = s.pending := rfl
@[simp] theorem State.emptyLineLatch_fs (s : State) :
    (s.emptyLineLatch).fs = s.fs := rfl
@[simp] theorem State.emptyLineLatch_admission (s : State) :
    (s.emptyLineLatch).admission = s.admission := rfl
@[simp] theorem State.emptyLineLatch_pt (s : State) :
    (s.emptyLineLatch).pt = s.pt := rfl
@[simp] theorem State.emptyLineLatch_stu (s : State) :
    (s.emptyLineLatch).stu = s.stu := rfl
@[simp] theorem State.emptyLineLatch_pl (s : State) :
    (s.emptyLineLatch).pl = s.pl := rfl
@[simp] theorem State.emptyLineLatch_es (s : State) :
    (s.emptyLineLatch).es = s.es := rfl
@[simp] theorem State.emptyLineLatch_tc (s : State) :
    (s.emptyLineLatch).tc = s.tc := rfl
@[simp] theorem State.emptyLineLatch_fu (s : State) :
    (s.emptyLineLatch).fu = s.fu := rfl
@[simp] theorem State.emptyLineLatch_rl (s : State) :
    (s.emptyLineLatch).rl = s.rl := rfl
@[simp] theorem State.emptyLineLatch_nu (s : State) :
    (s.emptyLineLatch).nu = s.nu := rfl
@[simp] theorem State.emptyLineLatch_lp (s : State) :
    (s.emptyLineLatch).lp = s.lp := rfl
@[simp] theorem State.emptyLineLatch_staged (s : State) :
    (s.emptyLineLatch).staged = s.staged := rfl
@[simp] theorem State.emptyLineLatch_out (s : State) :
    (s.emptyLineLatch).out = s.out := rfl
@[simp] theorem State.emptyLineLatch_pending (s : State) :
    (s.emptyLineLatch).pending = s.pending := rfl
@[simp] theorem State.emptyLatches_fs (s : State) :
    (s.emptyLatches).fs = s.fs := rfl
@[simp] theorem State.emptyLatches_admission (s : State) :
    (s.emptyLatches).admission = s.admission := rfl
@[simp] theorem State.emptyLatches_pt (s : State) :
    (s.emptyLatches).pt = s.pt := rfl
@[simp] theorem State.emptyLatches_stu (s : State) :
    (s.emptyLatches).stu = s.stu := rfl
@[simp] theorem State.emptyLatches_pl (s : State) :
    (s.emptyLatches).pl = s.pl := rfl
@[simp] theorem State.emptyLatches_es (s : State) :
    (s.emptyLatches).es = s.es := rfl
@[simp] theorem State.emptyLatches_tc (s : State) :
    (s.emptyLatches).tc = s.tc := rfl
@[simp] theorem State.emptyLatches_fu (s : State) :
    (s.emptyLatches).fu = s.fu := rfl
@[simp] theorem State.emptyLatches_rl (s : State) :
    (s.emptyLatches).rl = s.rl := rfl
@[simp] theorem State.emptyLatches_nu (s : State) :
    (s.emptyLatches).nu = s.nu := rfl
@[simp] theorem State.emptyLatches_lp (s : State) :
    (s.emptyLatches).lp = s.lp := rfl
@[simp] theorem State.emptyLatches_staged (s : State) :
    (s.emptyLatches).staged = s.staged := rfl
@[simp] theorem State.emptyLatches_out (s : State) :
    (s.emptyLatches).out = s.out := rfl
@[simp] theorem State.emptyLatches_pending (s : State) :
    (s.emptyLatches).pending = s.pending := rfl
@[simp] theorem State.fillFrameLatch_fs (s : State) (p : Fin 8) :
    (s.fillFrameLatch p).fs = s.fs := rfl
@[simp] theorem State.fillFrameLatch_admission (s : State) (p : Fin 8) :
    (s.fillFrameLatch p).admission = s.admission := rfl
@[simp] theorem State.fillFrameLatch_pt (s : State) (p : Fin 8) :
    (s.fillFrameLatch p).pt = s.pt := rfl
@[simp] theorem State.fillFrameLatch_stu (s : State) (p : Fin 8) :
    (s.fillFrameLatch p).stu = s.stu := rfl
@[simp] theorem State.fillFrameLatch_pl (s : State) (p : Fin 8) :
    (s.fillFrameLatch p).pl = s.pl := rfl
@[simp] theorem State.fillFrameLatch_es (s : State) (p : Fin 8) :
    (s.fillFrameLatch p).es = s.es := rfl
@[simp] theorem State.fillFrameLatch_tc (s : State) (p : Fin 8) :
    (s.fillFrameLatch p).tc = s.tc := rfl
@[simp] theorem State.fillFrameLatch_fu (s : State) (p : Fin 8) :
    (s.fillFrameLatch p).fu = s.fu := rfl
@[simp] theorem State.fillFrameLatch_rl (s : State) (p : Fin 8) :
    (s.fillFrameLatch p).rl = s.rl := rfl
@[simp] theorem State.fillFrameLatch_nu (s : State) (p : Fin 8) :
    (s.fillFrameLatch p).nu = s.nu := rfl
@[simp] theorem State.fillFrameLatch_lp (s : State) (p : Fin 8) :
    (s.fillFrameLatch p).lp = s.lp := rfl
@[simp] theorem State.fillFrameLatch_staged (s : State) (p : Fin 8) :
    (s.fillFrameLatch p).staged = s.staged := rfl
@[simp] theorem State.fillFrameLatch_out (s : State) (p : Fin 8) :
    (s.fillFrameLatch p).out = s.out := rfl
@[simp] theorem State.fillFrameLatch_pending (s : State) (p : Fin 8) :
    (s.fillFrameLatch p).pending = s.pending := rfl
@[simp] theorem State.fillLineLatch_fs (s : State) (f : Fin 8) :
    (s.fillLineLatch f).fs = s.fs := rfl
@[simp] theorem State.fillLineLatch_admission (s : State) (f : Fin 8) :
    (s.fillLineLatch f).admission = s.admission := rfl
@[simp] theorem State.fillLineLatch_pt (s : State) (f : Fin 8) :
    (s.fillLineLatch f).pt = s.pt := rfl
@[simp] theorem State.fillLineLatch_stu (s : State) (f : Fin 8) :
    (s.fillLineLatch f).stu = s.stu := rfl
@[simp] theorem State.fillLineLatch_pl (s : State) (f : Fin 8) :
    (s.fillLineLatch f).pl = s.pl := rfl
@[simp] theorem State.fillLineLatch_es (s : State) (f : Fin 8) :
    (s.fillLineLatch f).es = s.es := rfl
@[simp] theorem State.fillLineLatch_tc (s : State) (f : Fin 8) :
    (s.fillLineLatch f).tc = s.tc := rfl
@[simp] theorem State.fillLineLatch_fu (s : State) (f : Fin 8) :
    (s.fillLineLatch f).fu = s.fu := rfl
@[simp] theorem State.fillLineLatch_rl (s : State) (f : Fin 8) :
    (s.fillLineLatch f).rl = s.rl := rfl
@[simp] theorem State.fillLineLatch_nu (s : State) (f : Fin 8) :
    (s.fillLineLatch f).nu = s.nu := rfl
@[simp] theorem State.fillLineLatch_lp (s : State) (f : Fin 8) :
    (s.fillLineLatch f).lp = s.lp := rfl
@[simp] theorem State.fillLineLatch_staged (s : State) (f : Fin 8) :
    (s.fillLineLatch f).staged = s.staged := rfl
@[simp] theorem State.fillLineLatch_out (s : State) (f : Fin 8) :
    (s.fillLineLatch f).out = s.out := rfl
@[simp] theorem State.fillLineLatch_pending (s : State) (f : Fin 8) :
    (s.fillLineLatch f).pending = s.pending := rfl
@[simp] theorem State.enterTable_fs (s : State) (tag : Nat) (q : Request) :
    (s.enterTable tag q).fs = s.fs := rfl
@[simp] theorem State.enterTable_admission (s : State) (tag : Nat) (q : Request) :
    (s.enterTable tag q).admission = s.admission := rfl
@[simp] theorem State.enterTable_pt (s : State) (tag : Nat) (q : Request) :
    (s.enterTable tag q).pt = s.pt := rfl
@[simp] theorem State.enterTable_du (s : State) (tag : Nat) (q : Request) :
    (s.enterTable tag q).du = s.du := rfl
@[simp] theorem State.enterTable_stu (s : State) (tag : Nat) (q : Request) :
    (s.enterTable tag q).stu = s.stu := rfl
@[simp] theorem State.enterTable_pl (s : State) (tag : Nat) (q : Request) :
    (s.enterTable tag q).pl = s.pl := rfl
@[simp] theorem State.enterTable_es (s : State) (tag : Nat) (q : Request) :
    (s.enterTable tag q).es = s.es := rfl
@[simp] theorem State.enterTable_tc (s : State) (tag : Nat) (q : Request) :
    (s.enterTable tag q).tc = s.tc := rfl
@[simp] theorem State.enterTable_fu (s : State) (tag : Nat) (q : Request) :
    (s.enterTable tag q).fu = s.fu := rfl
@[simp] theorem State.enterTable_rl (s : State) (tag : Nat) (q : Request) :
    (s.enterTable tag q).rl = s.rl := rfl
@[simp] theorem State.enterTable_nu (s : State) (tag : Nat) (q : Request) :
    (s.enterTable tag q).nu = s.nu := rfl
@[simp] theorem State.enterTable_staged (s : State) (tag : Nat) (q : Request) :
    (s.enterTable tag q).staged = s.staged := rfl
@[simp] theorem State.enterTable_out (s : State) (tag : Nat) (q : Request) :
    (s.enterTable tag q).out = s.out := rfl
@[simp] theorem State.enterTable_pending (s : State) (tag : Nat) (q : Request) :
    (s.enterTable tag q).pending = s.pending := rfl
@[simp] theorem State.countError_fs (s : State) (e : LinkError) :
    (s.countError e).fs = s.fs := rfl
@[simp] theorem State.countError_admission (s : State) (e : LinkError) :
    (s.countError e).admission = s.admission := rfl
@[simp] theorem State.countError_pt (s : State) (e : LinkError) :
    (s.countError e).pt = s.pt := rfl
@[simp] theorem State.countError_du (s : State) (e : LinkError) :
    (s.countError e).du = s.du := rfl
@[simp] theorem State.countError_stu (s : State) (e : LinkError) :
    (s.countError e).stu = s.stu := rfl
@[simp] theorem State.countError_pl (s : State) (e : LinkError) :
    (s.countError e).pl = s.pl := rfl
@[simp] theorem State.countError_es (s : State) (e : LinkError) :
    (s.countError e).es = s.es := rfl
@[simp] theorem State.countError_tc (s : State) (e : LinkError) :
    (s.countError e).tc = s.tc := rfl
@[simp] theorem State.countError_fu (s : State) (e : LinkError) :
    (s.countError e).fu = s.fu := rfl
@[simp] theorem State.countError_rl (s : State) (e : LinkError) :
    (s.countError e).rl = s.rl := rfl
@[simp] theorem State.countError_nu (s : State) (e : LinkError) :
    (s.countError e).nu = s.nu := rfl
@[simp] theorem State.countError_staged (s : State) (e : LinkError) :
    (s.countError e).staged = s.staged := rfl
@[simp] theorem State.countError_out (s : State) (e : LinkError) :
    (s.countError e).out = s.out := rfl
@[simp] theorem State.countError_pending (s : State) (e : LinkError) :
    (s.countError e).pending = s.pending := rfl
@[simp] theorem State.recordFault_fs (s : State) (r : FaultRecord) :
    (s.recordFault r).fs = s.fs := rfl
@[simp] theorem State.recordFault_admission (s : State) (r : FaultRecord) :
    (s.recordFault r).admission = s.admission := rfl
@[simp] theorem State.recordFault_pt (s : State) (r : FaultRecord) :
    (s.recordFault r).pt = s.pt := rfl
@[simp] theorem State.recordFault_du (s : State) (r : FaultRecord) :
    (s.recordFault r).du = s.du := rfl
@[simp] theorem State.recordFault_stu (s : State) (r : FaultRecord) :
    (s.recordFault r).stu = s.stu := rfl
@[simp] theorem State.recordFault_pl (s : State) (r : FaultRecord) :
    (s.recordFault r).pl = s.pl := rfl
@[simp] theorem State.recordFault_es (s : State) (r : FaultRecord) :
    (s.recordFault r).es = s.es := rfl
@[simp] theorem State.recordFault_tc (s : State) (r : FaultRecord) :
    (s.recordFault r).tc = s.tc := rfl
@[simp] theorem State.recordFault_rl (s : State) (r : FaultRecord) :
    (s.recordFault r).rl = s.rl := rfl
@[simp] theorem State.recordFault_nu (s : State) (r : FaultRecord) :
    (s.recordFault r).nu = s.nu := rfl
@[simp] theorem State.recordFault_lp (s : State) (r : FaultRecord) :
    (s.recordFault r).lp = s.lp := rfl
@[simp] theorem State.recordFault_staged (s : State) (r : FaultRecord) :
    (s.recordFault r).staged = s.staged := rfl
@[simp] theorem State.recordFault_out (s : State) (r : FaultRecord) :
    (s.recordFault r).out = s.out := rfl
@[simp] theorem State.recordFault_pending (s : State) (r : FaultRecord) :
    (s.recordFault r).pending = s.pending := rfl
@[simp] theorem State.setFacet_fs (s : State) (f : Fin 8) (e : Facet) :
    (s.setFacet f e).fs = s.fs := rfl
@[simp] theorem State.setFacet_admission (s : State) (f : Fin 8) (e : Facet) :
    (s.setFacet f e).admission = s.admission := rfl
@[simp] theorem State.setFacet_pt (s : State) (f : Fin 8) (e : Facet) :
    (s.setFacet f e).pt = s.pt := rfl
@[simp] theorem State.setFacet_du (s : State) (f : Fin 8) (e : Facet) :
    (s.setFacet f e).du = s.du := rfl
@[simp] theorem State.setFacet_pl (s : State) (f : Fin 8) (e : Facet) :
    (s.setFacet f e).pl = s.pl := rfl
@[simp] theorem State.setFacet_es (s : State) (f : Fin 8) (e : Facet) :
    (s.setFacet f e).es = s.es := rfl
@[simp] theorem State.setFacet_tc (s : State) (f : Fin 8) (e : Facet) :
    (s.setFacet f e).tc = s.tc := rfl
@[simp] theorem State.setFacet_fu (s : State) (f : Fin 8) (e : Facet) :
    (s.setFacet f e).fu = s.fu := rfl
@[simp] theorem State.setFacet_rl (s : State) (f : Fin 8) (e : Facet) :
    (s.setFacet f e).rl = s.rl := rfl
@[simp] theorem State.setFacet_nu (s : State) (f : Fin 8) (e : Facet) :
    (s.setFacet f e).nu = s.nu := rfl
@[simp] theorem State.setFacet_lp (s : State) (f : Fin 8) (e : Facet) :
    (s.setFacet f e).lp = s.lp := rfl
@[simp] theorem State.setFacet_staged (s : State) (f : Fin 8) (e : Facet) :
    (s.setFacet f e).staged = s.staged := rfl
@[simp] theorem State.setFacet_out (s : State) (f : Fin 8) (e : Facet) :
    (s.setFacet f e).out = s.out := rfl
@[simp] theorem State.setFacet_pending (s : State) (f : Fin 8) (e : Facet) :
    (s.setFacet f e).pending = s.pending := rfl
@[simp] theorem State.setStats_fs (s : State) (x : ScanStats) :
    (s.setStats x).fs = s.fs := rfl
@[simp] theorem State.setStats_admission (s : State) (x : ScanStats) :
    (s.setStats x).admission = s.admission := rfl
@[simp] theorem State.setStats_pt (s : State) (x : ScanStats) :
    (s.setStats x).pt = s.pt := rfl
@[simp] theorem State.setStats_du (s : State) (x : ScanStats) :
    (s.setStats x).du = s.du := rfl
@[simp] theorem State.setStats_pl (s : State) (x : ScanStats) :
    (s.setStats x).pl = s.pl := rfl
@[simp] theorem State.setStats_es (s : State) (x : ScanStats) :
    (s.setStats x).es = s.es := rfl
@[simp] theorem State.setStats_tc (s : State) (x : ScanStats) :
    (s.setStats x).tc = s.tc := rfl
@[simp] theorem State.setStats_fu (s : State) (x : ScanStats) :
    (s.setStats x).fu = s.fu := rfl
@[simp] theorem State.setStats_rl (s : State) (x : ScanStats) :
    (s.setStats x).rl = s.rl := rfl
@[simp] theorem State.setStats_nu (s : State) (x : ScanStats) :
    (s.setStats x).nu = s.nu := rfl
@[simp] theorem State.setStats_lp (s : State) (x : ScanStats) :
    (s.setStats x).lp = s.lp := rfl
@[simp] theorem State.setStats_staged (s : State) (x : ScanStats) :
    (s.setStats x).staged = s.staged := rfl
@[simp] theorem State.setStats_out (s : State) (x : ScanStats) :
    (s.setStats x).out = s.out := rfl
@[simp] theorem State.setStats_pending (s : State) (x : ScanStats) :
    (s.setStats x).pending = s.pending := rfl
@[simp] theorem State.armScan_fs (s : State) :
    (s.armScan).fs = s.fs := rfl
@[simp] theorem State.armScan_admission (s : State) :
    (s.armScan).admission = s.admission := rfl
@[simp] theorem State.armScan_pt (s : State) :
    (s.armScan).pt = s.pt := rfl
@[simp] theorem State.armScan_du (s : State) :
    (s.armScan).du = s.du := rfl
@[simp] theorem State.armScan_pl (s : State) :
    (s.armScan).pl = s.pl := rfl
@[simp] theorem State.armScan_es (s : State) :
    (s.armScan).es = s.es := rfl
@[simp] theorem State.armScan_tc (s : State) :
    (s.armScan).tc = s.tc := rfl
@[simp] theorem State.armScan_fu (s : State) :
    (s.armScan).fu = s.fu := rfl
@[simp] theorem State.armScan_rl (s : State) :
    (s.armScan).rl = s.rl := rfl
@[simp] theorem State.armScan_nu (s : State) :
    (s.armScan).nu = s.nu := rfl
@[simp] theorem State.armScan_lp (s : State) :
    (s.armScan).lp = s.lp := rfl
@[simp] theorem State.armScan_staged (s : State) :
    (s.armScan).staged = s.staged := rfl
@[simp] theorem State.armScan_out (s : State) :
    (s.armScan).out = s.out := rfl
@[simp] theorem State.armScan_pending (s : State) :
    (s.armScan).pending = s.pending := rfl
@[simp] theorem State.advanceCounter_fs (s : State) :
    (s.advanceCounter).fs = s.fs := rfl
@[simp] theorem State.advanceCounter_admission (s : State) :
    (s.advanceCounter).admission = s.admission := rfl
@[simp] theorem State.advanceCounter_pt (s : State) :
    (s.advanceCounter).pt = s.pt := rfl
@[simp] theorem State.advanceCounter_du (s : State) :
    (s.advanceCounter).du = s.du := rfl
@[simp] theorem State.advanceCounter_pl (s : State) :
    (s.advanceCounter).pl = s.pl := rfl
@[simp] theorem State.advanceCounter_es (s : State) :
    (s.advanceCounter).es = s.es := rfl
@[simp] theorem State.advanceCounter_tc (s : State) :
    (s.advanceCounter).tc = s.tc := rfl
@[simp] theorem State.advanceCounter_fu (s : State) :
    (s.advanceCounter).fu = s.fu := rfl
@[simp] theorem State.advanceCounter_rl (s : State) :
    (s.advanceCounter).rl = s.rl := rfl
@[simp] theorem State.advanceCounter_nu (s : State) :
    (s.advanceCounter).nu = s.nu := rfl
@[simp] theorem State.advanceCounter_lp (s : State) :
    (s.advanceCounter).lp = s.lp := rfl
@[simp] theorem State.advanceCounter_staged (s : State) :
    (s.advanceCounter).staged = s.staged := rfl
@[simp] theorem State.advanceCounter_out (s : State) :
    (s.advanceCounter).out = s.out := rfl
@[simp] theorem State.advanceCounter_pending (s : State) :
    (s.advanceCounter).pending = s.pending := rfl
@[simp] theorem State.setWheel_fs (s : State) (c : Channel) (w : Wheel) :
    (s.setWheel c w).fs = s.fs := rfl
@[simp] theorem State.setWheel_admission (s : State) (c : Channel) (w : Wheel) :
    (s.setWheel c w).admission = s.admission := rfl
@[simp] theorem State.setWheel_pt (s : State) (c : Channel) (w : Wheel) :
    (s.setWheel c w).pt = s.pt := rfl
@[simp] theorem State.setWheel_du (s : State) (c : Channel) (w : Wheel) :
    (s.setWheel c w).du = s.du := rfl
@[simp] theorem State.setWheel_stu (s : State) (c : Channel) (w : Wheel) :
    (s.setWheel c w).stu = s.stu := rfl
@[simp] theorem State.setWheel_pl (s : State) (c : Channel) (w : Wheel) :
    (s.setWheel c w).pl = s.pl := rfl
@[simp] theorem State.setWheel_tc (s : State) (c : Channel) (w : Wheel) :
    (s.setWheel c w).tc = s.tc := rfl
@[simp] theorem State.setWheel_fu (s : State) (c : Channel) (w : Wheel) :
    (s.setWheel c w).fu = s.fu := rfl
@[simp] theorem State.setWheel_rl (s : State) (c : Channel) (w : Wheel) :
    (s.setWheel c w).rl = s.rl := rfl
@[simp] theorem State.setWheel_nu (s : State) (c : Channel) (w : Wheel) :
    (s.setWheel c w).nu = s.nu := rfl
@[simp] theorem State.setWheel_lp (s : State) (c : Channel) (w : Wheel) :
    (s.setWheel c w).lp = s.lp := rfl
@[simp] theorem State.setWheel_staged (s : State) (c : Channel) (w : Wheel) :
    (s.setWheel c w).staged = s.staged := rfl
@[simp] theorem State.setWheel_out (s : State) (c : Channel) (w : Wheel) :
    (s.setWheel c w).out = s.out := rfl
@[simp] theorem State.setWheel_pending (s : State) (c : Channel) (w : Wheel) :
    (s.setWheel c w).pending = s.pending := rfl
@[simp] theorem State.setStage_fs (s : State) (x : Stage) :
    (s.setStage x).fs = s.fs := rfl
@[simp] theorem State.setStage_admission (s : State) (x : Stage) :
    (s.setStage x).admission = s.admission := rfl
@[simp] theorem State.setStage_pt (s : State) (x : Stage) :
    (s.setStage x).pt = s.pt := rfl
@[simp] theorem State.setStage_du (s : State) (x : Stage) :
    (s.setStage x).du = s.du := rfl
@[simp] theorem State.setStage_stu (s : State) (x : Stage) :
    (s.setStage x).stu = s.stu := rfl
@[simp] theorem State.setStage_pl (s : State) (x : Stage) :
    (s.setStage x).pl = s.pl := rfl
@[simp] theorem State.setStage_tc (s : State) (x : Stage) :
    (s.setStage x).tc = s.tc := rfl
@[simp] theorem State.setStage_fu (s : State) (x : Stage) :
    (s.setStage x).fu = s.fu := rfl
@[simp] theorem State.setStage_rl (s : State) (x : Stage) :
    (s.setStage x).rl = s.rl := rfl
@[simp] theorem State.setStage_nu (s : State) (x : Stage) :
    (s.setStage x).nu = s.nu := rfl
@[simp] theorem State.setStage_lp (s : State) (x : Stage) :
    (s.setStage x).lp = s.lp := rfl
@[simp] theorem State.setStage_staged (s : State) (x : Stage) :
    (s.setStage x).staged = s.staged := rfl
@[simp] theorem State.setStage_out (s : State) (x : Stage) :
    (s.setStage x).out = s.out := rfl
@[simp] theorem State.setStage_pending (s : State) (x : Stage) :
    (s.setStage x).pending = s.pending := rfl
@[simp] theorem State.disownMarks_fs (s : State) :
    (s.disownMarks).fs = s.fs := rfl
@[simp] theorem State.disownMarks_admission (s : State) :
    (s.disownMarks).admission = s.admission := rfl
@[simp] theorem State.disownMarks_pt (s : State) :
    (s.disownMarks).pt = s.pt := rfl
@[simp] theorem State.disownMarks_du (s : State) :
    (s.disownMarks).du = s.du := rfl
@[simp] theorem State.disownMarks_stu (s : State) :
    (s.disownMarks).stu = s.stu := rfl
@[simp] theorem State.disownMarks_pl (s : State) :
    (s.disownMarks).pl = s.pl := rfl
@[simp] theorem State.disownMarks_es (s : State) :
    (s.disownMarks).es = s.es := rfl
@[simp] theorem State.disownMarks_fu (s : State) :
    (s.disownMarks).fu = s.fu := rfl
@[simp] theorem State.disownMarks_rl (s : State) :
    (s.disownMarks).rl = s.rl := rfl
@[simp] theorem State.disownMarks_nu (s : State) :
    (s.disownMarks).nu = s.nu := rfl
@[simp] theorem State.disownMarks_lp (s : State) :
    (s.disownMarks).lp = s.lp := rfl
@[simp] theorem State.disownMarks_staged (s : State) :
    (s.disownMarks).staged = s.staged := rfl
@[simp] theorem State.disownMarks_out (s : State) :
    (s.disownMarks).out = s.out := rfl
@[simp] theorem State.disownMarks_pending (s : State) :
    (s.disownMarks).pending = s.pending := rfl
@[simp] theorem State.setRule_fs (s : State) (i : Fin 32) (r : Rule) :
    (s.setRule i r).fs = s.fs := rfl
@[simp] theorem State.setRule_pt (s : State) (i : Fin 32) (r : Rule) :
    (s.setRule i r).pt = s.pt := rfl
@[simp] theorem State.setRule_du (s : State) (i : Fin 32) (r : Rule) :
    (s.setRule i r).du = s.du := rfl
@[simp] theorem State.setRule_stu (s : State) (i : Fin 32) (r : Rule) :
    (s.setRule i r).stu = s.stu := rfl
@[simp] theorem State.setRule_pl (s : State) (i : Fin 32) (r : Rule) :
    (s.setRule i r).pl = s.pl := rfl
@[simp] theorem State.setRule_es (s : State) (i : Fin 32) (r : Rule) :
    (s.setRule i r).es = s.es := rfl
@[simp] theorem State.setRule_tc (s : State) (i : Fin 32) (r : Rule) :
    (s.setRule i r).tc = s.tc := rfl
@[simp] theorem State.setRule_fu (s : State) (i : Fin 32) (r : Rule) :
    (s.setRule i r).fu = s.fu := rfl
@[simp] theorem State.setRule_rl (s : State) (i : Fin 32) (r : Rule) :
    (s.setRule i r).rl = s.rl := rfl
@[simp] theorem State.setRule_nu (s : State) (i : Fin 32) (r : Rule) :
    (s.setRule i r).nu = s.nu := rfl
@[simp] theorem State.setRule_lp (s : State) (i : Fin 32) (r : Rule) :
    (s.setRule i r).lp = s.lp := rfl
@[simp] theorem State.setRule_staged (s : State) (i : Fin 32) (r : Rule) :
    (s.setRule i r).staged = s.staged := rfl
@[simp] theorem State.setRule_out (s : State) (i : Fin 32) (r : Rule) :
    (s.setRule i r).out = s.out := rfl
@[simp] theorem State.setRule_pending (s : State) (i : Fin 32) (r : Rule) :
    (s.setRule i r).pending = s.pending := rfl
@[simp] theorem State.setProfile_fs (s : State) (i : Fin 8) (q : Profile) :
    (s.setProfile i q).fs = s.fs := rfl
@[simp] theorem State.setProfile_admission (s : State) (i : Fin 8) (q : Profile) :
    (s.setProfile i q).admission = s.admission := rfl
@[simp] theorem State.setProfile_du (s : State) (i : Fin 8) (q : Profile) :
    (s.setProfile i q).du = s.du := rfl
@[simp] theorem State.setProfile_stu (s : State) (i : Fin 8) (q : Profile) :
    (s.setProfile i q).stu = s.stu := rfl
@[simp] theorem State.setProfile_pl (s : State) (i : Fin 8) (q : Profile) :
    (s.setProfile i q).pl = s.pl := rfl
@[simp] theorem State.setProfile_es (s : State) (i : Fin 8) (q : Profile) :
    (s.setProfile i q).es = s.es := rfl
@[simp] theorem State.setProfile_tc (s : State) (i : Fin 8) (q : Profile) :
    (s.setProfile i q).tc = s.tc := rfl
@[simp] theorem State.setProfile_fu (s : State) (i : Fin 8) (q : Profile) :
    (s.setProfile i q).fu = s.fu := rfl
@[simp] theorem State.setProfile_rl (s : State) (i : Fin 8) (q : Profile) :
    (s.setProfile i q).rl = s.rl := rfl
@[simp] theorem State.setProfile_nu (s : State) (i : Fin 8) (q : Profile) :
    (s.setProfile i q).nu = s.nu := rfl
@[simp] theorem State.setProfile_lp (s : State) (i : Fin 8) (q : Profile) :
    (s.setProfile i q).lp = s.lp := rfl
@[simp] theorem State.setProfile_staged (s : State) (i : Fin 8) (q : Profile) :
    (s.setProfile i q).staged = s.staged := rfl
@[simp] theorem State.setProfile_out (s : State) (i : Fin 8) (q : Profile) :
    (s.setProfile i q).out = s.out := rfl
@[simp] theorem State.setProfile_pending (s : State) (i : Fin 8) (q : Profile) :
    (s.setProfile i q).pending = s.pending := rfl
@[simp] theorem State.assign_fs (s : State) (k : FaultKind) (r : Response) :
    (s.assign k r).fs = s.fs := rfl
@[simp] theorem State.assign_admission (s : State) (k : FaultKind) (r : Response) :
    (s.assign k r).admission = s.admission := rfl
@[simp] theorem State.assign_pt (s : State) (k : FaultKind) (r : Response) :
    (s.assign k r).pt = s.pt := rfl
@[simp] theorem State.assign_du (s : State) (k : FaultKind) (r : Response) :
    (s.assign k r).du = s.du := rfl
@[simp] theorem State.assign_stu (s : State) (k : FaultKind) (r : Response) :
    (s.assign k r).stu = s.stu := rfl
@[simp] theorem State.assign_pl (s : State) (k : FaultKind) (r : Response) :
    (s.assign k r).pl = s.pl := rfl
@[simp] theorem State.assign_es (s : State) (k : FaultKind) (r : Response) :
    (s.assign k r).es = s.es := rfl
@[simp] theorem State.assign_tc (s : State) (k : FaultKind) (r : Response) :
    (s.assign k r).tc = s.tc := rfl
@[simp] theorem State.assign_rl (s : State) (k : FaultKind) (r : Response) :
    (s.assign k r).rl = s.rl := rfl
@[simp] theorem State.assign_nu (s : State) (k : FaultKind) (r : Response) :
    (s.assign k r).nu = s.nu := rfl
@[simp] theorem State.assign_lp (s : State) (k : FaultKind) (r : Response) :
    (s.assign k r).lp = s.lp := rfl
@[simp] theorem State.assign_staged (s : State) (k : FaultKind) (r : Response) :
    (s.assign k r).staged = s.staged := rfl
@[simp] theorem State.assign_out (s : State) (k : FaultKind) (r : Response) :
    (s.assign k r).out = s.out := rfl
@[simp] theorem State.assign_pending (s : State) (k : FaultKind) (r : Response) :
    (s.assign k r).pending = s.pending := rfl
@[simp] theorem State.replied_fs (s : State) (r : Reply) :
    (s.replied r).fs = s.fs := rfl
@[simp] theorem State.replied_admission (s : State) (r : Reply) :
    (s.replied r).admission = s.admission := rfl
@[simp] theorem State.replied_pt (s : State) (r : Reply) :
    (s.replied r).pt = s.pt := rfl
@[simp] theorem State.replied_du (s : State) (r : Reply) :
    (s.replied r).du = s.du := rfl
@[simp] theorem State.replied_stu (s : State) (r : Reply) :
    (s.replied r).stu = s.stu := rfl
@[simp] theorem State.replied_pl (s : State) (r : Reply) :
    (s.replied r).pl = s.pl := rfl
@[simp] theorem State.replied_es (s : State) (r : Reply) :
    (s.replied r).es = s.es := rfl
@[simp] theorem State.replied_tc (s : State) (r : Reply) :
    (s.replied r).tc = s.tc := rfl
@[simp] theorem State.replied_fu (s : State) (r : Reply) :
    (s.replied r).fu = s.fu := rfl
@[simp] theorem State.replied_rl (s : State) (r : Reply) :
    (s.replied r).rl = s.rl := rfl
@[simp] theorem State.replied_nu (s : State) (r : Reply) :
    (s.replied r).nu = s.nu := rfl
@[simp] theorem State.replied_lp (s : State) (r : Reply) :
    (s.replied r).lp = s.lp := rfl
@[simp] theorem State.replied_staged (s : State) (r : Reply) :
    (s.replied r).staged = s.staged := rfl
@[simp] theorem State.replied_pending (s : State) (r : Reply) :
    (s.replied r).pending = s.pending := rfl
@[simp] theorem State.dropExposure_fs (s : State) :
    (s.dropExposure).fs = s.fs := rfl
@[simp] theorem State.dropExposure_admission (s : State) :
    (s.dropExposure).admission = s.admission := rfl
@[simp] theorem State.dropExposure_pt (s : State) :
    (s.dropExposure).pt = s.pt := rfl
@[simp] theorem State.dropExposure_stu (s : State) :
    (s.dropExposure).stu = s.stu := rfl
@[simp] theorem State.dropExposure_pl (s : State) :
    (s.dropExposure).pl = s.pl := rfl
@[simp] theorem State.dropExposure_fu (s : State) :
    (s.dropExposure).fu = s.fu := rfl
@[simp] theorem State.dropExposure_rl (s : State) :
    (s.dropExposure).rl = s.rl := rfl
@[simp] theorem State.dropExposure_nu (s : State) :
    (s.dropExposure).nu = s.nu := rfl
@[simp] theorem State.dropExposure_lp (s : State) :
    (s.dropExposure).lp = s.lp := rfl
@[simp] theorem State.dropExposure_staged (s : State) :
    (s.dropExposure).staged = s.staged := rfl
@[simp] theorem State.dropExposure_out (s : State) :
    (s.dropExposure).out = s.out := rfl
@[simp] theorem State.dropExposure_pending (s : State) :
    (s.dropExposure).pending = s.pending := rfl
@[simp] theorem State.dropLine_fs (s : State) :
    (s.dropLine).fs = s.fs := rfl
@[simp] theorem State.dropLine_admission (s : State) :
    (s.dropLine).admission = s.admission := rfl
@[simp] theorem State.dropLine_pt (s : State) :
    (s.dropLine).pt = s.pt := rfl
@[simp] theorem State.dropLine_stu (s : State) :
    (s.dropLine).stu = s.stu := rfl
@[simp] theorem State.dropLine_pl (s : State) :
    (s.dropLine).pl = s.pl := rfl
@[simp] theorem State.dropLine_tc (s : State) :
    (s.dropLine).tc = s.tc := rfl
@[simp] theorem State.dropLine_fu (s : State) :
    (s.dropLine).fu = s.fu := rfl
@[simp] theorem State.dropLine_rl (s : State) :
    (s.dropLine).rl = s.rl := rfl
@[simp] theorem State.dropLine_nu (s : State) :
    (s.dropLine).nu = s.nu := rfl
@[simp] theorem State.dropLine_lp (s : State) :
    (s.dropLine).lp = s.lp := rfl
@[simp] theorem State.dropLine_staged (s : State) :
    (s.dropLine).staged = s.staged := rfl
@[simp] theorem State.dropLine_out (s : State) :
    (s.dropLine).out = s.out := rfl
@[simp] theorem State.dropLine_pending (s : State) :
    (s.dropLine).pending = s.pending := rfl
@[simp] theorem State.polygonStop_fs (s : State) :
    (s.polygonStop).fs = s.fs := rfl
@[simp] theorem State.polygonStop_admission (s : State) :
    (s.polygonStop).admission = s.admission := rfl
@[simp] theorem State.polygonStop_pt (s : State) :
    (s.polygonStop).pt = s.pt := rfl
@[simp] theorem State.polygonStop_du (s : State) :
    (s.polygonStop).du = s.du := rfl
@[simp] theorem State.polygonStop_pl (s : State) :
    (s.polygonStop).pl = s.pl := rfl
@[simp] theorem State.polygonStop_es (s : State) :
    (s.polygonStop).es = s.es := rfl
@[simp] theorem State.polygonStop_tc (s : State) :
    (s.polygonStop).tc = s.tc := rfl
@[simp] theorem State.polygonStop_fu (s : State) :
    (s.polygonStop).fu = s.fu := rfl
@[simp] theorem State.polygonStop_rl (s : State) :
    (s.polygonStop).rl = s.rl := rfl
@[simp] theorem State.polygonStop_nu (s : State) :
    (s.polygonStop).nu = s.nu := rfl
@[simp] theorem State.polygonStop_lp (s : State) :
    (s.polygonStop).lp = s.lp := rfl
@[simp] theorem State.polygonStop_staged (s : State) :
    (s.polygonStop).staged = s.staged := rfl
@[simp] theorem State.polygonStop_pending (s : State) :
    (s.polygonStop).pending = s.pending := rfl
@[simp] theorem State.stopStage_fs (s : State) :
    (s.stopStage).fs = s.fs := rfl
@[simp] theorem State.stopStage_admission (s : State) :
    (s.stopStage).admission = s.admission := rfl
@[simp] theorem State.stopStage_pt (s : State) :
    (s.stopStage).pt = s.pt := rfl
@[simp] theorem State.stopStage_du (s : State) :
    (s.stopStage).du = s.du := rfl
@[simp] theorem State.stopStage_stu (s : State) :
    (s.stopStage).stu = s.stu := rfl
@[simp] theorem State.stopStage_pl (s : State) :
    (s.stopStage).pl = s.pl := rfl
@[simp] theorem State.stopStage_tc (s : State) :
    (s.stopStage).tc = s.tc := rfl
@[simp] theorem State.stopStage_fu (s : State) :
    (s.stopStage).fu = s.fu := rfl
@[simp] theorem State.stopStage_rl (s : State) :
    (s.stopStage).rl = s.rl := rfl
@[simp] theorem State.stopStage_nu (s : State) :
    (s.stopStage).nu = s.nu := rfl
@[simp] theorem State.stopStage_lp (s : State) :
    (s.stopStage).lp = s.lp := rfl
@[simp] theorem State.stopStage_staged (s : State) :
    (s.stopStage).staged = s.staged := rfl
@[simp] theorem State.stopStage_pending (s : State) :
    (s.stopStage).pending = s.pending := rfl
@[simp] theorem State.beginPrint_fs (s : State) (m : Mark) :
    (s.beginPrint m).fs = s.fs := rfl
@[simp] theorem State.beginPrint_admission (s : State) (m : Mark) :
    (s.beginPrint m).admission = s.admission := rfl
@[simp] theorem State.beginPrint_pt (s : State) (m : Mark) :
    (s.beginPrint m).pt = s.pt := rfl
@[simp] theorem State.beginPrint_du (s : State) (m : Mark) :
    (s.beginPrint m).du = s.du := rfl
@[simp] theorem State.beginPrint_stu (s : State) (m : Mark) :
    (s.beginPrint m).stu = s.stu := rfl
@[simp] theorem State.beginPrint_pl (s : State) (m : Mark) :
    (s.beginPrint m).pl = s.pl := rfl
@[simp] theorem State.beginPrint_es (s : State) (m : Mark) :
    (s.beginPrint m).es = s.es := rfl
@[simp] theorem State.beginPrint_fu (s : State) (m : Mark) :
    (s.beginPrint m).fu = s.fu := rfl
@[simp] theorem State.beginPrint_rl (s : State) (m : Mark) :
    (s.beginPrint m).rl = s.rl := rfl
@[simp] theorem State.beginPrint_nu (s : State) (m : Mark) :
    (s.beginPrint m).nu = s.nu := rfl
@[simp] theorem State.beginPrint_lp (s : State) (m : Mark) :
    (s.beginPrint m).lp = s.lp := rfl
@[simp] theorem State.beginPrint_staged (s : State) (m : Mark) :
    (s.beginPrint m).staged = s.staged := rfl
@[simp] theorem State.beginPrint_pending (s : State) (m : Mark) :
    (s.beginPrint m).pending = s.pending := rfl
@[simp] theorem State.stopEngineTimers_fs (s : State) :
    (s.stopEngineTimers).fs = s.fs := rfl
@[simp] theorem State.stopEngineTimers_admission (s : State) :
    (s.stopEngineTimers).admission = s.admission := rfl
@[simp] theorem State.stopEngineTimers_pt (s : State) :
    (s.stopEngineTimers).pt = s.pt := rfl
@[simp] theorem State.stopEngineTimers_du (s : State) :
    (s.stopEngineTimers).du = s.du := rfl
@[simp] theorem State.stopEngineTimers_stu (s : State) :
    (s.stopEngineTimers).stu = s.stu := rfl
@[simp] theorem State.stopEngineTimers_pl (s : State) :
    (s.stopEngineTimers).pl = s.pl := rfl
@[simp] theorem State.stopEngineTimers_tc (s : State) :
    (s.stopEngineTimers).tc = s.tc := rfl
@[simp] theorem State.stopEngineTimers_fu (s : State) :
    (s.stopEngineTimers).fu = s.fu := rfl
@[simp] theorem State.stopEngineTimers_rl (s : State) :
    (s.stopEngineTimers).rl = s.rl := rfl
@[simp] theorem State.stopEngineTimers_nu (s : State) :
    (s.stopEngineTimers).nu = s.nu := rfl
@[simp] theorem State.stopEngineTimers_lp (s : State) :
    (s.stopEngineTimers).lp = s.lp := rfl
@[simp] theorem State.stopEngineTimers_staged (s : State) :
    (s.stopEngineTimers).staged = s.staged := rfl
@[simp] theorem State.stopEngineTimers_out (s : State) :
    (s.stopEngineTimers).out = s.out := rfl
@[simp] theorem State.stopEngineTimers_pending (s : State) :
    (s.stopEngineTimers).pending = s.pending := rfl
@[simp] theorem State.sendNotice_fs (s : State) (n : Notice) :
    (s.sendNotice n).fs = s.fs := by
  unfold State.sendNotice; split <;> rfl
@[simp] theorem State.sendNotice_admission (s : State) (n : Notice) :
    (s.sendNotice n).admission = s.admission := by
  unfold State.sendNotice; split <;> rfl
@[simp] theorem State.sendNotice_pt (s : State) (n : Notice) :
    (s.sendNotice n).pt = s.pt := by
  unfold State.sendNotice; split <;> rfl
@[simp] theorem State.sendNotice_du (s : State) (n : Notice) :
    (s.sendNotice n).du = s.du := by
  unfold State.sendNotice; split <;> rfl
@[simp] theorem State.sendNotice_stu (s : State) (n : Notice) :
    (s.sendNotice n).stu = s.stu := by
  unfold State.sendNotice; split <;> rfl
@[simp] theorem State.sendNotice_pl (s : State) (n : Notice) :
    (s.sendNotice n).pl = s.pl := by
  unfold State.sendNotice; split <;> rfl
@[simp] theorem State.sendNotice_es (s : State) (n : Notice) :
    (s.sendNotice n).es = s.es := by
  unfold State.sendNotice; split <;> rfl
@[simp] theorem State.sendNotice_tc (s : State) (n : Notice) :
    (s.sendNotice n).tc = s.tc := by
  unfold State.sendNotice; split <;> rfl
@[simp] theorem State.sendNotice_fu (s : State) (n : Notice) :
    (s.sendNotice n).fu = s.fu := by
  unfold State.sendNotice; split <;> rfl
@[simp] theorem State.sendNotice_rl (s : State) (n : Notice) :
    (s.sendNotice n).rl = s.rl := by
  unfold State.sendNotice; split <;> rfl
@[simp] theorem State.sendNotice_nu (s : State) (n : Notice) :
    (s.sendNotice n).nu = s.nu := by
  unfold State.sendNotice; split <;> rfl
@[simp] theorem State.sendNotice_lp (s : State) (n : Notice) :
    (s.sendNotice n).lp = s.lp := by
  unfold State.sendNotice; split <;> rfl
@[simp] theorem State.sendNotice_staged (s : State) (n : Notice) :
    (s.sendNotice n).staged = s.staged := by
  unfold State.sendNotice; split <;> rfl
@[simp] theorem State.sendNotice_pending (s : State) (n : Notice) :
    (s.sendNotice n).pending = s.pending := by
  unfold State.sendNotice; split <;> rfl
@[simp] theorem State.holdNotice_fs (s : State) (p : NoticePayload) :
    (s.holdNotice p).fs = s.fs := by
  unfold State.holdNotice; split <;> rfl
@[simp] theorem State.holdNotice_admission (s : State) (p : NoticePayload) :
    (s.holdNotice p).admission = s.admission := by
  unfold State.holdNotice; split <;> rfl
@[simp] theorem State.holdNotice_pt (s : State) (p : NoticePayload) :
    (s.holdNotice p).pt = s.pt := by
  unfold State.holdNotice; split <;> rfl
@[simp] theorem State.holdNotice_du (s : State) (p : NoticePayload) :
    (s.holdNotice p).du = s.du := by
  unfold State.holdNotice; split <;> rfl
@[simp] theorem State.holdNotice_stu (s : State) (p : NoticePayload) :
    (s.holdNotice p).stu = s.stu := by
  unfold State.holdNotice; split <;> rfl
@[simp] theorem State.holdNotice_pl (s : State) (p : NoticePayload) :
    (s.holdNotice p).pl = s.pl := by
  unfold State.holdNotice; split <;> rfl
@[simp] theorem State.holdNotice_es (s : State) (p : NoticePayload) :
    (s.holdNotice p).es = s.es := by
  unfold State.holdNotice; split <;> rfl
@[simp] theorem State.holdNotice_tc (s : State) (p : NoticePayload) :
    (s.holdNotice p).tc = s.tc := by
  unfold State.holdNotice; split <;> rfl
@[simp] theorem State.holdNotice_fu (s : State) (p : NoticePayload) :
    (s.holdNotice p).fu = s.fu := by
  unfold State.holdNotice; split <;> rfl
@[simp] theorem State.holdNotice_rl (s : State) (p : NoticePayload) :
    (s.holdNotice p).rl = s.rl := by
  unfold State.holdNotice; split <;> rfl
@[simp] theorem State.holdNotice_lp (s : State) (p : NoticePayload) :
    (s.holdNotice p).lp = s.lp := by
  unfold State.holdNotice; split <;> rfl
@[simp] theorem State.holdNotice_staged (s : State) (p : NoticePayload) :
    (s.holdNotice p).staged = s.staged := by
  unfold State.holdNotice; split <;> rfl
@[simp] theorem State.holdNotice_out (s : State) (p : NoticePayload) :
    (s.holdNotice p).out = s.out := by
  unfold State.holdNotice; split <;> rfl
@[simp] theorem State.holdNotice_pending (s : State) (p : NoticePayload) :
    (s.holdNotice p).pending = s.pending := by
  unfold State.holdNotice; split <;> rfl
@[simp] theorem State.notice_fs (s : State) (p : NoticePayload) :
    (s.notice p).fs = s.fs := by
  unfold State.notice; split <;> simp
@[simp] theorem State.notice_admission (s : State) (p : NoticePayload) :
    (s.notice p).admission = s.admission := by
  unfold State.notice; split <;> simp
@[simp] theorem State.notice_pt (s : State) (p : NoticePayload) :
    (s.notice p).pt = s.pt := by
  unfold State.notice; split <;> simp
@[simp] theorem State.notice_du (s : State) (p : NoticePayload) :
    (s.notice p).du = s.du := by
  unfold State.notice; split <;> simp
@[simp] theorem State.notice_stu (s : State) (p : NoticePayload) :
    (s.notice p).stu = s.stu := by
  unfold State.notice; split <;> simp
@[simp] theorem State.notice_pl (s : State) (p : NoticePayload) :
    (s.notice p).pl = s.pl := by
  unfold State.notice; split <;> simp
@[simp] theorem State.notice_es (s : State) (p : NoticePayload) :
    (s.notice p).es = s.es := by
  unfold State.notice; split <;> simp
@[simp] theorem State.notice_tc (s : State) (p : NoticePayload) :
    (s.notice p).tc = s.tc := by
  unfold State.notice; split <;> simp
@[simp] theorem State.notice_fu (s : State) (p : NoticePayload) :
    (s.notice p).fu = s.fu := by
  unfold State.notice; split <;> simp
@[simp] theorem State.notice_rl (s : State) (p : NoticePayload) :
    (s.notice p).rl = s.rl := by
  unfold State.notice; split <;> simp
@[simp] theorem State.notice_lp (s : State) (p : NoticePayload) :
    (s.notice p).lp = s.lp := by
  unfold State.notice; split <;> simp
@[simp] theorem State.notice_staged (s : State) (p : NoticePayload) :
    (s.notice p).staged = s.staged := by
  unfold State.notice; split <;> simp
@[simp] theorem State.notice_pending (s : State) (p : NoticePayload) :
    (s.notice p).pending = s.pending := by
  unfold State.notice; split <;> simp
@[simp] theorem State.stage_fs (s : State) (r : Reply) :
    (s.stage r).fs = s.fs := by
  unfold State.stage; split <;> rfl
@[simp] theorem State.stage_admission (s : State) (r : Reply) :
    (s.stage r).admission = s.admission := by
  unfold State.stage; split <;> rfl
@[simp] theorem State.stage_pt (s : State) (r : Reply) :
    (s.stage r).pt = s.pt := by
  unfold State.stage; split <;> rfl
@[simp] theorem State.stage_du (s : State) (r : Reply) :
    (s.stage r).du = s.du := by
  unfold State.stage; split <;> rfl
@[simp] theorem State.stage_stu (s : State) (r : Reply) :
    (s.stage r).stu = s.stu := by
  unfold State.stage; split <;> rfl
@[simp] theorem State.stage_pl (s : State) (r : Reply) :
    (s.stage r).pl = s.pl := by
  unfold State.stage; split <;> rfl
@[simp] theorem State.stage_es (s : State) (r : Reply) :
    (s.stage r).es = s.es := by
  unfold State.stage; split <;> rfl
@[simp] theorem State.stage_tc (s : State) (r : Reply) :
    (s.stage r).tc = s.tc := by
  unfold State.stage; split <;> rfl
@[simp] theorem State.stage_fu (s : State) (r : Reply) :
    (s.stage r).fu = s.fu := by
  unfold State.stage; split <;> rfl
@[simp] theorem State.stage_rl (s : State) (r : Reply) :
    (s.stage r).rl = s.rl := by
  unfold State.stage; split <;> rfl
@[simp] theorem State.stage_nu (s : State) (r : Reply) :
    (s.stage r).nu = s.nu := by
  unfold State.stage; split <;> rfl
@[simp] theorem State.stage_lp (s : State) (r : Reply) :
    (s.stage r).lp = s.lp := by
  unfold State.stage; split <;> rfl
@[simp] theorem State.stage_out (s : State) (r : Reply) :
    (s.stage r).out = s.out := by
  unfold State.stage; split <;> rfl
@[simp] theorem State.stage_pending (s : State) (r : Reply) :
    (s.stage r).pending = s.pending := by
  unfold State.stage; split <;> rfl
@[simp] theorem State.setPhase_admission (s : State) (i : Fin 4) (p : Phase) :
    (s.setPhase i p).admission = s.admission := by
  unfold State.setPhase; split <;> rfl
@[simp] theorem State.setPhase_pt (s : State) (i : Fin 4) (p : Phase) :
    (s.setPhase i p).pt = s.pt := by
  unfold State.setPhase; split <;> rfl
@[simp] theorem State.setPhase_du (s : State) (i : Fin 4) (p : Phase) :
    (s.setPhase i p).du = s.du := by
  unfold State.setPhase; split <;> rfl
@[simp] theorem State.setPhase_stu (s : State) (i : Fin 4) (p : Phase) :
    (s.setPhase i p).stu = s.stu := by
  unfold State.setPhase; split <;> rfl
@[simp] theorem State.setPhase_pl (s : State) (i : Fin 4) (p : Phase) :
    (s.setPhase i p).pl = s.pl := by
  unfold State.setPhase; split <;> rfl
@[simp] theorem State.setPhase_es (s : State) (i : Fin 4) (p : Phase) :
    (s.setPhase i p).es = s.es := by
  unfold State.setPhase; split <;> rfl
@[simp] theorem State.setPhase_tc (s : State) (i : Fin 4) (p : Phase) :
    (s.setPhase i p).tc = s.tc := by
  unfold State.setPhase; split <;> rfl
@[simp] theorem State.setPhase_fu (s : State) (i : Fin 4) (p : Phase) :
    (s.setPhase i p).fu = s.fu := by
  unfold State.setPhase; split <;> rfl
@[simp] theorem State.setPhase_rl (s : State) (i : Fin 4) (p : Phase) :
    (s.setPhase i p).rl = s.rl := by
  unfold State.setPhase; split <;> rfl
@[simp] theorem State.setPhase_nu (s : State) (i : Fin 4) (p : Phase) :
    (s.setPhase i p).nu = s.nu := by
  unfold State.setPhase; split <;> rfl
@[simp] theorem State.setPhase_lp (s : State) (i : Fin 4) (p : Phase) :
    (s.setPhase i p).lp = s.lp := by
  unfold State.setPhase; split <;> rfl
@[simp] theorem State.setPhase_staged (s : State) (i : Fin 4) (p : Phase) :
    (s.setPhase i p).staged = s.staged := by
  unfold State.setPhase; split <;> rfl
@[simp] theorem State.setPhase_out (s : State) (i : Fin 4) (p : Phase) :
    (s.setPhase i p).out = s.out := by
  unfold State.setPhase; split <;> rfl
@[simp] theorem State.setPhase_pending (s : State) (i : Fin 4) (p : Phase) :
    (s.setPhase i p).pending = s.pending := by
  unfold State.setPhase; split <;> rfl
@[simp] theorem State.freeSlot_admission (s : State) (i : Fin 4) :
    (s.freeSlot i).admission = s.admission := by
  unfold State.freeSlot; split <;> rfl
@[simp] theorem State.freeSlot_du (s : State) (i : Fin 4) :
    (s.freeSlot i).du = s.du := by
  unfold State.freeSlot; split <;> rfl
@[simp] theorem State.freeSlot_stu (s : State) (i : Fin 4) :
    (s.freeSlot i).stu = s.stu := by
  unfold State.freeSlot; split <;> rfl
@[simp] theorem State.freeSlot_pl (s : State) (i : Fin 4) :
    (s.freeSlot i).pl = s.pl := by
  unfold State.freeSlot; split <;> rfl
@[simp] theorem State.freeSlot_es (s : State) (i : Fin 4) :
    (s.freeSlot i).es = s.es := by
  unfold State.freeSlot; split <;> rfl
@[simp] theorem State.freeSlot_tc (s : State) (i : Fin 4) :
    (s.freeSlot i).tc = s.tc := by
  unfold State.freeSlot; split <;> rfl
@[simp] theorem State.freeSlot_fu (s : State) (i : Fin 4) :
    (s.freeSlot i).fu = s.fu := by
  unfold State.freeSlot; split <;> rfl
@[simp] theorem State.freeSlot_rl (s : State) (i : Fin 4) :
    (s.freeSlot i).rl = s.rl := by
  unfold State.freeSlot; split <;> rfl
@[simp] theorem State.freeSlot_nu (s : State) (i : Fin 4) :
    (s.freeSlot i).nu = s.nu := by
  unfold State.freeSlot; split <;> rfl
@[simp] theorem State.freeSlot_lp (s : State) (i : Fin 4) :
    (s.freeSlot i).lp = s.lp := by
  unfold State.freeSlot; split <;> rfl
@[simp] theorem State.freeSlot_staged (s : State) (i : Fin 4) :
    (s.freeSlot i).staged = s.staged := by
  unfold State.freeSlot; split <;> rfl
@[simp] theorem State.freeSlot_out (s : State) (i : Fin 4) :
    (s.freeSlot i).out = s.out := by
  unfold State.freeSlot; split <;> rfl
@[simp] theorem State.freeSlot_pending (s : State) (i : Fin 4) :
    (s.freeSlot i).pending = s.pending := by
  unfold State.freeSlot; split <;> rfl
@[simp] theorem State.joinTail_admission (s : State) (i : Fin 4) :
    (s.joinTail i).admission = s.admission := by simp [State.joinTail]
@[simp] theorem State.joinTail_pt (s : State) (i : Fin 4) :
    (s.joinTail i).pt = s.pt := by simp [State.joinTail]
@[simp] theorem State.joinTail_du (s : State) (i : Fin 4) :
    (s.joinTail i).du = s.du := by simp [State.joinTail]
@[simp] theorem State.joinTail_stu (s : State) (i : Fin 4) :
    (s.joinTail i).stu = s.stu := by simp [State.joinTail]
@[simp] theorem State.joinTail_pl (s : State) (i : Fin 4) :
    (s.joinTail i).pl = s.pl := by simp [State.joinTail]
@[simp] theorem State.joinTail_es (s : State) (i : Fin 4) :
    (s.joinTail i).es = s.es := by simp [State.joinTail]
@[simp] theorem State.joinTail_tc (s : State) (i : Fin 4) :
    (s.joinTail i).tc = s.tc := by simp [State.joinTail]
@[simp] theorem State.joinTail_fu (s : State) (i : Fin 4) :
    (s.joinTail i).fu = s.fu := by simp [State.joinTail]
@[simp] theorem State.joinTail_rl (s : State) (i : Fin 4) :
    (s.joinTail i).rl = s.rl := by simp [State.joinTail]
@[simp] theorem State.joinTail_nu (s : State) (i : Fin 4) :
    (s.joinTail i).nu = s.nu := by simp [State.joinTail]
@[simp] theorem State.joinTail_lp (s : State) (i : Fin 4) :
    (s.joinTail i).lp = s.lp := by simp [State.joinTail]
@[simp] theorem State.joinTail_staged (s : State) (i : Fin 4) :
    (s.joinTail i).staged = s.staged := by simp [State.joinTail]
@[simp] theorem State.joinTail_out (s : State) (i : Fin 4) :
    (s.joinTail i).out = s.out := by simp [State.joinTail]
@[simp] theorem State.joinTail_pending (s : State) (i : Fin 4) :
    (s.joinTail i).pending = s.pending := by simp [State.joinTail]
@[simp] theorem State.joinHead_admission (s : State) (i : Fin 4) :
    (s.joinHead i).admission = s.admission := by simp [State.joinHead]
@[simp] theorem State.joinHead_pt (s : State) (i : Fin 4) :
    (s.joinHead i).pt = s.pt := by simp [State.joinHead]
@[simp] theorem State.joinHead_du (s : State) (i : Fin 4) :
    (s.joinHead i).du = s.du := by simp [State.joinHead]
@[simp] theorem State.joinHead_stu (s : State) (i : Fin 4) :
    (s.joinHead i).stu = s.stu := by simp [State.joinHead]
@[simp] theorem State.joinHead_pl (s : State) (i : Fin 4) :
    (s.joinHead i).pl = s.pl := by simp [State.joinHead]
@[simp] theorem State.joinHead_es (s : State) (i : Fin 4) :
    (s.joinHead i).es = s.es := by simp [State.joinHead]
@[simp] theorem State.joinHead_tc (s : State) (i : Fin 4) :
    (s.joinHead i).tc = s.tc := by simp [State.joinHead]
@[simp] theorem State.joinHead_fu (s : State) (i : Fin 4) :
    (s.joinHead i).fu = s.fu := by simp [State.joinHead]
@[simp] theorem State.joinHead_rl (s : State) (i : Fin 4) :
    (s.joinHead i).rl = s.rl := by simp [State.joinHead]
@[simp] theorem State.joinHead_nu (s : State) (i : Fin 4) :
    (s.joinHead i).nu = s.nu := by simp [State.joinHead]
@[simp] theorem State.joinHead_lp (s : State) (i : Fin 4) :
    (s.joinHead i).lp = s.lp := by simp [State.joinHead]
@[simp] theorem State.joinHead_staged (s : State) (i : Fin 4) :
    (s.joinHead i).staged = s.staged := by simp [State.joinHead]
@[simp] theorem State.joinHead_out (s : State) (i : Fin 4) :
    (s.joinHead i).out = s.out := by simp [State.joinHead]
@[simp] theorem State.joinHead_pending (s : State) (i : Fin 4) :
    (s.joinHead i).pending = s.pending := by simp [State.joinHead]
@[simp] theorem State.announceLog_fs (s : State) :
    (s.announceLog).fs = s.fs := by
  unfold State.announceLog; split <;> simp
@[simp] theorem State.announceLog_admission (s : State) :
    (s.announceLog).admission = s.admission := by
  unfold State.announceLog; split <;> simp
@[simp] theorem State.announceLog_pt (s : State) :
    (s.announceLog).pt = s.pt := by
  unfold State.announceLog; split <;> simp
@[simp] theorem State.announceLog_du (s : State) :
    (s.announceLog).du = s.du := by
  unfold State.announceLog; split <;> simp
@[simp] theorem State.announceLog_stu (s : State) :
    (s.announceLog).stu = s.stu := by
  unfold State.announceLog; split <;> simp
@[simp] theorem State.announceLog_pl (s : State) :
    (s.announceLog).pl = s.pl := by
  unfold State.announceLog; split <;> simp
@[simp] theorem State.announceLog_es (s : State) :
    (s.announceLog).es = s.es := by
  unfold State.announceLog; split <;> simp
@[simp] theorem State.announceLog_tc (s : State) :
    (s.announceLog).tc = s.tc := by
  unfold State.announceLog; split <;> simp
@[simp] theorem State.announceLog_fu (s : State) :
    (s.announceLog).fu = s.fu := by
  unfold State.announceLog; split <;> simp
@[simp] theorem State.announceLog_rl (s : State) :
    (s.announceLog).rl = s.rl := by
  unfold State.announceLog; split <;> simp
@[simp] theorem State.announceLog_lp (s : State) :
    (s.announceLog).lp = s.lp := by
  unfold State.announceLog; split <;> simp
@[simp] theorem State.announceLog_staged (s : State) :
    (s.announceLog).staged = s.staged := by
  unfold State.announceLog; split <;> simp
@[simp] theorem State.announceLog_pending (s : State) :
    (s.announceLog).pending = s.pending := by
  unfold State.announceLog; split <;> simp
@[simp] theorem State.append_fs (s : State) (f : Footage) (b : LogBody) :
    (s.append f b).fs = s.fs := by simp [State.append]
@[simp] theorem State.append_admission (s : State) (f : Footage) (b : LogBody) :
    (s.append f b).admission = s.admission := by simp [State.append]
@[simp] theorem State.append_pt (s : State) (f : Footage) (b : LogBody) :
    (s.append f b).pt = s.pt := by simp [State.append]
@[simp] theorem State.append_du (s : State) (f : Footage) (b : LogBody) :
    (s.append f b).du = s.du := by simp [State.append]
@[simp] theorem State.append_stu (s : State) (f : Footage) (b : LogBody) :
    (s.append f b).stu = s.stu := by simp [State.append]
@[simp] theorem State.append_pl (s : State) (f : Footage) (b : LogBody) :
    (s.append f b).pl = s.pl := by simp [State.append]
@[simp] theorem State.append_es (s : State) (f : Footage) (b : LogBody) :
    (s.append f b).es = s.es := by simp [State.append]
@[simp] theorem State.append_tc (s : State) (f : Footage) (b : LogBody) :
    (s.append f b).tc = s.tc := by simp [State.append]
@[simp] theorem State.append_fu (s : State) (f : Footage) (b : LogBody) :
    (s.append f b).fu = s.fu := by simp [State.append]
@[simp] theorem State.append_lp (s : State) (f : Footage) (b : LogBody) :
    (s.append f b).lp = s.lp := by simp [State.append]
@[simp] theorem State.append_staged (s : State) (f : Footage) (b : LogBody) :
    (s.append f b).staged = s.staged := by simp [State.append]
@[simp] theorem State.append_pending (s : State) (f : Footage) (b : LogBody) :
    (s.append f b).pending = s.pending := by simp [State.append]
@[simp] theorem State.holdBeam_fs (s : State) (e : Engine) :
    (s.holdBeam e).fs = s.fs := by
  unfold State.holdBeam; split <;> simp
@[simp] theorem State.holdBeam_admission (s : State) (e : Engine) :
    (s.holdBeam e).admission = s.admission := by
  unfold State.holdBeam; split <;> simp
@[simp] theorem State.holdBeam_pt (s : State) (e : Engine) :
    (s.holdBeam e).pt = s.pt := by
  unfold State.holdBeam; split <;> simp
@[simp] theorem State.holdBeam_du (s : State) (e : Engine) :
    (s.holdBeam e).du = s.du := by
  unfold State.holdBeam; split <;> simp
@[simp] theorem State.holdBeam_stu (s : State) (e : Engine) :
    (s.holdBeam e).stu = s.stu := by
  unfold State.holdBeam; split <;> simp
@[simp] theorem State.holdBeam_pl (s : State) (e : Engine) :
    (s.holdBeam e).pl = s.pl := by
  unfold State.holdBeam; split <;> simp
@[simp] theorem State.holdBeam_es (s : State) (e : Engine) :
    (s.holdBeam e).es = s.es := by
  unfold State.holdBeam; split <;> simp
@[simp] theorem State.holdBeam_tc (s : State) (e : Engine) :
    (s.holdBeam e).tc = s.tc := by
  unfold State.holdBeam; split <;> simp
@[simp] theorem State.holdBeam_fu (s : State) (e : Engine) :
    (s.holdBeam e).fu = s.fu := by
  unfold State.holdBeam; split <;> simp
@[simp] theorem State.holdBeam_rl (s : State) (e : Engine) :
    (s.holdBeam e).rl = s.rl := by
  unfold State.holdBeam; split <;> simp
@[simp] theorem State.holdBeam_nu (s : State) (e : Engine) :
    (s.holdBeam e).nu = s.nu := by
  unfold State.holdBeam; split <;> simp
@[simp] theorem State.holdBeam_lp (s : State) (e : Engine) :
    (s.holdBeam e).lp = s.lp := by
  unfold State.holdBeam; split <;> simp
@[simp] theorem State.holdBeam_staged (s : State) (e : Engine) :
    (s.holdBeam e).staged = s.staged := by
  unfold State.holdBeam; split <;> simp
@[simp] theorem State.holdBeam_pending (s : State) (e : Engine) :
    (s.holdBeam e).pending = s.pending := by
  unfold State.holdBeam; split <;> simp
@[simp] theorem State.setEngine_fs (s : State) (e : Engine) (c : Option FaultKind) :
    (s.setEngine e c).fs = s.fs := by simp [State.setEngine]
@[simp] theorem State.setEngine_admission (s : State) (e : Engine) (c : Option FaultKind) :
    (s.setEngine e c).admission = s.admission := by simp [State.setEngine]
@[simp] theorem State.setEngine_pt (s : State) (e : Engine) (c : Option FaultKind) :
    (s.setEngine e c).pt = s.pt := by simp [State.setEngine]
@[simp] theorem State.setEngine_du (s : State) (e : Engine) (c : Option FaultKind) :
    (s.setEngine e c).du = s.du := by simp [State.setEngine]
@[simp] theorem State.setEngine_stu (s : State) (e : Engine) (c : Option FaultKind) :
    (s.setEngine e c).stu = s.stu := by simp [State.setEngine]
@[simp] theorem State.setEngine_pl (s : State) (e : Engine) (c : Option FaultKind) :
    (s.setEngine e c).pl = s.pl := by simp [State.setEngine]
@[simp] theorem State.setEngine_tc (s : State) (e : Engine) (c : Option FaultKind) :
    (s.setEngine e c).tc = s.tc := by simp [State.setEngine]
@[simp] theorem State.setEngine_fu (s : State) (e : Engine) (c : Option FaultKind) :
    (s.setEngine e c).fu = s.fu := by simp [State.setEngine]
@[simp] theorem State.setEngine_rl (s : State) (e : Engine) (c : Option FaultKind) :
    (s.setEngine e c).rl = s.rl := by simp [State.setEngine]
@[simp] theorem State.setEngine_lp (s : State) (e : Engine) (c : Option FaultKind) :
    (s.setEngine e c).lp = s.lp := by simp [State.setEngine]
@[simp] theorem State.setEngine_staged (s : State) (e : Engine) (c : Option FaultKind) :
    (s.setEngine e c).staged = s.staged := by simp [State.setEngine]
@[simp] theorem State.setEngine_pending (s : State) (e : Engine) (c : Option FaultKind) :
    (s.setEngine e c).pending = s.pending := by simp [State.setEngine]
@[simp] theorem State.answer_fs (s : State) (tag : Option Nat) (q : Request) (a : Answer) :
    (s.answer tag q a).fs = s.fs := by
  cases tag <;> simp [State.answer]
@[simp] theorem State.answer_admission (s : State) (tag : Option Nat) (q : Request) (a : Answer) :
    (s.answer tag q a).admission = s.admission := by
  cases tag <;> simp [State.answer]
@[simp] theorem State.answer_pt (s : State) (tag : Option Nat) (q : Request) (a : Answer) :
    (s.answer tag q a).pt = s.pt := by
  cases tag <;> simp [State.answer]
@[simp] theorem State.answer_du (s : State) (tag : Option Nat) (q : Request) (a : Answer) :
    (s.answer tag q a).du = s.du := by
  cases tag <;> simp [State.answer]
@[simp] theorem State.answer_stu (s : State) (tag : Option Nat) (q : Request) (a : Answer) :
    (s.answer tag q a).stu = s.stu := by
  cases tag <;> simp [State.answer]
@[simp] theorem State.answer_pl (s : State) (tag : Option Nat) (q : Request) (a : Answer) :
    (s.answer tag q a).pl = s.pl := by
  cases tag <;> simp [State.answer]
@[simp] theorem State.answer_es (s : State) (tag : Option Nat) (q : Request) (a : Answer) :
    (s.answer tag q a).es = s.es := by
  cases tag <;> simp [State.answer]
@[simp] theorem State.answer_tc (s : State) (tag : Option Nat) (q : Request) (a : Answer) :
    (s.answer tag q a).tc = s.tc := by
  cases tag <;> simp [State.answer]
@[simp] theorem State.answer_fu (s : State) (tag : Option Nat) (q : Request) (a : Answer) :
    (s.answer tag q a).fu = s.fu := by
  cases tag <;> simp [State.answer]
@[simp] theorem State.answer_rl (s : State) (tag : Option Nat) (q : Request) (a : Answer) :
    (s.answer tag q a).rl = s.rl := by
  cases tag <;> simp [State.answer]
@[simp] theorem State.answer_nu (s : State) (tag : Option Nat) (q : Request) (a : Answer) :
    (s.answer tag q a).nu = s.nu := by
  cases tag <;> simp [State.answer]
@[simp] theorem State.answer_out (s : State) (tag : Option Nat) (q : Request) (a : Answer) :
    (s.answer tag q a).out = s.out := by
  cases tag <;> simp [State.answer]
@[simp] theorem State.answer_pending (s : State) (tag : Option Nat) (q : Request) (a : Answer) :
    (s.answer tag q a).pending = s.pending := by
  cases tag <;> simp [State.answer]
@[simp] theorem State.endReply_fs (s : State) (k : LongKind) (a : Answer) :
    (s.endReply k a).fs = s.fs := by
  unfold State.endReply; split <;> simp
@[simp] theorem State.endReply_admission (s : State) (k : LongKind) (a : Answer) :
    (s.endReply k a).admission = s.admission := by
  unfold State.endReply; split <;> simp
@[simp] theorem State.endReply_pt (s : State) (k : LongKind) (a : Answer) :
    (s.endReply k a).pt = s.pt := by
  unfold State.endReply; split <;> simp
@[simp] theorem State.endReply_du (s : State) (k : LongKind) (a : Answer) :
    (s.endReply k a).du = s.du := by
  unfold State.endReply; split <;> simp
@[simp] theorem State.endReply_stu (s : State) (k : LongKind) (a : Answer) :
    (s.endReply k a).stu = s.stu := by
  unfold State.endReply; split <;> simp
@[simp] theorem State.endReply_pl (s : State) (k : LongKind) (a : Answer) :
    (s.endReply k a).pl = s.pl := by
  unfold State.endReply; split <;> simp
@[simp] theorem State.endReply_tc (s : State) (k : LongKind) (a : Answer) :
    (s.endReply k a).tc = s.tc := by
  unfold State.endReply; split <;> simp
@[simp] theorem State.endReply_fu (s : State) (k : LongKind) (a : Answer) :
    (s.endReply k a).fu = s.fu := by
  unfold State.endReply; split <;> simp
@[simp] theorem State.endReply_rl (s : State) (k : LongKind) (a : Answer) :
    (s.endReply k a).rl = s.rl := by
  unfold State.endReply; split <;> simp
@[simp] theorem State.endReply_nu (s : State) (k : LongKind) (a : Answer) :
    (s.endReply k a).nu = s.nu := by
  unfold State.endReply; split <;> simp
@[simp] theorem State.endReply_out (s : State) (k : LongKind) (a : Answer) :
    (s.endReply k a).out = s.out := by
  unfold State.endReply; split <;> simp
@[simp] theorem State.endReply_pending (s : State) (k : LongKind) (a : Answer) :
    (s.endReply k a).pending = s.pending := by
  unfold State.endReply; split <;> simp
@[simp] theorem State.failReply_fs (s : State) (k : LongKind) (r : Reason) (n : Nat) :
    (s.failReply k r n).fs = s.fs := by simp [State.failReply]
@[simp] theorem State.failReply_admission (s : State) (k : LongKind) (r : Reason) (n : Nat) :
    (s.failReply k r n).admission = s.admission := by simp [State.failReply]
@[simp] theorem State.failReply_pt (s : State) (k : LongKind) (r : Reason) (n : Nat) :
    (s.failReply k r n).pt = s.pt := by simp [State.failReply]
@[simp] theorem State.failReply_du (s : State) (k : LongKind) (r : Reason) (n : Nat) :
    (s.failReply k r n).du = s.du := by simp [State.failReply]
@[simp] theorem State.failReply_stu (s : State) (k : LongKind) (r : Reason) (n : Nat) :
    (s.failReply k r n).stu = s.stu := by simp [State.failReply]
@[simp] theorem State.failReply_pl (s : State) (k : LongKind) (r : Reason) (n : Nat) :
    (s.failReply k r n).pl = s.pl := by simp [State.failReply]
@[simp] theorem State.failReply_tc (s : State) (k : LongKind) (r : Reason) (n : Nat) :
    (s.failReply k r n).tc = s.tc := by simp [State.failReply]
@[simp] theorem State.failReply_fu (s : State) (k : LongKind) (r : Reason) (n : Nat) :
    (s.failReply k r n).fu = s.fu := by simp [State.failReply]
@[simp] theorem State.failReply_rl (s : State) (k : LongKind) (r : Reason) (n : Nat) :
    (s.failReply k r n).rl = s.rl := by simp [State.failReply]
@[simp] theorem State.failReply_nu (s : State) (k : LongKind) (r : Reason) (n : Nat) :
    (s.failReply k r n).nu = s.nu := by simp [State.failReply]
@[simp] theorem State.failReply_out (s : State) (k : LongKind) (r : Reason) (n : Nat) :
    (s.failReply k r n).out = s.out := by simp [State.failReply]
@[simp] theorem State.failReply_pending (s : State) (k : LongKind) (r : Reason) (n : Nat) :
    (s.failReply k r n).pending = s.pending := by simp [State.failReply]
@[simp] theorem State.commandWheelStop_fs (s : State) (c : Channel) :
    (s.commandWheelStop c).fs = s.fs := by
  unfold State.commandWheelStop; split <;> simp
@[simp] theorem State.commandWheelStop_admission (s : State) (c : Channel) :
    (s.commandWheelStop c).admission = s.admission := by
  unfold State.commandWheelStop; split <;> simp
@[simp] theorem State.commandWheelStop_pt (s : State) (c : Channel) :
    (s.commandWheelStop c).pt = s.pt := by
  unfold State.commandWheelStop; split <;> simp
@[simp] theorem State.commandWheelStop_du (s : State) (c : Channel) :
    (s.commandWheelStop c).du = s.du := by
  unfold State.commandWheelStop; split <;> simp
@[simp] theorem State.commandWheelStop_stu (s : State) (c : Channel) :
    (s.commandWheelStop c).stu = s.stu := by
  unfold State.commandWheelStop; split <;> simp
@[simp] theorem State.commandWheelStop_pl (s : State) (c : Channel) :
    (s.commandWheelStop c).pl = s.pl := by
  unfold State.commandWheelStop; split <;> simp
@[simp] theorem State.commandWheelStop_es (s : State) (c : Channel) :
    (s.commandWheelStop c).es = s.es := by
  unfold State.commandWheelStop; split <;> simp
@[simp] theorem State.commandWheelStop_tc (s : State) (c : Channel) :
    (s.commandWheelStop c).tc = s.tc := by
  unfold State.commandWheelStop; split <;> simp
@[simp] theorem State.commandWheelStop_fu (s : State) (c : Channel) :
    (s.commandWheelStop c).fu = s.fu := by
  unfold State.commandWheelStop; split <;> simp
@[simp] theorem State.commandWheelStop_rl (s : State) (c : Channel) :
    (s.commandWheelStop c).rl = s.rl := by
  unfold State.commandWheelStop; split <;> simp
@[simp] theorem State.commandWheelStop_nu (s : State) (c : Channel) :
    (s.commandWheelStop c).nu = s.nu := by
  unfold State.commandWheelStop; split <;> simp
@[simp] theorem State.commandWheelStop_lp (s : State) (c : Channel) :
    (s.commandWheelStop c).lp = s.lp := by
  unfold State.commandWheelStop; split <;> simp
@[simp] theorem State.commandWheelStop_staged (s : State) (c : Channel) :
    (s.commandWheelStop c).staged = s.staged := by
  unfold State.commandWheelStop; split <;> simp
@[simp] theorem State.commandWheelStop_pending (s : State) (c : Channel) :
    (s.commandWheelStop c).pending = s.pending := by
  unfold State.commandWheelStop; split <;> simp
@[simp] theorem State.stopWheels_fs (s : State) :
    (s.stopWheels).fs = s.fs := by simp [State.stopWheels]
@[simp] theorem State.stopWheels_admission (s : State) :
    (s.stopWheels).admission = s.admission := by simp [State.stopWheels]
@[simp] theorem State.stopWheels_pt (s : State) :
    (s.stopWheels).pt = s.pt := by simp [State.stopWheels]
@[simp] theorem State.stopWheels_du (s : State) :
    (s.stopWheels).du = s.du := by simp [State.stopWheels]
@[simp] theorem State.stopWheels_stu (s : State) :
    (s.stopWheels).stu = s.stu := by simp [State.stopWheels]
@[simp] theorem State.stopWheels_pl (s : State) :
    (s.stopWheels).pl = s.pl := by simp [State.stopWheels]
@[simp] theorem State.stopWheels_tc (s : State) :
    (s.stopWheels).tc = s.tc := by simp [State.stopWheels]
@[simp] theorem State.stopWheels_fu (s : State) :
    (s.stopWheels).fu = s.fu := by simp [State.stopWheels]
@[simp] theorem State.stopWheels_rl (s : State) :
    (s.stopWheels).rl = s.rl := by simp [State.stopWheels]
@[simp] theorem State.stopWheels_nu (s : State) :
    (s.stopWheels).nu = s.nu := by simp [State.stopWheels]
@[simp] theorem State.stopWheels_lp (s : State) :
    (s.stopWheels).lp = s.lp := by simp [State.stopWheels]
@[simp] theorem State.stopWheels_staged (s : State) :
    (s.stopWheels).staged = s.staged := by simp [State.stopWheels]
@[simp] theorem State.stopWheels_pending (s : State) :
    (s.stopWheels).pending = s.pending := by simp [State.stopWheels]
@[simp] theorem State.stopGate_fs (s : State) :
    (s.stopGate).fs = s.fs := by
  unfold State.stopGate; split <;> simp
@[simp] theorem State.stopGate_admission (s : State) :
    (s.stopGate).admission = s.admission := by
  unfold State.stopGate; split <;> simp
@[simp] theorem State.stopGate_pt (s : State) :
    (s.stopGate).pt = s.pt := by
  unfold State.stopGate; split <;> simp
@[simp] theorem State.stopGate_du (s : State) :
    (s.stopGate).du = s.du := by
  unfold State.stopGate; split <;> simp
@[simp] theorem State.stopGate_stu (s : State) :
    (s.stopGate).stu = s.stu := by
  unfold State.stopGate; split <;> simp
@[simp] theorem State.stopGate_pl (s : State) :
    (s.stopGate).pl = s.pl := by
  unfold State.stopGate; split <;> simp
@[simp] theorem State.stopGate_es (s : State) :
    (s.stopGate).es = s.es := by
  unfold State.stopGate; split <;> simp
@[simp] theorem State.stopGate_fu (s : State) :
    (s.stopGate).fu = s.fu := by
  unfold State.stopGate; split <;> simp
@[simp] theorem State.stopGate_rl (s : State) :
    (s.stopGate).rl = s.rl := by
  unfold State.stopGate; split <;> simp
@[simp] theorem State.stopGate_nu (s : State) :
    (s.stopGate).nu = s.nu := by
  unfold State.stopGate; split <;> simp
@[simp] theorem State.stopGate_lp (s : State) :
    (s.stopGate).lp = s.lp := by
  unfold State.stopGate; split <;> simp
@[simp] theorem State.stopGate_staged (s : State) :
    (s.stopGate).staged = s.staged := by
  unfold State.stopGate; split <;> simp
@[simp] theorem State.stopGate_pending (s : State) :
    (s.stopGate).pending = s.pending := by
  unfold State.stopGate; split <;> simp
@[simp] theorem State.closeShutter_fs (s : State) :
    (s.closeShutter).fs = s.fs := by
  unfold State.closeShutter; split <;> simp
@[simp] theorem State.closeShutter_admission (s : State) :
    (s.closeShutter).admission = s.admission := by
  unfold State.closeShutter; split <;> simp
@[simp] theorem State.closeShutter_pt (s : State) :
    (s.closeShutter).pt = s.pt := by
  unfold State.closeShutter; split <;> simp
@[simp] theorem State.closeShutter_du (s : State) :
    (s.closeShutter).du = s.du := by
  unfold State.closeShutter; split <;> simp
@[simp] theorem State.closeShutter_stu (s : State) :
    (s.closeShutter).stu = s.stu := by
  unfold State.closeShutter; split <;> simp
@[simp] theorem State.closeShutter_pl (s : State) :
    (s.closeShutter).pl = s.pl := by
  unfold State.closeShutter; split <;> simp
@[simp] theorem State.closeShutter_es (s : State) :
    (s.closeShutter).es = s.es := by
  unfold State.closeShutter; split <;> simp
@[simp] theorem State.closeShutter_fu (s : State) :
    (s.closeShutter).fu = s.fu := by
  unfold State.closeShutter; split <;> simp
@[simp] theorem State.closeShutter_rl (s : State) :
    (s.closeShutter).rl = s.rl := by
  unfold State.closeShutter; split <;> simp
@[simp] theorem State.closeShutter_nu (s : State) :
    (s.closeShutter).nu = s.nu := by
  unfold State.closeShutter; split <;> simp
@[simp] theorem State.closeShutter_lp (s : State) :
    (s.closeShutter).lp = s.lp := by
  unfold State.closeShutter; split <;> simp
@[simp] theorem State.closeShutter_staged (s : State) :
    (s.closeShutter).staged = s.staged := by
  unfold State.closeShutter; split <;> simp
@[simp] theorem State.closeShutter_pending (s : State) :
    (s.closeShutter).pending = s.pending := by
  unfold State.closeShutter; split <;> simp
@[simp] theorem State.openShutter_fs (s : State) :
    (s.openShutter).fs = s.fs := by
  unfold State.openShutter; split <;> simp
@[simp] theorem State.openShutter_admission (s : State) :
    (s.openShutter).admission = s.admission := by
  unfold State.openShutter; split <;> simp
@[simp] theorem State.openShutter_pt (s : State) :
    (s.openShutter).pt = s.pt := by
  unfold State.openShutter; split <;> simp
@[simp] theorem State.openShutter_du (s : State) :
    (s.openShutter).du = s.du := by
  unfold State.openShutter; split <;> simp
@[simp] theorem State.openShutter_stu (s : State) :
    (s.openShutter).stu = s.stu := by
  unfold State.openShutter; split <;> simp
@[simp] theorem State.openShutter_pl (s : State) :
    (s.openShutter).pl = s.pl := by
  unfold State.openShutter; split <;> simp
@[simp] theorem State.openShutter_es (s : State) :
    (s.openShutter).es = s.es := by
  unfold State.openShutter; split <;> simp
@[simp] theorem State.openShutter_fu (s : State) :
    (s.openShutter).fu = s.fu := by
  unfold State.openShutter; split <;> simp
@[simp] theorem State.openShutter_rl (s : State) :
    (s.openShutter).rl = s.rl := by
  unfold State.openShutter; split <;> simp
@[simp] theorem State.openShutter_nu (s : State) :
    (s.openShutter).nu = s.nu := by
  unfold State.openShutter; split <;> simp
@[simp] theorem State.openShutter_lp (s : State) :
    (s.openShutter).lp = s.lp := by
  unfold State.openShutter; split <;> simp
@[simp] theorem State.openShutter_staged (s : State) :
    (s.openShutter).staged = s.staged := by
  unfold State.openShutter; split <;> simp
@[simp] theorem State.openShutter_pending (s : State) :
    (s.openShutter).pending = s.pending := by
  unfold State.openShutter; split <;> simp
@[simp] theorem State.pullDown_fs (s : State) :
    (s.pullDown).fs = s.fs := by
  unfold State.pullDown; split; rfl; split <;> simp
@[simp] theorem State.pullDown_admission (s : State) :
    (s.pullDown).admission = s.admission := by
  unfold State.pullDown; split; rfl; split <;> simp
@[simp] theorem State.pullDown_pt (s : State) :
    (s.pullDown).pt = s.pt := by
  unfold State.pullDown; split; rfl; split <;> simp
@[simp] theorem State.pullDown_du (s : State) :
    (s.pullDown).du = s.du := by
  unfold State.pullDown; split; rfl; split <;> simp
@[simp] theorem State.pullDown_stu (s : State) :
    (s.pullDown).stu = s.stu := by
  unfold State.pullDown; split; rfl; split <;> simp
@[simp] theorem State.pullDown_pl (s : State) :
    (s.pullDown).pl = s.pl := by
  unfold State.pullDown; split; rfl; split <;> simp
@[simp] theorem State.pullDown_es (s : State) :
    (s.pullDown).es = s.es := by
  unfold State.pullDown; split; rfl; split <;> simp
@[simp] theorem State.pullDown_fu (s : State) :
    (s.pullDown).fu = s.fu := by
  unfold State.pullDown; split; rfl; split <;> simp
@[simp] theorem State.pullDown_rl (s : State) :
    (s.pullDown).rl = s.rl := by
  unfold State.pullDown; split; rfl; split <;> simp
@[simp] theorem State.pullDown_nu (s : State) :
    (s.pullDown).nu = s.nu := by
  unfold State.pullDown; split; rfl; split <;> simp
@[simp] theorem State.pullDown_lp (s : State) :
    (s.pullDown).lp = s.lp := by
  unfold State.pullDown; split; rfl; split <;> simp
@[simp] theorem State.pullDown_staged (s : State) :
    (s.pullDown).staged = s.staged := by
  unfold State.pullDown; split; rfl; split <;> simp
@[simp] theorem State.pullDown_pending (s : State) :
    (s.pullDown).pending = s.pending := by
  unfold State.pullDown; split; rfl; split <;> simp
@[simp] theorem State.clampGate_fs (s : State) :
    (s.clampGate).fs = s.fs := by
  unfold State.clampGate; split; rfl; split <;> simp
@[simp] theorem State.clampGate_admission (s : State) :
    (s.clampGate).admission = s.admission := by
  unfold State.clampGate; split; rfl; split <;> simp
@[simp] theorem State.clampGate_pt (s : State) :
    (s.clampGate).pt = s.pt := by
  unfold State.clampGate; split; rfl; split <;> simp
@[simp] theorem State.clampGate_du (s : State) :
    (s.clampGate).du = s.du := by
  unfold State.clampGate; split; rfl; split <;> simp
@[simp] theorem State.clampGate_stu (s : State) :
    (s.clampGate).stu = s.stu := by
  unfold State.clampGate; split; rfl; split <;> simp
@[simp] theorem State.clampGate_pl (s : State) :
    (s.clampGate).pl = s.pl := by
  unfold State.clampGate; split; rfl; split <;> simp
@[simp] theorem State.clampGate_es (s : State) :
    (s.clampGate).es = s.es := by
  unfold State.clampGate; split; rfl; split <;> simp
@[simp] theorem State.clampGate_fu (s : State) :
    (s.clampGate).fu = s.fu := by
  unfold State.clampGate; split; rfl; split <;> simp
@[simp] theorem State.clampGate_rl (s : State) :
    (s.clampGate).rl = s.rl := by
  unfold State.clampGate; split; rfl; split <;> simp
@[simp] theorem State.clampGate_nu (s : State) :
    (s.clampGate).nu = s.nu := by
  unfold State.clampGate; split; rfl; split <;> simp
@[simp] theorem State.clampGate_lp (s : State) :
    (s.clampGate).lp = s.lp := by
  unfold State.clampGate; split; rfl; split <;> simp
@[simp] theorem State.clampGate_staged (s : State) :
    (s.clampGate).staged = s.staged := by
  unfold State.clampGate; split; rfl; split <;> simp
@[simp] theorem State.clampGate_pending (s : State) :
    (s.clampGate).pending = s.pending := by
  unfold State.clampGate; split; rfl; split <;> simp
@[simp] theorem State.polygonRun_fs (s : State) :
    (s.polygonRun).fs = s.fs := by
  unfold State.polygonRun; split <;> simp
@[simp] theorem State.polygonRun_admission (s : State) :
    (s.polygonRun).admission = s.admission := by
  unfold State.polygonRun; split <;> simp
@[simp] theorem State.polygonRun_pt (s : State) :
    (s.polygonRun).pt = s.pt := by
  unfold State.polygonRun; split <;> simp
@[simp] theorem State.polygonRun_du (s : State) :
    (s.polygonRun).du = s.du := by
  unfold State.polygonRun; split <;> simp
@[simp] theorem State.polygonRun_pl (s : State) :
    (s.polygonRun).pl = s.pl := by
  unfold State.polygonRun; split <;> simp
@[simp] theorem State.polygonRun_es (s : State) :
    (s.polygonRun).es = s.es := by
  unfold State.polygonRun; split <;> simp
@[simp] theorem State.polygonRun_tc (s : State) :
    (s.polygonRun).tc = s.tc := by
  unfold State.polygonRun; split <;> simp
@[simp] theorem State.polygonRun_fu (s : State) :
    (s.polygonRun).fu = s.fu := by
  unfold State.polygonRun; split <;> simp
@[simp] theorem State.polygonRun_rl (s : State) :
    (s.polygonRun).rl = s.rl := by
  unfold State.polygonRun; split <;> simp
@[simp] theorem State.polygonRun_nu (s : State) :
    (s.polygonRun).nu = s.nu := by
  unfold State.polygonRun; split <;> simp
@[simp] theorem State.polygonRun_lp (s : State) :
    (s.polygonRun).lp = s.lp := by
  unfold State.polygonRun; split <;> simp
@[simp] theorem State.polygonRun_staged (s : State) :
    (s.polygonRun).staged = s.staged := by
  unfold State.polygonRun; split <;> simp
@[simp] theorem State.polygonRun_pending (s : State) :
    (s.polygonRun).pending = s.pending := by
  unfold State.polygonRun; split <;> simp
@[simp] theorem State.laserEnable_fs (s : State) :
    (s.laserEnable).fs = s.fs := by
  unfold State.laserEnable; split <;> rfl
@[simp] theorem State.laserEnable_admission (s : State) :
    (s.laserEnable).admission = s.admission := by
  unfold State.laserEnable; split <;> rfl
@[simp] theorem State.laserEnable_pt (s : State) :
    (s.laserEnable).pt = s.pt := by
  unfold State.laserEnable; split <;> rfl
@[simp] theorem State.laserEnable_du (s : State) :
    (s.laserEnable).du = s.du := by
  unfold State.laserEnable; split <;> rfl
@[simp] theorem State.laserEnable_stu (s : State) :
    (s.laserEnable).stu = s.stu := by
  unfold State.laserEnable; split <;> rfl
@[simp] theorem State.laserEnable_es (s : State) :
    (s.laserEnable).es = s.es := by
  unfold State.laserEnable; split <;> rfl
@[simp] theorem State.laserEnable_tc (s : State) :
    (s.laserEnable).tc = s.tc := by
  unfold State.laserEnable; split <;> rfl
@[simp] theorem State.laserEnable_fu (s : State) :
    (s.laserEnable).fu = s.fu := by
  unfold State.laserEnable; split <;> rfl
@[simp] theorem State.laserEnable_rl (s : State) :
    (s.laserEnable).rl = s.rl := by
  unfold State.laserEnable; split <;> rfl
@[simp] theorem State.laserEnable_nu (s : State) :
    (s.laserEnable).nu = s.nu := by
  unfold State.laserEnable; split <;> rfl
@[simp] theorem State.laserEnable_lp (s : State) :
    (s.laserEnable).lp = s.lp := by
  unfold State.laserEnable; split <;> rfl
@[simp] theorem State.laserEnable_staged (s : State) :
    (s.laserEnable).staged = s.staged := by
  unfold State.laserEnable; split <;> rfl
@[simp] theorem State.laserEnable_out (s : State) :
    (s.laserEnable).out = s.out := by
  unfold State.laserEnable; split <;> rfl
@[simp] theorem State.laserEnable_pending (s : State) :
    (s.laserEnable).pending = s.pending := by
  unfold State.laserEnable; split <;> rfl
@[simp] theorem State.stopMechanisms_fs (s : State) :
    (s.stopMechanisms).fs = s.fs := by simp [State.stopMechanisms]
@[simp] theorem State.stopMechanisms_admission (s : State) :
    (s.stopMechanisms).admission = s.admission := by simp [State.stopMechanisms]
@[simp] theorem State.stopMechanisms_pt (s : State) :
    (s.stopMechanisms).pt = s.pt := by simp [State.stopMechanisms]
@[simp] theorem State.stopMechanisms_du (s : State) :
    (s.stopMechanisms).du = s.du := by simp [State.stopMechanisms]
@[simp] theorem State.stopMechanisms_fu (s : State) :
    (s.stopMechanisms).fu = s.fu := by simp [State.stopMechanisms]
@[simp] theorem State.stopMechanisms_rl (s : State) :
    (s.stopMechanisms).rl = s.rl := by simp [State.stopMechanisms]
@[simp] theorem State.stopMechanisms_nu (s : State) :
    (s.stopMechanisms).nu = s.nu := by simp [State.stopMechanisms]
@[simp] theorem State.stopMechanisms_lp (s : State) :
    (s.stopMechanisms).lp = s.lp := by simp [State.stopMechanisms]
@[simp] theorem State.stopMechanisms_staged (s : State) :
    (s.stopMechanisms).staged = s.staged := by simp [State.stopMechanisms]
@[simp] theorem State.stopMechanisms_pending (s : State) :
    (s.stopMechanisms).pending = s.pending := by simp [State.stopMechanisms]
@[simp] theorem State.print_fs (s : State) (m : Mark) :
    (s.print m).fs = s.fs := by
  unfold State.print; split <;> rfl
@[simp] theorem State.print_admission (s : State) (m : Mark) :
    (s.print m).admission = s.admission := by
  unfold State.print; split <;> rfl
@[simp] theorem State.print_pt (s : State) (m : Mark) :
    (s.print m).pt = s.pt := by
  unfold State.print; split <;> rfl
@[simp] theorem State.print_du (s : State) (m : Mark) :
    (s.print m).du = s.du := by
  unfold State.print; split <;> rfl
@[simp] theorem State.print_stu (s : State) (m : Mark) :
    (s.print m).stu = s.stu := by
  unfold State.print; split <;> rfl
@[simp] theorem State.print_pl (s : State) (m : Mark) :
    (s.print m).pl = s.pl := by
  unfold State.print; split <;> rfl
@[simp] theorem State.print_es (s : State) (m : Mark) :
    (s.print m).es = s.es := by
  unfold State.print; split <;> rfl
@[simp] theorem State.print_fu (s : State) (m : Mark) :
    (s.print m).fu = s.fu := by
  unfold State.print; split <;> rfl
@[simp] theorem State.print_rl (s : State) (m : Mark) :
    (s.print m).rl = s.rl := by
  unfold State.print; split <;> rfl
@[simp] theorem State.print_nu (s : State) (m : Mark) :
    (s.print m).nu = s.nu := by
  unfold State.print; split <;> rfl
@[simp] theorem State.print_lp (s : State) (m : Mark) :
    (s.print m).lp = s.lp := by
  unfold State.print; split <;> rfl
@[simp] theorem State.print_staged (s : State) (m : Mark) :
    (s.print m).staged = s.staged := by
  unfold State.print; split <;> rfl
@[simp] theorem State.print_pending (s : State) (m : Mark) :
    (s.print m).pending = s.pending := by
  unfold State.print; split <;> rfl
@[simp] theorem State.removeHead_fs (s : State) :
    (s.removeHead).fs = s.fs := by
  unfold State.removeHead; dsimp only; split <;> rfl
@[simp] theorem State.removeHead_admission (s : State) :
    (s.removeHead).admission = s.admission := by
  unfold State.removeHead; dsimp only; split <;> rfl
@[simp] theorem State.removeHead_pt (s : State) :
    (s.removeHead).pt = s.pt := by
  unfold State.removeHead; dsimp only; split <;> rfl
@[simp] theorem State.removeHead_du (s : State) :
    (s.removeHead).du = s.du := by
  unfold State.removeHead; dsimp only; split <;> rfl
@[simp] theorem State.removeHead_stu (s : State) :
    (s.removeHead).stu = s.stu := by
  unfold State.removeHead; dsimp only; split <;> rfl
@[simp] theorem State.removeHead_pl (s : State) :
    (s.removeHead).pl = s.pl := by
  unfold State.removeHead; dsimp only; split <;> rfl
@[simp] theorem State.removeHead_es (s : State) :
    (s.removeHead).es = s.es := by
  unfold State.removeHead; dsimp only; split <;> rfl
@[simp] theorem State.removeHead_tc (s : State) :
    (s.removeHead).tc = s.tc := by
  unfold State.removeHead; dsimp only; split <;> rfl
@[simp] theorem State.removeHead_fu (s : State) :
    (s.removeHead).fu = s.fu := by
  unfold State.removeHead; dsimp only; split <;> rfl
@[simp] theorem State.removeHead_rl (s : State) :
    (s.removeHead).rl = s.rl := by
  unfold State.removeHead; dsimp only; split <;> rfl
@[simp] theorem State.removeHead_nu (s : State) :
    (s.removeHead).nu = s.nu := by
  unfold State.removeHead; dsimp only; split <;> rfl
@[simp] theorem State.removeHead_staged (s : State) :
    (s.removeHead).staged = s.staged := by
  unfold State.removeHead; dsimp only; split <;> rfl
@[simp] theorem State.removeHead_pending (s : State) :
    (s.removeHead).pending = s.pending := by
  unfold State.removeHead; dsimp only; split <;> rfl
@[simp] theorem State.takeRecord_fs (s : State) :
    (s.takeRecord).fs = s.fs := by
  unfold State.takeRecord; split <;> simp
@[simp] theorem State.takeRecord_admission (s : State) :
    (s.takeRecord).admission = s.admission := by
  unfold State.takeRecord; split <;> simp
@[simp] theorem State.takeRecord_pt (s : State) :
    (s.takeRecord).pt = s.pt := by
  unfold State.takeRecord; split <;> simp
@[simp] theorem State.takeRecord_du (s : State) :
    (s.takeRecord).du = s.du := by
  unfold State.takeRecord; split <;> simp
@[simp] theorem State.takeRecord_stu (s : State) :
    (s.takeRecord).stu = s.stu := by
  unfold State.takeRecord; split <;> simp
@[simp] theorem State.takeRecord_pl (s : State) :
    (s.takeRecord).pl = s.pl := by
  unfold State.takeRecord; split <;> simp
@[simp] theorem State.takeRecord_es (s : State) :
    (s.takeRecord).es = s.es := by
  unfold State.takeRecord; split <;> simp
@[simp] theorem State.takeRecord_tc (s : State) :
    (s.takeRecord).tc = s.tc := by
  unfold State.takeRecord; split <;> simp
@[simp] theorem State.takeRecord_fu (s : State) :
    (s.takeRecord).fu = s.fu := by
  unfold State.takeRecord; split <;> simp
@[simp] theorem State.takeRecord_rl (s : State) :
    (s.takeRecord).rl = s.rl := by
  unfold State.takeRecord; split <;> simp
@[simp] theorem State.takeRecord_nu (s : State) :
    (s.takeRecord).nu = s.nu := by
  unfold State.takeRecord; split <;> simp
@[simp] theorem State.takeRecord_staged (s : State) :
    (s.takeRecord).staged = s.staged := by
  unfold State.takeRecord; split <;> simp
@[simp] theorem State.takeRecord_pending (s : State) :
    (s.takeRecord).pending = s.pending := by
  unfold State.takeRecord; split <;> simp
@[simp] theorem State.enterRecord_fs (s : State) (j : Judgement) :
    (s.enterRecord j).fs = s.fs := by
  cases j <;> rfl
@[simp] theorem State.enterRecord_admission (s : State) (j : Judgement) :
    (s.enterRecord j).admission = s.admission := by
  cases j <;> rfl
@[simp] theorem State.enterRecord_pt (s : State) (j : Judgement) :
    (s.enterRecord j).pt = s.pt := by
  cases j <;> rfl
@[simp] theorem State.enterRecord_du (s : State) (j : Judgement) :
    (s.enterRecord j).du = s.du := by
  cases j <;> rfl
@[simp] theorem State.enterRecord_stu (s : State) (j : Judgement) :
    (s.enterRecord j).stu = s.stu := by
  cases j <;> rfl
@[simp] theorem State.enterRecord_pl (s : State) (j : Judgement) :
    (s.enterRecord j).pl = s.pl := by
  cases j <;> rfl
@[simp] theorem State.enterRecord_es (s : State) (j : Judgement) :
    (s.enterRecord j).es = s.es := by
  cases j <;> rfl
@[simp] theorem State.enterRecord_tc (s : State) (j : Judgement) :
    (s.enterRecord j).tc = s.tc := by
  cases j <;> rfl
@[simp] theorem State.enterRecord_fu (s : State) (j : Judgement) :
    (s.enterRecord j).fu = s.fu := by
  cases j <;> rfl
@[simp] theorem State.enterRecord_rl (s : State) (j : Judgement) :
    (s.enterRecord j).rl = s.rl := by
  cases j <;> rfl
@[simp] theorem State.enterRecord_nu (s : State) (j : Judgement) :
    (s.enterRecord j).nu = s.nu := by
  cases j <;> rfl
@[simp] theorem State.enterRecord_staged (s : State) (j : Judgement) :
    (s.enterRecord j).staged = s.staged := by
  cases j <;> rfl
@[simp] theorem State.enterRecord_out (s : State) (j : Judgement) :
    (s.enterRecord j).out = s.out := by
  cases j <;> rfl
@[simp] theorem State.enterRecord_pending (s : State) (j : Judgement) :
    (s.enterRecord j).pending = s.pending := by
  cases j <;> rfl
@[simp] theorem State.handOver_fs (s : State) :
    (s.handOver).fs = s.fs := by
  unfold State.handOver; split
  · split <;> simp
  · rfl
@[simp] theorem State.handOver_admission (s : State) :
    (s.handOver).admission = s.admission := by
  unfold State.handOver; split
  · split <;> simp
  · rfl
@[simp] theorem State.handOver_pt (s : State) :
    (s.handOver).pt = s.pt := by
  unfold State.handOver; split
  · split <;> simp
  · rfl
@[simp] theorem State.handOver_du (s : State) :
    (s.handOver).du = s.du := by
  unfold State.handOver; split
  · split <;> simp
  · rfl
@[simp] theorem State.handOver_stu (s : State) :
    (s.handOver).stu = s.stu := by
  unfold State.handOver; split
  · split <;> simp
  · rfl
@[simp] theorem State.handOver_pl (s : State) :
    (s.handOver).pl = s.pl := by
  unfold State.handOver; split
  · split <;> simp
  · rfl
@[simp] theorem State.handOver_es (s : State) :
    (s.handOver).es = s.es := by
  unfold State.handOver; split
  · split <;> simp
  · rfl
@[simp] theorem State.handOver_tc (s : State) :
    (s.handOver).tc = s.tc := by
  unfold State.handOver; split
  · split <;> simp
  · rfl
@[simp] theorem State.handOver_fu (s : State) :
    (s.handOver).fu = s.fu := by
  unfold State.handOver; split
  · split <;> simp
  · rfl
@[simp] theorem State.handOver_rl (s : State) :
    (s.handOver).rl = s.rl := by
  unfold State.handOver; split
  · split <;> simp
  · rfl
@[simp] theorem State.handOver_nu (s : State) :
    (s.handOver).nu = s.nu := by
  unfold State.handOver; split
  · split <;> simp
  · rfl
@[simp] theorem State.handOver_staged (s : State) :
    (s.handOver).staged = s.staged := by
  unfold State.handOver; split
  · split <;> simp
  · rfl
@[simp] theorem State.handOver_pending (s : State) :
    (s.handOver).pending = s.pending := by
  unfold State.handOver; split
  · split <;> simp
  · rfl
@[simp] theorem State.announceFault_fs (s : State) (r : FaultRecord) :
    (s.announceFault r).fs = s.fs := by
  unfold State.announceFault; split <;> simp
@[simp] theorem State.announceFault_admission (s : State) (r : FaultRecord) :
    (s.announceFault r).admission = s.admission := by
  unfold State.announceFault; split <;> simp
@[simp] theorem State.announceFault_pt (s : State) (r : FaultRecord) :
    (s.announceFault r).pt = s.pt := by
  unfold State.announceFault; split <;> simp
@[simp] theorem State.announceFault_du (s : State) (r : FaultRecord) :
    (s.announceFault r).du = s.du := by
  unfold State.announceFault; split <;> simp
@[simp] theorem State.announceFault_stu (s : State) (r : FaultRecord) :
    (s.announceFault r).stu = s.stu := by
  unfold State.announceFault; split <;> simp
@[simp] theorem State.announceFault_pl (s : State) (r : FaultRecord) :
    (s.announceFault r).pl = s.pl := by
  unfold State.announceFault; split <;> simp
@[simp] theorem State.announceFault_es (s : State) (r : FaultRecord) :
    (s.announceFault r).es = s.es := by
  unfold State.announceFault; split <;> simp
@[simp] theorem State.announceFault_tc (s : State) (r : FaultRecord) :
    (s.announceFault r).tc = s.tc := by
  unfold State.announceFault; split <;> simp
@[simp] theorem State.announceFault_fu (s : State) (r : FaultRecord) :
    (s.announceFault r).fu = s.fu := by
  unfold State.announceFault; split <;> simp
@[simp] theorem State.announceFault_rl (s : State) (r : FaultRecord) :
    (s.announceFault r).rl = s.rl := by
  unfold State.announceFault; split <;> simp
@[simp] theorem State.announceFault_lp (s : State) (r : FaultRecord) :
    (s.announceFault r).lp = s.lp := by
  unfold State.announceFault; split <;> simp
@[simp] theorem State.announceFault_staged (s : State) (r : FaultRecord) :
    (s.announceFault r).staged = s.staged := by
  unfold State.announceFault; split <;> simp
@[simp] theorem State.announceFault_pending (s : State) (r : FaultRecord) :
    (s.announceFault r).pending = s.pending := by
  unfold State.announceFault; split <;> simp
@[simp] theorem State.trigger_fs (s : State) (p : Nat) :
    (s.trigger p).fs = s.fs := by
  unfold State.trigger; dsimp only; split <;> rfl
@[simp] theorem State.trigger_admission (s : State) (p : Nat) :
    (s.trigger p).admission = s.admission := by
  unfold State.trigger; dsimp only; split <;> rfl
@[simp] theorem State.trigger_pt (s : State) (p : Nat) :
    (s.trigger p).pt = s.pt := by
  unfold State.trigger; dsimp only; split <;> rfl
@[simp] theorem State.trigger_du (s : State) (p : Nat) :
    (s.trigger p).du = s.du := by
  unfold State.trigger; dsimp only; split <;> rfl
@[simp] theorem State.trigger_stu (s : State) (p : Nat) :
    (s.trigger p).stu = s.stu := by
  unfold State.trigger; dsimp only; split <;> rfl
@[simp] theorem State.trigger_es (s : State) (p : Nat) :
    (s.trigger p).es = s.es := by
  unfold State.trigger; dsimp only; split <;> rfl
@[simp] theorem State.trigger_tc (s : State) (p : Nat) :
    (s.trigger p).tc = s.tc := by
  unfold State.trigger; dsimp only; split <;> rfl
@[simp] theorem State.trigger_fu (s : State) (p : Nat) :
    (s.trigger p).fu = s.fu := by
  unfold State.trigger; dsimp only; split <;> rfl
@[simp] theorem State.trigger_rl (s : State) (p : Nat) :
    (s.trigger p).rl = s.rl := by
  unfold State.trigger; dsimp only; split <;> rfl
@[simp] theorem State.trigger_nu (s : State) (p : Nat) :
    (s.trigger p).nu = s.nu := by
  unfold State.trigger; dsimp only; split <;> rfl
@[simp] theorem State.trigger_lp (s : State) (p : Nat) :
    (s.trigger p).lp = s.lp := by
  unfold State.trigger; dsimp only; split <;> rfl
@[simp] theorem State.trigger_staged (s : State) (p : Nat) :
    (s.trigger p).staged = s.staged := by
  unfold State.trigger; dsimp only; split <;> rfl
@[simp] theorem State.trigger_pending (s : State) (p : Nat) :
    (s.trigger p).pending = s.pending := by
  unfold State.trigger; dsimp only; split <;> rfl
@[simp] theorem State.scanBegin_fs (s : State) (f : Fin 8) :
    (s.scanBegin f).fs = s.fs := by
  unfold State.scanBegin; split <;> rfl
@[simp] theorem State.scanBegin_admission (s : State) (f : Fin 8) :
    (s.scanBegin f).admission = s.admission := by
  unfold State.scanBegin; split <;> rfl
@[simp] theorem State.scanBegin_pt (s : State) (f : Fin 8) :
    (s.scanBegin f).pt = s.pt := by
  unfold State.scanBegin; split <;> rfl
@[simp] theorem State.scanBegin_stu (s : State) (f : Fin 8) :
    (s.scanBegin f).stu = s.stu := by
  unfold State.scanBegin; split <;> rfl
@[simp] theorem State.scanBegin_pl (s : State) (f : Fin 8) :
    (s.scanBegin f).pl = s.pl := by
  unfold State.scanBegin; split <;> rfl
@[simp] theorem State.scanBegin_tc (s : State) (f : Fin 8) :
    (s.scanBegin f).tc = s.tc := by
  unfold State.scanBegin; split <;> rfl
@[simp] theorem State.scanBegin_fu (s : State) (f : Fin 8) :
    (s.scanBegin f).fu = s.fu := by
  unfold State.scanBegin; split <;> rfl
@[simp] theorem State.scanBegin_rl (s : State) (f : Fin 8) :
    (s.scanBegin f).rl = s.rl := by
  unfold State.scanBegin; split <;> rfl
@[simp] theorem State.scanBegin_nu (s : State) (f : Fin 8) :
    (s.scanBegin f).nu = s.nu := by
  unfold State.scanBegin; split <;> rfl
@[simp] theorem State.scanBegin_lp (s : State) (f : Fin 8) :
    (s.scanBegin f).lp = s.lp := by
  unfold State.scanBegin; split <;> rfl
@[simp] theorem State.scanBegin_staged (s : State) (f : Fin 8) :
    (s.scanBegin f).staged = s.staged := by
  unfold State.scanBegin; split <;> rfl
@[simp] theorem State.scanBegin_out (s : State) (f : Fin 8) :
    (s.scanBegin f).out = s.out := by
  unfold State.scanBegin; split <;> rfl
@[simp] theorem State.scanBegin_pending (s : State) (f : Fin 8) :
    (s.scanBegin f).pending = s.pending := by
  unfold State.scanBegin; split <;> rfl

@[simp] theorem State.closeBlank_fs (s : State) :
    (s.closeBlank).fs = s.fs := by
  unfold State.closeBlank; split; rfl
  split; (split <;> simp); rfl
@[simp] theorem State.closeBlank_admission (s : State) :
    (s.closeBlank).admission = s.admission := by
  unfold State.closeBlank; split; rfl
  split; (split <;> simp); rfl
@[simp] theorem State.closeBlank_pt (s : State) :
    (s.closeBlank).pt = s.pt := by
  unfold State.closeBlank; split; rfl
  split; (split <;> simp); rfl
@[simp] theorem State.closeBlank_du (s : State) :
    (s.closeBlank).du = s.du := by
  unfold State.closeBlank; split; rfl
  split; (split <;> simp); rfl
@[simp] theorem State.closeBlank_stu (s : State) :
    (s.closeBlank).stu = s.stu := by
  unfold State.closeBlank; split; rfl
  split; (split <;> simp); rfl
@[simp] theorem State.closeBlank_pl (s : State) :
    (s.closeBlank).pl = s.pl := by
  unfold State.closeBlank; split; rfl
  split; (split <;> simp); rfl
@[simp] theorem State.closeBlank_es (s : State) :
    (s.closeBlank).es = s.es := by
  unfold State.closeBlank; split; rfl
  split; (split <;> simp); rfl
@[simp] theorem State.closeBlank_tc (s : State) :
    (s.closeBlank).tc = s.tc := by
  unfold State.closeBlank; split; rfl
  split; (split <;> simp); rfl
@[simp] theorem State.closeBlank_fu (s : State) :
    (s.closeBlank).fu = s.fu := by
  unfold State.closeBlank; split; rfl
  split; (split <;> simp); rfl
@[simp] theorem State.closeBlank_lp (s : State) :
    (s.closeBlank).lp = s.lp := by
  unfold State.closeBlank; split; rfl
  split; (split <;> simp); rfl
@[simp] theorem State.closeBlank_staged (s : State) :
    (s.closeBlank).staged = s.staged := by
  unfold State.closeBlank; split; rfl
  split; (split <;> simp); rfl
@[simp] theorem State.closeBlank_pending (s : State) :
    (s.closeBlank).pending = s.pending := by
  unfold State.closeBlank; split; rfl
  split; (split <;> simp); rfl

end Sys2Proof.Machine
end

