-- ==== Sys2Proof/Laws/Ops.lean ====
section
/-! SUPPORT. One lemma for each shared operation that says all it does, and the shape of a command on a
part between two commands. -/

namespace Sys2Proof.Machine

/-! ### The faults raised (R159, LOG 3) -/

/-- Which faults follow another that waits: every one an OPERATOR, a TRIM_LIMIT a POWER_TRIP (R105), and a SOS_LOSS
a FACET_SHORTAGE (R81). -/
theorem FaultKind.follows_eq_false (a b : FaultKind) : a.follows b = false ↔
    (b = .operator → a = .operator) ∧ (a = .trimLimit → b ≠ .powerTrip) ∧
      (a = .sosLoss → b ≠ .facetShortage) := by
  cases a <;> cases b <;> simp [FaultKind.follows]

/-- Whether a fault may be taken next: every raised one may that follows none of them. -/
theorem mem_nextFaults (f : FaultReport) (l : List FaultReport) :
    f ∈ nextFaults l ↔ f ∈ l ∧ ∀ g ∈ l, f.kind.follows g.kind = false := by
  simp only [nextFaults, List.mem_filter, List.all_eq_true, Bool.not_eq_true']

/-- One raised fault may be taken next. -/
theorem nextFaults_single (f : FaultReport) : nextFaults [f] = [f] := by
  have : f.kind.follows f.kind = false := by cases f.kind <;> rfl
  simp [nextFaults, this]

/-- With a fault raised, one may be taken next. -/
theorem nextFaults_ne_nil (l : List FaultReport) (h : l ≠ []) : nextFaults l ≠ [] := by
  have first (k : FaultKind) (hk : ∀ b, k.follows b = true → ∀ g ∈ l, g.kind ≠ b)
      (he : ∃ g ∈ l, g.kind = k) : nextFaults l ≠ [] := by
    obtain ⟨g, hg, rfl⟩ := he
    refine List.ne_nil_of_mem ((mem_nextFaults g l).2 ⟨hg, fun x hx => ?_⟩)
    cases hf : g.kind.follows x.kind with
    | false => rfl
    | true => exact absurd rfl (hk _ hf x hx)
  by_cases ho : ∃ g ∈ l, g.kind = .operator
  · exact first .operator (by intro b hb; cases b <;> cases hb) ho
  have ho' : ∀ g ∈ l, g.kind ≠ .operator := fun g hg hk => ho ⟨g, hg, hk⟩
  by_cases hp : ∃ g ∈ l, g.kind = .powerTrip
  · exact first .powerTrip (by intro b hb; cases b <;> cases hb; exact ho') hp
  by_cases hs : ∃ g ∈ l, g.kind = .facetShortage
  · exact first .facetShortage (by intro b hb; cases b <;> cases hb; exact ho') hs
  obtain ⟨f, hf⟩ := List.exists_mem_of_ne_nil l h
  refine List.ne_nil_of_mem ((mem_nextFaults f l).2 ⟨hf, fun g hg => ?_⟩)
  rw [FaultKind.follows_eq_false]
  exact ⟨fun e => absurd e (ho' g hg), fun _ e => hp ⟨g, hg, e⟩, fun _ e => hs ⟨g, hg, e⟩⟩

/-- The fault taken next is the one of the faults that may be, at the place of the free choice. -/
theorem chooseFault_eq (n : Nat) (l : List FaultReport) : chooseFault n l =
    (nextFaults l)[if (nextFaults l).length ≤ 1 then 0
      else Config.faultOrder n % (nextFaults l).length]? := by
  unfold chooseFault
  rcases h : nextFaults l with _ | ⟨f, _ | ⟨g, t⟩⟩ <;> simp

/-- The fault taken next is raised, and may be taken next. -/
theorem chooseFault_mem {n : Nat} {l : List FaultReport} {f : FaultReport}
    (h : chooseFault n l = some f) : f ∈ l ∧ f ∈ nextFaults l := by
  rw [chooseFault_eq] at h
  have := List.mem_of_getElem? h
  exact ⟨((mem_nextFaults f l).1 this).1, this⟩

/-- With a fault raised there is a next one. -/
theorem chooseFault_isSome (n : Nat) (l : List FaultReport) (h : l ≠ []) :
    ∃ f, chooseFault n l = some f := by
  have p : 0 < (nextFaults l).length := List.length_pos_iff.2 (nextFaults_ne_nil l h)
  rw [chooseFault_eq]
  have q : (if (nextFaults l).length ≤ 1 then 0
      else Config.faultOrder n % (nextFaults l).length) < (nextFaults l).length := by
    split
    · exact p
    · exact Nat.mod_lt _ p
  exact ⟨_, List.getElem?_eq_getElem q⟩

/-- With no fault raised nothing is taken, and otherwise the one chosen. -/
theorem State.takeOne_cases (take : State → FaultReport → State) (s : State) :
    (s.fu.raised = [] ∧ s.takeOne take = s) ∨
    ∃ f, chooseFault s.fu.choices s.fu.raised = some f ∧
      s.takeOne take = take ((s.setRaised (s.fu.raised.erase f)).setChoices
        (countChoice s.fu.choices s.fu.raised)) f := by
  by_cases h : s.fu.raised = []
  · exact .inl ⟨h, by unfold State.takeOne; rw [h]; rfl⟩
  · obtain ⟨f, hf⟩ := chooseFault_isSome s.fu.choices _ h
    exact .inr ⟨f, hf, by unfold State.takeOne; rw [hf]⟩

/-- Where no raised fault is of the kinds that must be taken, none is. -/
theorem State.taking_none (must : FaultKind → Bool) (take : State → FaultReport → State) (n : Nat) (s : State)
    (h : ∀ f ∈ s.fu.raised, must f.kind = false) : State.taking must take n s = s := by
  have e : s.fu.raised.any (must ·.kind) = false := by simpa using h
  cases n <;> simp [State.taking, e]

/-- Where one must be taken, the next fault is taken, and then the same holds of those left. -/
theorem State.taking_next (must : FaultKind → Bool) (take : State → FaultReport → State) (s : State)
    (keeps : ∀ t f, (take t f).fu.raised = t.fu.raised) (h : ∃ f ∈ s.fu.raised, must f.kind = true) :
    State.taking must take s.fu.raised.length s =
      State.taking must take (s.takeOne take).fu.raised.length (s.takeOne take) := by
  obtain ⟨g, hg, hm⟩ := h
  have e : s.fu.raised.any (must ·.kind) = true := List.any_eq_true.2 ⟨g, hg, hm⟩
  rcases s.takeOne_cases take with ⟨hn, -⟩ | ⟨f, hf, ht⟩
  · rw [hn] at hg; cases hg
  · have hl : s.fu.raised.length = (s.takeOne take).fu.raised.length + 1 := by
      have := List.length_pos_of_mem hg
      rw [ht, keeps]
      simp only [State.setChoices, State.setRaised, List.length_erase_of_mem (chooseFault_mem hf).1]
      omega
    rw [hl, State.taking, if_pos e]

/-! ### The shape of a command -/

/-- With no fault raised of the kinds that a rule has taken before a command, none is taken before it. -/
theorem State.settledFor_none (s : State) (must : FaultKind → Bool)
    (h : ∀ f ∈ s.fu.raised, must f.kind = false) : s.settledFor must = s := s.taking_none must _ _ h

/-- A command before which no raised fault must be taken is its effect and its conclusion. -/
theorem runAfter_none (must : FaultKind → Bool) (s : State) (effect : State → State)
    (h : ∀ f ∈ s.fu.raised, must f.kind = false) :
    runAfter must s effect = .next (effect s).concluded := by rw [runAfter, s.settledFor_none must h, run]

/-- A fault of none of the five kinds is not due on its event. -/
theorem FaultKind.takenAtOnce_eq_false (k : FaultKind) : k.takenAtOnce = false ↔
    k ∉ [FaultKind.facetShortage, .operator, .shutter, .transport, .filmEnd] := by
  cases k <;> decide

/-- An event with no raised fault due on it leaves every one to a later take: its staged replies are sent. -/
theorem State.concluded_later (s : State)
    (h : ∀ f ∈ s.fu.raised, f.kind ∉ [FaultKind.facetShortage, .operator, .shutter, .transport, .filmEnd]) :
    s.concluded = s.flush := by
  rw [State.concluded, State.takeDue, s.taking_none _ _ _ fun f hf => f.kind.takenAtOnce_eq_false.2 (h f hf)]

/-- A fault of no sample is taken with no image portion after it. -/
theorem State.takeEvent_plain (s : State) (f : FaultReport) (h : f.kind.ofSample = false) :
    s.takeEvent f = (s.takeFault f).flush := by simp [State.takeEvent, State.driveAfter, h]

/-- A fault due on its event is taken on it, and what the event and the take staged goes out after. -/
theorem State.takeInTurn_due (s : State) (f : FaultReport) (h : f.kind.takenAtOnce = true) :
    s.takeInTurn f = (s.takeFault f).flush := by
  have e : f.kind.ofSample = false := by revert h; cases f.kind <;> decide
  simp [State.takeInTurn, h, s.takeEvent_plain f e]

/-- A fault that waits is an event of its own: what the command's event staged goes out before it. -/
theorem State.takeInTurn_waiting (s : State) (f : FaultReport) (h : f.kind.takenAtOnce = false) :
    s.takeInTurn f = s.flush.takeEvent f := by simp [State.takeInTurn, h]

/-- What has been sent is not sent again. -/
theorem State.flush_flush (s : State) : s.flush.flush = s.flush := by simp [State.flush]

/-- With nothing staged, sending the staged replies changes nothing. -/
theorem State.flush_none (s : State) (h : s.staged = []) : s.flush = s := by
  cases s with
  | mk => simp only at h; subst h; simp [State.flush]

/-- A command whose effect leaves no fault due and stages no reply is its effect. -/
theorem run_plain (s : State) (effect : State → State) (h : (effect s).Before []) :
    run s effect = .next (effect s) := by
  rw [run, State.concluded_later _ fun f hf => (h.raised f hf).1, State.flush_none _ h.staged]

/-! ### Notices (R199, R200) -/

/-- A notice is sent with the count 1, discarded while the link is DOWN, or held. -/
theorem State.notice_cases (s : State) (p : NoticePayload) :
    s.notice p = (if p.kind.level = 7 ∨ s.nu.mask < p.kind.level then
      (if s.lp.up then s.emit (.notice ⟨1, p⟩) else s) else s.holdNotice p) := rfl

/-- With the mask at 0 and the link UP, every notice is sent at once with the count 1. -/
theorem State.notice_sent (s : State) (p : NoticePayload) (hm : s.nu.mask = 0)
    (hu : s.lp.up = true) : s.notice p = s.emit (.notice ⟨1, p⟩) := by
  have : s.nu.mask < p.kind.level := by
    rw [hm]; cases p <;> simp [NoticePayload.kind, NoticeKind.level]
  simp [State.notice, State.sendNotice, hu, this]

/-! ### LP's take (R189, R190, R198) -/

/-- The removal of the head record has no other effect but a GO at occupancy 4 in HOLD. -/
theorem State.removeHead_cases (s : State) :
    s.removeHead = { s with lp := { s.lp with queue := s.lp.queue.tail } } ∨
    (s.lp.queue.tail.length = 4 ∧ s.lp.flow = .hold ∧
      s.removeHead = { s with
        lp := { s.lp with queue := s.lp.queue.tail, flow := .go }
        out := s.out ++ [.flow .go] }) := by
  unfold State.removeHead
  dsimp only
  split
  · rename_i h; exact .inr ⟨h.1, h.2.2, rfl⟩
  · exact .inl rfl

/-- With no record in hand, LP deals with the record at the head. -/
theorem State.takeRecord_free (s : State) (h : s.lp.held = none) : s.takeRecord = s.removeHead := by
  unfold State.takeRecord; rw [h]

/-- With a record in hand, LP deals with that one, and the input queue stays. -/
theorem State.takeRecord_held (s : State) (r : HeldRecord) (h : s.lp.held = some r) :
    s.takeRecord = { s with lp := { s.lp with held := none } } := by
  unfold State.takeRecord; rw [h]

/-- LP's take changes the input queue, the record in hand, the flow state and what is put out, and nothing
else, whatever the rest of the state holds. -/
theorem State.takeRecord_form (s : State) : ∃ q f h o,
    s.takeRecord = { s with lp := { s.lp with queue := q, flow := f, held := h }, out := o } := by
  cases h : s.lp.held with
  | none =>
    rw [s.takeRecord_free h]
    rcases s.removeHead_cases with e | ⟨-, -, e⟩ <;> exact ⟨_, _, _, _, e⟩
  | some r => exact ⟨_, _, _, _, s.takeRecord_held r h⟩

/-- LP takes a record in hand only with none in hand, at its head, that it hands to a block. -/
theorem State.handOver_cases (s : State) :
    s.handOver = s ∨
    ∃ r, s.lp.held = none ∧ s.lp.queue.head? = some r ∧ s.lp.handsOver (judge r) = true ∧
      s.handOver = { s.removeHead.enterRecord (judge r) with
        lp := { (s.removeHead.enterRecord (judge r)).lp with held := some ⟨r, true⟩ } } := by
  unfold State.handOver
  split
  · rename_i r h1 h2
    split
    · rename_i h; exact .inr ⟨r, h1, h2, h, rfl⟩
    · exact .inl rfl
  · exact .inl rfl

/-! ### Replies (R191 to R193) -/

/-- A request that LP hands to its owner, the engine not refusing it. -/
theorem State.handToOwner_unlocked (s : State) (tag : Option Nat) (q : Request) (p : List Byte)
    (owner : Decision) (h : s.es.engine = .locked → q.acceptedInLocked = true) :
    s.handToOwner tag q p owner = owner s tag p :=
  if_neg (by rintro ⟨h1, h2⟩; rw [h h1] at h2; cases h2)

/-- A request that stands at the head and passes intake is handed to its owner with the record taken
and the request in the outstanding-request table. -/
theorem State.onRequestWhen_accepts (s : State) (tag : Nat) (q : Request) (p : List Byte)
    (h : s.Accepts tag q p) (test : List Byte → Bool) (ht : test p = true) (owner : Decision) :
    s.onRequestWhen q test owner = owner (s.takeRecord.enterTable tag q) (some tag) p := by
  obtain ⟨Q, F, H, O, hT⟩ := s.takeRecord_form
  have hr : s.takeRecord.lp.intakeRefusal tag q p = none := by
    have h1 : s.lp.outstanding.any (·.tag == tag) = false := by
      rw [List.any_eq_false]; intro o ho; simpa using h.fresh o ho
    have h2 := h.room
    rw [hT]
    unfold LinkPort.intakeRefusal
    simp [h1, h.size, Config.outstandingPlaces, show ¬ 4 ≤ s.lp.outstanding.length by omega]
  simp only [State.onRequestWhen, h.head, ht, and_self, if_true, State.takeRequest, h.free, hr]
  exact State.handToOwner_unlocked _ _ _ _ _ (by simpa using h.unlocked)

/-- A request in hand is decided with no intake checks: by its owner, with its tag or, after a link reset,
without one (R190, R198). -/
theorem State.onRequestWhen_inHand (s : State) (tag : Nat) (q : Request) (p : List Byte) (r : HeldRecord)
    (hr : s.lp.held = some r) (hj : judge r.record = .request tag q p) (test : List Byte → Bool)
    (ht : test p = true) (owner : Decision) :
    s.onRequestWhen q test owner =
      State.handToOwner { s with lp := { s.lp with held := none } }
        (if r.tagged then some tag else none) q p owner := by
  have hh : s.head = some (.request tag q p) := by simp [State.head, hr, hj]
  simp only [State.onRequestWhen, hh, ht, and_self, if_true, State.takeRequest, hr,
    s.takeRecord_held r hr]

/-- A request that passes intake. -/
theorem run_request (s : State) (tag : Nat) (q : Request) (p : List Byte) (h : s.Accepts tag q p)
    (owner : Decision) :
    run s (fun t => t.onRequest q owner) =
      .next (owner (s.takeRecord.enterTable tag q) (some tag) p).concluded := by
  rw [run, State.onRequest, s.onRequestWhen_accepts tag q p h _ rfl]

/-- The outstanding-request table after a request that was not in it has left it again. -/
theorem outstanding_restored (l : List Outstanding) (tag : Nat) (q : Request)
    (h : ∀ o ∈ l, o.tag ≠ tag) : (l ++ [(⟨tag, q⟩ : Outstanding)]).filter (·.tag ≠ tag) = l := by
  rw [List.filter_append, List.filter_eq_self.2 (by simpa using h)]
  simp

/-- A request answered at once, with the link UP: its reply is sent and the table is as before. -/
theorem State.answer_restored (s t : State) (tag : Nat) (q : Request) (a : Answer)
    (hu : t.lp = (s.enterTable tag q).lp) (up : s.lp.up = true)
    (hf : ∀ o ∈ s.lp.outstanding, o.tag ≠ tag) (hs : t.staged = []) :
    (t.answer (some tag) q a).flush = ({ t with lp := s.lp }).replied
      ⟨tag, q.code, a.outcome, a.reason, t.es.engine, a.field, a.clamped, a.data⟩ := by
  obtain ⟨fs, ad, pt, du, stu, pl, es, tc, fu, rl, nu, lp, st, out, pe⟩ := t
  simp only at hu hs
  subst hu hs
  have e := outstanding_restored s.lp.outstanding tag q hf
  simp only [State.answer, State.stage, State.enterTable, up, if_true, State.flush, State.replied, e]
  simp only [List.nil_append, List.map_cons, List.map_nil]
  rw [← up]

/-! ### The roll log (R178, R181) -/

/-- An append adds one record with the next number and ends the reservation. -/
theorem State.append_rl (s : State) (f : Footage) (b : LogBody) :
    (s.append f b).rl = s.rl.append f b := by
  unfold State.append State.announceLog; split <;> simp

end Sys2Proof.Machine
end

