-- ==== Sys2Proof/Laws/Engine.lean ====
section
/-! SUPPORT. The shared operations said in the terms of the statements: what is sent, how a request is
answered, and what the mechanisms and the engine are told. -/

namespace Sys2Proof.Machine

/-! ### What is sent -/

/-- A saturating count is the lesser of its limit and the value. -/
theorem saturate_eq_min (limit n : Nat) : saturate limit n = min limit n := by
  unfold saturate; split <;> omega

/-- The Notice Unit after a notice is given to it (R199, R200). -/
def NoticeUnit.given (n : NoticeUnit) (p : NoticePayload) : NoticeUnit :=
  if p.kind.level = 7 ∨ n.mask < p.kind.level then n
  else match p.kind.entry with
    | none => n
    | some i => { n with pending := n.pending.set i (some (heldNotice n.pending[i] p)) }

/-- What a notice given to the Notice Unit puts out (R188, R199). -/
def NoticeUnit.putOut (n : NoticeUnit) (up : Bool) (p : NoticePayload) : List Output :=
  if p.kind.level = 7 ∨ n.mask < p.kind.level then (if up then [.notice ⟨1, p⟩] else []) else []

/-- A notice changes the Notice Unit and what is put out, and nothing else. -/
theorem State.notice_eq (s : State) (p : NoticePayload) :
    s.notice p = { s with nu := s.nu.given p, out := s.out ++ s.nu.putOut s.lp.up p } := by
  unfold State.notice NoticeUnit.given NoticeUnit.putOut State.sendNotice State.holdNotice
  split
  · split <;> simp [State.emit]
  · cases h : p.kind.entry <;> simp

theorem State.sends_nil (s : State) : s.sends [] = s := rfl

theorem State.sends_notice (s : State) (p : NoticePayload) (l : List Sent) :
    s.sends (.notice p :: l) = (s.notice p).sends l := rfl

theorem State.sends_command (s : State) (c : MechanismCommand) (l : List Sent) :
    s.sends (.command c :: l) = (s.command c).sends l := rfl

theorem State.sends_output (s : State) (o : Output) (l : List Sent) :
    s.sends (.output o :: l) = (s.emit o).sends l := rfl

theorem State.sends_append (s : State) (a b : List Sent) :
    s.sends (a ++ b) = (s.sends a).sends b := by simp [State.sends]

/-- Sending changes the Notice Unit and what is put out, and nothing else. -/
theorem State.sends_form (l : List Sent) : ∀ s : State,
    ∃ n o, s.sends l = { s with nu := n, out := o } := by
  induction l with
  | nil => exact fun s => ⟨_, _, rfl⟩
  | cons x l ih =>
    intro s
    cases x with
    | notice p =>
      obtain ⟨n, o, h⟩ := ih (s.notice p)
      exact ⟨n, o, by rw [State.sends_notice, h, State.notice_eq]⟩
    | command c =>
      obtain ⟨n, o, h⟩ := ih (s.command c)
      exact ⟨n, o, by rw [State.sends_command, h]; rfl⟩
    | output p =>
      obtain ⟨n, o, h⟩ := ih (s.emit p)
      exact ⟨n, o, by rw [State.sends_output, h]; rfl⟩

/-- A release changes the Notice Unit and what is put out, and nothing else, whatever the rest of the
state holds. -/
theorem State.releaseEntry_form (s : State) (i : Fin 11) (level : Nat) :
    ∃ n o, s.releaseEntry i level = { s with nu := n, out := o } := by
  unfold State.releaseEntry State.sendNotice State.emit
  split
  · cases s.nu.pending[i] with
    | none => exact ⟨_, _, rfl⟩
    | some n => dsimp only; split <;> exact ⟨_, _, rfl⟩
  · exact ⟨_, _, rfl⟩

/-! ### How a request is answered -/

/-- A request that its owner answers at once: the reply is sent, and the outstanding-request table is as
before. -/
theorem run_answer (s : State) (tag : Nat) (q : Request) (p : List Byte) (h : s.Accepts tag q p)
    (test : List Byte → Bool) (ht : test p = true) (owner : Decision) (t u : State) (a : Answer)
    (ho : owner (s.takeRecord.enterTable tag q) (some tag) p = t.answer (some tag) q a)
    (hl : t.lp.outstanding = s.lp.outstanding ++ [⟨tag, q⟩]) (hup : t.lp.up = true)
    (hs : t.staged = [])
    (hr : ∀ f ∈ t.fu.raised, f.kind ∉ [FaultKind.facetShortage, .operator, .shutter, .transport, .filmEnd])
    (hu : u = { t with lp := { t.lp with outstanding := s.lp.outstanding } }) :
    run s (fun t => t.onRequestWhen q test owner) = .next (u.replied
      ⟨tag, q.code, a.outcome, a.reason, t.es.engine, a.field, a.clamped, a.data⟩) := by
  subst hu
  rw [run, State.onRequestWhen_accepts s tag q p h test ht owner, ho, State.concluded_later]
  · congr 1
    have e := outstanding_restored s.lp.outstanding tag q h.fresh
    obtain ⟨fs, ad, pt, du, stu, pl, es, tc, fu, rl, nu, lp, st, out, pe⟩ := t
    obtain ⟨l1, l2, l3, l4, l5, l6, l7, l8⟩ := lp
    simp only at hl hup hs
    subst hl hup hs
    simp only [State.answer, State.stage, if_true, State.flush, State.replied, e]
    simp
  · simp only [State.answer, State.stage]; split <;> exact hr

/-- A request that its owner refuses changes nothing but the input queue. -/
theorem run_refused (s : State) (tag : Nat) (q : Request) (p : List Byte) (h : s.Accepts tag q p)
    (test : List Byte → Bool) (ht : test p = true) (owner : Decision) (r : Reason) (field : Nat)
    (d : ReplyData)
    (ho : owner (s.takeRecord.enterTable tag q) (some tag) p =
      (s.takeRecord.enterTable tag q).refuse (some tag) q r field d) :
    run s (fun t => t.onRequestWhen q test owner) =
      .next (s.takeRecord.repliedRefused tag q r field d) := by
  obtain ⟨Q, F, H, O, hT⟩ := s.takeRecord_form
  refine run_answer s tag q p h test ht owner (s.takeRecord.enterTable tag q) s.takeRecord
    { outcome := .refused, reason := r, field := field, data := d } ho ?_ ?_ ?_ ?_ ?_
  · simp [State.enterTable, hT]
  · simpa [State.enterTable, hT] using h.up
  · simpa [State.enterTable, hT] using h.before.staged
  · simpa [State.enterTable, hT] using fun f hf => (h.before.raised f hf).1
  · simp [State.enterTable, hT]

/-- A request whose owner changes the state to `u`, but for the outstanding-request table, and answers
DONE. -/
theorem run_done (s : State) (tag : Nat) (q : Request) (p : List Byte) (h : s.Accepts tag q p)
    (test : List Byte → Bool) (ht : test p = true) (owner : Decision) (u : State) (d : ReplyData)
    (ul : u.lp.outstanding = s.lp.outstanding) (up : u.lp.up = true)
    (us : u.staged = [])
    (ur : ∀ f ∈ u.fu.raised, f.kind ∉ [FaultKind.facetShortage, .operator, .shutter, .transport, .filmEnd])
    (ho : owner (s.takeRecord.enterTable tag q) (some tag) p =
      State.done { u with lp := { u.lp with outstanding := s.lp.outstanding ++ [⟨tag, q⟩] } } (some tag) q d) :
    run s (fun t => t.onRequestWhen q test owner) = .next (u.repliedDone tag q d) :=
  run_answer s tag q p h test ht owner
    { u with lp := { u.lp with outstanding := s.lp.outstanding ++ [⟨tag, q⟩] } } u
    { outcome := .done, data := d } ho rfl up us ur (by rw [← ul])

/-- A pending long reply ends. -/
theorem State.endReply_eq_ends (s : State) (k : LongKind) (a : Answer) (ha : a.field = 0)
    (hc : a.clamped = false) : s.endReply k a = s.ends k a.outcome a.reason a.data := by
  have same : s.es.replies.get k = none → s.es.replies.set k none = s.es.replies := by
    cases k <;> intro h <;> simp only [PendingReplies.get] at h <;>
      simp only [PendingReplies.set, ← h]
  unfold State.endReply State.ends
  cases h : s.es.replies.get k with
  | none => simp [same h]
  | some r =>
    obtain ⟨q, tag⟩ := r
    cases tag with
    | none => rfl
    | some tag =>
      simp only [State.answer, State.stage, State.setPending, State.setEs, ha, hc]
      split <;> rfl

/-! ### The end of an event -/

/-- The end of an event on which the only fault raised is due: it is taken, and the staged replies are sent. -/
theorem State.concluded_once (s : State) (f : FaultReport) (h : s.fu.raised = [f])
    (hf : f.kind.takenAtOnce = true) :
    s.concluded = (State.takeFault { s with fu := { s.fu with raised := [] } } f).flush := by
  simp [State.concluded, State.takeDue, State.taking, State.takeOne, h, hf, chooseFault, countChoice,
    nextFaults_single, State.setRaised, State.setChoices, State.takeInTurn_due, State.flush_flush]

/-! ### The mechanisms -/

/-- The shutter's close command. -/
theorem State.closeShutter_eq (s : State) :
    s.closeShutter = State.sends { s with tc := s.tc.shutting } s.tc.shutCommand := by
  obtain ⟨fs, ad, pt, du, stu, pl, es, tc, fu, rl, nu, lp, st, out, pe⟩ := s
  obtain ⟨g1, g2, g3, g4, g5, g6, g7, g8, g9, g10, g11, g12, g13, g14, g15⟩ := tc
  cases g7 <;> rfl

/-- The pull-down command. -/
theorem State.pullDown_eq (s : State) :
    s.pullDown = State.sends { s with tc := s.tc.pulling } s.tc.pullCommand := by
  obtain ⟨fs, ad, pt, du, stu, pl, es, tc, fu, rl, nu, lp, st, out, pe⟩ := s
  obtain ⟨g1, g2, g3, g4, g5, g6, g7, g8, g9, g10, g11, g12, g13, g14, g15⟩ := tc
  cases g2 <;> cases g1 <;> rfl

/-- A gate operation that fails. -/
theorem Transport.fail_eq_failing (t : Transport) (op : GateOp) (o : GateOutcome) :
    t.fail op o = t.failing op o := by
  simp [Transport.fail, Transport.failing, saturate_eq_min]

/-- A print command. -/
theorem State.print_eq (s : State) (m : Mark) :
    s.print m = State.sends { s with tc := s.tc.marking m } (s.tc.markCommand m) := by
  obtain ⟨fs, ad, pt, du, stu, pl, es, tc, fu, rl, nu, lp, st, out, pe⟩ := s
  obtain ⟨g1, g2, g3, g4, g5, g6, g7, g8, g9, g10, g11, g12, g13, g14, g15⟩ := tc
  cases g11 <;> rfl

/-- The marks of a frame that has ended. -/
theorem State.disownMarks_eq (s : State) : s.disownMarks = { s with tc := s.tc.disowned } := by
  obtain ⟨fs, ad, pt, du, stu, pl, es, tc, fu, rl, nu, lp, st, out, pe⟩ := s
  obtain ⟨g1, g2, g3, g4, g5, g6, g7, g8, g9, g10, g11, g12, g13, g14, g15⟩ := tc
  cases g11 <;> rfl

/-- An append to the roll log, with the notice of a log that it leaves nearly full. -/
theorem State.append_eq (s : State) (f : Footage) (b : LogBody) :
    s.append f b = State.sends { s with rl := s.rl.append f b }
      (if 56 ≤ s.rl.records.length + 1 then
        [.notice (.logNearlyFull (s.rl.records.length + 1) false)] else []) := by
  simp only [State.append, State.announceLog, RollLog.append, List.length_append, List.length_cons,
    List.length_nil, Config.logNearlyFull, Nat.zero_add, Option.isSome_none]
  split <;> rfl

/-! ### The engine -/

/-- The engine's change of state. -/
theorem State.setEngine_eq (s : State) (e : Engine) (c : Option FaultKind) :
    s.setEngine e c =
      State.sends { s with es := { s.es with engine := e } } (engineMoves s.es.engine e c) := by
  unfold State.setEngine State.holdBeam engineMoves
  split <;> rfl

/-- The disable command puts out the reference pulses it cuts short. -/
theorem State.laserDisable_eq (s : State) :
    s.laserDisable = State.sends
      { s with pl := { s.pl with channels := s.pl.channels.map PowerChannel.turnOff } } s.cutsPulses := by
  have e : s.cutsPulses = if s.pl.channels.any PowerChannel.cut = true then
      [.output (.pulseCut (s.pl.channels.map PowerChannel.cut))] else [] :=
    ite_congr (by simp [Rgb.any, Rgb.map, PowerChannel.cut, or_assoc]) (fun _ => rfl) (fun _ => rfl)
  rw [e]
  unfold State.laserDisable
  dsimp only
  split <;> rfl

/-- Entry to READY. -/
theorem State.enterReady_eq (s : State) : s.enterReady = s.entersReady := by
  simp only [State.enterReady, State.setEngine_eq, State.entersReady, State.sends_append]
  obtain ⟨n, o, h⟩ := State.sends_form (engineMoves s.es.engine .ready none)
    { s with es := { s.es with engine := .ready }, fu := { s.fu with inHand := none } }
  simp only [State.setInHand, h, List.isEmpty_iff]
  split <;> rfl

/-- Entry to PAUSED. -/
theorem State.enterPaused_eq (s : State) : s.enterPaused = s.pauses := by
  simp only [State.enterPaused, State.setEngine_eq]
  rfl

/-- Entry to ABORTING. -/
theorem State.enterAborting_eq (s : State) (r : FaultRecord) : s.enterAborting r = s.aborts r := by
  simp only [State.enterAborting, State.setEngine_eq]
  obtain ⟨fs, ad, pt, du, stu, pl, es, tc, fu, rl, nu, lp, st, out, pe⟩ := s
  obtain ⟨g1, g2, g3, g4, g5, g6, g7, g8, g9, g10, g11, g12, g13, g14, g15⟩ := tc
  cases g7 <;> rfl

/-- The log's part of a blank advance that ends early. -/
theorem State.closeBlank_eq (s : State) : s.closeBlank = s.logsBlank := by
  unfold State.closeBlank State.logsBlank
  cases s.tc.blank with
  | none => rfl
  | some b =>
    by_cases h : s.rl.reservation = some .blank <;> simp only [h, if_true, if_false, ne_eq,
      not_true_eq_false, not_false_eq_true]
    by_cases h0 : b.completed = 0
    · simp [h0, State.release]
    · simp only [h0, if_false, show 0 < b.completed by omega, if_true, State.append_eq]

/-- The end of ADVANCING with no stop pending and no halt deferred is the entry to READY. -/
theorem State.endAdvancing_ready (s : State) (h : s.es.deferredHalt = none)
    (hp : s.es.stopPending = false) : s.endAdvancing = s.entersReady := by
  simp [State.endAdvancing, h, hp, State.enterReady_eq]

/-- STARTING reads its conditions. -/
theorem State.checkStarting_eq (s : State) : s.checkStarting = s.meetsStart := by
  have e : s.startWaits = [] ↔ s.stu.speed = .running ∧ s.allSettled = true ∧
      s.es.stage = .settled 0 ∧ s.tc.gate = .clamped := by
    unfold State.startWaits
    cases h1 : s.stu.speed <;> cases h2 : s.allSettled <;> by_cases h3 : s.es.stage = .settled 0 <;>
      cases h4 : s.tc.gate <;> simp [h3]
  unfold State.checkStarting State.meetsStart
  simp only [e, State.enterReady_eq, State.endReply_eq_ends, State.setEs]

/-- PREPARING reads its conditions. -/
theorem State.checkPreparing_eq (s : State) : s.checkPreparing = s.meetsPreparing := by
  unfold State.checkPreparing State.meetsPreparing State.preparingWaits State.openShutter
  by_cases h1 : s.es.engine = .preparing <;> simp [h1]
  by_cases h2 : s.wheelsReady = true <;> simp [h2]
  by_cases h3 : s.tc.gateUsed = true <;> simp [h3]
  by_cases h4 : s.es.stage = .settled 0 <;> simp [h4]
  by_cases h5 : s.allSettled = true <;> simp [h5]
  by_cases h6 : s.allClear = true <;> simp [h6]
  by_cases h7 : s.tc.shutter = .closed <;>
    simp [h7, State.sends, Config.shutterTime, State.setTc]

end Sys2Proof.Machine
end

