-- ==== Sys2Proof/Laws/Memory.lean ====
section
/-! SUPPORT. The laws of the image memory: a byte read after a write, and the canonical form, which every
operation keeps. -/

namespace Sys2Proof.Machine

/-- Where every listed address is above an address, that address reads as the unlisted byte. -/
theorem Memory.read_below (m : Memory) (x : Nat) (h : ∀ c ∈ m, x < c.1) :
    Memory.read m x = Config.blankImageByte := by
  induction m with
  | nil => rfl
  | cons c m ih =>
    obtain ⟨k, w⟩ := c
    have h1 : x < k := h (k, w) (by simp)
    rw [Memory.read, if_neg (by omega)]
    exact ih (fun d hd => h d (by simp [hd]))

/-- A byte written reads back, and every other byte reads as before, where the addresses rise. -/
theorem Memory.read_write (m : Memory) (h : m.Pairwise (fun c d => c.1 < d.1)) (a b : Nat)
    (v : Byte) : (m.write a v).read b = if b = a then v else m.read b := by
  induction m with
  | nil => unfold Memory.write; split <;> simp_all [Memory.read, eq_comm]
  | cons c m ih =>
    obtain ⟨k, w⟩ := c
    have hc := List.pairwise_cons.1 h
    have hk : ∀ x, x ≤ k → Memory.read m x = Config.blankImageByte := fun x hx =>
      Memory.read_below m x (fun c hm => Nat.lt_of_le_of_lt hx (hc.1 c hm))
    have hi := ih hc.2
    by_cases hb : b = a
    · subst hb
      simp only [if_true] at hi ⊢
      unfold Memory.write
      split
      · split
        · rename_i h1 h2; rw [Memory.read, if_neg (by omega), hk b (by omega), h2]
        · simp [Memory.read]
      · split
        · split
          · rename_i h2; rw [hk b (by omega), h2]
          · simp [Memory.read]
        · rw [Memory.read, if_neg (by omega), hi]
    · simp only [hb, if_false] at hi ⊢
      unfold Memory.write
      split
      · split
        · rfl
        · rw [Memory.read, if_neg (by omega)]
      · split
        · subst a
          split <;> simp [Memory.read, Ne.symm hb]
        · simp only [Memory.read, hi]

/-- The addresses of a memory after a write are the old ones and the one written. -/
theorem Memory.mem_write (m : Memory) (a : Nat) (v : Byte) (c : Host.Cell) (h : c ∈ m.write a v) :
    c ∈ m ∨ c = (a, v) ∧ v ≠ Config.blankImageByte := by
  induction m with
  | nil => grind [Memory.write]
  | cons d m ih => grind [Memory.write]

/-- A write keeps the canonical form. -/
theorem Memory.wf_write (m : Memory) (h : m.wf) (a : Nat) (v : Byte) : (m.write a v).wf := by
  refine ⟨?_, fun c hc => ?_⟩
  · have hp := h.1
    clear h
    induction m with
    | nil => unfold Memory.write; split <;> simp
    | cons c m ih =>
      obtain ⟨k, w⟩ := c
      have hc := List.pairwise_cons.1 hp
      have hw := Memory.mem_write m a v
      unfold Memory.write
      split
      · split
        · exact hp
        · refine List.pairwise_cons.2 ⟨fun d hd => ?_, hp⟩
          rcases List.mem_cons.1 hd with rfl | hd
          · assumption
          · exact Nat.lt_trans ‹a < k› (hc.1 d hd)
      · split
        · split
          · exact hc.2
          · subst a; exact List.pairwise_cons.2 ⟨hc.1, hc.2⟩
        · refine List.pairwise_cons.2 ⟨fun d hd => ?_, ih hc.2⟩
          rcases hw d hd with hd | ⟨rfl, -⟩
          · exact hc.1 d hd
          · show k < a; omega
  · rcases Memory.mem_write m a v c hc with hc | ⟨rfl, hv⟩
    · exact h.2 c hc
    · exact hv

/-- Writing bytes keeps the canonical form. -/
theorem Memory.wf_writeBytes (bs : List Byte) (m : Memory) (h : m.wf) (a : Nat) :
    (m.writeBytes a bs).wf := by
  induction bs generalizing m a with
  | nil => exact h
  | cons b bs ih => exact ih _ (Memory.wf_write m h a b) _

/-- Storing a line keeps the canonical form (R11). -/
theorem Memory.wf_storeLine (m : Memory) (h : m.wf) (slot line : Nat) (words : List Byte) :
    (m.storeLine slot line words).wf := Memory.wf_writeBytes _ m h _

/-- Bytes written read back, and every byte outside them reads as before. -/
theorem Memory.read_writeBytes (bs : List Byte) (m : Memory) (h : m.wf) (a x : Nat) :
    (m.writeBytes a bs).read x =
      if a ≤ x ∧ x < a + bs.length then bs[x - a]?.getD 0 else m.read x := by
  induction bs generalizing m a with
  | nil => grind [Memory.writeBytes]
  | cons b bs ih =>
    rw [Memory.writeBytes, ih _ (Memory.wf_write m h a b), Memory.read_write m h.1]
    by_cases hx : x = a
    · subst hx
      rw [if_neg (by omega), if_pos rfl, if_pos ⟨Nat.le_refl x, by simp⟩]
      simp
    · rcases Nat.lt_or_ge x a with h1 | h1
      · rw [if_neg (by omega), if_neg hx, if_neg (by omega)]
      · obtain ⟨d, rfl⟩ : ∃ d, x = a + 1 + d := ⟨x - (a + 1), by omega⟩
        have e1 : a + 1 + d - (a + 1) = d := by omega
        have e2 : a + 1 + d - a = d + 1 := by omega
        simp only [e1, e2, List.length_cons, List.getElem?_cons_succ, hx, if_false]
        split <;> split <;> first | rfl | omega

/-- The image memory after power-on has its canonical form. -/
theorem Memory.wf_nil : Memory.wf ([] : Memory) := ⟨List.Pairwise.nil, by simp⟩

end Sys2Proof.Machine
end

