-- ==== Sys2Proof/WellFormed.lean ====
section
/-! DEFINITION. Which commands can occur: the checks on their operands. A record from the host may
hold any bytes (R189 takes it "with its bytes as received"), the sensor levels are booleans and the
tick counts are unbounded, so the one operand with a range is the monitor reading of a sample. -/

namespace Sys2Proof

/-- The greatest monitor reading: r is 0–4095 (R99). -/
def maxReading : Nat := 4095

/-- Each channel's reading lies within 0–4095 (R99). -/
def readingsInRange (v : Rgb Nat) : Bool := v.every (· ≤ maxReading)

/-- The operands of a command are ones the part can be given. -/
def Instr.wellFormed : Instr → Bool
  | .sampleCompletion readings => readingsInRange readings
  | _ => true

end Sys2Proof
end

