-- ==== Sys2Proof/Tests/Slice0.lean ====
section
/-! SUPPORT. The model's own tests: the smoke test of WellFormed, the values of the manual's tables and worked
sequences, and for every statement with hypotheses a state and operands that meet them. -/

open Sys2Proof Sys2Proof.Machine

namespace Sys2Proof.Tests

set_option Elab.async false

/-! ### States to test on -/

/-- Power-on with the link UP. -/
def linked : State := { State.powerOn false with lp := { LinkPort.reset with up := true } }

/-- The link UP, in an engine state. -/
def engineIn (e : Engine) : State := { linked with es := { linked.es with engine := e } }

/-- A request with tag 7 at the head of the input queue. -/
def asking (s : State) (q : Request) (p : List Byte) : State :=
  { s with lp := { s.lp with queue := [requestRecord 7 q p] } }

/-- Open sequence 41, width 2, height 1, rule 0, profile 0. -/
def record (phase : Phase) (present : Bool) : SlotRecord :=
  ⟨phase, 0x00C00064, 2, 1, 0, 0, Label.blank, [present], if present then 1 else 0, 0, 41⟩

/-- Slot 2 holds a record. -/
def holding (s : State) (phase : Phase) (present : Bool) : State :=
  { s with fs := { s.fs with slots := s.fs.slots.set 2 (some (record phase present)) } }

/-- Slot 2 QUEUED, at the queue head. -/
def queuedFrame (s : State) : State :=
  { holding s .queued true with fs := { (holding s .queued true).fs with queue := [2] } }

/-- The exposure record of slot 2 before line 0. -/
def exposure : ExposureRecord :=
  ⟨2, 41, 0, 0, 0, 0, 0, Rgb.all ⟨0, 0⟩, Rgb.all 0, false⟩

/-- The worked curve of chapter 4, K[k] = 30 + 90k. -/
def curve : Curve := tabulate 33 (fun k => 30 + 90 * k)

/-- A latched channel with no corrections. -/
def plain (scale : Nat) : LatchedChannel := ⟨true, curve, scale, 0, Vector.replicate 17 4096⟩

/-- Slot 2 is the frame in hand, in an engine state, with the stage at line 0. -/
def inHand (e : Engine) : State :=
  let s := holding (engineIn e) .active true
  { s with
    es := { s.es with exposure := some exposure, stage := .settled 0 }
    rl := { s.rl with reservation := some (.frame 2) }
    du := { s.du with frameLatch := some (Rgb.all (plain 200000)) } }

/-- Line 0 of slot 2 is in progress on facet 3. -/
def onLine : State :=
  let s := inHand .exposing
  { s with
    es := { s.es with lineInProgress := some 3 }
    du := { s.du with lineLatch := some ⟨3, 4096, Rgb.all 0⟩ }
    stu := { s.stu with
      speed := .running, counter := 3, watch := some 9, measurement := .timing 3 0 false 1000 } }

/-- A blank advance of 3 frames, with a pull-down in flight. -/
def advancing (completed : Nat) (gate : Gate) : State :=
  let s := engineIn .advancing
  { s with
    rl := { s.rl with reservation := some .blank }
    tc := { s.tc with
      gate := gate, op := some .pullDown, opTimer := some 5, settleTimer := some 1
      perforations := 4, blank := some ⟨3, completed, Footage.zero⟩ } }

/-- A gate operation in flight. -/
def gateAt (e : Engine) (gate : Gate) (op : GateOp) (n : Nat) : State :=
  let s := engineIn e
  { s with tc := { s.tc with
      gate := gate, op := some op, opTimer := some 5, settleTimer := some 1, perforations := n } }

/-- The shutter moving, with the frame of slot 2 in hand. -/
def shutterAt (s : State) (x : Shutter) : State :=
  { s with tc := { s.tc with shutter := x, shutterTimer := some 3 } }

/-- A mark at the head. -/
def printing (s : State) (kind : MarkKind) (live : Bool) : State :=
  { s with tc := { s.tc with head := .printing ⟨kind, [], live⟩ 5 } }

/-- Every channel SETTLED, its pulse fired. -/
def firing (s : State) : State :=
  { s with pl := { s.pl with
      channels := Rgb.all { PowerChannel.reset with laser := .settled, firing := true } } }

/-- The scan unit at a speed. -/
def atSpeed (s : State) (v : Speed) (m : Measurement) : State :=
  { s with stu := { s.stu with speed := v, measurement := m, watch := some 3, counter := 2 } }

/-- A number of empty log records. -/
def logOf (s : State) (n : Nat) : State :=
  { s with rl := { s.rl with records := List.replicate n ⟨1, Footage.zero, .blank 1⟩ } }

/-! ### The hypotheses, in a form that is evaluated -/

theorem quiet_iff (s : State) : s.Quiet ↔ s.fu.raised = [] ∧ s.staged = [] :=
  ⟨fun h => ⟨h.raised, h.staged⟩, fun h => ⟨h.1, h.2⟩⟩

theorem before_iff (s : State) (first : List FaultKind) : s.Before first ↔ (∀ f ∈ s.fu.raised,
    f.kind ∉ [FaultKind.facetShortage, .operator, .shutter, .transport, .filmEnd] ∧ f.kind ∉ first) ∧
    s.staged = [] :=
  ⟨fun h => ⟨h.raised, h.staged⟩, fun h => ⟨h.1, h.2⟩⟩

/-- Whether a request stands at the head of the input queue and passes intake, evaluated. -/
def accepted (s : State) (tag : Nat) (q : Request) (p : List Byte) : Bool :=
  decide ((∀ f ∈ s.fu.raised, f.kind ∉ [FaultKind.facetShortage, .operator, .shutter, .transport, .filmEnd] ∧
    f.kind ∉ ([] : List FaultKind)) ∧ s.staged = []) && s.lp.up && decide (s.head = some (.request tag q p)) &&
    decide (p.length = q.payloadBytes) && s.lp.outstanding.all (fun o => o.tag ≠ tag) &&
    decide (s.lp.outstanding.length < 4) &&
    decide (s.es.engine = .locked → q.acceptedInLocked = true) && decide (s.lp.held = none)

theorem accepts_iff (s : State) (tag : Nat) (q : Request) (p : List Byte) :
    s.Accepts tag q p ↔ accepted s tag q p = true := by
  simp only [accepted, Bool.and_eq_true, decide_eq_true_eq, List.all_eq_true, ← before_iff]
  exact ⟨fun h => ⟨⟨⟨⟨⟨⟨⟨h.before, h.up⟩, h.head⟩, h.size⟩, h.fresh⟩, h.room⟩, h.unlocked⟩, h.free⟩,
    fun ⟨⟨⟨⟨⟨⟨⟨a, b⟩, c⟩, d⟩, e⟩, f⟩, g⟩, i⟩ => ⟨a, b, c, d, e, f, g, i⟩⟩

/-- A request with tag 7 stands at the head of a state and passes intake. -/
abbrev stands (s : State) (q : Request) (p : List Byte) : Prop := (asking s q p).Accepts 7 q p

/-! ### WellFormed and Decode -/

theorem test_wellFormed_refuses : (Instr.sampleCompletion ⟨4096, 0, 0⟩).wellFormed = false ∧
    (Instr.sampleCompletion ⟨0, 4096, 0⟩).wellFormed = false ∧
    (Instr.sampleCompletion ⟨0, 0, 4096⟩).wellFormed = false := by decide

theorem test_wellFormed_accepts : (Instr.sampleCompletion ⟨4095, 4095, 4095⟩).wellFormed = true ∧
    Instr.status.wellFormed = true := by decide

theorem test_decode_none : decodeTableWord 8 0 = none ∧
    State.reset.withFetchWord 8 0 = State.reset := by decide +kernel

/-! ### Chapter 4: the dose -/

/-- Table 4-2. -/
theorem test_table_4_2 : [0, 6, 7, 1000, 1332, 1500, 2000, 2500, 2832, 3000].map exponential =
    [66, 66, 67, 655, 1408, 2072, 6554, 20724, 44512, 65535] := by decide +kernel

/-- Table 4-4: the words, and whether each counts as clip-low. -/
theorem test_table_4_4 : [127, 128, 255, 256, 511, 512, 767, 16383, 16384, 245760].map stage5 =
    [(⟨0, 0⟩, true), (⟨256, 1⟩, true), (⟨256, 1⟩, true), (⟨256, 1⟩, false), (⟨511, 1⟩, false),
     (⟨256, 2⟩, false), (⟨384, 2⟩, false), (⟨260, 63⟩, false), (⟨256, 64⟩, false),
     (⟨3840, 64⟩, false)] := by decide +kernel

/-- Section 4.12, case 1. -/
theorem test_dose_case_1 : channelDose ⟨true, curve, 200000, 2,
      ((Vector.replicate 17 4096).set 3 4300).set 4 4200⟩ 4014 (-3) 1000 445 =
    ⟨⟨271, 15⟩, false, false⟩ := by decide +kernel

/-- Section 4.12, case 2. -/
theorem test_dose_case_2 : channelDose ⟨true, curve, 180000, -3,
      ((Vector.replicate 17 4096).set 11 3900).set 12 3800⟩ 4200 2 3000 1023 =
    ⟨⟨1904, 64⟩, false, false⟩ := by decide +kernel

/-- Section 4.12, case 3. -/
theorem test_dose_case_3 : [0, 5, -5].map (fun t => finishDose (stage4 65535 245760 4096 4096 t)) =
    [⟨⟨3840, 64⟩, false, false⟩, ⟨⟨3840, 64⟩, true, false⟩, ⟨⟨3456, 64⟩, false, false⟩] := by
  decide +kernel

/-- Section 4.12, case 4. -/
theorem test_dose_case_4 : [(245760, 4096), (245760, 2048), (1, 4096)].map
      (fun k => finishDose (stage4 66 k.1 k.2 4096 0)) =
    [⟨⟨256, 1⟩, false, true⟩, ⟨⟨0, 0⟩, false, true⟩, ⟨⟨0, 0⟩, false, false⟩] := by decide +kernel

/-! ### Chapters 5 and 6: the scan and the lasers -/

/-- Table 5-3: the filtered interval after an EOS at each Tm, from F = 160,006. -/
theorem test_table_5_3 : [160100, 159900, 160009, 160010, 160002, 160001].map (fun tm =>
      match exec (.eos tm) { atSpeed linked .running (.timing 2 0 false 0) with
        stu := { (atSpeed linked .running (.timing 2 0 false 0)).stu with
          facets := linked.stu.facets.set 2 { Facet.reset with interval := 160006 } } } with
      | .next t => t.stu.facets[2].interval
      | _ => 0) = [160018, 159993, 160006, 160007, 160006, 160005] := by decide +kernel

/-- Table 6-3. -/
theorem test_table_6_3 : [-31, -3, 0, 1, 2, 31].map referenceAmplitude =
    [778, 1925, 2048, 2089, 2130, 3318] := by decide

/-- Table 6-4. -/
theorem test_table_6_4 : [(2048, 4), (1000, 5), (3000, 4), (256, 1), (3840, 31)].map
      (fun x => (windowLower x.1 x.2, windowUpper x.1 x.2)) =
    [(1792, 2304), (843, 1156), (2625, 3375), (248, 264), (120, 4095)] := by decide

/-! ### Chapters 2 and 8 to 12 -/

/-- The Admission Table of section 2.4. -/
def mixed : Admission := ⟨((((Admission.reset.rules.set 0
    ⟨true, 0x00C00000, 0xFFF00000, 1, Label.blank, 3000⟩).set 1
    ⟨true, 0x00C00000, 0xFFF00000, 2, Label.blank, 0⟩).set 2
    ⟨false, 0x00C00000, 0xFFFFFFFF, 3, Label.blank, 0⟩).set 3
    ⟨true, 0x1F400000, 0xFFF00000, 5, Label.blank, 0⟩).set 4
    ⟨true, 0, 0, 0, Label.blank, 1556⟩⟩

/-- Section 2.4, Opens A to D. -/
theorem test_search : mixed.search 0x00C00064 3112 = some 0 ∧
    mixed.search 0x00C00065 1556 = some 1 ∧ mixed.search 0x1F400007 3112 = some 3 ∧
    mixed.search 0x00700003 1080 = none ∧ mixed.heightFalls 0x00700003 1080 = (1, some 4) := by
  decide +kernel

/-- Table 8-2. -/
theorem test_table_8_2 : [(0, 3), (12, 15), (99, 15), (999, 15), (9999, 15)].map (fun f =>
      ((Footage.ofNumbers f.1 f.2).advance.feet, (Footage.ofNumbers f.1 f.2).advance.frames)) =
    [(0, 4), (13, 0), (100, 0), (1000, 0), (0, 0)] := by decide

/-- The CRC of R190 (polynomial, initial value, reflections and final inversion) over the nine digits 1 to 9, whose well-known
result is 0xCBF43926. -/
theorem test_crc : crc32 [0x31, 0x32, 0x33, 0x34, 0x35, 0x36, 0x37, 0x38, 0x39] =
    0xCBF43926#32 := by decide +kernel

/-- Section 11.9: the twelfth record sends HOLD, and a take that leaves four sends GO. -/
theorem test_flow : (match exec (.recordArrival [])
      { linked with lp := { linked.lp with queue := List.replicate 11 [] } } with
      | .next t => (t.lp.flow, t.out) | _ => (.go, [])) = (.hold, [.flow .hold]) ∧
    (State.takeRecord { linked with lp := { linked.lp with
      queue := List.replicate 5 [], flow := .hold } }).lp.flow = .go := by decide +kernel

/-- The state after a command. -/
def after (c : Instr) (s : State) : State :=
  match exec c s with
  | .next t => t
  | _ => s

/-- R114: Start Engine with film in OFFLINE enters STARTING with its reply pending; without film it is refused
CONDITION. -/
theorem test_start : (after (.startEngine true) (asking linked .startEngine [])).es.engine = .starting ∧
    (after (.startEngine true) (asking linked .startEngine [])).lp.outstanding =
      [⟨7, .startEngine⟩] ∧
    (after (.startEngine false) (asking linked .startEngine [])).out =
      [.reply ⟨7, 0x30, .refused, .condition, .offline, 0, false, .conditions false true⟩] := by
  decide +kernel

/-- R203: the code values of a pixel word, red in bits 0 to 9, and bits 30 and 31 not stored. -/
theorem test_pixel : Memory.pixel
      (after .lineRecord { holding linked .filling false with lp := { linked.lp with
        queue := [recordBytes 4 0 0 0 ([2, 0, 0, 2, 0, 0] ++ le32 0xC0000000 ++
          le32 (1 + 1024 * 2 + 1048576 * 1023))] } }).fs.image 2 0 1 = ⟨1, 2, 1023⟩ ∧
    Memory.storeLine [] 2 0 (le32 0xC0000000) = [] := by decide +kernel

/-- R142: three perforations fail a pull-down on its cycle end, and in PREPARING the frame returns to the
queue head with the engine HALTED. -/
theorem test_count : (after .cycleEnd { inHand .preparing with
      tc := (gateAt .preparing .pulling .pullDown 3).tc }).es.engine = .halted ∧
    (after .cycleEnd { inHand .preparing with
      tc := (gateAt .preparing .pulling .pullDown 3).tc }).fs.queue = [2] := by decide +kernel

/-- R170: a shutter that does not close locks the engine on its event. -/
theorem test_lock :
    (after .shutterTimerExpiry (shutterAt (inHand .exposing) .closing)).es.engine = .locked ∧
    (after .shutterTimerExpiry (shutterAt (inHand .exposing) .closing)).phaseOf 2 = some .held := by
  decide +kernel

/-- R164: the door's opening in FINISHING is deferred at FU's take. -/
theorem test_defer : (after .faultTake (after .interlockOpening (inHand .finishing))).es.engine =
      .finishing ∧
    (after .faultTake (after .interlockOpening (inHand .finishing))).es.deferredHalt.map
      (·.applied) = some .defer := by decide +kernel

/-- R200, R201: two ENGINE_STATE notices under the mask 3 coalesce, and are sent when the mask falls. -/
theorem test_coalesce : (State.setMask (((linked.setMask 3).setEngine .ready).setEngine .starting) 2).out =
    [.notice ⟨2, .engineState .ready .starting none⟩] := by decide +kernel

/-- R66: the line is driven from pixel position L0, with the black pixels of curve knot 30. -/
theorem test_drive : (after (.sampleCompletion ⟨2048, 2048, 2048⟩) (firing onLine)).out.map
      (fun o => match o with
        | .image line start _ words => (line, start, words.length)
        | _ => (9, 9, 9)) = [(0, 128, 2)] := by decide +kernel

/-- What a state puts out beside what it has put out already, by kind: 1 a notice with its code, 2 a reply, 3
beam-off, 4 a pulse cut short, 0 anything else. -/
def sent (s : State) : List (Nat × Nat) := s.out.map (fun o => match o with
  | .notice n => (1, n.payload.kind.code)
  | .reply r => (2, r.outcome.code)
  | .beamOff => (3, 0)
  | .pulseCut _ => (4, 0)
  | _ => (0, 0))

/-- R181: a lock in PREPARING appends no record, and returns the frame to the queue head. -/
theorem test_lock_preparing :
    let t := after .shutterTimerExpiry (shutterAt (inHand .preparing) .closing)
    t.es.engine = .locked ∧ t.fs.queue = [2] ∧ t.phaseOf 2 = some .queued ∧ t.rl.load = 0 := by
  decide +kernel

/-- A channel that is TRIPPED, with a response assigned to POWER_TRIP. -/
def tripped (s : State) (r : Response) : State :=
  { s with
    pl := { s.pl with
      channels := Rgb.all { PowerChannel.reset with laser := .settled, window := .tripped } }
    fu := { s.fu with responses := s.fu.responses.set 3 r } }

/-- R125: a trip between the open command and its confirmation, under PAUSE, leaves the engine PAUSED before
the first scan begin; under WARN the engine is EXPOSING. -/
theorem test_trip_while_opening :
    [Response.pause, .warn].map (fun r =>
      (after .shutterOpenConfirmation (tripped (shutterAt (inHand .preparing) .opening) r)).es.engine) =
    [.paused, .exposing] := by decide +kernel

/-- R152: a failed pull-down of a blank advance appends its BLANK record before its fault is taken, so that
LOG_NEARLY_FULL (9) goes out before FAULT (11). -/
theorem test_blank_before_fault :
    ((sent (after .cycleEnd { logOf (advancing 1 .pulling) 55 with
      tc := { (advancing 1 .pulling).tc with perforations := 3 } })).filter (·.1 = 1)).take 2 =
    [(1, NoticeKind.code .logNearlyFull), (1, NoticeKind.code .fault)] := by decide +kernel

/-- R93: the door's opening cuts short a pulse whose sample has not completed, and no other. -/
theorem test_pulse_cut : sent (after .interlockOpening (firing linked)) = [(4, 0), (1, NoticeKind.code .interlock)] ∧
    sent (after .interlockOpening linked) = [(1, NoticeKind.code .interlock)] := by decide +kernel

/-- R67: the channels are held at beam-off on the event that leaves EXPOSING: SOS_LOSS at ABORT on a line. -/
theorem test_beam_off : (3, 0) ∈ sent (after .faultTake (onLine.raise (.sosLoss 8))) ∧
    (after .faultTake (onLine.raise (.sosLoss 8))).es.engine = .aborting := by decide +kernel

/-- R68: a slip, the scan's end, and then the take of SYNC_SLIP under ABORT: the line is counted, as a defect,
before the engine leaves EXPOSING. -/
theorem test_scan_end_first :
    let s := { onLine with
      fu := { onLine.fu with responses := onLine.fu.responses.set 2 .abort }
      fs := { onLine.fs with slots := onLine.fs.slots.set 2 (some { record .active true with height := 2 }) } }
    let t := after .faultTake (after (.eos 159000) (after .indexPulse s))
    t.es.engine = .aborting ∧ t.es.exposure.map (fun e => (e.exposed, e.defects, e.line)) = some (1, 1, 1) := by
  decide +kernel

/-- R3, R198: a Close taken in hand, then a link reset: the decision takes effect and no reply is sent. -/
theorem test_link_reset_in_hand :
    let s := asking (holding linked .filling true) .closeFrame (le8 2 ++ zeros 7)
    let t := after .closeFrame (after .linkReset s.idle)
    s.idle.lp.held.isSome = true ∧ s.idle.lp.outstanding = [⟨7, .closeFrame⟩] ∧
    (after .linkReset s.idle).lp.outstanding = [] ∧
    t.phaseOf 2 = some .queued ∧ t.fs.queue = [2] ∧ t.lp.held = none ∧
    t.out.all (fun o => match o with | .reply _ => false | _ => true) = true := by decide +kernel

/-- R195: a Checkpoint at the head is taken by its own command alone, so that an overrun before it is in its
reply. -/
theorem test_checkpoint_take :
    let s := asking linked .checkpoint []
    let o := { s with lp := { s.lp with queue := s.lp.queue ++ List.replicate 15 [] } }
    s.idle.lp.held = none ∧ s.idle.lp.queue = s.lp.queue ∧
    (match (after .checkpoint (after (.recordArrival []) o.idle)).out with
      | .reply r :: _ => r.data
      | _ => .empty) = .checkpoint ⟨0, none⟩ 1 (some .queueOverrun) := by decide +kernel

/-- R204: the payload of a Status reply begins with the code of Status, reason 0, the engine state and field
0. -/
theorem test_status_payload :
    (match (after .status (asking (engineIn .ready) .status [])).out with
      | [.reply r] => (r.tag, r.outcome, (List.range 4).map (byteAt r.payload), decide (4 < r.payload.length))
      | _ => (0, .failed, [], false)) = (7, .done, [0x02, 0, Engine.code .ready, 0], true) := by
  decide +kernel

/-! ### Witnesses: the hypotheses of each statement are met -/

theorem test_witness_StepRunsFront :
    (linked.withCommand .linkReset).pending = .linkReset :: [] ∧
    (State.reset.pending = [] ∧ State.reset.Quiet) := by
  simp only [quiet_iff]; decide +kernel

theorem test_witness_LinkUpAndReset : (State.reset.Before [] ∧ State.reset.lp.up = false) ∧
    (linked.Before [] ∧ linked.lp.up = true) := by
  simp only [before_iff]; decide +kernel

/-- A Close of slot 2, alone in the queue; a Stop in EXPOSING with no stop pending. -/
theorem test_witness_LinkResetInHand :
    stands (holding linked .filling true) .closeFrame (le8 2 ++ zeros 7) ∧
    (asking (holding linked .filling true) .closeFrame (le8 2 ++ zeros 7)).lp.queue.head? =
      some (requestRecord 7 .closeFrame (le8 2 ++ zeros 7)) ∧
    Request.isLong .closeFrame = false ∧
    stands (inHand .exposing) .stopEngine [] ∧ Engine.stopsLater .exposing = true ∧
    (inHand .exposing).es.replies.stop = none ∧ (inHand .exposing).es.stopPending = false := by
  simp only [stands, accepts_iff]; decide +kernel

/-- Occupancies 0, 11 in GO, 15 and 16 before the arrival; 5 in HOLD before the take. -/
theorem test_witness_QueueFlows : (linked.Before [] ∧ linked.lp.up = true) ∧
    (∀ n ∈ [0, 11, 15, 16], ∃ s : State, s.Before [] ∧ s.lp.up = true ∧ s.lp.queue.length = n ∧
      s.lp.flow = .go) ∧
    (∃ (s : State) (r : Record) (rest : List Record), s.lp.queue = r :: rest ∧ rest.length = 4 ∧
      s.lp.flow = .hold) := by
  refine ⟨by simp only [before_iff]; decide +kernel, fun n _ => ⟨{ linked with lp := { linked.lp with
    queue := List.replicate n [] } }, ⟨(fun _ h => nomatch h), rfl⟩, rfl, List.length_replicate, rfl⟩,
    { linked with lp := { linked.lp with queue := List.replicate 5 [], flow := .hold } }, [],
    List.replicate 4 [], rfl, rfl, rfl⟩

/-- A LINE record of two pixels to slot 2. -/
def lineOf (slot line count : Nat) : Record :=
  recordBytes 4 0 0 0 (le8 slot ++ le16 line ++ le16 count ++ [0] ++ zeros (4 * count))

/-- The record at the head. -/
def receiving (s : State) (r : Record) : State := { s with lp := { s.lp with queue := [r] } }

/-- At the head: a line, a request that passes intake, one whose tag is in use, one of a wrong length, one to a
full table, and a record that LP drops; a line in hand. -/
theorem test_witness_RecordsInHand :
    linked.lp.held = none ∧
    (receiving (holding linked .filling false) (lineOf 2 0 2)).head = some (.line 2 0 2 (zeros 8)) ∧
    judge (lineOf 2 0 2) = .line 2 0 2 (zeros 8) ∧ linked.Before [] ∧
    judge (requestRecord 7 .status []) = .request 7 .status [] ∧
    (∀ o ∈ linked.lp.outstanding, o.tag ≠ 7) ∧ linked.lp.outstanding.length < 4 ∧
    ([] : List Byte).length = Request.payloadBytes .status ∧
    [(⟨7, .startEngine⟩ : Outstanding)].any (fun o => o.tag == 7) = true ∧
    (zeros 1).length ≠ Request.payloadBytes .status ∧
    judge (zeros 11) = .dropped .framing ∧
    { linked.lp with held := some ⟨lineOf 2 0 2, true⟩ }.held ≠ none := by
  simp only [before_iff]; decide +kernel

/-- Records of 11 bytes, of a length other than the header says, with a wrong trailer, of kind 2, of kind 1
with and without a request of that code, and of kind 4. -/
theorem test_witness_RecordsJudged :
    (zeros 11).length < 12 ∧ 16402 < (zeros 16403).length ∧
    (zeros 13).length ≠ 12 + payloadLength (zeros 13) ∧
    (∀ r ∈ [zeros 12, recordBytes 2 9 0 0 [], recordBytes 1 9 0x01 0 [], recordBytes 1 9 0x06 0 [],
        lineOf 2 0 2],
      12 ≤ r.length ∧ r.length ≤ 16402 ∧ r.length = 12 + payloadLength r) ∧
    (crc32 ((zeros 12).take 8)).toNat ≠ longAt (zeros 12) 8 ∧
    (∀ r ∈ [recordBytes 2 9 0 0 [], recordBytes 1 9 0x01 0 [], recordBytes 1 9 0x06 0 [],
        lineOf 2 0 2],
      (crc32 (r.take (8 + payloadLength r))).toNat = longAt r (8 + payloadLength r)) ∧
    ([recordBytes 2 9 0 0 [], recordBytes 1 9 0x01 0 [], lineOf 2 0 2].map (byteAt · 0)) =
      [2, 1, 4] := by
  refine ⟨by decide, by rw [zeros, List.length_replicate]; decide, by decide, by decide +kernel,
    by decide +kernel,
    by decide +kernel, by decide +kernel⟩

theorem test_witness_RecordsDropped : linked.Before [] ∧ linked.lp.up = true ∧
    (receiving linked (zeros 11)).head = some (.dropped .framing) ∧
    (receiving linked (recordBytes 2 9 0 0 [])).head = some (.otherKind 9) ∧
    (receiving linked (recordBytes 1 9 0x06 0 [])).head = some (.unknownRequest 9 0x06) := by
  simp only [before_iff]; decide +kernel

theorem test_witness_RecordLayouts :
    (255 < 256 ∧ (List.replicate 16390 (0 : Byte)).length ≤ 16390) ∧
    judge (requestRecord 255 .readRule (zeros 4)) = .request 255 .readRule (zeros 4) :=
  ⟨⟨by decide, Nat.le_of_eq (by rw [List.length_replicate])⟩, by decide +kernel⟩

/-- A Read Rule reply, written out by Table 12-4 with the count 2 after it. -/
theorem test_readRule_reply : ReplyData.bytes (.rule 5
      ⟨true, 0x11223344, 0xFFFF0000, 3, Vector.replicate 8 0x41, 0x0102⟩ 2) =
    [5, 1, 3, 0, 0x44, 0x33, 0x22, 0x11, 0x00, 0x00, 0xFF, 0xFF] ++ List.replicate 8 0x41 ++
      [0x02, 0x01, 0, 0, 2] := by decide

/-- A Read Profile reply at the offsets of Table 12-5: knot 1 of green, and the reference count. -/
theorem test_readProfile_reply : ∀ b, b = ReplyData.bytes (.profile 6
      ⟨true, 0x0203, ⟨⟨true, 1, 9, Vector.replicate 33 4⟩, ⟨false, 2, 0x01020304, curve⟩,
        ⟨true, 0, 9, Vector.replicate 33 4⟩⟩, 3⟩) →
    b.take 9 = [6, 1, 1, 0, 1, 0, 0x03, 0x02, 1] ∧ (b.drop 82).take 8 = [2, 0, 0, 0, 4, 3, 2, 1] ∧
      (b.drop 92).take 2 = [120, 0] ∧ b.drop 228 = [4, 0, 3] := by
  intro b h; subst h; decide +kernel

/-- A reply that names field 255 and one that names field 256; log records of each body. -/
theorem test_witness_LayoutForms :
    (255 ≤ 255 ∧ 255 < 256) ∧
    (∀ b ∈ [LogBody.blank 16, .spoiled ⟨0, 2, 0, 0, 0, Label.blank, 0, 0, 0, Rgb.all 0, Rgb.all ⟨0, 0⟩⟩ .reset],
      (⟨1, Footage.zero, b⟩ : LogRecord).bytes.length = 64) ∧
    (⟨.interlock, .exposing, .abort, some 2, none, none, Footage.zero⟩ : FaultRecord).bytes =
      [0x4C, 4, 3, 2, 0xFF, 0xFF, 0xFF, 0xFF, 0, 0, 0, 0] ++ zeros 8 := by decide +kernel

/-- The outstanding-request table full, with the tags 0 to 3 of Start Engine, or tag 7 alone. -/
def crowded (tags : List Nat) : State :=
  { linked with lp := { linked.lp with outstanding := tags.map (⟨·, .startEngine⟩) } }

/-- A request with the payload length wrong by one, with its tag in use, and with the table full. -/
theorem test_witness_IntakeRefuses :
    (linked.Before [] ∧ linked.lp.up = true ∧
      (asking linked .readLog (zeros 3)).head = some (.request 7 .readLog (zeros 3)) ∧
      (zeros 3).length ≠ Request.payloadBytes .readLog) ∧
    (asking (crowded [7]) .status []).head = some (.request 7 .status []) ∧
    ([] : List Byte).length = Request.payloadBytes .status ∧
    (∃ o ∈ (crowded [7]).lp.outstanding, o.tag = 7) ∧
    (∀ o ∈ (crowded [0, 1, 2, 3]).lp.outstanding, o.tag ≠ 7) ∧
    4 ≤ (crowded [0, 1, 2, 3]).lp.outstanding.length := by
  simp only [before_iff]; decide +kernel

theorem test_witness_LockedRefuses :
    let s := asking (engineIn .locked) .resetEngine []
    s.Before [] ∧ s.lp.up = true ∧ s.head = some (.request 7 .resetEngine []) ∧
    ([] : List Byte).length = Request.payloadBytes .resetEngine ∧
    (∀ o ∈ s.lp.outstanding, o.tag ≠ 7) ∧ s.lp.outstanding.length < 4 ∧ s.es.engine = .locked ∧
    Request.resetEngine ∉
      [Request.identify, .status, .checkpoint, .setNoticeMask, .readLog] := by
  simp only [before_iff]; decide +kernel

/-- A request in hand when the engine is LOCKED, with and without its tag. -/
theorem test_witness_LockedInHand : ∀ tagged ∈ [true, false],
    let s := { engineIn .locked with lp := { linked.lp with
      held := some ⟨requestRecord 7 .resetEngine [], tagged⟩ } }
    s.Before [] ∧ s.lp.up = true ∧
    judge (requestRecord 7 .resetEngine []) = .request 7 .resetEngine [] ∧ s.es.engine = .locked := by
  simp only [before_iff]; decide +kernel

/-- The last line of a slot, with its mark clear and with its mark set. -/
theorem test_witness_LineStored (present : Bool) :
    let s := receiving (holding linked .filling present) (lineOf 2 0 2)
    s.Before [] ∧ s.head = some (.line 2 0 2 (zeros 8)) ∧ s.slot 2 = some (record .filling present) ∧
    (record .filling present).phase = .filling ∧ 0 < (record .filling present).height ∧
    2 = (record .filling present).width ∧ (record .filling present).width ≤ 4096 := by
  simp only [before_iff]; revert present; decide +kernel

/-- A slot of 3201 lines, at line 3200. -/
theorem test_witness_LineStops :
    let r := { record .filling false with height := 3201 }
    let s := receiving { linked with fs := { linked.fs with slots := linked.fs.slots.set 2 (some r) } }
      (lineOf 2 3200 2)
    s.Before [] ∧ s.head = some (.line 2 3200 2 (zeros 8)) ∧ s.slot 2 = some r ∧ r.phase = .filling ∧
    3200 < r.height ∧ 2 = r.width := by
  simp only [before_iff]; decide +kernel

/-- Slot 4; slot 1, FREE; line 1 of a frame of one line; three pixels to a line of two. -/
theorem test_witness_LineRefused :
    let s := holding linked .filling false
    s.Before [] ∧ (receiving s (lineOf 4 0 2)).head = some (.line 4 0 2 (zeros 8)) ∧ 3 < 4 ∧
    (receiving s (lineOf 1 0 2)).head = some (.line 1 0 2 (zeros 8)) ∧
    s.phaseOf 1 ≠ some .filling ∧
    (receiving s (lineOf 2 1 2)).head = some (.line 2 1 2 (zeros 8)) ∧
    (receiving s (lineOf 2 0 3)).head = some (.line 2 0 3 (zeros 12)) ∧
    s.slot 2 = some (record .filling false) ∧ (record .filling false).height ≤ 1 ∧
    3 ≠ (record .filling false).width := by
  simp only [before_iff]; decide +kernel

/-- The memory after a line of one white pixel, and after one of nothing. -/
theorem test_witness_LineBytes : Memory.wf [] ∧
    Memory.wf (Memory.storeLine [] 3 3199 [0xFF, 0xFF, 0xFF, 0xFF]) ∧
    Memory.read (Memory.storeLine [] 3 3199 [0xFF, 0xFF, 0xFF, 0xFF]) (pixelAddress 3 3199 0 + 3) =
      0x3F ∧
    (∀ n ∈ [1, 4096], (zeros (4 * n)).length = 4 * n) ∧ 3 < 4 ∧ 3199 < 3200 := by
  decide +kernel

theorem test_witness_LinkPortAnswers : stands linked .identify [] ∧ stands linked .status [] ∧
    stands linked .checkpoint [] ∧ (∀ m ∈ [6, 7], stands linked .setNoticeMask [m]) := by
  simp only [stands, accepts_iff]; decide +kernel

/-- A level 7 notice, a notice of level 1 under the mask 0, and under the masks 1 and 6. -/
theorem test_witness_NoticesDecided : (NoticePayload.interlock true).kind.level = 7 ∧
    0 < NoticePayload.queueEmpty.kind.level ∧ NoticePayload.queueEmpty.kind.entry ≠ none ∧
    NoticePayload.queueEmpty.kind.level ≠ 7 ∧ NoticePayload.queueEmpty.kind.level ≤ 6 ∧
    (NoticePayload.frameStarted 0 0 0 Footage.zero).kind.level = 1 := by decide

/-- The payload of Set Parameter. -/
def parameterOf (id value : Nat) : List Byte := le16 id ++ zeros 2 ++ le32 value

/-- Nsp at 4096, L0 at 64 and Pn one above Tn are accepted; Tn is accepted up to one below Pn. -/
theorem test_witness_ParameterAccepted :
    (∀ x ∈ [(0x0004, 4096), (0x0005, 64), (0x0002, 160001), (0x0001, 249999), (0x0150, 8191)],
      stands linked .setParameter (parameterOf x.1 x.2) ∧
      wordAt (parameterOf x.1 x.2) 0 = x.1 ∧ longAt (parameterOf x.1 x.2) 4 = x.2 ∧
      ∀ q, Parameter.ofId x.1 = some q → q.acceptedIn linked.es.engine = true ∧
        q.inRange x.2 = true ∧ linked.pairHolds q x.2 = true ∧ linked.geometryHolds q x.2 = true) ∧
    Parameter.ofId 0x0004 = some .nsp ∧ Parameter.ofId 0x0150 = some (.knot .blue 16) := by
  have h : ∀ x ∈ [(0x0004, 4096), (0x0005, 64), (0x0002, 160001), (0x0001, 249999),
        (0x0150, 8191)],
      stands linked .setParameter (parameterOf x.1 x.2) ∧
      wordAt (parameterOf x.1 x.2) 0 = x.1 ∧ longAt (parameterOf x.1 x.2) 4 = x.2 ∧
      (Parameter.ofId x.1).all (fun q => q.acceptedIn linked.es.engine && q.inRange x.2 &&
        linked.pairHolds q x.2 && linked.geometryHolds q x.2) = true := by
    simp only [stands, accepts_iff]; decide +kernel
  refine ⟨fun x hx => ⟨(h x hx).1, (h x hx).2.1, (h x hx).2.2.1, fun q hq => ?_⟩, by decide,
    by decide⟩
  have := (h x hx).2.2.2
  rw [hq] at this
  simpa [and_assoc] using this

/-- A slot of width 4000. -/
def wide : State := { linked with fs := { linked.fs with
  slots := linked.fs.slots.set 1 (some { record .filling false with width := 4000 }) } }

/-- An unknown id; Nsp in READY; Nsp at 4095 and Tn at Pn; Nsp below L0 + W. -/
theorem test_witness_ParameterRefused :
    (stands linked .setParameter (parameterOf 0x0111 2048) ∧
      Parameter.ofId (wordAt (parameterOf 0x0111 2048) 0) = none) ∧
    (stands (engineIn .ready) .setParameter (parameterOf 4 4096) ∧
      Parameter.ofId (wordAt (parameterOf 4 4096) 0) = some .nsp ∧
      Parameter.nsp.acceptedIn (engineIn .ready).es.engine = false) ∧
    (stands linked .setParameter (parameterOf 4 4095) ∧
      Parameter.nsp.acceptedIn linked.es.engine = true ∧ Parameter.nsp.inRange 4095 = false) ∧
    (stands linked .setParameter (parameterOf 1 250000) ∧ Parameter.tn.inRange 250000 = true ∧
      linked.pairHolds .tn 250000 = false) ∧
    (stands wide .setParameter (parameterOf 4 4127) ∧ Parameter.nsp.inRange 4127 = true ∧
      wide.pairHolds .nsp 4127 = true ∧ wide.geometryHolds .nsp 4127 = false) := by
  simp only [stands, accepts_iff]; decide +kernel

/-- Every row of the table, the knots at both ends of their ranges, and an id that names none. -/
theorem test_witness_ParameterTable : parameterRows.length = 15 ∧
    (∀ c ∈ channels, ∀ j ∈ [(0 : Fin 17), 16], (Parameter.knot c j).inRange 2048 = true ∧
      (Parameter.knot c j).inRange 8191 = true ∧ (Parameter.knot c j).inRange 8192 = false) ∧
    (∀ x ∈ parameterRows, x.1 ≠ 0x0006) ∧
    (∀ (c : Channel) (j : Fin 17), 0x0100 + 0x20 * channelNumber c + j.val ≠ 0x0006) := by
  refine ⟨by decide, by decide, by decide, fun c j => ?_⟩
  cases c <;> simp only [channelNumber] <;> omega

/-! #### Frames -/

/-- The table of section 2.4 with every profile but 5 loaded, and the Open counter at its last value. -/
def opening (n : Nat) : State :=
  { linked with
    admission := mixed
    fs := { linked.fs with openCounter := n }
    pt := ⟨tabulate 8 (fun k => { Profile.blank with valid := k != 5 })⟩ }

/-- The payload of Open Frame. -/
def openOf (key width height : Nat) : List Byte := le32 key ++ le16 width ++ le16 height

/-- The widest and highest frame, with the Open counter at 40 and at 4294967295. -/
theorem test_witness_FrameOpened : ∀ n ∈ [40, 4294967295],
    let p := openOf 0x00C00064 4096 3200
    stands (opening n) .openFrame p ∧ 1 ≤ wordAt p 4 ∧ wordAt p 4 ≤ 4096 ∧ 1 ≤ wordAt p 6 ∧
    wordAt p 6 ≤ 3200 ∧ (opening n).stu.params.l0 + wordAt p 4 ≤ (opening n).stu.params.nsp ∧
    (∀ j r, (opening n).slot j = some r → r.key ≠ BitVec.ofNat 32 (longAt p 0)) ∧
    (opening n).admission.search (BitVec.ofNat 32 (longAt p 0)) (wordAt p 6) = some 0 ∧
    (opening n).admission.rules[0].profile = 1 ∧
    (opening n).pt.profiles[(1 : Fin 8)].valid = true ∧ (opening n).slot 0 = none ∧
    (∀ j, j < 0 → (opening n).slot j ≠ none) := by
  intro n hn
  have h : ∀ j, (opening n).slot j = none := fun j => by
    have : ∀ j : Fin 4, (State.powerOn false).slot j = none := by decide +kernel
    exact this j
  refine ⟨?_, by decide, by decide, by decide, by decide, ?_, fun j r hr => ?_, ?_, ?_, ?_,
    h 0, fun j hj => absurd hj (Fin.not_lt_zero j)⟩
  · revert n; simp only [stands, accepts_iff]; decide +kernel
  · clear h; revert n; decide +kernel
  · rw [h j] at hr; cases hr
  all_goals clear h; revert n; decide +kernel

/-- Every slot occupied. -/
def full : State := { opening 0 with fs := { linked.fs with
  slots := Vector.replicate 4 (some (record .held true)) } }

/-- A width of 4097; the key of slot 2; Opens D and C of section 2.4; every slot occupied. -/
theorem test_witness_OpenRefused :
    (stands (opening 0) .openFrame (openOf 9 4097 1) ∧
      (opening 0).geometryFits 4097 1 = false) ∧
    (stands (holding (opening 0) .held true) .openFrame (openOf 0x00C00064 1 1) ∧
      (opening 0).geometryFits 1 1 = true ∧
      (holding (opening 0) .held true).holdsKey 0x00C00064 = true) ∧
    (stands (opening 0) .openFrame (openOf 0x00700003 2048 1080) ∧
      (opening 0).holdsKey 0x00700003 = false ∧
      (opening 0).admission.search 0x00700003 1080 = none) ∧
    (stands (opening 0) .openFrame (openOf 0x1F400007 4096 3112) ∧
      (opening 0).admission.search 0x1F400007 3112 = some 3 ∧
      (opening 0).pt.profiles[(opening 0).admission.rules[(3 : Fin 32)].profile].valid = false) ∧
    (stands full .openFrame (openOf 0x00C00067 4096 3112) ∧ full.holdsKey 0x00C00067 = false ∧
      full.admission.search 0x00C00067 3112 = some 0 ∧
      full.pt.profiles[full.admission.rules[(0 : Fin 32)].profile].valid = true ∧
      ∀ j, full.slot j ≠ none) := by
  simp only [stands, accepts_iff]; decide +kernel

/-- Section 2.4, Open D: rule 4 alone falls by its height. -/
theorem test_witness_HeightFalls : ∀ i : Fin 32,
    (mixed.rules[i].fallsByHeight 0x00700003 1080 = true ↔ i = 4) := by decide +kernel

/-- The payload of Close, Discard and Requeue Frame. -/
def addressOf (slot guard seq : Nat) : List Byte := le8 slot ++ le8 guard ++ zeros 2 ++ le32 seq

/-- Slot 4; guard 2; a guard that the slot does not meet; slot 1, FREE; a Close of a HELD slot. -/
theorem test_witness_AddressChecks : ∀ q ∈ [Request.closeFrame, .discardFrame, .requeueFrame],
    let s := holding linked .held true
    (stands s q (addressOf 4 0 0) ∧ 3 < byteAt (addressOf 4 0 0) 0) ∧
    (stands s q (addressOf 2 2 0) ∧ (2 : Fin 4).val = byteAt (addressOf 2 2 0) 0 ∧
      1 < byteAt (addressOf 2 2 0) 1) ∧
    (stands s q (addressOf 2 1 40) ∧ byteAt (addressOf 2 1 40) 1 = 1 ∧
      (s.slot 2).map (·.openSeq) ≠ some (longAt (addressOf 2 1 40) 4)) ∧
    (stands s q (addressOf 1 0 0) ∧ byteAt (addressOf 1 0 0) 1 = 0 ∧ s.slot 1 = none) ∧
    (stands s q (addressOf 2 1 41) ∧
      (s.slot 2).map (·.openSeq) = some (longAt (addressOf 2 1 41) 4) ∧
      s.phaseOf 2 ≠ some .filling) := by
  simp only [stands, accepts_iff]; decide +kernel

/-- With the guard met, every line present and a line missing. -/
theorem test_witness_FrameClosed : ∀ present ∈ [true, false],
    let s := holding linked .filling present
    stands s .closeFrame (addressOf 2 1 41) ∧ (2 : Fin 4).val = byteAt (addressOf 2 1 41) 0 ∧
    s.slot 2 = some (record .filling present) ∧ (record .filling present).phase = .filling ∧
    byteAt (addressOf 2 1 41) 1 = 1 ∧
    (record .filling present).openSeq = longAt (addressOf 2 1 41) 4 := by
  simp only [stands, accepts_iff]; decide +kernel

/-- A slot in each state; the last QUEUED slot of a READY engine. -/
theorem test_witness_FrameDiscardedOrRequeued :
    (∀ x ∈ [Phase.filling, .queued, .active, .held],
      let s := holding (engineIn .ready) x true
      s.slot 2 = some (record x true) ∧ (2 : Fin 4).val = byteAt (addressOf 2 0 0) 0 ∧
      byteAt (addressOf 2 0 0) 1 = 0 ∧ stands s .discardFrame (addressOf 2 0 0) ∧
      stands s .requeueFrame (addressOf 2 0 0)) ∧
    (queuedFrame (engineIn .ready)).fs.queue = [2] ∧
    stands (queuedFrame (engineIn .ready)) .discardFrame (addressOf 2 0 0) := by
  simp only [stands, accepts_iff]; decide +kernel

/-- The payload of Write Rule, with a label of eight equal characters. -/
def ruleOf (index valid profile minHeight : Nat) (character : Byte) : List Byte :=
  le8 index ++ le8 valid ++ le8 profile ++ zeros 1 ++ le32 0 ++ le32 0 ++
    List.replicate 8 character ++ le16 minHeight ++ zeros 2

/-- The payload of Load Profile. -/
def profileOf (index range scale knot32 : Nat) : List Byte :=
  le8 index ++ [1, 1, 1, 1, 0] ++ le16 5207 ++ (channels.flatMap (fun _ =>
    le8 range ++ zeros 3 ++ le32 scale ++ (List.range 32).flatMap (fun k => le16 (30 + 90 * k)) ++
      le16 knot32))

set_option maxRecDepth 20000 in
theorem test_witness_RulesAndProfiles :
    let p := ruleOf 31 1 7 3200 0x41
    let q := profileOf 7 2 245760 3000
    (stands linked .writeRule p ∧ (31 : Fin 32).val = byteAt p 0 ∧ (7 : Fin 8).val = byteAt p 2 ∧
      byteAt p 1 ≤ 1 ∧ wordAt p 20 ≤ 3200 ∧
      ∀ b ∈ (labelAt p 12).toList, isLabelCharacter b = true) ∧
    (stands linked .readRule [31] ∧ (31 : Fin 32).val = byteAt [31] 0) ∧
    (stands linked .loadProfile q ∧ (7 : Fin 8).val = byteAt q 0 ∧ badProfileField q = none ∧
      badCurve q = none) ∧
    (stands linked .readProfile [7] ∧ (7 : Fin 8).val = byteAt [7] 0) := by
  simp only [stands, accepts_iff]; decide +kernel

/-! #### Settings -/

/-- The payload of Set Facet Gains: a gain for facets 0 to 6, and one for facet 7. -/
def gainsOf (a b : Nat) : List Byte := (List.replicate 7 (le16 a)).flatten ++ le16 b

theorem test_witness_TrimsAndFacetsSet :
    stands linked .setRollTrim (signed16 1 ++ signed16 60 ++ signed16 (-41)) ∧
    (∀ e ∈ [Engine.offline, .ready], stands (engineIn e) .setFacetGains (gainsOf 3277 4915) ∧
      ∀ f : Fin 8, 3277 ≤ wordAt (gainsOf 3277 4915) (2 * f) ∧
        wordAt (gainsOf 3277 4915) (2 * f) ≤ 4915) ∧
    stands (engineIn .halted) .setFacetGains (gainsOf 3277 4915) ∧
    (∀ e ∈ [Engine.ready, .halted, .offline], stands (engineIn e) .restoreFacets []) := by
  simp only [stands, accepts_iff]; decide +kernel

/-- The payload of Set Footage. -/
def footageOf (feet frames : Nat) : List Byte := le16 feet ++ le8 frames ++ zeros 1

theorem test_witness_FootageSet :
    (∀ e ∈ [Engine.offline, .ready, .halted, .starting],
      stands (engineIn e) .setFootage (footageOf 9999 15)) ∧
    wordAt (footageOf 9999 15) 0 ≤ 9999 ∧ byteAt (footageOf 9999 15) 2 ≤ 15 ∧
    (Footage.ofNumbers 9999 15).frames ≤ 15 := by
  simp only [stands, accepts_iff]; decide +kernel

/-- FILM_END may be HALT and not WARN; the code 9 names no response. -/
theorem test_witness_FaultResponseSet :
    let k := FaultKind.filmEnd
    (∀ c ∈ [FaultKind.code k], ∀ r ∈ [Response.code .halt, Response.code .warn, 9],
      stands linked .setFaultResponse (le8 c ++ le8 r)) ∧
    FaultKind.ofCode (byteAt (le8 k.code) 0) = some k ∧
    Response.ofCode (Response.code .halt) = some .halt ∧ Response.halt ∈ k.allowed ∧
    Response.ofCode (Response.code .warn) = some .warn ∧ Response.warn ∉ k.allowed ∧
    Response.ofCode 9 = none := by
  simp only [stands, accepts_iff]; decide +kernel

theorem test_witness_LogRead : (∀ n ∈ [1, 8], stands (logOf linked 9) .readLog [n, 0]) ∧
    stands linked .readLog [0, 1] ∧ byteAt [0, 1] 1 = 1 ∧ byteAt [8, 0] 0 ≤ 8 := by
  simp only [stands, accepts_iff]; decide +kernel

set_option maxRecDepth 20000 in
/-- Each value just outside its range, in the order of the checks. -/
theorem test_witness_ValuesRefused :
    (∀ p ∈ [ruleOf 32 0 0 0 0x41, ruleOf 31 2 0 0 0x41, ruleOf 31 1 8 0 0x41,
        ruleOf 31 1 7 3201 0x41, ruleOf 31 1 7 3200 0x61], stands linked .writeRule p) ∧
    isLabelCharacter (labelAt (ruleOf 31 1 7 3200 0x61) 12)[(0 : Fin 8)] = false ∧
    stands linked .readRule [32] ∧ stands linked .readProfile [8] ∧
    (∀ p ∈ [profileOf 8 0 1 3000, profileOf 7 3 1 3000, profileOf 7 0 1 2819],
      stands linked .loadProfile p) ∧
    badProfileField (profileOf 7 3 1 3000) = some 8 ∧
    badProfileField (profileOf 7 0 1 2819) = none ∧
    badCurve (profileOf 7 0 1 2819) = some (.red, 32) ∧
    (∀ g ∈ [3276, 4916], stands linked .setFacetGains (gainsOf 3277 g)) ∧
    (∀ p ∈ [footageOf 10000 0, footageOf 9999 16], stands linked .setFootage p) ∧
    (stands linked .setFaultResponse [0, 0] ∧ FaultKind.ofCode 0 = none) ∧
    (∀ p ∈ [[0, 2], [0, 0], [9, 0]], stands linked .readLog p) := by
  simp only [stands, accepts_iff]; decide +kernel

/-! #### The engine -/

/-- The payload of Abort Frame. -/
def abortOf (guard seq : Nat) : List Byte := le8 guard ++ zeros 3 ++ le32 seq

theorem test_witness_FrameAborted : stands (engineIn .finishing) .abortFrame (abortOf 0 0) ∧
    (∀ e ∈ [Engine.exposing, .paused], (inHand e).es.exposure = some exposure ∧
      (inHand e).assigned .operator = .abort ∧
      (∀ p ∈ [abortOf 2 0, abortOf 1 40, abortOf 1 41, abortOf 0 0],
        stands (inHand e) .abortFrame p)) ∧
    longAt (abortOf 1 40) 4 ≠ exposure.openSeq ∧ longAt (abortOf 1 41) 4 = exposure.openSeq := by
  simp only [stands, accepts_iff]; decide +kernel

/-- A start reply pending. -/
def starting (e : Engine) : State :=
  { engineIn e with es := { (engineIn e).es with
    replies := ⟨some ⟨.startEngine, some 3⟩, none, none, none⟩ } }

theorem test_witness_EngineStarted :
    (∀ x ∈ [(Request.startEngine, Engine.offline), (.resumeEngine, .halted)],
      stands (engineIn x.2) x.1 [] ∧ stands (starting x.2) x.1 [] ∧
      stands (engineIn .ready) x.1 [] ∧ (engineIn x.2).es.engine = x.2 ∧
      (engineIn x.2).es.replies.start = none ∧ (starting x.2).es.replies.start ≠ none) ∧
    linked.pl.interlockOpen = false ∧ (State.powerOn true).pl.interlockOpen = true := by
  simp only [stands, accepts_iff]; decide +kernel

theorem test_witness_EngineStopped :
    (∀ e ∈ [Engine.offline, .stopping, .preparing, .exposing, .paused, .finishing, .advancing,
        .aborting, .ready, .halted, .starting], stands (engineIn e) .stopEngine [] ∧
      (engineIn e).es.engine = e) ∧
    linked.es.replies.stop = none ∧ linked.es.stopPending = false := by
  simp only [stands, accepts_iff]; decide +kernel

/-- The agreement of the frame in hand, evaluated. -/
theorem inHand_of (s : State) (h : s.es.exposure.isSome = s.es.engine.holdsFrame ∧
    (∀ i, s.phaseOf i = some .active ↔ s.es.exposure.map (·.slot) = some i) ∧
    (∀ i, i ∈ s.fs.queue ↔ s.phaseOf i = some .queued) ∧ s.fs.queue.Nodup ∧
    (s.tc.blank.isSome = true → s.es.engine = .advancing) ∧
    s.rl.reservation = (match s.es.exposure with
      | some e => some (.frame e.slot)
      | none => if s.tc.blank.isSome then some .blank else none) ∧ s.rl.load ≤ 64 ∧
    (s.es.lineInProgress.isSome = true → s.es.engine = .exposing) ∧
    s.du.frameLatch.isSome = s.es.exposure.isSome ∧
    s.du.lineLatch.map (·.facet) = s.es.lineInProgress) : InHand s where
  present := h.1
  active i := (h.2.1 i).trans (by simp [Option.map_eq_some_iff])
  queued := h.2.2.1
  once := h.2.2.2.1
  blank := h.2.2.2.2.1
  reserved := h.2.2.2.2.2.1
  bound := h.2.2.2.2.2.2.1
  line := h.2.2.2.2.2.2.2.1
  latched := h.2.2.2.2.2.2.2.2.1
  lineLatched := h.2.2.2.2.2.2.2.2.2

theorem test_inHand_preparing : InHand (inHand .preparing) := inHand_of _ (by decide +kernel)

theorem test_inHand_exposing : InHand onLine := inHand_of _ (by decide +kernel)

theorem test_inHand_advancing : InHand (advancing 1 .pulling) := inHand_of _ (by decide +kernel)

/-- A reset in PREPARING, on a line in EXPOSING, in a blank advance with no pull-down and with one
completed. -/
theorem test_witness_EngineReset :
    (∀ s ∈ [inHand .preparing, onLine, advancing 0 .pulling, advancing 1 .pulling],
      stands s .resetEngine []) ∧
    (inHand .preparing).slot 2 = some (record .active true) ∧
    (asking (inHand .preparing) .resetEngine []).es.exposure = some exposure ∧
    InHand (asking (inHand .preparing) .resetEngine []) ∧
    InHand (asking onLine .resetEngine []) ∧
    InHand (asking (advancing 0 .pulling) .resetEngine []) ∧
    InHand (asking (advancing 1 .pulling) .resetEngine []) :=
  ⟨by simp only [stands, accepts_iff]; decide +kernel, by decide +kernel, by decide +kernel,
    inHand_of _ (by decide +kernel), inHand_of _ (by decide +kernel),
    inHand_of _ (by decide +kernel), inHand_of _ (by decide +kernel)⟩

/-- The log full; the counts 0, 17, 1 and 16; a state other than READY. -/
theorem test_witness_FilmAdvanced :
    (stands (logOf (engineIn .ready) 64) .advanceFilm [1] ∧
      64 ≤ (logOf (engineIn .ready) 64).rl.load) ∧
    (∀ n ∈ [0, 17, 1, 16], stands (logOf (engineIn .ready) 63) .advanceFilm [n]) ∧
    (logOf (engineIn .ready) 63).rl.load < 64 ∧ (engineIn .ready).es.replies.advance = none ∧
    stands (engineIn .halted) .advanceFilm [16] := by
  simp only [stands, accepts_iff]; decide +kernel

/-- The log at 63 and at 64; an empty queue; a stop pending. -/
theorem test_witness_FrameTaken :
    (∀ s ∈ [logOf (queuedFrame (engineIn .ready)) 63],
      s.Before [] ∧ s.fs.queue = 2 :: [] ∧ s.slot 2 = some (record .queued true) ∧
      s.es.engine = .ready ∧ s.rl.load < 64 ∧ s.es.stopPending = false) ∧
    64 ≤ (logOf (queuedFrame (engineIn .ready)) 64).rl.load ∧
    (engineIn .ready).fs.queue = [] := by
  simp only [before_iff]; decide +kernel

/-! #### The scan -/

/-- On the way to its speed, with a lock run and a time since the last SOS. -/
def acquiring (s : State) (run : Nat) (since : Option Nat) (aligned : Bool) : State :=
  { s with stu := { s.stu with
    speed := .acquiring, lockRun := run, sinceSos := since, aligned := aligned } }

/-- IDLE; RUNNING with no line to start and with one; the sixteenth interval in and out of tolerance, the
counter aligned and not. -/
theorem test_witness_SosTaken :
    (∀ s ∈ [linked, atSpeed linked .running .armed, atSpeed (inHand .exposing) .running .armed,
        acquiring linked 15 (some 0) true, acquiring linked 15 none true,
        acquiring linked 16 (some 0) false], s.Before [.powerTrip, .trimLimit, .startTimeout]) ∧
    State.mayStart (atSpeed (inHand .exposing) .running .armed) ∧
    ¬ State.mayStart (atSpeed linked .running .armed) ∧
    State.mayStart (acquiring (inHand .exposing) 15 (some 0) true) ∧
    absDiff (0 + 250500) 250000 * 10000 ≤ 20 * 250000 ∧
    ¬ absDiff (0 + 250501) 250000 * 10000 ≤ 20 * 250000 := by
  refine ⟨by simp only [before_iff]; decide +kernel,
    ⟨by decide +kernel, by decide +kernel, by decide +kernel, exposure, by decide +kernel,
      by decide +kernel⟩, fun h => absurd h.1 (by decide +kernel),
    ⟨by decide +kernel, by decide +kernel, by decide +kernel, exposure, by decide +kernel,
      by decide +kernel⟩, by decide, by decide⟩

/-- A fault that waits for the scan's end, raised on the line in progress. -/
def waiting : State := onLine.raise (.syncSlip 3)

/-- The kinds a rule has taken before some command. -/
def firstLists : List (List FaultKind) :=
  [[], [.powerTrip, .trimLimit], [.startTimeout], [.powerTrip, .trimLimit, .startTimeout],
    [.powerTrip, .trimLimit, .pauseTimeout], [.filterTimeout]]

/-- Before every command no fault, and one that may wait for it, is raised. -/
theorem test_witness_Before : waiting.fu.raised ≠ [] ∧ ∀ l ∈ firstLists,
    ∀ s ∈ [linked, waiting, onLine.raise (.sosLoss 8), onLine.raise .interlock, onLine.raise (.stageTimeout 3)],
      s.Before l := by
  simp only [before_iff]; decide +kernel

/-- A POWER_TRIP raised by a sample of a line attempt. -/
def tripRaised : State := onLine.raise (.powerTrip ⟨true, false, false⟩ 9 .lower)

/-- A Set Fault Response passes intake with a fault raised, one of the kind it assigns included. -/
theorem test_witness_BeforeRequest : stands waiting .setFaultResponse [0x43, 0] ∧
    stands tripRaised .setFaultResponse [0x44, 0] := by
  simp only [stands, accepts_iff]; decide +kernel

/-- R158: a Set Fault Response taken before a POWER_TRIP that waits gives it the new response, WARN for PAUSE, and
the image portion is driven after the take; the other way round the line has ended. -/
theorem test_response_before_take :
    let s := asking tripRaised .setFaultResponse [0x44, 0]
    let t := after .faultTake (after .setFaultResponse s)
    let u := after .setFaultResponse (after .faultTake s)
    t.fu.lastFault.map (·.applied) = some .notice ∧ t.es.engine = .exposing ∧
    (t.out.getLast?.map (fun o => match o with | .image .. => true | _ => false)) = some true ∧
    u.fu.lastFault.map (·.applied) = some .pause ∧ u.es.engine = .paused := by decide +kernel

/-- ARMED and TIMING, with the interval at the edge of the tolerance and one beyond. -/
theorem test_witness_EosTaken : linked.Before [.powerTrip, .trimLimit] ∧ linked.stu.speed ≠ .running ∧
    (∀ m ∈ [Measurement.armed, .timing 2 0 false 0, .timing 2 0 true 0],
      (atSpeed linked .running m).Before [.powerTrip, .trimLimit] ∧ (atSpeed linked .running m).stu.measurement = m) ∧
    absDiff (0 + 160320) 160000 * 10000 ≤ 20 * 160000 ∧
    20 * 160000 < absDiff (0 + 160321) 160000 * 10000 := by
  simp only [before_iff]; decide +kernel

theorem test_witness_ScanEnds : onLine.es.engine = .exposing ∧
    onLine.es.lineInProgress = some 3 ∧ onLine.es.lineInProgress ≠ some 2 ∧
    onLine.es.exposure = some exposure ∧ onLine.slot exposure.slot = some (record .active true) ∧
    (record .active true).height ≤ exposure.line + 1 ∧
    onLine.stu.measurement = .timing 3 0 false 1000 := by decide +kernel

/-- IDLE and ACQUIRING; RUNNING with the counter at 7 and at 2; the watch off and on. -/
theorem test_witness_IndexAndWatch :
    (∀ s ∈ [linked, acquiring linked 0 none false, atSpeed linked .running .armed,
        atSpeed linked .running (.timing 2 0 false 0)], s.Before []) ∧
    linked.stu.speed = .idle ∧ linked.stu.counter = 7 ∧ linked.stu.watch = none ∧
    (atSpeed linked .running .armed).stu.counter ≠ 7 ∧
    (atSpeed linked .running .armed).stu.watch ≠ none := by
  simp only [before_iff]; decide +kernel

/-! #### The lasers -/

/-- A channel in SETTLING. -/
def settling : State := { linked with pl := { linked.pl with
  channels := Rgb.all { PowerChannel.reset with laser := .settling, settle := some 1 } } }

theorem test_witness_LasersAndDoor : linked.Before [.startTimeout] ∧ settling.Before [.startTimeout] ∧
    (∀ c ∈ [Channel.red, .green, .blue], (linked.pl.channels.get c).laser ≠ .settling ∧
      (settling.pl.channels.get c).laser = .settling ∧
      (settling.pl.channels.get c).settle ≠ none) := by
  simp only [before_iff]; decide +kernel

/-- A channel that fires, with runs, a sample count and a trim. -/
def pulsed (w : Window) (runs samples : Nat) (trim : Int) : PowerChannel :=
  ⟨.settled, none, trim, none, w, runs, runs, 0, samples, true⟩

/-- The readings one below and at the lower limit, at and one above the upper limit; the last reading of a
block; the mean one above the deadband at the trim −31. -/
theorem test_witness_SampleJudged :
    ((pulsed .clear 2 14 0).firing = true ∧ (pulsed .clear 2 14 0).laser = .settled) ∧
    ¬ (PowerChannel.reset.firing = true) ∧
    1791 < 2048 * (32 - PowerParams.default.steps) / 32 ∧
    ¬ 1792 < 2048 * (32 - PowerParams.default.steps) / 32 ∧
    ¬ min 4095 (2048 * (32 + PowerParams.default.steps) / 32) < 2304 ∧
    min 4095 (2048 * (32 + PowerParams.default.steps) / 32) < 2305 ∧
    ((pulsed .clear 2 14 0).sample PowerParams.default 2048 1791).trip = some .lower ∧
    ((pulsed .tripped 2 14 0).sample PowerParams.default 2048 1792).cleared = true ∧
    ((pulsed .clear 0 15 30).sample PowerParams.default 2048 1904).channel.trim = 31 ∧
    ((pulsed .clear 0 15 30).sample PowerParams.default 2048 1904).atLimit = true ∧
    ((pulsed .clear 0 15 (-31)).sample PowerParams.default 2048 2192).refused = some false := by
  decide +kernel

theorem test_witness_SampleTaken :
    (∀ s ∈ [linked, firing linked, firing onLine, (firing onLine).raise (.syncSlip 3)], s.Before [.powerTrip, .trimLimit, .pauseTimeout]) ∧
    (firing onLine).slot 2 = some (record .active true) ∧ (record .active true).width ≤ 4096 ∧
    (firing onLine).es.exposure = some exposure ∧ exposure.line < 3200 ∧
    (∀ i ∈ [(0 : Fin 4), 1, 3], (firing onLine).slot i = none) ∧
    (∀ c ∈ [Channel.red, .green, .blue], (linked.pl.channels.get c).firing = false ∧
      ((firing onLine).pl.channels.get c).firing = true) ∧
    (firing onLine).drivenAttempt.isSome = true := by
  simp only [before_iff]; decide +kernel

/-- A sample of a line attempt beyond the image memory, in its line and in its width. -/
theorem test_witness_SampleOutside :
    let s := firing onLine
    let wide := { s with fs := { s.fs with slots := s.fs.slots.set 2 (some { record .active true with width := 4097 }) } }
    let low := { s with es := { s.es with exposure := some { exposure with line := 3200 } } }
    ∀ t ∈ [wide, low], t.Before [.powerTrip, .trimLimit, .pauseTimeout] ∧
      (∃ c ∈ [Channel.red], (t.pl.channels.get c).firing = true) ∧ t.es.engine = .exposing ∧
      t.es.lineInProgress ≠ none ∧ t.es.exposure.isSome = true ∧ (t.slot 2).isSome = true ∧
      t.du.frameLatch ≠ none ∧ t.du.lineLatch ≠ none ∧ t.attemptInRange = false := by
  simp only [before_iff]; decide +kernel

/-- One channel's part of a sample that trips it and refuses it a step, and one that does neither. -/
def judged (hit : Bool) : ChannelSample :=
  ⟨pulsed .tripped 3 0 (-31), if hit then some .upper else none, false, false,
    if hit then some false else none⟩

/-- No channel, the last one, and the first of two, by the words of R101 and R105. -/
theorem test_witness_SampleFaults :
    (tripReport ⟨judged false, judged false, judged false⟩ ⟨1, 2, 3⟩ = none ∧
      trimReport ⟨judged false, judged false, judged false⟩ = none) ∧
    tripReport ⟨judged false, judged false, judged true⟩ ⟨1, 2, 3⟩ =
      some (.powerTrip ⟨false, false, true⟩ 3 .upper) ∧
    tripReport ⟨judged false, judged true, judged true⟩ ⟨1, 2, 3⟩ =
      some (.powerTrip ⟨false, true, true⟩ 2 .upper) ∧
    trimReport ⟨judged true, judged false, judged true⟩ =
      some (.trimLimit ⟨true, false, true⟩ (-31) false) := by decide

/-- A POWER_TRIP under PAUSE or a TRIM_LIMIT under ABORT leaves the portion beam-off, and a POWER_TRIP under WARN,
once taken, or a fault of another block does not (R66, R99). -/
theorem test_driven :
    tripRaised.drivenAttempt = none ∧ (after .faultTake tripRaised).drivenAttempt = none ∧
    (after .faultTake ((tripped onLine .warn).raise
      (.powerTrip ⟨true, false, false⟩ 9 .lower))).du.lineClips =
        (tripped onLine .warn).driveLine.du.lineClips ∧
    (after .faultTake ((onLine.assign .trimLimit .abort).raise
      (.trimLimit ⟨true, false, false⟩ 31 true))).drivenAttempt = none ∧
    waiting.drivenAttempt.isSome = true := by decide +kernel

/-- The trim at −50, and each band's ends. -/
theorem test_witness_DoseComputed : (-50 : Int) ≤ -50 ∧ 3000 ≤ 3000 ∧
    (∀ u ∈ [1, 127], 1 ≤ u ∧ u ≤ 127) ∧ (∀ u ∈ [128, 255], 128 ≤ u ∧ u ≤ 255) ∧
    (∀ u ∈ [256, 16383], 256 ≤ u ∧ u ≤ 16383) ∧ (∀ u ∈ [16384, 245760], 16384 ≤ u ∧ u ≤ 245760) := by
  decide

/-! #### The mechanisms -/

/-- Every timer of ES runs, every wheel moves, and the stage moves. -/
def moving (e : Engine) (l : Nat) : State :=
  { engineIn e with es := { (engineIn e).es with
    startTimer := some 1, pauseTimer := some 1, stopTimer := some 1
    stage := .moving l (some 1), wheels := Rgb.all ⟨none, some (2, 1)⟩ } }

theorem test_witness_TimeoutsRaised : linked.Before [.filterTimeout] ∧ (moving .starting 0).Before [.filterTimeout] ∧
    (moving .starting 0).es.stage = .moving 0 (some 1) ∧ (moving .preparing 3).Before [] ∧
    (moving .preparing 3).es.stage = .moving 3 (some 1) ∧ (moving .preparing 3).es.engine = .preparing ∧
    linked.es.stage = .unhomed := by
  simp only [before_iff]; decide +kernel

/-- PREPARING with a frame in hand: conditions not yet met, and the shutter opening. -/
theorem test_witness_WaitReasons : (inHand .preparing).es.exposure = some exposure ∧
    (inHand .preparing).es.engine = .preparing ∧ (inHand .preparing).waitReason ≠ [.shutter] ∧
    (inHand .preparing).waitReason ≠ [] ∧ (shutterAt (inHand .preparing) .opening).tc.shutter = .opening := by
  decide +kernel

theorem test_witness_OfflineEntered : (moving .stopping 0).Before [] ∧
    (moving .stopping 0).es.engine = .stopping ∧ (moving .stopping 0).es.stopTimer ≠ none ∧
    (engineIn .stopping).es.stopTimer = none ∧ linked.es.engine ≠ .stopping := by
  simp only [before_iff]; decide +kernel

theorem test_witness_PositionsReported : (moving .preparing 1).Before [.startTimeout] ∧
    (moving .preparing 1).es.stage = .moving 1 (some 1) ∧ (moving .preparing 1).es.stage ≠ .homing ∧
    { moving .starting 0 with es := { (moving .starting 0).es with stage := .homing } }.Before [.startTimeout] := by
  simp only [before_iff]; decide +kernel

/-- The gate in each state of an operation, with three, four and five perforations. -/
theorem test_witness_GateStages :
    (∀ g ∈ [Gate.releasing, .pulling, .clamping, .settling], ∀ n ∈ [3, 4, 5],
      let s := gateAt .preparing g .pullDown n
      s.Before [] ∧ s.tc.gate = g ∧ s.tc.perforations = n ∧ s.tc.op = some .pullDown ∧
      s.tc.opTimer ≠ none ∧ s.tc.settleTimer ≠ none) := by
  simp only [before_iff]; decide +kernel

theorem test_witness_GateAndShutterFail :
    (∀ g ∈ [Gate.pulling, .clamping], ∀ op ∈ [GateOp.pullDown, .clamp],
      (gateAt .preparing g op 3).Before [] ∧ (gateAt .preparing g op 3).tc.op = some op ∧
      (gateAt .preparing g op 3).tc.gate = g ∧ (gateAt .preparing g op 3).tc.perforations ≠ 4 ∧
      (gateAt .preparing g op 3).tc.opTimer ≠ none) ∧
    (∀ x ∈ [Shutter.opening, .closing], (shutterAt linked x).Before [] ∧
      (shutterAt linked x).tc.shutterTimer ≠ none ∧ (shutterAt linked x).tc.shutter = x) ∧
    linked.tc.opTimer = none ∧ linked.tc.shutterTimer = none := by
  simp only [before_iff]; decide +kernel

/-- A clamp in STARTING; a pull-down in PREPARING; a frame's advance; a blank advance before its last frame
and at it. -/
theorem test_witness_GateSettles :
    (∀ s ∈ [linked, gateAt .starting .settling .clamp 0, gateAt .preparing .settling .pullDown 4,
        gateAt .advancing .settling .pullDown 4, advancing 1 .settling, advancing 2 .settling],
      s.Before [.startTimeout]) ∧
    linked.tc.gate ≠ .settling ∧ (gateAt .starting .settling .clamp 0).tc.op = some .clamp ∧
    (gateAt .advancing .settling .pullDown 4).tc.blank = none ∧
    (advancing 1 .settling).tc.blank = some ⟨3, 1, Footage.zero⟩ ∧ 1 + 1 < 3 ∧ 3 ≤ 2 + 1 ∧
    (advancing 2 .settling).es.engine = .advancing := by
  simp only [before_iff]; decide +kernel

/-- The frame in hand, its mark not yet printed and printed, in the states that await the shutter. -/
theorem test_witness_ShutterConfirms :
    (∀ x ∈ [(Engine.preparing, Shutter.opening), (.finishing, .closing), (.aborting, .closing),
        (.halted, .closing), (.halted, .opening)],
      let s := shutterAt (inHand x.1) x.2
      s.Before [] ∧ s.es.engine = x.1 ∧ s.tc.shutter = x.2 ∧ s.es.exposure = some exposure ∧
      s.slot exposure.slot = some (record .active true)) ∧
    exposure.marked = false ∧ { exposure with marked := true }.marked = true ∧
    linked.tc.shutter ≠ .opening ∧ linked.tc.shutter ≠ .closing := by
  simp only [before_iff]; decide +kernel

/-- A tripped channel under PAUSE, with the shutter opening. -/
theorem test_witness_PausedOnConfirmation :
    let s := tripped (shutterAt (inHand .preparing) .opening) .pause
    s.Before [] ∧ s.tc.shutter = .opening ∧ s.es.engine = .preparing ∧ s.es.exposure = some exposure ∧
    s.slot exposure.slot = some (record .active true) ∧ s.allClear = false ∧
    s.assigned .powerTrip = .pause := by
  simp only [before_iff]; decide +kernel

theorem test_witness_MarkPrinted : linked.Before [] ∧ linked.tc.head = .idle ∧
    (∀ x ∈ [(MarkKind.frame, true), (.frame, false), (.spoil, true)],
      let s := printing (inHand .aborting) x.1 x.2
      s.Before [] ∧ s.tc.head = .printing ⟨x.1, [], x.2⟩ 5 ∧ s.es.engine = .aborting) := by
  simp only [before_iff]; decide +kernel

/-! #### Frames that end, and faults -/

/-- A fault record of an interlock opening. -/
def interlockRecord (a : Applied) : FaultRecord :=
  ⟨.interlock, .exposing, a, some 2, some 0, none, Footage.zero⟩

/-- The fault in hand. -/
def faulted (s : State) (a : Applied) : State :=
  { s with fu := { s.fu with inHand := some (interlockRecord a) } }

theorem test_witness_FrameEnds : linked.es.exposure = none ∧ (inHand .aborting).es.exposure = some exposure ∧
    (inHand .aborting).slot exposure.slot = some (record .active true) ∧
    (advancing 0 .pulling).tc.blank = some ⟨3, 0, Footage.zero⟩ ∧
    (advancing 1 .pulling).tc.blank = some ⟨3, 1, Footage.zero⟩ ∧
    (∀ a ∈ [Applied.halt, .abort], (faulted (inHand .aborting) a).fu.inHand =
      some (interlockRecord a) ∧ (interlockRecord a).applied = a) := by decide +kernel

/-- A blank advance whose reservation stands, and one whose failed pull-down has ended it. -/
theorem test_witness_BlankEndedOnce : (advancing 1 .pulling).rl.reservation = some .blank ∧
    (after .operationTimerExpiry (advancing 1 .pulling)).tc.blank = none ∧
    ((advancing 1 .pulling).closeBlank).rl.reservation = none ∧
    ((advancing 1 .pulling).closeBlank).tc.blank ≠ none := by decide +kernel

/-- No fault raised, one due on its event, and one that waits. -/
theorem test_witness_FaultTaken : linked.fu.raised = [] ∧
    (linked.raise (.filmEnd 4 .pullDown)).fu.raised = [.filmEnd 4 .pullDown] ∧
    (FaultReport.filmEnd 4 .pullDown).kind ∈
      [FaultKind.facetShortage, .operator, .shutter, .transport, .filmEnd] ∧
    (linked.raise .interlock).fu.raised = [.interlock] ∧
    nextFaults ((linked.raise .interlock).raise (.filmEnd 4 .pullDown)).fu.raised =
      [.interlock, .filmEnd 4 .pullDown] ∧
    tripRaised.es.engine = .exposing ∧ tripRaised.es.lineInProgress ≠ none ∧
    tripRaised.fu.raised.map (·.kind) = [.powerTrip] := by decide +kernel

/-- Every fault that a command may meet before it, raised together. -/
def together : State := { linked with fu := { linked.fu with raised :=
  [.powerTrip ⟨true, false, false⟩ 9 .lower, .trimLimit ⟨true, false, false⟩ 31 true, .interlock,
    .startTimeout [], .pauseTimeout ⟨true, false, false⟩, .filterTimeout .red 1] } }

/-- All but the TRIM_LIMIT may be the next, one of them is, and one is of the kinds before each command. -/
theorem test_witness_FaultsTogether : (nextFaults together.fu.raised).map (·.kind) =
      [.powerTrip, .interlock, .startTimeout, .pauseTimeout, .filterTimeout] ∧
    (∃ f, chooseFault together.fu.choices together.fu.raised = some f) ∧
    (∀ first ∈ firstLists.drop 1, ∃ g ∈ together.fu.raised, g.kind ∈ first) :=
  ⟨by decide +kernel, chooseFault_isSome _ _ (by decide +kernel), by decide +kernel⟩

/-- R81, R105, R133: what comes after what, and that a TRANSPORT or SHUTTER and a STAGE_TIMEOUT may be taken in
either order (R159). -/
theorem test_order :
    [[FaultReport.sosLoss 8, .facetShortage 0 3], [.interlock, .operator 41],
      [.stageTimeout 3, .shutter .closing], [.stageTimeout 3, .transport .timeout .pulling 0 .pullDown]].map
      (fun l => (nextFaults l).map (·.kind)) =
    [[.facetShortage], [.operator], [.stageTimeout, .shutter], [.stageTimeout, .transport]] := by decide

/-- The door's opening and the shutter's and the scan's reports take no fault first (R159). -/
theorem test_no_fault_first :
    let trip : FaultReport := .powerTrip ⟨true, false, false⟩ 9 .lower
    (after .interlockOpening (onLine.raise trip)).fu.raised = [trip, .interlock] ∧
    (after .shutterOpenConfirmation ((shutterAt (inHand .preparing) .opening).raise
      (.stageTimeout 0))).fu.raised = [.stageTimeout 0] ∧
    (after (.eos 1) (onLine.raise (.sosLoss 8))).fu.raised = [.sosLoss 8] := by decide +kernel

/-- R123: once one wheel has timed out the others are stopped, and their timers raise no second FILTER_TIMEOUT. -/
theorem test_one_filter_timeout :
    let s := after (.wheelTimerExpiry .red) { inHand .preparing with es := { (inHand .preparing).es with
      wheels := Rgb.all ⟨none, some (1, 0)⟩ } }
    let t := after (.wheelTimerExpiry .green) s
    s.fu.raised = [.filterTimeout .red 1] ∧ t.fu.raised = [] ∧ t.es.engine = .halted ∧
    t.fu.counts[FaultKind.index .filterTimeout] = 1 := by decide +kernel

/-- R193: a fault that waits is taken as an event of its own, so its FAILED reply goes out before the notices of a
fault due on the command's event, which then finds HALTED. -/
theorem test_take_in_turn :
    let s := { engineIn .starting with es := { (engineIn .starting).es with replies :=
      { start := some ⟨.startEngine, some 7⟩, stop := none, reset := none, advance := none } }, out := [] }
    let t := (s.takeInTurn .interlock).takeInTurn (.filmEnd 4 .clamp)
    (t.out.filterMap (fun o => match o with
      | .notice n => some n.payload.kind.code
      | .reply _ => some 0
      | _ => none)) = [0x09, 0x04, 0, 0x09] ∧ t.fu.lastFault.map (·.applied) = some .notice := by decide +kernel

/-- R124: in PREPARING a step of an earlier frame that times out is followed by the return; the return itself is
not. -/
theorem test_step_expires_in_preparing :
    let s := after .stageTimerExpiry (moving .preparing 3)
    s.es.stage = .moving 0 (some Config.returnTime) ∧ s.fu.raised = [.stageTimeout 3] ∧
    s.out.getLast? = some (.mechanism .stageReturn) ∧
    (after .faultTake s).es.engine = .halted ∧ (after .faultTake s).es.stage = .unhomed ∧
    (after .stageTimerExpiry (moving .preparing 0)).es.stage = .moving 0 none ∧
    (after .stageTimerExpiry (moving .ready 3)).es.stage = .moving 3 none := by decide +kernel

/-- R167: with the HALT in hand, the close of the shutter ends ABORTING before a SOS_LOSS that waits, which is then
taken in HALTED with the response NOTICE. -/
theorem test_end_before_take :
    let s := { (shutterAt (inHand .aborting) .closing).raise (.sosLoss 8) with
      fu := { (linked.raise (.sosLoss 8)).fu with
        inHand := some ⟨.interlock, .exposing, .halt, some 2, some 0, none, Footage.zero⟩ } }
    let t := after .shutterClosedConfirmation s
    t.es.engine = .halted ∧ t.fu.raised = [.sosLoss 8] ∧ (after .faultTake t).es.engine = .halted ∧
    (after .faultTake t).fu.lastFault.map (·.applied) = some .notice ∧
    (after .faultTake s).es.engine = .locked := by decide +kernel

/-- A sample's POWER_TRIP is taken before its TRIM_LIMIT (R105). -/
theorem test_trip_before_trim_limit :
    (after .faultTake ((linked.raise (.powerTrip ⟨true, false, false⟩ 9 .lower)).raise
      (.trimLimit ⟨true, false, false⟩ 31 true))).fu.raised =
      [.trimLimit ⟨true, false, false⟩ 31 true] := by decide +kernel

/-- Table 9-2, row by row: WARN, PAUSE, ABORT and HALT for POWER_TRIP, and for INTERLOCK after the frame. -/
theorem test_table_9_2 :
    [Engine.offline, .stopping, .halted, .starting, .ready, .preparing, .exposing, .paused, .aborting,
      .locked].map (fun e => [Response.warn, .pause, .abort, .halt].map (fun r =>
        responseApplied e r (.powerTrip ⟨true, false, false⟩ 9 .lower))) =
    [[.notice, .notice, .notice, .notice], [.notice, .notice, .notice, .notice],
     [.notice, .notice, .notice, .notice], [.notice, .notice, .halt, .halt],
     [.notice, .notice, .halt, .halt], [.notice, .hold, .halt, .halt],
     [.notice, .pause, .abort, .halt], [.notice, .notice, .abort, .halt],
     [.notice, .notice, .lock, .lock], [.record, .record, .record, .record]] ∧
    [Engine.finishing, .advancing].map (fun e => [Response.warn, .pause, .abort, .halt].map
      (fun r => responseApplied e r .interlock)) =
    [[.notice, .notice, .defer, .defer], [.notice, .notice, .defer, .defer]] := by decide

/-! #### Invariants -/

/-- A state that meets every invariant and steps: power-on, one tick. -/
theorem test_witness_invariants : ∃ t, step State.reset = .next t ∧ LasersDark State.reset ∧
    InHand State.reset ∧ ImageCanonical State.reset ∧ LogNumbered State.reset ∧
    TagsDistinct State.reset ∧ NoticesHeldLow State.reset ∧ TrimsInRange State.reset :=
  ⟨State.reset.idle, rfl, fun _ => ⟨rfl, rfl, rfl⟩, inHand_of _ (by decide +kernel),
    by show Memory.wf []; decide, trivial, by show _ ∧ _; decide +kernel,
    by show ∀ e ∈ releaseOrder, _; decide +kernel, fun c => by cases c <;> decide +kernel⟩

/-- Slot 2 ACTIVE under profile 0, which is loaded and named once. -/
def named : State :=
  let s := inHand .exposing
  { s with pt := ⟨s.pt.profiles.set 0 { Profile.blank with valid := true, refs := 1 }⟩ }

/-- A frame in hand whose slot, profile and line agree, with a step. -/
theorem test_witness_SlotsAndProfilesKept : InHand (named.withCommand .interlockOpening) ∧
    ProfilesHeld (named.withCommand .interlockOpening) ∧ SlotsSound (named.withCommand .interlockOpening) ∧
    named.slot 2 = some (record .active true) ∧
    (match step (named.withCommand .interlockOpening) with
      | .next t => t.fu.raised | _ => []) = [.interlock] := by
  have only : ∀ i r, (named.withCommand .interlockOpening).slot i = some r →
      i = 2 ∧ r = record .active true := by
    have h : ∀ i : Fin 4, ((named.withCommand .interlockOpening).slot i).all
        (fun r => decide (i = 2 ∧ r = record .active true)) = true := by decide +kernel
    intro i r hr
    simpa [hr] using h i
  exact ⟨inHand_of _ (by decide +kernel), ⟨by decide +kernel, by decide +kernel⟩,
    { keys := fun i j ri rj hi hj _ => (only i ri hi).1.trans (only j rj hj).1.symm
      present := fun i r h => by rw [(only i r h).2]; exact ⟨rfl, rfl, fun _ => rfl⟩
      fits := fun i r h => by rw [(only i r h).2]; decide +kernel
      size := fun i r h => by rw [(only i r h).2]; decide +kernel
      line := fun e r he h => by rw [(only _ r h).2]; cases he; decide +kernel },
    by decide +kernel, by decide +kernel⟩

/-- A state with a frame in hand, the default responses and a command in front. -/
theorem test_witness_InHandKept : InHand ((inHand .exposing).withCommand .interlockOpening) ∧
    ResponsesAllowed ((inHand .exposing).withCommand .interlockOpening) ∧
    (match step ((inHand .exposing).withCommand .interlockOpening) with
      | .next t => t.fu.raised | _ => []) = [.interlock] :=
  ⟨inHand_of _ (by decide +kernel), fun k => by cases k <;> decide +kernel, by decide +kernel⟩

end Sys2Proof.Tests
end

