-- ==== Sys2Proof/Proofs/AdmissionSearch.lean ====
section
/-! PROOFS. The Admission Table (chapter 2): what a match tests (R31) and what the search answers (R32). -/

namespace Sys2Proof.Machine

/-- The key test bit by bit (R31): the model compares by an exclusive-or under the mask. -/
theorem Rule.keyMatches_iff (r : Rule) (key : Key) : r.keyMatches key = true ↔
    ∀ b, b < 32 → r.mask.getLsbD b = true → key.getLsbD b = r.key.getLsbD b := by
  have bitIgnoredOrEqual (x k m : Bool) : ((x ^^ k) && m) = false ↔ (m = true → x = k) := by
    revert x k m; decide
  calc r.keyMatches key = true
      ↔ (key ^^^ r.key) &&& r.mask = 0#32 := beq_iff_eq
    _ ↔ ∀ b, b < 32 → ((key ^^^ r.key) &&& r.mask).getLsbD b = (0#32).getLsbD b :=
        BitVec.eq_of_getLsbD_eq_iff
    _ ↔ ∀ b, b < 32 → r.mask.getLsbD b = true → key.getLsbD b = r.key.getLsbD b := by
        simp only [BitVec.getLsbD_and, BitVec.getLsbD_xor, BitVec.getLsbD_zero, bitIgnoredOrEqual]

/-- The height test (R31): a minimum height of 0 disables the bound. -/
theorem Rule.heightMatches_iff (r : Rule) (height : Nat) :
    r.heightMatches height = true ↔ r.minHeight = 0 ∨ r.minHeight ≤ height := by
  simp only [Rule.heightMatches, Bool.or_eq_true, beq_iff_eq, decide_eq_true_eq]

/-- A match is the validity, key and height tests together (R31). -/
theorem Rule.matches_iff (r : Rule) (key : Key) (height : Nat) : r.matches key height = true ↔
    r.valid = true ∧ r.keyMatches key = true ∧ r.heightMatches height = true := by
  simp only [Rule.matches, Bool.and_eq_true, and_assoc]

/-- The first index in order that passes a test is the lowest that passes it. -/
theorem find?_finRange_eq_some_iff {n : Nat} (p : Fin n → Bool) (i : Fin n) :
    (List.finRange n).find? p = some i ↔ p i = true ∧ ∀ j : Fin n, j < i → p j = false := by
  rw [List.find?_eq_some_iff_getElem]
  constructor
  · rintro ⟨passes, k, inList, atK, before⟩
    have atIndex : k = i.val := by rw [← atK, List.getElem_finRange]; rfl
    refine ⟨passes, fun j below => ?_⟩
    have fails := before j.val (atIndex ▸ below)
    rw [List.getElem_finRange, Bool.not_eq_true'] at fails
    exact fails
  · rintro ⟨passes, before⟩
    have inList : i.val < (List.finRange n).length := List.length_finRange.symm ▸ i.isLt
    refine ⟨passes, i.val, inList, List.getElem_finRange inList, fun k below => ?_⟩
    rw [List.getElem_finRange, Bool.not_eq_true']
    exact before _ below

/-- The winner matches and no rule before it does (R32). -/
theorem Admission.search_eq_some_iff (t : Admission) (key : Key) (height : Nat) (i : Fin 32) :
    t.search key height = some i ↔ t.rules[i].matches key height = true ∧
      ∀ j : Fin 32, j < i → t.rules[j].matches key height = false :=
  find?_finRange_eq_some_iff (fun i => t.rules[i].matches key height) i

/-- No winner is no match anywhere in the table (R32, R33). -/
theorem Admission.search_eq_none_iff (t : Admission) (key : Key) (height : Nat) :
    t.search key height = none ↔ ∀ i : Fin 32, t.rules[i].matches key height = false := by
  simp only [Admission.search, List.find?_eq_none, List.mem_finRange, true_implies,
    Bool.not_eq_true]

/-- Settles O16: the three tests of R31, and the lowest matching index of R32. -/
theorem admissionSearch : Obligations.AdmissionSearch := by
  refine ⟨fun r key height => ?_, fun t key height =>
    ⟨t.search_eq_some_iff key height, t.search_eq_none_iff key height⟩⟩
  rw [r.matches_iff, r.keyMatches_iff, r.heightMatches_iff]

end Sys2Proof.Machine
end

