-- ==== Sys2Proof/Proofs/DoseComputed.lean ====
section
/-! PROOFS. The Dose Unit (chapter 4): the five stages one by one (R57 to R63), then a channel, a line and its
clip counts (R65, R66, R68). -/

namespace Sys2Proof.Machine

/-! ### Interpolation (R57, R60) -/

theorem knot_of_lt {n : Nat} (v : Vector Nat n) {i : Nat} (h : i < n) : knot v i = v[i] := by
  rw [knot, Vector.getElem?_eq_getElem h, Option.getD_some]

/-- The rounding adds less than a whole step before the floor, so an interpolated value stays between its knots
whichever way they run. -/
theorem interpolation_between {a b h c n : Int} (hc : 0 ≤ c) (hcn : c < n) (h0 : 0 ≤ h) (hn : h ≤ n) :
    min a b ≤ a + ((b - a) * h + c) / n ∧ a + ((b - a) * h + c) / n ≤ max a b := by
  have npos : 0 < n := by omega
  have oneMore : (b - a + 1) * n = (b - a) * n + n := by rw [Int.add_mul, Int.one_mul]
  rcases Int.le_total a b with rising | falling
  · have stepLower : 0 ≤ (b - a) * h := Int.mul_nonneg (by omega) h0
    have stepUpper : (b - a) * h ≤ (b - a) * n := Int.mul_le_mul_of_nonneg_left hn (by omega)
    have lower : 0 ≤ ((b - a) * h + c) / n := Int.ediv_nonneg (by omega) (by omega)
    have upper : ((b - a) * h + c) / n < b - a + 1 := Int.ediv_lt_of_lt_mul npos (by omega)
    omega
  · have stepLower : (b - a) * n ≤ (b - a) * h := Int.mul_le_mul_of_nonpos_left (by omega) hn
    have stepUpper : (b - a) * h ≤ 0 := Int.mul_nonpos_of_nonpos_of_nonneg (by omega) h0
    have lower : b - a ≤ ((b - a) * h + c) / n := Int.le_ediv_of_mul_le npos (by omega)
    have upper : ((b - a) * h + c) / n < 1 := Int.ediv_lt_of_lt_mul npos (by omega)
    omega

/-- Stage 1 at step f above knot k (R57). -/
theorem stage1_at (K : Curve) {k f : Nat} (hk : k < 32) (hf : f < 32) :
    stage1 K (32 * k + f) = (K[k] : Int) + (((K[k + 1] : Int) - K[k]) * f + 16) / 32 := by
  have index : (32 * k + f) / 32 = k := by omega
  have rest : (32 * k + f) % 32 = f := by omega
  simp only [stage1, index, rest, knot_of_lt K (show k < 33 by omega),
    knot_of_lt K (show k + 1 < 33 by omega)]

theorem stage1_between (K : Curve) {k f : Nat} (hk : k < 32) (hf : f < 32) (rising : K[k] ≤ K[k + 1]) :
    (K[k] : Int) ≤ stage1 K (32 * k + f) ∧ stage1 K (32 * k + f) ≤ K[k + 1] := by
  have between := interpolation_between (a := K[k]) (b := K[k + 1]) (h := f) (c := 16) (n := 32)
    (by decide) (by decide) (by omega) (by omega)
  rw [← stage1_at K hk hf] at between
  omega

/-- Stage 4's shading at position h above knot j, whose floor is never below 0 (R60). -/
theorem shadingAt_at (S : Shading) {j h : Nat} (hj : j < 16) (hh : h < 256) :
    (shadingAt S (256 * j + h) : Int) = (S[j] : Int) + (((S[j + 1] : Int) - S[j]) * h + 128) / 256 := by
  have index : (256 * j + h) / 256 = j := by omega
  have rest : (256 * j + h) % 256 = h := by omega
  have between := interpolation_between (a := S[j]) (b := S[j + 1]) (h := h) (c := 128) (n := 256)
    (by decide) (by decide) (by omega) (by omega)
  simp only [shadingAt, index, rest, knot_of_lt S (show j < 17 by omega),
    knot_of_lt S (show j + 1 < 17 by omega)]
  exact Int.toNat_of_nonneg (by omega)

theorem shadingAt_between (S : Shading) {j h : Nat} (hj : j < 16) (hh : h < 256) :
    min S[j] S[j + 1] ≤ shadingAt S (256 * j + h) ∧ shadingAt S (256 * j + h) ≤ max S[j] S[j + 1] := by
  have between := interpolation_between (a := S[j]) (b := S[j + 1]) (h := h) (c := 128) (n := 256)
    (by decide) (by decide) (by omega) (by omega)
  rw [← shadingAt_at S hj hh] at between
  omega

/-! ### The trim (R58) -/

theorem stage2_eq (q trim : Int) : (stage2 q trim : Int) = max 0 (min 3000 (q + 25 * trim)) := by
  rw [stage2, clampInt]
  split
  · omega
  · split <;> omega

/-! ### The exponential (R59) -/

/-- The model's split powers are the plain ones. -/
theorem notAbove_iff (q n : Nat) :
    notAbove q n = true ↔ (2 * n - 1) ^ 1000 * 10 ^ (3000 - q) ≤ 131070 ^ 1000 := by
  have power (x : Nat) : thousandth x = x ^ 1000 := by simp only [thousandth, ← Nat.pow_mul]
  have ten (d : Nat) : powerOfTen d = 10 ^ d := by
    rw [powerOfTen, ← Nat.pow_mul, ← Nat.pow_add, Nat.div_add_mod]
  simp only [notAbove, power, ten, decide_eq_true_eq]

/-- What is not above the value stays so for a smaller n and a greater log exposure. -/
theorem notAbove_mono {q r m n : Nat} (hq : q ≤ r) (hm : m ≤ n) (h : notAbove q n = true) :
    notAbove r m = true := by
  rw [notAbove_iff] at *
  have bases : (2 * m - 1) ^ 1000 ≤ (2 * n - 1) ^ 1000 := Nat.pow_le_pow_left (by omega) _
  have tens : 10 ^ (3000 - r) ≤ 10 ^ (3000 - q) := Nat.pow_le_pow_right (by decide) (by omega)
  exact Nat.le_trans (Nat.mul_le_mul bases tens) h

/-- Where one number passes and the successor of another fails, at a log exposure no smaller, the first is at most
the second. -/
theorem le_of_notAbove {q r a b : Nat} (hq : q ≤ r) (passes : notAbove q a = true)
    (fails : notAbove r (b + 1) = false) : a ≤ b := by
  refine Nat.le_of_not_lt fun above => ?_
  rw [notAbove_mono hq above passes] at fails
  cases fails

theorem notAbove_zero (q : Nat) : notAbove q 0 = true := by
  rw [notAbove_iff, Nat.mul_zero, Nat.zero_sub, Nat.zero_pow (by decide), Nat.zero_mul]
  exact Nat.zero_le _

/-- The value never reaches 2^17, so 17 bits hold the search. -/
theorem notAbove_top (q : Nat) : notAbove q (2 ^ 17) = false := by
  rw [Bool.eq_false_iff, ne_eq, notAbove_iff, Nat.not_le]
  have bases : 131070 ^ 1000 < (2 * 2 ^ 17 - 1) ^ 1000 := Nat.pow_lt_pow_left (by decide) (by decide)
  exact Nat.lt_of_lt_of_le bases (Nat.le_mul_of_pos_right _ (Nat.pow_pos (by decide)))

/-- The search of stage 3 by recursion on the bits left, the highest first. -/
def bitSearch (p : Nat → Bool) : Nat → Nat → Nat
  | 0, n => n
  | m + 1, n => bitSearch p m (if p (n + 2 ^ m) then n + 2 ^ m else n)

/-- The model's fold over the bits in falling order is this search. -/
theorem foldl_reverse_range_eq_bitSearch (p : Nat → Bool) (m n : Nat) :
    (List.range m).reverse.foldl (fun n b => if p (n + 2 ^ b) then n + 2 ^ b else n) n = bitSearch p m n := by
  induction m generalizing n with
  | zero => rfl
  | succ m ih =>
    rw [List.range_succ, List.reverse_append, List.reverse_singleton, List.singleton_append, List.foldl_cons,
      ih, bitSearch]

theorem exponential_eq_bitSearch (q : Nat) : exponential q = bitSearch (notAbove q) 17 0 :=
  foldl_reverse_range_eq_bitSearch (notAbove q) 17 0

/-- Where a test passes at n and fails at n + 2^m, the search of the bits below m ends at a number that passes and
whose successor fails. -/
theorem bitSearch_boundary (p : Nat → Bool) (m n : Nat) (passes : p n = true) (fails : p (n + 2 ^ m) = false) :
    p (bitSearch p m n) = true ∧ p (bitSearch p m n + 1) = false := by
  induction m generalizing n with
  | zero => exact ⟨passes, fails⟩
  | succ m ih =>
    rw [bitSearch]
    split
    · next bitSet =>
      exact ih _ bitSet (by rw [Nat.add_assoc, ← Nat.two_mul, ← Nat.pow_succ']; exact fails)
    · next bitClear => exact ih _ passes (Bool.eq_false_iff.mpr bitClear)

theorem exponential_boundary (q : Nat) :
    notAbove q (exponential q) = true ∧ notAbove q (exponential q + 1) = false := by
  rw [exponential_eq_bitSearch]
  exact bitSearch_boundary (notAbove q) 17 0 (notAbove_zero q) (by rw [Nat.zero_add]; exact notAbove_top q)

/-- Stage 3 is the one n whose lower half step is not above the value and whose upper one is (R59). -/
theorem exponential_eq_iff (q n : Nat) :
    exponential q = n ↔ notAbove q n = true ∧ notAbove q (n + 1) = false := by
  constructor
  · rintro rfl
    exact exponential_boundary q
  · rintro ⟨passes, fails⟩
    obtain ⟨passes', fails'⟩ := exponential_boundary q
    exact Nat.le_antisymm (le_of_notAbove (Nat.le_refl q) passes' fails) (le_of_notAbove (Nat.le_refl q) passes fails')

theorem exponential_mono {q r : Nat} (h : q ≤ r) : exponential q ≤ exponential r :=
  le_of_notAbove h (exponential_boundary q).1 (exponential_boundary r).2

/-! ### The corrected dose (R61) -/

/-- Round-half-up division is the natural within half a divisor of the quotient, the upper half excluded. -/
theorem rhu_eq_iff {a b u : Nat} (hb : 0 < b) :
    rhu a b = u ↔ 2 * u * b ≤ 2 * a + b ∧ 2 * a + b < 2 * (u + 1) * b := by
  rw [rhu, Nat.div_eq_iff (by omega)]
  have lower : u * (2 * b) = 2 * u * b := by rw [← Nat.mul_assoc, Nat.mul_comm u 2]
  have upper : 2 * (u + 1) * b = 2 * u * b + 2 * b := by rw [Nat.mul_succ, Nat.add_mul]
  omega

/-- Stage 4 rounds its exact quotient once (R61). -/
theorem stage4_eq_iff (e scale shade gain u : Nat) {trim : Int} (h : -50 ≤ trim) :
    stage4 e scale shade gain trim = u ↔
      2 * (u : Int) * (65535 * 4096 * 4096 * 50) ≤
        2 * (e * scale * shade * gain * (50 + trim)) + 65535 * 4096 * 4096 * 50 ∧
      2 * (e * scale * shade * gain * (50 + trim)) + 65535 * 4096 * 4096 * 50 <
        2 * ((u : Int) + 1) * (65535 * 4096 * 4096 * 50) := by
  obtain ⟨t, ht⟩ := Int.eq_ofNat_of_zero_le (show 0 ≤ 50 + trim by omega)
  have product : (e : Int) * scale * shade * gain * t = (e * scale * shade * gain * t : Nat) := by
    simp only [Int.natCast_mul]
  rw [stage4, ht, Int.toNat_natCast, rhu_eq_iff (by decide), doseDenominator, product]
  omega

/-! ### The drive word (R62, R63) -/

/-- Half a divisor added before the division rounds halves up. -/
theorem add_half_div_eq_rhu (a b : Nat) : (a + b / 2) / b = rhu a b := by
  rw [rhu, ← Nat.div_div_eq_div_mul]
  congr 1
  omega

/-- Up to full dose the clamp leaves the dose alone and counts nothing (R62). -/
theorem finishDose_of_le {u : Nat} (h : u ≤ 245760) :
    finishDose u = ⟨(stage5 u).1, false, (stage5 u).2⟩ := by
  have noClamp : ¬ Config.fullDose < u := Nat.not_lt.mpr h
  simp only [finishDose, noClamp, if_false, decide_false]

/-- Table 4-3's low bands: zero, off and the least word. -/
theorem finishDose_low (u : Nat) :
    (u = 0 → finishDose u = ⟨⟨0, 0⟩, false, false⟩) ∧
    (1 ≤ u → u ≤ 127 → finishDose u = ⟨⟨0, 0⟩, false, true⟩) ∧
    (128 ≤ u → u ≤ 255 → finishDose u = ⟨⟨256, 1⟩, false, true⟩) := by
  refine ⟨fun h => ?_, fun h h' => ?_, fun h h' => ?_⟩
  · subst h; rfl
  · rw [finishDose_of_le (by omega), stage5, if_neg (by omega), if_pos (by omega)]; rfl
  · rw [finishDose_of_le (by omega), stage5, if_neg (by omega), if_neg (by omega), if_pos (by omega)]

/-- Table 4-3's clean bands, and the clamp above them. -/
theorem finishDose_clean (u : Nat) :
    (256 ≤ u → u ≤ 16383 → finishDose u = ⟨⟨rhu u (u / 256), u / 256⟩, false, false⟩) ∧
    (16384 ≤ u → u ≤ 245760 → finishDose u = ⟨⟨rhu u 64, 64⟩, false, false⟩) ∧
    (245760 < u → finishDose u = ⟨⟨3840, 64⟩, true, false⟩) := by
  refine ⟨fun h h' => ?_, fun h h' => ?_, fun h => ?_⟩
  · rw [finishDose_of_le (by omega), stage5, if_neg (by omega), if_neg (by omega), if_neg (by omega),
      if_pos (by omega), add_half_div_eq_rhu]
  · rw [finishDose_of_le h', stage5, if_neg (by omega), if_neg (by omega), if_neg (by omega),
      if_neg (by omega), ← add_half_div_eq_rhu]
  · have clamps : Config.fullDose < u := h
    simp only [finishDose, clamps, if_true, decide_true]
    rfl

/-! ### A channel, a line and its clip counts (R65, R66, R68) -/

theorem channelDose_enabled {c : LatchedChannel} (h : c.enabled = true) (gain x v : Nat) (trim : Int) :
    channelDose c gain trim x v = finishDose
      (stage4 (exponential (stage2 (stage1 c.curve v) c.trim)) c.scale (shadingAt c.shading x) gain trim) :=
  if_pos h

theorem channelDose_disabled {c : LatchedChannel} (h : c.enabled = false) (gain x v : Nat) (trim : Int) :
    channelDose c gain trim x v = ⟨⟨0, 0⟩, false, false⟩ :=
  if_neg (Bool.eq_false_iff.mp h)

theorem length_lineDoses (m : Memory) (f : Rgb LatchedChannel) (l : LineLatch) (slot line width : Nat) :
    (lineDoses m f l slot line width).length = width := by
  rw [lineDoses, List.length_map, List.length_range]

theorem getElem?_lineDoses (m : Memory) (f : Rgb LatchedChannel) (l : LineLatch) (slot line : Nat)
    {width x : Nat} (h : x < width) :
    (lineDoses m f l slot line width)[x]? = some (pixelDose f l x (m.pixel slot line x)) := by
  rw [lineDoses, List.getElem?_map, List.getElem?_range h, Option.map_some]

theorem Rgb.get_zip {α β γ : Type} (f : α → β → γ) (v : Rgb α) (w : Rgb β) (c : Channel) :
    (Rgb.zip f v w).get c = f (v.get c) (w.get c) := by
  cases c <;> rfl

/-- Counting pixel by pixel adds the clipped pixels of each kind to the counts begun with. -/
theorem get_foldl_count (ds : List (Rgb Dose)) (clips : Rgb Clips) (c : Channel) :
    (ds.foldl (fun c d => Rgb.zip Clips.count c d) clips).get c =
      ⟨(clips.get c).high + ds.countP (fun d => (d.get c).high),
       (clips.get c).low + ds.countP (fun d => (d.get c).low)⟩ := by
  induction ds generalizing clips with
  | nil => rfl
  | cons d ds ih =>
    rw [List.foldl_cons, ih, Rgb.get_zip, Clips.count, List.countP_cons, List.countP_cons]
    simp only [Nat.add_assoc, Nat.add_comm]

theorem get_lineClips (ds : List (Rgb Dose)) (c : Channel) : (lineClips ds).get c =
    ⟨ds.countP (fun d => (d.get c).high), ds.countP (fun d => (d.get c).low)⟩ := by
  have begun : (Rgb.all (⟨0, 0⟩ : Clips)).get c = ⟨0, 0⟩ := by cases c <;> rfl
  rw [lineClips, get_foldl_count, begun, Nat.zero_add, Nat.zero_add]

/-- Settles O42: each stage by its own law, stage 3 by the boundary its bit search ends at. -/
theorem doseComputed : Obligations.DoseComputed := by
  refine ⟨?curve, stage2_eq, ?exponent, fun q r h _ => exponential_mono h, ?shading,
    fun e scale shade gain u trim => stage4_eq_iff e scale shade gain u, ?word,
    fun c gain x v trim => ⟨fun h => channelDose_enabled h gain x v trim,
      fun h => channelDose_disabled h gain x v trim⟩,
    fun m f l slot line width => ⟨length_lineDoses m f l slot line width,
      fun x h => getElem?_lineDoses m f l slot line h⟩,
    get_lineClips⟩
  case curve =>
    rintro K _ k f hk hf rfl
    exact ⟨stage1_at K hk hf, stage1_between K hk hf⟩
  case exponent =>
    intro q n _
    have upperHalf : 2 * (n + 1) - 1 = 2 * n + 1 := by omega
    rw [exponential_eq_iff, Bool.eq_false_iff, ne_eq, notAbove_iff, notAbove_iff, Nat.not_le, upperHalf]
  case shading =>
    rintro S _ j h hj hh rfl
    exact ⟨shadingAt_at S hj hh, shadingAt_between S hj hh⟩
  case word =>
    intro u
    obtain ⟨zero, off, least⟩ := finishDose_low u
    exact ⟨zero, off, least, finishDose_clean u⟩

end Sys2Proof.Machine
end

