-- ==== Sys2Proof/Proofs/Lamps.lean ====
section
/-! PROOFS. What R95 speaks of, the Power Loop and the engine state, operation by operation. An operation that
leaves both alone keeps the lamps, and its lemma `…_lamps` says so. -/

namespace Sys2Proof.Machine

/-! ### What the writes of ES and PL leave behind -/

@[simp] theorem State.setEs_es (s : State) (e : Sequencer) : (s.setEs e).es = e := rfl

@[simp] theorem State.setChannels_pl (s : State) (c : Rgb PowerChannel) :
    (s.setChannels c).pl = { s.pl with channels := c } := rfl

@[simp] theorem State.setInterlock_pl (s : State) (isOpen : Bool) :
    (s.setInterlock isOpen).pl = { s.pl with interlockOpen := isOpen } := rfl

@[simp] theorem State.setEngine_es (s : State) (e : Engine) (c : Option FaultKind) :
    (s.setEngine e c).es = { s.es with engine := e } := by simp [State.setEngine]

@[simp] theorem State.laserDisable_pl (s : State) :
    s.laserDisable.pl = { s.pl with channels := s.pl.channels.map PowerChannel.turnOff } := by
  unfold State.laserDisable
  dsimp only
  split <;> rfl

@[simp] theorem State.trigger_pl (s : State) (period : Nat) :
    (s.trigger period).pl = { s.pl with channels := s.pl.channels.map PowerChannel.fire } := by
  unfold State.trigger
  dsimp only
  split <;> rfl

/-! ### The engine state, where ES changes another field -/

@[simp] theorem State.setPending_engine (s : State) (k : LongKind) (r : Option PendingReply) :
    (s.setPending k r).es.engine = s.es.engine := rfl

@[simp] theorem State.setStage_engine (s : State) (x : Stage) : (s.setStage x).es.engine = s.es.engine := rfl

@[simp] theorem State.setWheel_engine (s : State) (c : Channel) (w : Wheel) :
    (s.setWheel c w).es.engine = s.es.engine := rfl

@[simp] theorem State.dropExposure_engine (s : State) : s.dropExposure.es.engine = s.es.engine := by
  simp [State.dropExposure, State.emptyLatches]

@[simp] theorem State.endReply_engine (s : State) (k : LongKind) (a : Answer) :
    (s.endReply k a).es.engine = s.es.engine := by
  unfold State.endReply
  split <;> simp

@[simp] theorem State.failReply_engine (s : State) (k : LongKind) (reason : Reason) (n : Nat) :
    (s.failReply k reason n).es.engine = s.es.engine := State.endReply_engine ..

@[simp] theorem State.scanBegin_engine (s : State) (f : Fin 8) :
    (s.scanBegin f).es.engine = s.es.engine := by
  unfold State.scanBegin
  split <;> simp

/-! ### Operations that keep the lamps -/

@[simp] theorem State.refuse_lamps (s : State) (tag : Option Nat) (q : Request) (reason : Reason)
    (field : Nat) (d : ReplyData) :
    (s.refuse tag q reason field d).pl = s.pl ∧ (s.refuse tag q reason field d).es = s.es := by
  simp [State.refuse]

@[simp] theorem State.done_lamps (s : State) (tag : Option Nat) (q : Request) (d : ReplyData) :
    (s.done tag q d).pl = s.pl ∧ (s.done tag q d).es = s.es := by simp [State.done]

@[simp] theorem State.refuseIntake_lamps (s : State) (tag code : Nat) (reason : Reason) :
    (s.refuseIntake tag code reason).pl = s.pl ∧ (s.refuseIntake tag code reason).es = s.es := by
  simp [State.refuseIntake]

@[simp] theorem State.setMask_lamps (s : State) (m : Nat) :
    (s.setMask m).pl = s.pl ∧ (s.setMask m).es = s.es := by
  have release (l : List (Fin 11 × Nat)) (t : State) :
      (l.foldl (fun t e => t.releaseEntry e.1 e.2) t).pl = t.pl ∧
        (l.foldl (fun t e => t.releaseEntry e.1 e.2) t).es = t.es := by
    induction l generalizing t with
    | nil => exact ⟨rfl, rfl⟩
    | cons e l ih =>
      obtain ⟨n, o, h⟩ := t.releaseEntry_form e.1 e.2
      simpa [h] using ih (t.releaseEntry e.1 e.2)
  unfold State.setMask
  dsimp only
  split
  · exact release _ _
  · exact ⟨rfl, rfl⟩

@[simp] theorem State.returnFrame_lamps (s : State) :
    s.returnFrame.pl = s.pl ∧ s.returnFrame.es.engine = s.es.engine := by
  unfold State.returnFrame
  split <;> simp

@[simp] theorem State.spoilFrame_lamps (s : State) (c : Cause) :
    (s.spoilFrame c).pl = s.pl ∧ (s.spoilFrame c).es.engine = s.es.engine := by
  unfold State.spoilFrame
  split
  · simp
  · split <;> simp

@[simp] theorem State.endFrameLocked_lamps (s : State) (c : Cause) :
    (s.endFrameLocked c).pl = s.pl ∧ (s.endFrameLocked c).es.engine = s.es.engine := by
  unfold State.endFrameLocked
  split <;> simp

@[simp] theorem State.endBlankEarly_lamps (s : State) :
    s.endBlankEarly.pl = s.pl ∧ s.endBlankEarly.es.engine = s.es.engine := by
  simp [State.endBlankEarly, State.dropBlank]

@[simp] theorem State.checkPreparing_lamps (s : State) :
    s.checkPreparing.pl = s.pl ∧ s.checkPreparing.es.engine = s.es.engine := by
  unfold State.checkPreparing
  split <;> simp

@[simp] theorem State.deferHalt_lamps (s : State) (r : FaultRecord) :
    (s.deferHalt r).pl = s.pl ∧ (s.deferHalt r).es.engine = s.es.engine := by
  unfold State.deferHalt
  split <;> simp

@[simp] theorem State.driveLine_lamps (s : State) :
    s.driveLine.pl = s.pl ∧ s.driveLine.es.engine = s.es.engine := by
  unfold State.driveLine
  split <;> simp

end Sys2Proof.Machine
end

