-- ==== Sys2Proof/Proofs/KeepsDark.lean ====
section
/-! PROOFS. R95 under the shared operations: the engine's entries, the take of a fault, and the shape of a command. A
state comes to keep R95 in one of three ways: the lamps are as before, every laser has been disabled, or the engine
is in a state that is not dark. -/

namespace Sys2Proof.Machine

/-! ### How a state comes to keep R95 -/

/-- Interlock, engine state and lasers as before. -/
theorem LasersDark.sameLasers {s t : State} (h : LasersDark s)
    (hi : t.pl.interlockOpen = s.pl.interlockOpen)
    (hl : t.pl.channels.map (·.laser) = s.pl.channels.map (·.laser))
    (he : t.es.engine = s.es.engine) : LasersDark t := by
  simp only [Rgb.map, Rgb.mk.injEq] at hl
  obtain ⟨hr, hg, hb⟩ := hl
  simpa only [LasersDark, State.allOff, hi, he, hr, hg, hb] using h

/-- The lamps as before. -/
theorem LasersDark.same {s t : State} (h : LasersDark s) (hp : t.pl = s.pl)
    (he : t.es.engine = s.es.engine) : LasersDark t :=
  h.sameLasers (by rw [hp]) (by rw [hp]) he

/-- An engine state in which the lasers may be on. -/
theorem LasersDark.lit {s t : State} (h : LasersDark s) (hp : t.pl = s.pl)
    (he : t.es.engine.dark = false) : LasersDark t := by
  rintro (hi | hd)
  · rw [hp] at hi
    simpa only [State.allOff, hp] using h (.inl hi)
  · rw [he] at hd
    cases hd

theorem PowerChannel.turnOff_laser (c : PowerChannel) : c.turnOff.laser = .off := by
  unfold PowerChannel.turnOff
  split <;> trivial

theorem State.laserDisable_allOff (s : State) : s.laserDisable.allOff := by
  simp [State.allOff, Rgb.map, PowerChannel.turnOff_laser]

/-- The lasers disabled, whatever else has changed (R93). -/
theorem LasersDark.of_disabled {s t : State} (hp : t.pl = s.laserDisable.pl) : LasersDark t := fun _ => by
  simpa only [State.allOff, hp] using s.laserDisable_allOff

/-! ### The engine's entries -/

@[simp] theorem State.stopMechanisms_pl (s : State) : s.stopMechanisms.pl = s.laserDisable.pl := by
  simp [State.stopMechanisms]

theorem LasersDark.enterOffline {s : State} (h : LasersDark s) (he : s.es.engine = .stopping) :
    LasersDark s.enterOffline := fun _ => by
  have off : s.allOff := h (.inr (by rw [he]; rfl))
  simpa [State.allOff, State.enterOffline] using off

theorem LasersDark.of_enterStopping (s : State) : LasersDark s.enterStopping :=
  .of_disabled (s := s) (by simp [State.enterStopping])

theorem LasersDark.of_enterHalted (s : State) (r : FaultRecord) : LasersDark (s.enterHalted r) :=
  .of_disabled (s := s) (by simp [State.enterHalted])

theorem LasersDark.of_enterLocked (s : State) (r : FaultRecord) : LasersDark (s.enterLocked r) :=
  .of_disabled (s := s) (by simp [State.enterLocked])

theorem LasersDark.enterReady {s : State} (h : LasersDark s) : LasersDark s.enterReady := by
  unfold State.enterReady
  dsimp only
  split <;> exact h.lit (by simp) (by simp [Engine.dark])

theorem LasersDark.enterPaused {s : State} (h : LasersDark s) : LasersDark s.enterPaused :=
  h.lit (by simp [State.enterPaused]) (by simp [State.enterPaused, Engine.dark])

theorem LasersDark.enterAborting {s : State} (h : LasersDark s) (r : FaultRecord) :
    LasersDark (s.enterAborting r) :=
  h.lit (by simp [State.enterAborting]) (by simp [State.enterAborting, Engine.dark])

theorem LasersDark.enterFinishing {s : State} (h : LasersDark s) : LasersDark s.enterFinishing :=
  h.lit (by simp [State.enterFinishing]) (by simp [State.enterFinishing, Engine.dark])

/-- The lasers are enabled with the interlock closed only, and STARTING is not dark (R97, R114). -/
theorem LasersDark.enterStarting {s : State} (h : LasersDark s) : LasersDark s.enterStarting := by
  by_cases hi : s.pl.interlockOpen = true
  · exact h.lit (by simp [State.enterStarting, State.homeStage, State.laserEnable, hi])
      (by simp [State.enterStarting, Engine.dark])
  · rintro (ho | hd)
    · simp [State.enterStarting, State.homeStage, State.laserEnable, hi] at ho
    · simp [State.enterStarting, Engine.dark] at hd

theorem LasersDark.endAborting {s : State} (h : LasersDark s) : LasersDark s.endAborting := by
  unfold State.endAborting
  split
  · exact h
  next r _ =>
    have spoiled : LasersDark (s.spoilFrame (.fault r.report.kind)) := h.same (by simp) (by simp)
    dsimp only
    split
    · split
      · exact .of_enterStopping _
      split
      · exact .of_enterHalted _ _
      exact spoiled.enterReady
    · exact .of_enterHalted _ _

theorem LasersDark.endAdvancing {s : State} (h : LasersDark s) : LasersDark s.endAdvancing := by
  unfold State.endAdvancing
  split
  · exact .of_enterHalted _ _
  · split
    · exact .of_enterStopping _
    · exact h.enterReady

theorem LasersDark.finishFrame {s : State} (h : LasersDark s) : LasersDark s.finishFrame := by
  unfold State.finishFrame
  split
  · exact h
  split
  · exact h
  exact h.lit (by simp) (by simp [Engine.dark])

theorem LasersDark.checkStarting {s : State} (h : LasersDark s) : LasersDark s.checkStarting := by
  unfold State.checkStarting
  split
  · have timerStopped : LasersDark (s.setEs { s.es with startTimer := none }) := h.same rfl rfl
    exact timerStopped.enterReady.same (by simp) (by simp)
  · exact h

theorem LasersDark.checkPreparing {s : State} (h : LasersDark s) : LasersDark s.checkPreparing :=
  h.same (by simp) (by simp)

/-! ### Faults taken (R159) -/

theorem LasersDark.direct {s : State} (h : LasersDark s) (r : FaultRecord) : LasersDark (s.direct r) := by
  unfold State.direct
  cases r.applied with
  | notice | hold | record => exact h
  | pause => exact h.enterPaused
  | abort => exact h.enterAborting r
  | halt =>
    dsimp only [State.applyHalt]
    split
    · exact h.enterAborting r
    · exact .of_enterHalted s r
  | defer => exact h.same (by simp) (by simp)
  | lock => exact .of_enterLocked s r

theorem LasersDark.takeFault {s : State} (h : LasersDark s) (f : FaultReport) :
    LasersDark (s.takeFault f) := by
  have announced (r : FaultRecord) : LasersDark ((s.recordFault r).announceFault r) :=
    h.same (by simp) (by simp)
  exact (announced _).direct _

theorem LasersDark.flush {s : State} (h : LasersDark s) : LasersDark s.flush := h.same rfl rfl

theorem LasersDark.driveLine {s : State} (h : LasersDark s) : LasersDark s.driveLine :=
  h.same (by simp) (by simp)

theorem LasersDark.takeEvent {s : State} (h : LasersDark s) (f : FaultReport) :
    LasersDark (s.takeEvent f) := by
  unfold State.takeEvent State.driveAfter
  split
  · exact (h.takeFault f).driveLine.flush
  · exact (h.takeFault f).flush

theorem LasersDark.takeInTurn {s : State} (h : LasersDark s) (f : FaultReport) :
    LasersDark (s.takeInTurn f) := by
  unfold State.takeInTurn
  split
  · exact h.takeEvent f
  · exact h.flush.takeEvent f

theorem LasersDark.takeOne {s : State} (h : LasersDark s) {take : State → FaultReport → State}
    (takes : ∀ t f, LasersDark t → LasersDark (take t f)) : LasersDark (s.takeOne take) := by
  rcases s.takeOne_cases take with ⟨-, none⟩ | ⟨f, -, one⟩
  · rwa [none]
  · rw [one]
    exact takes _ f (h.same (by simp) (by simp))

theorem LasersDark.taking {must : FaultKind → Bool} {take : State → FaultReport → State}
    (takes : ∀ t f, LasersDark t → LasersDark (take t f)) (n : Nat) :
    ∀ {s : State}, LasersDark s → LasersDark (State.taking must take n s) := by
  induction n with
  | zero => exact id
  | succ n ih =>
    intro s h
    unfold State.taking
    split
    · exact ih (h.takeOne takes)
    · exact h

theorem LasersDark.settledFor {s : State} (h : LasersDark s) (must : FaultKind → Bool) :
    LasersDark (s.settledFor must) := .taking (fun _ f ht => ht.takeEvent f) _ h

theorem LasersDark.concluded {s : State} (h : LasersDark s) : LasersDark s.concluded :=
  .flush (.taking (fun _ f ht => ht.takeInTurn f) _ h)

/-! ### Commands and requests -/

/-- An effect that keeps R95. -/
def KeepsDark (effect : State → State) : Prop := ∀ s, LasersDark s → LasersDark (effect s)

/-- A decision that keeps R95, whatever its request carries. -/
def Decision.KeepsDark (owner : Decision) : Prop := ∀ tag p, Machine.KeepsDark (owner · tag p)

theorem KeepsDark.of_lamps {effect : State → State}
    (same : ∀ s, (effect s).pl = s.pl ∧ (effect s).es.engine = s.es.engine) : KeepsDark effect :=
  fun s h => h.same (same s).1 (same s).2

theorem KeepsDark.run {effect : State → State} (keeps : KeepsDark effect) {s t : State} (h : LasersDark s)
    (e : Machine.run s effect = .next t) : LasersDark t := by
  obtain rfl := Host.Outcome.next.inj e
  exact (keeps s h).concluded

theorem KeepsDark.runAfter {must : FaultKind → Bool} {effect : State → State} (keeps : KeepsDark effect)
    {s t : State} (h : LasersDark s) (e : Machine.runAfter must s effect = .next t) : LasersDark t :=
  keeps.run (h.settledFor must) e

theorem LasersDark.refuse {s : State} {tag : Option Nat} {q : Request} {reason : Reason} {field : Nat}
    {d : ReplyData} (h : LasersDark s) : LasersDark (s.refuse tag q reason field d) :=
  h.same (by simp) (by simp)

theorem LasersDark.done {s : State} {tag : Option Nat} {q : Request} {d : ReplyData} (h : LasersDark s) :
    LasersDark (s.done tag q d) := h.same (by simp) (by simp)

theorem LasersDark.failReply {s : State} {k : LongKind} {reason : Reason} {n : Nat} (h : LasersDark s) :
    LasersDark (s.failReply k reason n) := h.same (by simp) (by simp)

theorem LasersDark.handToOwner {owner : Decision} (keeps : owner.KeepsDark) {s : State} (h : LasersDark s)
    (tag : Option Nat) (q : Request) (p : List Byte) : LasersDark (s.handToOwner tag q p owner) := by
  unfold State.handToOwner
  split
  · exact h.refuse
  · exact keeps tag p s h

theorem LasersDark.takeRequest {owner : Decision} (keeps : owner.KeepsDark) {s : State} (h : LasersDark s)
    (tag : Nat) (q : Request) (p : List Byte) : LasersDark (s.takeRequest tag q p owner) := by
  have taken : LasersDark s.takeRecord := h.same (by simp) (by simp)
  unfold State.takeRequest
  dsimp only
  split
  · exact taken.handToOwner keeps _ q p
  split
  · exact taken.same (by simp) (by simp)
  · have entered : LasersDark (s.takeRecord.enterTable tag q) := taken.same rfl rfl
    exact entered.handToOwner keeps _ q p

/-- A request that its owner does not decide is refused or left, which keeps the lamps (R191). -/
theorem Decision.KeepsDark.onRequestWhen {owner : Decision} (keeps : owner.KeepsDark) (q : Request)
    (test : List Byte → Bool) : Machine.KeepsDark (·.onRequestWhen q test owner) := by
  intro s h
  dsimp only [State.onRequestWhen]
  split
  · split
    · exact h.takeRequest keeps _ q _
    · exact h
  · exact h

theorem Decision.KeepsDark.onRequest {owner : Decision} (keeps : owner.KeepsDark) (q : Request) :
    Machine.KeepsDark (·.onRequest q owner) := keeps.onRequestWhen q _

end Sys2Proof.Machine
end

