-- ==== Sys2Proof/Proofs/DarkRequests.lean ====
section
/-! PROOFS. R95 under every request: most keep the lamps, and those that direct the engine go by its entries. -/

namespace Sys2Proof.Machine

/-! ### Requests that keep the lamps -/

theorem decideIdentify_keepsDark : Decision.KeepsDark decideIdentify := fun tag p =>
  .of_lamps fun s => by simp [decideIdentify]

theorem decideStatus_keepsDark : Decision.KeepsDark decideStatus := fun tag p =>
  .of_lamps fun s => by simp [decideStatus]

theorem decideCheckpoint_keepsDark : Decision.KeepsDark decideCheckpoint := fun tag p =>
  .of_lamps fun s => by simp [decideCheckpoint]

theorem decideSetNoticeMask_keepsDark : Decision.KeepsDark decideSetNoticeMask := fun tag p =>
  .of_lamps fun s => by
    dsimp only [decideSetNoticeMask]
    split <;> simp

theorem decideSetRollTrim_keepsDark : Decision.KeepsDark decideSetRollTrim := fun tag p =>
  .of_lamps fun s => by simp [decideSetRollTrim]

theorem decideReadLogRepeat_keepsDark : Decision.KeepsDark decideReadLogRepeat := fun tag p =>
  .of_lamps fun s => by simp [decideReadLogRepeat]

theorem decideReadLog_keepsDark : Decision.KeepsDark decideReadLog := fun tag p =>
  .of_lamps fun s => by
    dsimp only [decideReadLog]
    split
    · simp
    · split <;> simp

theorem decideReadRule_keepsDark : Decision.KeepsDark decideReadRule := fun tag p =>
  .of_lamps fun s => by
    dsimp only [decideReadRule]
    split <;> simp

theorem decideReadProfile_keepsDark : Decision.KeepsDark decideReadProfile := fun tag p =>
  .of_lamps fun s => by
    dsimp only [decideReadProfile]
    split <;> simp

theorem decideSetFacetGains_keepsDark : Decision.KeepsDark decideSetFacetGains := fun tag p =>
  .of_lamps fun s => by
    dsimp only [decideSetFacetGains]
    split
    · simp
    · split <;> simp

theorem decideRestoreFacets_keepsDark : Decision.KeepsDark decideRestoreFacets := fun tag p =>
  .of_lamps fun s => by
    dsimp only [decideRestoreFacets, State.noticeRestored]
    split
    · simp
    · split <;> simp

theorem decideSetFootage_keepsDark : Decision.KeepsDark decideSetFootage := fun tag p =>
  .of_lamps fun s => by
    dsimp only [decideSetFootage]
    repeat' split
    all_goals simp

theorem decideSetFaultResponse_keepsDark : Decision.KeepsDark decideSetFaultResponse := fun tag p =>
  .of_lamps fun s => by
    dsimp only [decideSetFaultResponse]
    split
    · simp
    · split <;> simp

theorem decideWriteRule_keepsDark : Decision.KeepsDark decideWriteRule := fun tag p =>
  .of_lamps fun s => by
    dsimp only [decideWriteRule, State.writeRule]
    repeat' split
    all_goals simp

theorem decideLoadProfile_keepsDark : Decision.KeepsDark decideLoadProfile := fun tag p =>
  .of_lamps fun s => by
    dsimp only [decideLoadProfile, State.loadProfile]
    repeat' split
    all_goals simp

theorem decideAbortFrame_keepsDark : Decision.KeepsDark decideAbortFrame := fun tag p =>
  .of_lamps fun s => by
    dsimp only [decideAbortFrame]
    repeat' split
    all_goals simp

/-! ### Set Parameter -/

theorem LasersDark.setParameter {s : State} (h : LasersDark s) (p : Parameter) (v : Nat) :
    LasersDark (s.setParameter p v) := by
  cases p <;> exact h.sameLasers rfl rfl rfl

theorem decideSetParameter_keepsDark : Decision.KeepsDark decideSetParameter := by
  intro tag p s h
  dsimp only [decideSetParameter]
  split
  · exact h.refuse
  dsimp only [State.decideParameter]
  split
  · exact h.refuse
  split
  · exact h.refuse
  split
  · exact h.refuse
  split
  · exact h.refuse
  exact (h.setParameter _ _).done

/-! ### The Frame Store's requests -/

@[simp] theorem State.fillSlot_lamps (s : State) (slot : Fin 4) (key : Key) (width height : Nat)
    (i : Fin 32) : (s.fillSlot slot key width height i).pl = s.pl ∧
      (s.fillSlot slot key width height i).es = s.es := by
  simp [State.fillSlot]

theorem decideOpenFrame_keepsDark : Decision.KeepsDark decideOpenFrame := fun tag p =>
  .of_lamps fun s => by
    dsimp only [decideOpenFrame, State.openFrame, State.openUnder]
    repeat' split
    all_goals simp

/-- The common checks of Close, Discard and Requeue Frame refuse, or leave it to the request's own (R12). -/
theorem LasersDark.addressSlot {s : State} (h : LasersDark s) (tag : Option Nat) (q : Request)
    (p : List Byte) {own : Fin 4 → State} (owns : ∀ i, LasersDark (own i)) :
    LasersDark (s.addressSlot tag q p own) := by
  unfold State.addressSlot
  split
  · exact h.refuse
  split
  · exact h.refuse
  split
  · exact h.refuse
  exact owns _

@[simp] theorem State.refuseSlotState_lamps (s : State) (tag : Option Nat) (q : Request) (i : Fin 4) :
    (s.refuseSlotState tag q i).pl = s.pl ∧ (s.refuseSlotState tag q i).es = s.es := by
  simp [State.refuseSlotState]

@[simp] theorem State.closeSlot_lamps (s : State) (tag : Option Nat) (i : Fin 4) :
    (s.closeSlot tag i).pl = s.pl ∧ (s.closeSlot tag i).es = s.es := by
  dsimp only [State.closeSlot]
  repeat' split
  all_goals simp

theorem decideCloseFrame_keepsDark : Decision.KeepsDark decideCloseFrame := fun tag p _ h =>
  h.addressSlot tag _ p fun _ => h.same (by simp) (by simp)

@[simp] theorem State.noticeEmptied_lamps (s : State) :
    s.noticeEmptied.pl = s.pl ∧ s.noticeEmptied.es = s.es := by
  unfold State.noticeEmptied
  split <;> simp

@[simp] theorem State.discardSlot_lamps (s : State) (tag : Option Nat) (i : Fin 4) :
    (s.discardSlot tag i).pl = s.pl ∧ (s.discardSlot tag i).es = s.es := by
  dsimp only [State.discardSlot, State.leaveQueue]
  split
  · simp
  · split <;> simp

theorem decideDiscardFrame_keepsDark : Decision.KeepsDark decideDiscardFrame := fun tag p _ h =>
  h.addressSlot tag _ p fun _ => h.same (by simp) (by simp)

@[simp] theorem State.requeueSlot_lamps (s : State) (tag : Option Nat) (i : Fin 4) :
    (s.requeueSlot tag i).pl = s.pl ∧ (s.requeueSlot tag i).es = s.es := by
  dsimp only [State.requeueSlot]
  split
  · simp
  · split <;> simp

theorem decideRequeueFrame_keepsDark : Decision.KeepsDark decideRequeueFrame := fun tag p _ h =>
  h.addressSlot tag _ p fun _ => h.same (by simp) (by simp)

/-! ### Requests that direct the engine -/

theorem State.decideStart_keepsDark (q : Request) (from_ : Engine) (filmPresent : Bool) :
    Decision.KeepsDark (fun s tag _ => s.decideStart tag q from_ filmPresent) := by
  intro tag p s h
  dsimp only [State.decideStart]
  split
  · exact h.refuse
  split
  · exact h.refuse
  exact LasersDark.enterStarting (h.same rfl rfl)

theorem decideStopEngine_keepsDark : Decision.KeepsDark decideStopEngine := by
  intro tag p s h
  dsimp only [decideStopEngine]
  split
  · exact h.refuse
  split
  · exact h.same rfl rfl
  split
  · exact (LasersDark.of_enterStopping _).failReply
  exact .of_enterStopping _

@[simp] theorem State.endInHand_lamps (s : State) :
    s.endInHand.pl = s.pl ∧ s.endInHand.es.engine = s.es.engine := by
  unfold State.endInHand
  split <;> simp

/-- A Reset Engine disables the lasers first, in STOPPING too (R120). -/
theorem decideResetEngine_keepsDark : Decision.KeepsDark decideResetEngine := by
  intro tag p s _
  dsimp only [decideResetEngine, State.resetToStopping]
  split
  · exact .of_disabled (s := s) (by simp [State.clearFlags, State.abandonReplies, State.resetMechanisms])
  · exact .of_enterStopping _

theorem decideAdvanceFilm_keepsDark : Decision.KeepsDark decideAdvanceFilm := by
  intro tag p s h
  dsimp only [decideAdvanceFilm, State.beginBlank]
  split
  · exact h.refuse
  split
  · exact h.refuse
  split
  · exact h.refuse
  exact h.lit (by simp) (by simp [Engine.dark])

end Sys2Proof.Machine
end

