-- ==== Sys2Proof/Proofs/DarkEvents.lean ====
section
/-! PROOFS. R95 under the events of the link, the scan, the lasers, the timers and the film mechanisms. -/

namespace Sys2Proof.Machine

/-! ### The link, line records and the queue take -/

theorem State.bringUp_keepsDark : KeepsDark State.bringUp := .of_lamps fun s => by
  unfold State.bringUp
  split <;> simp

theorem State.resetLink_keepsDark : KeepsDark State.resetLink := .of_lamps fun s => by
  unfold State.resetLink
  split <;> simp

theorem State.arrive_keepsDark (bytes : List Byte) : KeepsDark (·.arrive bytes) := .of_lamps fun s => by
  dsimp only [State.arrive]
  repeat' split
  all_goals simp

theorem State.dropHead_keepsDark : KeepsDark State.dropHead := .of_lamps fun s => by
  unfold State.dropHead
  split <;> simp

theorem State.refuseHead_keepsDark : KeepsDark State.refuseHead := .of_lamps fun s => by
  unfold State.refuseHead
  split <;> simp

theorem State.decideLine_keepsDark (slot line count : Nat) (words : List Byte) :
    KeepsDark (·.decideLine slot line count words) := .of_lamps fun s => by
  dsimp only [State.decideLine, State.postRefusal, State.storeLine]
  repeat' split
  all_goals simp

@[simp] theorem State.aimWheel_lamps (s : State) (c : Channel) (target : Nat) :
    (s.aimWheel c target).pl = s.pl ∧ (s.aimWheel c target).es.engine = s.es.engine := by
  unfold State.aimWheel
  split <;> simp

@[simp] theorem State.freshFilm_lamps (s : State) : s.freshFilm.pl = s.pl ∧ s.freshFilm.es = s.es := by
  unfold State.freshFilm
  split <;> simp

@[simp] theorem State.returnStage_lamps (s : State) :
    s.returnStage.pl = s.pl ∧ s.returnStage.es.engine = s.es.engine := by simp [State.returnStage]

@[simp] theorem State.bringStage_lamps (s : State) :
    s.bringStage.pl = s.pl ∧ s.bringStage.es.engine = s.es.engine := by
  unfold State.bringStage
  repeat' split
  all_goals simp

theorem State.takeHeadSlot_keepsDark : KeepsDark State.takeHeadSlot := by
  intro s h
  unfold State.takeHeadSlot
  split
  · exact h
  split
  · exact h
  split
  · exact h.lit (by simp [State.takeSlot, State.aimWheels])
      (by simp [State.takeSlot, State.aimWheels, Engine.dark])
  · exact h

/-! ### The scan (chapter 5) -/

theorem LasersDark.elapse {s : State} (h : LasersDark s) (n : Nat) : LasersDark (s.elapse n) :=
  h.sameLasers rfl rfl rfl

theorem KeepsDark.afterTicks {effect : State → State} (keeps : KeepsDark effect) (ticks : Nat) :
    KeepsDark (fun s => effect (s.elapse ticks)) := fun _ h => keeps _ (h.elapse ticks)

theorem LasersDark.trigger {s : State} (h : LasersDark s) (period : Nat) : LasersDark (s.trigger period) :=
  h.sameLasers (by simp) (by simp [Rgb.map, PowerChannel.fire]) (by simp)

theorem LasersDark.scanEnd {s : State} (h : LasersDark s) (f : Fin 8) (o : ScanOutcome) :
    LasersDark (s.scanEnd f o) := by
  unfold State.scanEnd
  split
  · exact h
  · split
    · dsimp only [State.countLine]
      split
      · exact h.same (by simp [State.stepStage]) (by simp [State.stepStage])
      · exact LasersDark.enterFinishing (h.same (by simp) (by simp))
    · exact h

@[simp] theorem State.announceExclusion_lamps (s : State) (f : Fin 8) (excluded : Bool) :
    (s.announceExclusion f excluded).pl = s.pl ∧ (s.announceExclusion f excluded).es = s.es := by
  unfold State.announceExclusion
  dsimp only
  split
  · split <;> simp
  · simp

theorem LasersDark.setStu {s : State} (h : LasersDark s) (u : ScanUnit) : LasersDark (s.setStu u) :=
  h.same rfl rfl

theorem LasersDark.goodScan {s : State} (h : LasersDark s) (f : Fin 8) (tm : Nat) :
    LasersDark (s.goodScan f tm) := (h.setStu _).scanEnd f _

theorem LasersDark.badScan {s : State} (h : LasersDark s) (f : Fin 8) (o : ScanOutcome) :
    LasersDark (s.badScan f o) := by
  have ended : LasersDark ((s.setFacet f s.stu.facets[f].bad).scanEnd f o) := (h.setStu _).scanEnd f o
  exact ended.same (by simp [State.badScan]) (by simp [State.badScan])

theorem LasersDark.endMissed {s : State} (h : LasersDark s) : LasersDark s.endMissed := by
  unfold State.endMissed
  split
  · exact h
  · split
    · exact (h.setStu _).scanEnd _ _
    · exact ((h.setStu _).setStu _).badScan _ _

theorem LasersDark.advanceCounter {s : State} (h : LasersDark s) : LasersDark s.advanceCounter :=
  h.setStu _

theorem LasersDark.beginScan {s : State} (h : LasersDark s) : LasersDark s.beginScan :=
  h.same (by simp [State.beginScan]) (by simp [State.beginScan])

theorem LasersDark.runningSos {s : State} (h : LasersDark s) : LasersDark s.runningSos :=
  h.endMissed.advanceCounter.beginScan.trigger _

theorem LasersDark.acquiringSos {s : State} (h : LasersDark s) : LasersDark s.acquiringSos := by
  have triggered (period : Nat) := h.advanceCounter.trigger period
  unfold State.acquiringSos State.lockSpeed
  dsimp only
  split
  · exact (((triggered _).setStu _).setStu _).checkStarting.beginScan
  · exact (triggered _).setStu _

theorem State.takeSos_keepsDark : KeepsDark State.takeSos := by
  intro s h
  unfold State.takeSos
  cases s.stu.speed with
  | idle => exact h
  | acquiring => exact h.acquiringSos
  | running => exact h.runningSos

theorem State.takeEos_keepsDark : KeepsDark State.takeEos := by
  intro s h
  unfold State.takeEos
  split
  · split
    · exact h.same (by simp [State.strayEos]) (by simp [State.strayEos])
    · unfold State.endScan
      split
      · exact (h.setStu _).scanEnd _ _
      split
      · exact ((h.setStu _).setStu _).goodScan _ _
      · exact ((h.setStu _).setStu _).badScan _ _
  · exact h

theorem State.takeIndex_keepsDark : KeepsDark State.takeIndex := .of_lamps fun s => by
  unfold State.takeIndex State.correctSlip
  repeat' split
  all_goals simp

theorem State.takeWatchExpiry_keepsDark : KeepsDark State.takeWatchExpiry := by
  intro s h
  unfold State.takeWatchExpiry State.lossAtRun
  split
  · split <;> exact h.endMissed.same (by simp [State.countMissed]) (by simp [State.countMissed])
  · exact h

/-! ### The lasers (chapter 6) -/

/-- A channel that settles was not OFF, so that neither the interlock was open nor the engine dark (R94). -/
theorem State.settleChannel_keepsDark (c : Channel) : KeepsDark (·.settleChannel c) := by
  intro s h
  dsimp only [State.settleChannel]
  split
  next settling =>
    have notOff : ¬ s.allOff := by
      rintro ⟨hr, hg, hb⟩
      cases c <;> simp [PowerChannel.settling, Rgb.get, hr, hg, hb] at settling
    have settled (x : Rgb PowerChannel) : LasersDark (s.setChannels x) := fun mustBeOff =>
      absurd (h mustBeOff) notOff
    exact (settled _).checkStarting.checkPreparing
  · exact h

theorem PowerChannel.judge_laser (c : PowerChannel) (p : PowerParams) (target r : Nat) :
    (c.judge p target r).channel.laser = c.laser := by
  unfold PowerChannel.judge
  dsimp only
  repeat' split
  all_goals rfl

theorem ChannelSample.servo_laser (x : ChannelSample) (deadband target r : Nat) :
    (x.servo deadband target r).channel.laser = x.channel.laser := by
  unfold ChannelSample.servo ChannelSample.endBlock
  dsimp only
  repeat' split
  all_goals rfl

/-- A sample changes the state of no laser (R99). -/
theorem PowerChannel.sample_laser (c : PowerChannel) (p : PowerParams) (target r : Nat) :
    (c.sample p target r).channel.laser = c.laser := by
  unfold PowerChannel.sample
  split
  · rw [ChannelSample.servo_laser, PowerChannel.judge_laser]
  · rfl

theorem LasersDark.raise? {s : State} (h : LasersDark s) (f : Option FaultReport) :
    LasersDark (s.raise? f) := by
  cases f with
  | none => exact h
  | some f => exact h.same rfl rfl

theorem LasersDark.noticeAtLimit {s : State} (h : LasersDark s) (x : Rgb ChannelSample) :
    LasersDark (s.noticeAtLimit x) := by
  unfold State.noticeAtLimit
  split
  · exact h.same (by simp) (by simp)
  · exact h

theorem LasersDark.onClear {s : State} (h : LasersDark s) (cleared : Bool) :
    LasersDark (s.onClear cleared) := by
  unfold State.onClear
  split
  · split
    · exact h.lit (by simp [State.leavePaused]) (by simp [State.leavePaused, Engine.dark])
    · exact h.checkPreparing
  · exact h

theorem LasersDark.takeSample {s : State} (h : LasersDark s) (r : Rgb Nat) :
    LasersDark (s.takeSample r) := by
  unfold State.takeSample State.reportSample
  split
  · have sampled : LasersDark (s.setChannels ((s.pl.sample r).map (·.channel))) :=
      h.sameLasers rfl (by simp [Rgb.map, PowerLoop.sample, PowerChannel.sample_laser]) rfl
    exact (((sampled.raise? _).onClear _).noticeAtLimit _).raise? _
  · exact h

theorem State.openDoor_keepsDark : KeepsDark State.openDoor := by
  intro s _ _
  simpa [State.openDoor, State.allOff] using s.laserDisable_allOff

theorem State.closeDoor_keepsDark : KeepsDark State.closeDoor := by
  rintro s h (hi | hd)
  · simp [State.closeDoor] at hi
  · simpa [State.closeDoor, State.allOff] using h (.inr (by simpa [State.closeDoor] using hd))

/-! ### Timers, wheels and stage (chapter 7) -/

theorem State.expireStart_keepsDark : KeepsDark State.expireStart := .of_lamps fun s => by
  unfold State.expireStart
  split <;> simp

theorem State.expirePause_keepsDark : KeepsDark State.expirePause := .of_lamps fun s => by
  unfold State.expirePause
  split <;> simp

theorem State.polygonAtRest_keepsDark : KeepsDark State.polygonAtRest := by
  intro s h
  unfold State.polygonAtRest
  split
  next stopping => exact h.enterOffline stopping
  · exact h

theorem State.expireStop_keepsDark : KeepsDark State.expireStop := by
  intro s h
  unfold State.expireStop
  split
  next stopping => exact h.enterOffline stopping.1
  · exact h

theorem State.wheelArrived_keepsDark (c : Channel) : KeepsDark (·.wheelArrived c) := .of_lamps fun s => by
  dsimp only [State.wheelArrived]
  split <;> simp

theorem State.wheelExpired_keepsDark (c : Channel) : KeepsDark (·.wheelExpired c) := .of_lamps fun s => by
  dsimp only [State.wheelExpired]
  split <;> simp

theorem State.stageHomed_keepsDark : KeepsDark State.stageHomed := by
  intro s h
  unfold State.stageHomed
  split
  · exact LasersDark.checkStarting (h.same (by simp) (by simp))
  · exact h

theorem State.stageArrived_keepsDark : KeepsDark State.stageArrived := .of_lamps fun s => by
  unfold State.stageArrived
  dsimp only
  repeat' split
  all_goals simp

theorem State.stageExpired_keepsDark : KeepsDark State.stageExpired := .of_lamps fun s => by
  unfold State.stageExpired
  dsimp only
  repeat' split
  all_goals simp

/-! ### The film mechanisms (chapter 8) -/

@[simp] theorem State.failGate_lamps (s : State) (outcome : GateOutcome) (f : GateOp → FaultReport) :
    (s.failGate outcome f).pl = s.pl ∧ (s.failGate outcome f).es = s.es := by
  unfold State.failGate
  split <;> simp

theorem State.clampOpened_keepsDark : KeepsDark State.clampOpened := .of_lamps fun s => by
  unfold State.clampOpened
  split <;> simp

theorem State.perforation_keepsDark : KeepsDark State.perforation := .of_lamps fun s => by
  unfold State.perforation
  split <;> simp

theorem State.cycleEnded_keepsDark : KeepsDark State.cycleEnded := .of_lamps fun s => by
  unfold State.cycleEnded
  split
  · split <;> simp
  · simp

theorem State.clampClosed_keepsDark (filmPresent : Bool) : KeepsDark (·.clampClosed filmPresent) :=
  .of_lamps fun s => by
    dsimp only [State.clampClosed]
    split
    · split <;> simp
    · simp

theorem State.operationExpired_keepsDark : KeepsDark State.operationExpired := .of_lamps fun s => by
  unfold State.operationExpired
  split <;> simp

theorem LasersDark.countBlank {s : State} (h : LasersDark s) (b : BlankAdvance) :
    LasersDark (s.countBlank b) := by
  unfold State.countBlank State.endBlank
  dsimp only
  split
  · exact h.same (by simp) (by simp)
  · exact LasersDark.endAdvancing (h.same (by simp) (by simp))

theorem LasersDark.pulledDown {s : State} (h : LasersDark s) : LasersDark s.pulledDown := by
  unfold State.pulledDown
  split
  · split
    · exact h.endAdvancing
    · exact h.countBlank _
  · exact h.checkPreparing

theorem State.gateSettled_keepsDark : KeepsDark State.gateSettled := by
  intro s h
  unfold State.gateSettled
  split
  · split
    · exact h
    · exact LasersDark.pulledDown (h.same rfl rfl)
    · exact LasersDark.checkStarting (h.same rfl rfl)
  · exact h

theorem LasersDark.pauseIfTripped {s : State} (h : LasersDark s) : LasersDark s.pauseIfTripped := by
  unfold State.pauseIfTripped
  split
  · exact h.enterPaused
  · exact h

theorem LasersDark.beginExposing {s : State} (h : LasersDark s) : LasersDark s.beginExposing := by
  unfold State.beginExposing
  split
  · exact h
  split
  · exact h
  exact LasersDark.pauseIfTripped (h.lit (by simp) (by simp [Engine.dark]))

theorem State.shutterOpened_keepsDark : KeepsDark State.shutterOpened := by
  intro s h
  unfold State.shutterOpened
  dsimp only
  split
  · split
    · exact LasersDark.beginExposing (h.same rfl rfl)
    · exact h.same rfl rfl
  · exact h

theorem LasersDark.onClosed {s : State} (h : LasersDark s) : LasersDark s.onClosed := by
  unfold State.onClosed State.abortingClosed
  split
  · exact h.finishFrame
  · split
    · exact h.same (by simp) (by simp)
    · exact h.endAborting
  · exact h.checkPreparing

theorem State.shutterClosed_keepsDark : KeepsDark State.shutterClosed := by
  intro s h
  unfold State.shutterClosed
  split
  · exact LasersDark.onClosed (h.same rfl rfl)
  · exact h

theorem State.shutterExpired_keepsDark : KeepsDark State.shutterExpired := .of_lamps fun s => by
  unfold State.shutterExpired
  repeat' split
  all_goals simp

@[simp] theorem State.headFree_lamps (s : State) : s.headFree.pl = s.pl ∧ s.headFree.es = s.es := by
  unfold State.headFree
  split <;> simp

theorem LasersDark.onPrinted {s : State} (h : LasersDark s) (m : Mark) : LasersDark (s.onPrinted m) := by
  unfold State.onPrinted
  split
  · split
    · exact h.same rfl rfl
    · split
      · exact h.endAborting
      · exact h
  · exact h

theorem State.markDone_keepsDark : KeepsDark State.markDone := by
  intro s h
  unfold State.markDone
  split
  · exact h
  · exact LasersDark.onPrinted (h.same (by simp) (by simp)) _

end Sys2Proof.Machine
end

