-- ==== Sys2Proof/Proofs/LasersDark.lean ====
section
/-! PROOFS. R95 under every step: a command by its effect or its decision, and an idle step by the takes it makes. -/

namespace Sys2Proof.Machine

/-! ### The step -/

theorem lasersDark_execPowerOnReset {doorOpen : Bool} {s t : State}
    (e : execPowerOnReset doorOpen s = .next t) : LasersDark t := by
  obtain rfl := Host.Outcome.next.inj e
  exact fun _ => ⟨rfl, rfl, rfl⟩

theorem LasersDark.execLineRecord {s t : State} (h : LasersDark s) (e : execLineRecord s = .next t) :
    LasersDark t := by
  unfold Machine.execLineRecord at e
  split at e
  · split at e
    · obtain rfl := Host.Outcome.next.inj e
      have taken : LasersDark s.takeRecord := h.same (by simp) (by simp)
      exact (State.decideLine_keepsDark _ _ _ _ _ taken).concluded
    · cases e
  · obtain rfl := Host.Outcome.next.inj e
    exact h.concluded

theorem LasersDark.execSampleCompletion {s t : State} (h : LasersDark s) {r : Rgb Nat}
    (e : execSampleCompletion r s = .next t) : LasersDark t := by
  have settled : LasersDark (s.settledFor FaultKind.beforeSample) := h.settledFor _
  unfold Machine.execSampleCompletion at e
  dsimp only at e
  split at e
  · split at e
    · obtain rfl := Host.Outcome.next.inj e
      exact (settled.takeSample r).driveLine.concluded
    · cases e
  · obtain rfl := Host.Outcome.next.inj e
    exact settled.concluded

theorem LasersDark.execFaultTake {s t : State} (h : LasersDark s) (e : execFaultTake s = .next t) :
    LasersDark t := by
  obtain rfl := Host.Outcome.next.inj e
  exact h.takeOne fun _ f ht => ht.takeEvent f

theorem LasersDark.handOver {s : State} (h : LasersDark s) : LasersDark s.handOver :=
  h.same (by simp) (by simp)

theorem LasersDark.idle {s : State} (h : LasersDark s) : LasersDark s.idle :=
  (h.settledFor _).handOver.elapse 1

/-- Every command keeps R95: an event, a request by its owner's decision, or one of the few with a shape of
their own. -/
theorem LasersDark.exec {s t : State} (h : LasersDark s) (i : Instr) (e : exec i s = .next t) :
    LasersDark t := by
  cases i with
  | powerOnReset doorOpen => exact lasersDark_execPowerOnReset e
  | linkUp => exact State.bringUp_keepsDark.run h e
  | linkReset => exact State.resetLink_keepsDark.run h e
  | recordArrival bytes => exact (State.arrive_keepsDark bytes).run h e
  | droppedRecord => exact State.dropHead_keepsDark.run h e
  | unknownRecord => exact State.refuseHead_keepsDark.run h e
  | lineRecord => exact h.execLineRecord e
  | identify => exact (decideIdentify_keepsDark.onRequest _).run h e
  | status => exact (decideStatus_keepsDark.onRequest _).run h e
  | checkpoint => exact (decideCheckpoint_keepsDark.onRequest _).run h e
  | setParameter => exact (decideSetParameter_keepsDark.onRequest _).run h e
  | setNoticeMask => exact (decideSetNoticeMask_keepsDark.onRequest _).run h e
  | openFrame => exact (decideOpenFrame_keepsDark.onRequest _).run h e
  | closeFrame => exact (decideCloseFrame_keepsDark.onRequest _).run h e
  | discardFrame => exact (decideDiscardFrame_keepsDark.onRequest _).run h e
  | requeueFrame => exact (decideRequeueFrame_keepsDark.onRequest _).run h e
  | writeRule => exact (decideWriteRule_keepsDark.onRequest _).run h e
  | readRule => exact (decideReadRule_keepsDark.onRequest _).run h e
  | loadProfile => exact (decideLoadProfile_keepsDark.onRequest _).run h e
  | readProfile => exact (decideReadProfile_keepsDark.onRequest _).run h e
  | setRollTrim => exact (decideSetRollTrim_keepsDark.onRequest _).run h e
  | setFacetGains => exact (decideSetFacetGains_keepsDark.onRequest _).run h e
  | restoreFacets => exact (decideRestoreFacets_keepsDark.onRequest _).run h e
  | setFootage => exact (decideSetFootage_keepsDark.onRequest _).run h e
  | setFaultResponse => exact (decideSetFaultResponse_keepsDark.onRequest _).run h e
  | abortFrame => exact (decideAbortFrame_keepsDark.onRequest _).run h e
  | readLog => exact (decideReadLog_keepsDark.onRequestWhen _ _).run h e
  | readLogRepeat => exact (decideReadLogRepeat_keepsDark.onRequestWhen _ _).run h e
  | startEngine filmPresent => exact ((State.decideStart_keepsDark _ _ _).onRequest _).run h e
  | resumeEngine filmPresent => exact ((State.decideStart_keepsDark _ _ _).onRequest _).run h e
  | stopEngine => exact (decideStopEngine_keepsDark.onRequest _).run h e
  | resetEngine => exact (decideResetEngine_keepsDark.onRequest _).run h e
  | advanceFilm => exact (decideAdvanceFilm_keepsDark.onRequest _).run h e
  | queueTake => exact State.takeHeadSlot_keepsDark.run h e
  | sos ticks => exact (State.takeSos_keepsDark.afterTicks ticks).runAfter h e
  | eos ticks => exact (State.takeEos_keepsDark.afterTicks ticks).runAfter h e
  | indexPulse => exact State.takeIndex_keepsDark.run h e
  | sosWatchExpiry => exact State.takeWatchExpiry_keepsDark.runAfter h e
  | laserSettleExpiry channel => exact (State.settleChannel_keepsDark channel).runAfter h e
  | sampleCompletion readings => exact h.execSampleCompletion e
  | interlockOpening => exact State.openDoor_keepsDark.run h e
  | interlockClosing => exact State.closeDoor_keepsDark.run h e
  | startTimerExpiry => exact State.expireStart_keepsDark.run h e
  | polygonStopped => exact State.polygonAtRest_keepsDark.run h e
  | stopTimerExpiry => exact State.expireStop_keepsDark.run h e
  | wheelInPosition channel => exact (State.wheelArrived_keepsDark channel).run h e
  | wheelTimerExpiry channel => exact (State.wheelExpired_keepsDark channel).runAfter h e
  | stageHomeReport => exact State.stageHomed_keepsDark.runAfter h e
  | stageInPosition => exact State.stageArrived_keepsDark.run h e
  | stageTimerExpiry => exact State.stageExpired_keepsDark.run h e
  | pauseTimerExpiry => exact State.expirePause_keepsDark.run h e
  | clampOpenConfirmation => exact State.clampOpened_keepsDark.run h e
  | perforationEdge => exact State.perforation_keepsDark.run h e
  | cycleEnd => exact State.cycleEnded_keepsDark.run h e
  | clampClosedConfirmation filmPresent => exact (State.clampClosed_keepsDark filmPresent).run h e
  | gateSettleExpiry => exact State.gateSettled_keepsDark.runAfter h e
  | operationTimerExpiry => exact State.operationExpired_keepsDark.run h e
  | shutterOpenConfirmation => exact State.shutterOpened_keepsDark.run h e
  | shutterClosedConfirmation => exact State.shutterClosed_keepsDark.run h e
  | shutterTimerExpiry => exact State.shutterExpired_keepsDark.run h e
  | edgePrintDone => exact State.markDone_keepsDark.run h e
  | faultTake => exact h.execFaultTake e

/-- Settles O55: a step is a command or an idle step, and each keeps R95. -/
theorem lasersDarkKept : Obligations.LasersDarkKept := by
  intro s t h e
  unfold step at e
  split at e
  · obtain rfl := Host.Outcome.next.inj e
    exact h.idle
  next c rest _ =>
    have popped : LasersDark { s with pending := rest } := h
    exact popped.exec c e

end Sys2Proof.Machine
end

