-- ==== Sys2Proof/Proofs/Hand.lean ====
section
/-! PROOFS. What R182 and the rules beside it speak of, as one record: the phases of the slots, the queue, the frame,
the line and the blank advance in hand, and the reservation. Their agreement has two parts. One is of the Frame Store,
the latches and the roll log among themselves, and no entry of the engine touches it; the other ties them to the
engine state. -/

namespace Sys2Proof.Machine

/-- What the agreement of the frame in hand speaks of. -/
structure Hand where
  phase : Fin 4 → Option Phase
  queue : List (Fin 4)
  engine : Engine
  /-- the slot that the exposure record names -/
  slot : Option (Fin 4)
  /-- the facet of the line in progress -/
  line : Option (Fin 8)
  /-- the frame latch is full -/
  framed : Bool
  /-- the facet of the line latch -/
  lined : Option (Fin 8)
  /-- a blank advance is in flight -/
  blank : Bool
  reservation : Option Reservation
  records : Nat

def State.hand (s : State) : Hand where
  phase := s.phaseOf
  queue := s.fs.queue
  engine := s.es.engine
  slot := s.es.exposure.map (·.slot)
  line := s.es.lineInProgress
  framed := s.du.frameLatch.isSome
  lined := s.du.lineLatch.map (·.facet)
  blank := s.tc.blank.isSome
  reservation := s.rl.reservation
  records := s.rl.records.length

/-- The reservation of the frame or the blank run in hand (R182). -/
def Hand.due (h : Hand) : Option Reservation :=
  match h.slot with
  | some i => some (.frame i)
  | none => if h.blank then some .blank else none

/-- Occupancy plus reservations (R182). -/
def Hand.load (h : Hand) : Nat := h.records + if h.reservation.isSome then 1 else 0

/-- The slots, the queue, the latches and the roll log agree with the frame and the blank advance in hand. -/
structure Hand.Stored (h : Hand) : Prop where
  active : ∀ i, h.phase i = some .active ↔ h.slot = some i
  queued : ∀ i, i ∈ h.queue ↔ h.phase i = some .queued
  once : h.queue.Nodup
  alone : h.blank = true → h.slot = none
  reserved : h.reservation = h.due
  bound : h.load ≤ 64
  line : h.line.isSome = true → h.slot.isSome = true
  latched : h.framed = h.slot.isSome
  lineLatched : h.lined = h.line

/-- The frame, the blank advance and the line in hand agree with the engine state. -/
structure Hand.Placed (h : Hand) : Prop where
  present : h.slot.isSome = h.engine.holdsFrame
  blank : h.blank = true → h.engine = .advancing
  line : h.line.isSome = true → h.engine = .exposing

theorem inHand_iff (s : State) : InHand s ↔ s.hand.Stored ∧ s.hand.Placed := by
  have due : s.hand.due = match s.es.exposure with
      | some e => some (.frame e.slot)
      | none => if s.tc.blank.isSome then some .blank else none := by
    cases h : s.es.exposure <;> simp [Hand.due, State.hand, h]
  constructor
  · intro h
    refine ⟨⟨fun i => ?_, h.queued, h.once, fun blank => ?_, h.reserved.trans due.symm, h.bound, fun onLine => ?_,
      ?_, h.lineLatched⟩, ?_, h.blank, h.line⟩
    · simp [State.hand, h.active i]
    · have advancing : s.es.engine = .advancing := h.blank blank
      have absent : s.es.exposure = none := by simpa [advancing, Engine.holdsFrame] using h.present
      simp [State.hand, absent]
    · have exposing : s.es.engine = .exposing := h.line onLine
      simp [State.hand, h.present, exposing, Engine.holdsFrame]
    · simp [State.hand, h.latched]
    · simp [State.hand, h.present]
  · rintro ⟨stored, placed⟩
    refine ⟨?_, fun i => ?_, stored.queued, stored.once, placed.blank, stored.reserved.trans due, stored.bound,
      placed.line, ?_, stored.lineLatched⟩
    · simpa [State.hand] using placed.present
    · simpa [State.hand] using stored.active i
    · simpa [State.hand] using stored.latched

theorem InHand.stored {s : State} (h : InHand s) : s.hand.Stored := ((inHand_iff s).1 h).1

theorem InHand.placed {s : State} (h : InHand s) : s.hand.Placed := ((inHand_iff s).1 h).2

/-- All that the agreement speaks of is as before. -/
theorem InHand.same {s t : State} (h : InHand s) (same : t.hand = s.hand) : InHand t := by
  rw [inHand_iff] at *
  rwa [same]

/-! ### The parts of the hand, one change at a time -/

def Hand.enter (h : Hand) (e : Engine) : Hand := { h with engine := e }

/-- The line ends, counted or not. -/
def Hand.dropLine (h : Hand) : Hand := { h with line := none, lined := none }

/-- A line attempt begins on a facet (R129). -/
def Hand.beginLine (h : Hand) (f : Fin 8) : Hand := { h with line := some f, lined := some f }

def Hand.setPhase (h : Hand) (i : Fin 4) (p : Option Phase) : Hand :=
  { h with phase := Function.update h.phase i p }

/-- A slot that is not in hand takes another phase, and the queue is as given. -/
def Hand.move (h : Hand) (i : Fin 4) (p : Option Phase) (queue : List (Fin 4)) : Hand :=
  { h.setPhase i p with queue := queue }

/-- The frame in a slot is taken from the queue head (R18, R121). -/
def Hand.take (h : Hand) (i : Fin 4) (rest : List (Fin 4)) : Hand :=
  { h.setPhase i (some .active) with
    queue := rest, slot := some i, framed := true, reservation := some (.frame i) }

/-- ES's use of the active frame ends, with nothing said of its slot or of the reservation. -/
def Hand.dropFrame (h : Hand) : Hand := { h.dropLine with slot := none, framed := false }

/-- The reservation ends and the log holds the number of records given. -/
def Hand.log (h : Hand) (records : Nat) : Hand := { h with reservation := none, records := records }

/-- The frame in a slot returns to the queue head with no record (R22, R126). -/
def Hand.giveBack (h : Hand) (i : Fin 4) : Hand :=
  ((h.move i (some .queued) (i :: h.queue)).log h.records).dropFrame

/-- The frame in a slot ends with a record, and its slot takes the phase given, `none` for FREE (R20, R21). -/
def Hand.finish (h : Hand) (i : Fin 4) (p : Option Phase) : Hand :=
  ((h.setPhase i p).log (h.records + 1)).dropFrame

/-- A blank advance begins (R150). -/
def Hand.beginBlank (h : Hand) : Hand := { h with blank := true, reservation := some .blank }

def Hand.dropBlank (h : Hand) : Hand := { h with blank := false }

/-! ### The stored part under each change -/

namespace Hand.Stored

variable {h : Hand} {i : Fin 4}

theorem enter (k : h.Stored) (e : Engine) : (h.enter e).Stored :=
  ⟨k.active, k.queued, k.once, k.alone, k.reserved, k.bound, k.line, k.latched, k.lineLatched⟩

theorem dropLine (k : h.Stored) : h.dropLine.Stored :=
  ⟨k.active, k.queued, k.once, k.alone, k.reserved, k.bound, nofun, k.latched, rfl⟩

theorem beginLine (k : h.Stored) (f : Fin 8) (hs : h.slot.isSome = true) : (h.beginLine f).Stored :=
  ⟨k.active, k.queued, k.once, k.alone, k.reserved, k.bound, fun _ => hs, k.latched, rfl⟩

/-! Slots and the queue. -/

/-- A change of one slot's phase that gives or takes the frame in hand and the place in the queue with it. -/
theorem setPhase_slots (k : h.Stored) {p : Option Phase} {slot : Option (Fin 4)} {queue : List (Fin 4)}
    (gives : p = some .active ↔ slot = some i) (others : ∀ j, j ≠ i → (slot = some j ↔ h.slot = some j))
    (joins : i ∈ queue ↔ p = some .queued) (stay : ∀ j, j ≠ i → (j ∈ queue ↔ j ∈ h.queue)) (j : Fin 4) :
    ((h.setPhase i p).phase j = some .active ↔ slot = some j) ∧
      (j ∈ queue ↔ (h.setPhase i p).phase j = some .queued) := by
  by_cases at_i : j = i
  · subst at_i
    simpa [Hand.setPhase] using ⟨gives, joins⟩
  · simpa [Hand.setPhase, at_i, others j at_i, stay j at_i] using ⟨k.active j, k.queued j⟩

/-- A slot that is not in hand moves between FREE, FILLING, QUEUED and HELD, and the queue follows it. -/
theorem move (k : h.Stored) {p : Option Phase} {queue : List (Fin 4)} (was : h.phase i ≠ some .active)
    (becomes : p ≠ some .active) (joins : i ∈ queue ↔ p = some .queued)
    (stay : ∀ j, j ≠ i → (j ∈ queue ↔ j ∈ h.queue)) (once : queue.Nodup) : (h.move i p queue).Stored := by
  have other : h.slot ≠ some i := fun hi => was ((k.active i).2 hi)
  have slots := k.setPhase_slots (iff_of_false becomes other) (fun _ _ => Iff.rfl) joins stay
  exact ⟨fun j => (slots j).1, fun j => (slots j).2, once, k.alone, k.reserved, k.bound, k.line, k.latched,
    k.lineLatched⟩

/-- A phase that is neither ACTIVE nor QUEUED changes into another. -/
theorem setPhase (k : h.Stored) {p : Option Phase} (was : h.phase i ≠ some .active)
    (waits : h.phase i ≠ some .queued) (becomes : p ≠ some .active) (leaves : p ≠ some .queued) :
    (h.setPhase i p).Stored :=
  k.move was becomes (iff_of_false (fun hi => waits ((k.queued i).1 hi)) leaves) (fun _ _ => Iff.rfl) k.once

theorem not_mem_queue (k : h.Stored) (waits : h.phase i ≠ some .queued) : i ∉ h.queue := fun hi =>
  waits ((k.queued i).1 hi)

theorem joinTail (k : h.Stored) (was : h.phase i ≠ some .active) (waits : h.phase i ≠ some .queued) :
    (h.move i (some .queued) (h.queue ++ [i])).Stored :=
  k.move was (by simp) (by simp) (fun j hj => by simp [hj])
    (List.nodup_append.2 ⟨k.once, by simp, fun a ha b hb => by
      obtain rfl := List.mem_singleton.1 hb
      exact fun e => k.not_mem_queue waits (e ▸ ha)⟩)

theorem joinHead (k : h.Stored) (was : h.phase i ≠ some .active) (waits : h.phase i ≠ some .queued) :
    (h.move i (some .queued) (i :: h.queue)).Stored :=
  k.move was (by simp) (by simp) (fun j hj => by simp [hj])
    (List.nodup_cons.2 ⟨k.not_mem_queue waits, k.once⟩)

theorem leaveQueue (k : h.Stored) (was : h.phase i ≠ some .active) :
    (h.move i none (h.queue.filter (· ≠ i))).Stored :=
  k.move was (by simp) (by simp) (fun j hj => by simp [hj]) (k.once.filter _)

/-! The frame in hand. -/

/-- The log has room for the reservation and no frame or blank run is in hand: READY's take (R121). -/
theorem take (k : h.Stored) {rest : List (Fin 4)} (head : h.queue = i :: rest) (free : h.slot = none)
    (noBlank : h.blank = false) (room : h.records + 1 ≤ 64) : (h.take i rest).Stored := by
  obtain ⟨fresh, once⟩ := List.nodup_cons.1 (head ▸ k.once)
  have slots := k.setPhase_slots (i := i) (p := some .active) (slot := some i) (queue := rest) (by simp)
    (fun j hj => by simp [free, Ne.symm hj]) (by simp [fresh]) (fun j hj => by simp [head, hj])
  have noLine : h.line = none := by simpa [free] using k.line
  exact ⟨fun j => (slots j).1, fun j => (slots j).2, once,
    fun blank => absurd blank (by simp [Hand.take, Hand.setPhase, noBlank]), rfl, room, fun _ => rfl, rfl, k.lineLatched⟩

theorem room_of_slot (k : h.Stored) (hi : h.slot = some i) : h.records + 1 ≤ 64 := by
  have reserved : h.reservation = some (.frame i) := by rw [k.reserved, Hand.due, hi]
  simpa [Hand.load, reserved] using k.bound

theorem noBlank_of_slot (k : h.Stored) (hi : h.slot = some i) : h.blank = false := by
  cases blank : h.blank with
  | false => rfl
  | true => rw [k.alone blank] at hi; cases hi

/-- The frame in hand leaves it, and its reservation ends. -/
theorem letGo (k : h.Stored) (hi : h.slot = some i) {p : Option Phase} {queue : List (Fin 4)} {records : Nat}
    (becomes : p ≠ some .active) (joins : i ∈ queue ↔ p = some .queued)
    (stay : ∀ j, j ≠ i → (j ∈ queue ↔ j ∈ h.queue)) (once : queue.Nodup) (bound : records ≤ 64) :
    (((h.move i p queue).log records).dropFrame).Stored := by
  have slots := k.setPhase_slots (slot := none) (by simpa using becomes) (fun j hj => by simp [hi, Ne.symm hj])
    joins stay
  exact ⟨fun j => (slots j).1, fun j => (slots j).2, once, fun _ => rfl,
    by simp [Hand.log, Hand.dropFrame, Hand.dropLine, Hand.move, Hand.setPhase, Hand.due, k.noBlank_of_slot hi],
    bound, nofun, rfl, rfl⟩

theorem giveBack (k : h.Stored) (hi : h.slot = some i) : (h.giveBack i).Stored := by
  have active : h.phase i = some .active := (k.active i).2 hi
  have room := k.room_of_slot hi
  exact k.letGo hi (by simp) (by simp) (fun j hj => by simp [hj])
    (List.nodup_cons.2 ⟨k.not_mem_queue (by simp [active]), k.once⟩) (by omega)

theorem finish (k : h.Stored) (hi : h.slot = some i) {p : Option Phase} (becomes : p ≠ some .active)
    (leaves : p ≠ some .queued) : (h.finish i p).Stored := by
  have active : h.phase i = some .active := (k.active i).2 hi
  exact k.letGo hi becomes (iff_of_false (k.not_mem_queue (by simp [active])) leaves) (fun _ _ => Iff.rfl) k.once
    (k.room_of_slot hi)

/-! The blank advance and the log. -/

theorem beginBlank (k : h.Stored) (free : h.slot = none) (room : h.records + 1 ≤ 64) : h.beginBlank.Stored :=
  ⟨k.active, k.queued, k.once, fun _ => free, by simp [Hand.beginBlank, Hand.due, free], room, k.line, k.latched,
    k.lineLatched⟩

/-- A blank advance leaves the hand with its reservation, with a record or with none. -/
theorem endBlank (k : h.Stored) {records : Nat} (blank : h.blank = true) (bound : records ≤ 64) :
    (h.log records).dropBlank.Stored :=
  ⟨k.active, k.queued, k.once, nofun, by simp [Hand.log, Hand.dropBlank, Hand.due, k.alone blank], bound, k.line,
    k.latched, k.lineLatched⟩

/-- Records leave the log (R184). -/
theorem fewer (k : h.Stored) {records : Nat} (le : records ≤ h.records) :
    ({ h with records := records } : Hand).Stored :=
  ⟨k.active, k.queued, k.once, k.alone, k.reserved, (Nat.add_le_add_right le _).trans k.bound, k.line, k.latched,
    k.lineLatched⟩

end Hand.Stored
end Sys2Proof.Machine
end

