-- ==== Sys2Proof/Proofs/HandOps.lean ====
section
/-! PROOFS. What each shared operation does to the hand; most leave it as it is. -/

namespace Sys2Proof.Machine

/-! ### Operations that leave the hand as it is -/

theorem State.phaseOf_eq {s t : State} (fs : t.fs = s.fs) : t.phaseOf = s.phaseOf := by
  funext i
  rw [State.phaseOf, State.phaseOf, State.slot, State.slot, fs]

/-- The blocks that the hand is read from are as before. -/
theorem State.hand_eq {s t : State} (fs : t.fs = s.fs) (du : t.du = s.du) (es : t.es = s.es)
    (blank : t.tc.blank = s.tc.blank) (rl : t.rl = s.rl) : t.hand = s.hand := by
  simp only [State.hand, State.phaseOf_eq fs, fs, du, es, blank, rl]

@[simp] theorem State.command_hand (s : State) (c : MechanismCommand) : (s.command c).hand = s.hand := rfl
@[simp] theorem State.flush_hand (s : State) : s.flush.hand = s.hand := rfl
@[simp] theorem State.elapse_hand (s : State) (n : Nat) : (s.elapse n).hand = s.hand := rfl
@[simp] theorem State.setRefs_hand (s : State) (p : Fin 8) (f : Nat → Nat) : (s.setRefs p f).hand = s.hand := rfl
@[simp] theorem State.raise_hand (s : State) (f : FaultReport) : (s.raise f).hand = s.hand := rfl
@[simp] theorem State.setStu_hand (s : State) (u : ScanUnit) : (s.setStu u).hand = s.hand := rfl
@[simp] theorem State.setChannels_hand (s : State) (c : Rgb PowerChannel) : (s.setChannels c).hand = s.hand := rfl
@[simp] theorem State.setInterlock_hand (s : State) (o : Bool) : (s.setInterlock o).hand = s.hand := rfl
@[simp] theorem State.setInHand_hand (s : State) (r : Option FaultRecord) : (s.setInHand r).hand = s.hand := rfl
@[simp] theorem State.setPending_hand (s : State) (k : LongKind) (r : Option PendingReply) :
    (s.setPending k r).hand = s.hand := rfl
@[simp] theorem State.recordFault_hand (s : State) (r : FaultRecord) : (s.recordFault r).hand = s.hand := rfl
@[simp] theorem State.setStage_hand (s : State) (x : Stage) : (s.setStage x).hand = s.hand := rfl
@[simp] theorem State.setWheel_hand (s : State) (c : Channel) (w : Wheel) : (s.setWheel c w).hand = s.hand := rfl
@[simp] theorem State.stopStage_hand (s : State) : s.stopStage.hand = s.hand := rfl
@[simp] theorem State.stopEngineTimers_hand (s : State) : s.stopEngineTimers.hand = s.hand := rfl
@[simp] theorem State.returnStage_hand (s : State) : s.returnStage.hand = s.hand := rfl
@[simp] theorem State.homeStage_hand (s : State) : s.homeStage.hand = s.hand := rfl
@[simp] theorem State.enterTable_hand (s : State) (tag : Nat) (q : Request) : (s.enterTable tag q).hand = s.hand := rfl
@[simp] theorem State.assign_hand (s : State) (k : FaultKind) (r : Response) : (s.assign k r).hand = s.hand := rfl
@[simp] theorem State.polygonStop_hand (s : State) : s.polygonStop.hand = s.hand := rfl

/-- A write of ES that leaves the engine state, the frame and the line as they are. -/
@[simp] theorem State.setEs_hand {s : State} {e : Sequencer} (engine : e.engine = s.es.engine)
    (exposure : e.exposure = s.es.exposure) (line : e.lineInProgress = s.es.lineInProgress) :
    (s.setEs e).hand = s.hand := by
  simp [State.hand, State.phaseOf_eq (s.setEs_fs e), engine, exposure, line]

@[simp] theorem State.polygonRun_hand (s : State) : s.polygonRun.hand = s.hand :=
  State.hand_eq (by simp) (by simp) (by simp) (by simp) (by simp)

@[simp] theorem State.laserEnable_hand (s : State) : s.laserEnable.hand = s.hand :=
  State.hand_eq (by simp) (by simp) (by simp) (by simp) (by simp)

@[simp] theorem State.laserDisable_hand (s : State) : s.laserDisable.hand = s.hand :=
  State.hand_eq (by simp) (by simp) (by simp) (by simp) (by simp)

@[simp] theorem State.trigger_hand (s : State) (p : Nat) : (s.trigger p).hand = s.hand :=
  State.hand_eq (by simp) (by simp) (by simp) (by simp) (by simp)

@[simp] theorem State.notice_hand (s : State) (p : NoticePayload) : (s.notice p).hand = s.hand :=
  State.hand_eq (by simp) (by simp) (by simp) (by simp) (by simp)

@[simp] theorem State.answer_hand (s : State) (tag : Option Nat) (q : Request) (a : Answer) :
    (s.answer tag q a).hand = s.hand :=
  State.hand_eq (by simp) (by simp) (by simp) (by simp) (by simp)

@[simp] theorem State.refuse_hand (s : State) (tag : Option Nat) (q : Request) (reason : Reason) (field : Nat)
    (d : ReplyData) : (s.refuse tag q reason field d).hand = s.hand := by simp [State.refuse]

@[simp] theorem State.done_hand (s : State) (tag : Option Nat) (q : Request) (d : ReplyData) :
    (s.done tag q d).hand = s.hand := by simp [State.done]

@[simp] theorem State.refuseIntake_hand (s : State) (tag code : Nat) (reason : Reason) :
    (s.refuseIntake tag code reason).hand = s.hand := by
  unfold State.refuseIntake State.stage
  split <;> rfl

@[simp] theorem State.takeRecord_hand (s : State) : s.takeRecord.hand = s.hand :=
  State.hand_eq (by simp) (by simp) (by simp) (by simp) (by simp)

@[simp] theorem State.handOver_hand (s : State) : s.handOver.hand = s.hand :=
  State.hand_eq (by simp) (by simp) (by simp) (by simp) (by simp)

@[simp] theorem State.announceLog_hand (s : State) : s.announceLog.hand = s.hand :=
  State.hand_eq (by simp) (by simp) (by simp) (by simp) (by simp)

@[simp] theorem State.announceFault_hand (s : State) (r : FaultRecord) : (s.announceFault r).hand = s.hand :=
  State.hand_eq (by simp) (by simp) (by simp) (by simp) (by simp)

@[simp] theorem State.endReply_hand (s : State) (k : LongKind) (a : Answer) : (s.endReply k a).hand = s.hand := by
  unfold State.endReply
  split <;> simp

@[simp] theorem State.failReply_hand (s : State) (k : LongKind) (reason : Reason) (n : Nat) :
    (s.failReply k reason n).hand = s.hand := s.endReply_hand k _

@[simp] theorem State.setMask_hand (s : State) (m : Nat) : (s.setMask m).hand = s.hand := by
  have release (l : List (Fin 11 × Nat)) (t : State) :
      (l.foldl (fun t e => t.releaseEntry e.1 e.2) t).hand = t.hand := by
    induction l generalizing t with
    | nil => rfl
    | cons e l ih =>
      obtain ⟨n, o, released⟩ := t.releaseEntry_form e.1 e.2
      have left : (t.releaseEntry e.1 e.2).hand = t.hand := by rw [released]; rfl
      exact (ih _).trans left
  unfold State.setMask
  dsimp only
  split
  · exact release _ _
  · rfl

@[simp] theorem State.stopGate_hand (s : State) : s.stopGate.hand = s.hand := by
  unfold State.stopGate
  split <;> rfl

@[simp] theorem State.pullDown_hand (s : State) : s.pullDown.hand = s.hand := by
  unfold State.pullDown
  repeat' split
  all_goals rfl

@[simp] theorem State.clampGate_hand (s : State) : s.clampGate.hand = s.hand := by
  unfold State.clampGate
  repeat' split
  all_goals rfl

@[simp] theorem State.closeShutter_hand (s : State) : s.closeShutter.hand = s.hand := by
  unfold State.closeShutter
  split <;> rfl

@[simp] theorem State.openShutter_hand (s : State) : s.openShutter.hand = s.hand := by
  unfold State.openShutter
  split <;> rfl

@[simp] theorem State.print_hand (s : State) (m : Mark) : (s.print m).hand = s.hand := by
  unfold State.print
  split <;> rfl

@[simp] theorem State.stopWheels_hand (s : State) : s.stopWheels.hand = s.hand := by
  have stop (t : State) (c : Channel) : (t.commandWheelStop c).hand = t.hand :=
    State.hand_eq (by simp) (by simp) (by simp) (by simp) (by simp)
  calc s.stopWheels.hand
      = (((s.commandWheelStop .red).commandWheelStop .green).commandWheelStop .blue).hand := rfl
    _ = s.hand := by simp only [stop]

@[simp] theorem State.stopMechanisms_hand (s : State) : s.stopMechanisms.hand = s.hand := by
  simp [State.stopMechanisms]

@[simp] theorem State.checkPreparing_hand (s : State) : s.checkPreparing.hand = s.hand := by
  unfold State.checkPreparing
  split <;> simp

@[simp] theorem State.deferHalt_hand (s : State) (r : FaultRecord) : (s.deferHalt r).hand = s.hand := by
  unfold State.deferHalt
  split <;> rfl

@[simp] theorem State.driveLine_hand (s : State) : s.driveLine.hand = s.hand := by
  unfold State.driveLine
  split <;> rfl

@[simp] theorem State.driveAfter_hand (s : State) (f : FaultReport) : (s.driveAfter f).hand = s.hand := by
  unfold State.driveAfter
  split <;> simp

/-! ### Operations that change the hand -/

@[simp] theorem State.setEngine_hand (s : State) (e : Engine) (c : Option FaultKind) :
    (s.setEngine e c).hand = s.hand.enter e := by
  unfold State.setEngine State.holdBeam
  rw [State.notice_hand]
  split <;> rfl

@[simp] theorem State.dropLine_hand (s : State) : s.dropLine.hand = s.hand.dropLine := rfl

@[simp] theorem State.dropExposure_hand (s : State) : s.dropExposure.hand = s.hand.dropFrame := rfl

@[simp] theorem State.release_hand (s : State) : s.release.hand = s.hand.log s.hand.records := rfl

@[simp] theorem State.append_hand (s : State) (f : Footage) (b : LogBody) :
    (s.append f b).hand = s.hand.log (s.hand.records + 1) := by
  have length : (s.rl.append f b).records.length = s.rl.records.length + 1 := List.length_append
  rw [State.append, State.announceLog_hand]
  simp only [State.hand, length]
  rfl

@[simp] theorem State.dropBlank_hand (s : State) : s.dropBlank.hand = s.hand.dropBlank := rfl

@[simp] theorem State.setSlot_hand (s : State) (i : Fin 4) (r : Option SlotRecord) :
    (s.setSlot i r).hand = s.hand.setPhase i (r.map (·.phase)) := by
  have phases : (s.setSlot i r).phaseOf = Function.update s.phaseOf i (r.map (·.phase)) := by
    funext j
    by_cases at_i : j = i
    · subst at_i
      simp [State.phaseOf, State.slot, State.setSlot]
    · have apart : i.val ≠ j.val := fun e => at_i (Fin.ext e.symm)
      simp [State.phaseOf, State.slot, State.setSlot, at_i, apart]
  simp only [State.hand, phases]
  rfl

@[simp] theorem State.setQueue_hand (s : State) (q : List (Fin 4)) :
    (s.setQueue q).hand = { s.hand with queue := q } := rfl

theorem State.setPhase_hand {s : State} {i : Fin 4} {r : SlotRecord} (here : s.slot i = some r) (p : Phase) :
    (s.setPhase i p).hand = s.hand.setPhase i (some p) := by
  simp [State.setPhase, here]

theorem State.freeSlot_hand {s : State} {i : Fin 4} {r : SlotRecord} (here : s.slot i = some r) :
    (s.freeSlot i).hand = s.hand.setPhase i none := by
  simp [State.freeSlot, here]

theorem State.joinTail_hand {s : State} {i : Fin 4} {r : SlotRecord} (here : s.slot i = some r) :
    (s.joinTail i).hand = s.hand.move i (some .queued) (s.hand.queue ++ [i]) := by
  rw [State.joinTail, State.setQueue_hand, State.setPhase_hand here]
  rfl

theorem State.joinHead_hand {s : State} {i : Fin 4} {r : SlotRecord} (here : s.slot i = some r) :
    (s.joinHead i).hand = s.hand.move i (some .queued) (i :: s.hand.queue) := by
  rw [State.joinHead, State.setQueue_hand, State.setPhase_hand here]
  rfl

/-! ### The frame in hand -/

theorem State.hand_slot {s : State} {e : ExposureRecord} (h : s.es.exposure = some e) :
    s.hand.slot = some e.slot := by simp [State.hand, h]

/-- The frame in hand has a slot. -/
theorem State.slot_in_hand {s : State} (k : s.hand.Stored) {e : ExposureRecord} (h : s.es.exposure = some e) :
    ∃ r, s.slot e.slot = some r := by
  have active : s.phaseOf e.slot = some .active := (k.active _).2 (State.hand_slot h)
  obtain ⟨r, here, -⟩ := Option.map_eq_some_iff.1 active
  exact ⟨r, here⟩

end Sys2Proof.Machine
end

