-- ==== Sys2Proof/Proofs/HandEntries.lean ====
section
/-! PROOFS. The frame in hand under the engine's entries and under the take of a fault. -/

namespace Sys2Proof.Machine

/-! ### What may be in hand at an entry -/

/-- Neither a frame nor a blank advance is in hand. -/
structure Hand.Free (h : Hand) : Prop where
  stored : h.Stored
  slot : h.slot = none
  blank : h.blank = false

/-- The hand as the end of a frame or of a blank advance may find it: in agreement, or with a blank advance whose
reservation has ended before it, as a failed pull-down leaves it until its fault is taken (R143, R152). -/
def Hand.Ending (h : Hand) : Prop := h.Stored ∨ h.slot = none ∧ h.dropBlank.Stored

theorem Hand.dropBlank_of_none {h : Hand} (noBlank : h.blank = false) : h.dropBlank = h := by
  cases h
  simp_all [Hand.dropBlank]

theorem Hand.Ending.free {h : Hand} (k : h.Ending) (slot : h.slot = none) (noBlank : h.blank = false) : h.Free := by
  refine ⟨?_, slot, noBlank⟩
  rcases k with stored | ⟨-, dropped⟩
  · exact stored
  · rwa [Hand.dropBlank_of_none noBlank] at dropped

/-- With nothing in hand the engine may enter any state that has no slot ACTIVE. -/
theorem Hand.Free.entered {s t : State} (k : s.hand.Free) {e : Engine} (holds : e.holdsFrame = false)
    (entry : t.hand = s.hand.enter e) : InHand t := by
  obtain ⟨stored, slot, noBlank⟩ := k
  rw [inHand_iff, entry]
  refine ⟨stored.enter e, by simp [Hand.enter, slot, holds], by simp [Hand.enter, noBlank], fun onLine => ?_⟩
  have := stored.line onLine
  simp [slot] at this

/-- With a frame in hand and no line in progress the engine may enter any state with a slot ACTIVE. -/
theorem Hand.Stored.entered {h : Hand} (k : h.Stored) {t : State} {e : Engine} (slot : h.slot.isSome = true)
    (holds : e.holdsFrame = true) (line : h.line.isSome = true → e = .exposing) (entry : t.hand = h.enter e) :
    InHand t := by
  rw [inHand_iff, entry]
  refine ⟨k.enter e, by simp [Hand.enter, slot, holds], fun blank => ?_, line⟩
  have := k.alone blank
  simp [this] at slot

theorem InHand.free {s : State} (h : InHand s) (noFrame : s.es.engine.holdsFrame = false)
    (notAdvancing : s.es.engine ≠ .advancing) : s.hand.Free := by
  refine ⟨h.stored, ?_, ?_⟩
  · have present : s.hand.slot.isSome = s.es.engine.holdsFrame := h.placed.present
    simpa [noFrame] using present
  · exact Bool.eq_false_iff.2 fun blank => notAdvancing (h.placed.blank blank)

theorem InHand.slot_isSome {s : State} (h : InHand s) (holds : s.es.engine.holdsFrame = true) :
    s.hand.slot.isSome = true := h.placed.present.trans holds

theorem InHand.noLine {s : State} (h : InHand s) (engine : s.es.engine ≠ .exposing) : s.hand.line = none := by
  cases onLine : s.hand.line with
  | none => rfl
  | some f => exact absurd (h.placed.line (by simp [onLine])) engine

/-! ### The entries -/

theorem State.enterOffline_hand (s : State) : s.enterOffline.hand = s.hand.enter .offline := by
  simp [State.enterOffline]

theorem State.enterStopping_hand (s : State) : s.enterStopping.hand = s.hand.enter .stopping := by
  simp [State.enterStopping]

theorem State.enterReady_hand (s : State) : s.enterReady.hand = s.hand.enter .ready := by
  unfold State.enterReady
  dsimp only
  split <;> simp

theorem State.enterStarting_hand (s : State) : s.enterStarting.hand = s.hand.enter .starting := by
  simp [State.enterStarting]

theorem State.enterFinishing_hand (s : State) : s.enterFinishing.hand = s.hand.enter .finishing := by
  simp [State.enterFinishing]

theorem State.enterPaused_hand (s : State) : s.enterPaused.hand = s.hand.dropLine.enter .paused := by
  simp [State.enterPaused]

theorem State.enterAborting_hand (s : State) (r : FaultRecord) :
    (s.enterAborting r).hand = s.hand.dropLine.enter .aborting := by
  simp [State.enterAborting]

theorem Hand.Free.enterStopping {s : State} (k : s.hand.Free) : InHand s.enterStopping :=
  k.entered rfl s.enterStopping_hand

theorem Hand.Free.enterReady {s : State} (k : s.hand.Free) : InHand s.enterReady :=
  k.entered rfl s.enterReady_hand

theorem InHand.enterPaused {s : State} (h : InHand s) (exposing : s.es.engine = .exposing) :
    InHand s.enterPaused :=
  h.stored.dropLine.entered (h.slot_isSome (by rw [exposing]; rfl)) rfl nofun s.enterPaused_hand

theorem InHand.enterAborting {s : State} (h : InHand s) (lit : s.es.engine = .exposing ∨ s.es.engine = .paused)
    (r : FaultRecord) : InHand (s.enterAborting r) :=
  h.stored.dropLine.entered (h.slot_isSome (by rcases lit with e | e <;> rw [e] <;> rfl)) rfl nofun
    (s.enterAborting_hand r)

/-! ### The ends of a frame and of a blank advance -/

/-- A frame that ends leaves the hand, and leaves a blank advance as it was. -/
theorem State.returnFrame_ending {s : State} (k : s.hand.Ending) :
    s.returnFrame.hand.Ending ∧ s.returnFrame.hand.slot = none ∧ s.returnFrame.hand.blank = s.hand.blank := by
  unfold State.returnFrame
  split
  next absent => exact ⟨k, by simp [State.hand, absent], rfl⟩
  next e present =>
    have slot := State.hand_slot present
    obtain stored | ⟨absent, -⟩ := k
    · obtain ⟨r, here⟩ := State.slot_in_hand stored present
      have back : ((s.joinHead e.slot).release).dropExposure.hand = s.hand.giveBack e.slot := by
        rw [State.dropExposure_hand, State.release_hand, State.joinHead_hand here]
        rfl
      rw [back]
      exact ⟨.inl (stored.giveBack slot), rfl, rfl⟩
    · rw [slot] at absent
      cases absent

theorem State.spoilFrame_ending {s : State} (k : s.hand.Ending) (c : Cause) :
    (s.spoilFrame c).hand.Ending ∧ (s.spoilFrame c).hand.slot = none ∧
      (s.spoilFrame c).hand.blank = s.hand.blank := by
  unfold State.spoilFrame
  split
  next absent => exact ⟨k, by simp [State.hand, absent], rfl⟩
  next e present =>
    have slot := State.hand_slot present
    obtain stored | ⟨absent, -⟩ := k
    · obtain ⟨r, here⟩ := State.slot_in_hand stored present
      have stays (t : State) (fs : t.fs = s.fs) : t.slot e.slot = some r := by rw [State.slot, fs]; exact here
      have held : ((((s.append s.tc.footage (.spoiled (s.frameEntry e r) c)).setPhase e.slot .held).dropExposure).notice
          (.frameSpoiled e.slot r.key r.openSeq c e.exposed
            (s.append s.tc.footage (.spoiled (s.frameEntry e r) c)).rl.lastSeq)).hand =
            s.hand.finish e.slot (some .held) := by
        rw [State.notice_hand, State.dropExposure_hand, State.setPhase_hand (stays _ (by simp)), State.append_hand]
        rfl
      simp only [here, held]
      exact ⟨.inl (stored.finish slot (by simp) (by simp)), rfl, rfl⟩
    · rw [slot] at absent
      cases absent

theorem State.endFrameLocked_ending {s : State} (k : s.hand.Ending) (c : Cause) :
    (s.endFrameLocked c).hand.Ending ∧ (s.endFrameLocked c).hand.slot = none := by
  unfold State.endFrameLocked
  split
  · obtain ⟨ending, slot, -⟩ := State.returnFrame_ending k
    exact ⟨ending, slot⟩
  · obtain ⟨ending, slot, -⟩ := State.spoilFrame_ending k c
    exact ⟨ending, slot⟩

/-- A log that has reserved a place takes one more record. -/
theorem Hand.Stored.room {h : Hand} (k : h.Stored) {r : Reservation} (reserved : h.reservation = some r) :
    h.records + 1 ≤ 64 := by simpa [Hand.load, reserved] using k.bound

/-- The log's part of an early end: nothing without a blank run's reservation, and otherwise its end, with at most one
record more (R152). -/
theorem State.closeBlank_cases (s : State) :
    s.closeBlank.hand = s.hand ∧ ¬ (s.hand.blank = true ∧ s.hand.reservation = some .blank) ∨
      (s.hand.blank = true ∧ s.hand.reservation = some .blank) ∧
        ∃ n, n ≤ s.hand.records + 1 ∧ s.closeBlank.hand = s.hand.log n := by
  unfold State.closeBlank
  split
  next absent => exact .inl ⟨rfl, by simp [State.hand, absent]⟩
  next b present =>
    have blank : s.hand.blank = true := by simp [State.hand, present]
    split
    next reserved =>
      refine .inr ⟨⟨blank, reserved⟩, ?_⟩
      split
      · exact ⟨_, Nat.le_refl _, s.append_hand _ _⟩
      · exact ⟨_, Nat.le_succ _, s.release_hand⟩
    next ended => exact .inl ⟨rfl, fun both => ended both.2⟩

/-- A blank advance that ends leaves the hand with its reservation, if that still stands (R152). -/
theorem State.endBlankEarly_free {s : State} (k : s.hand.Ending) (slot : s.hand.slot = none) :
    s.endBlankEarly.hand.Free := by
  unfold State.endBlankEarly
  rw [State.dropBlank_hand]
  rcases s.closeBlank_cases with ⟨same, notReserved⟩ | ⟨⟨blank, reserved⟩, n, le, logged⟩
  · rw [same]
    refine ⟨?_, slot, rfl⟩
    obtain stored | ⟨-, dropped⟩ := k
    · have noBlank : s.hand.blank = false := Bool.eq_false_iff.2 fun blank =>
        notReserved ⟨blank, by rw [stored.reserved, Hand.due, slot]; simp [blank]⟩
      rwa [Hand.dropBlank_of_none noBlank]
    · exact dropped
  · rw [logged]
    obtain stored | ⟨-, dropped⟩ := k
    · exact ⟨stored.endBlank blank (le.trans (stored.room reserved)), slot, rfl⟩
    · have released : s.hand.reservation = none := by simpa [Hand.due, Hand.dropBlank, slot] using dropped.reserved
      rw [released] at reserved
      cases reserved

theorem Hand.Ending.enterHalted {s : State} (k : s.hand.Ending) (r : FaultRecord) : InHand (s.enterHalted r) := by
  obtain ⟨returned, slot, -⟩ := State.returnFrame_ending (s := s.stopMechanisms) (by rwa [State.stopMechanisms_hand])
  exact (State.endBlankEarly_free returned slot).entered (e := .halted) rfl (by simp [State.enterHalted])

theorem Hand.Ending.enterLocked {s : State} (k : s.hand.Ending) (r : FaultRecord) :
    InHand (s.enterLocked r) := by
  let stopped := s.stopMechanisms.setEs
    { s.stopMechanisms.es with stopTimer := none, stopPending := false, deferredHalt := none }
  have same : stopped.hand = s.hand := by simp [stopped]
  obtain ⟨ended, slot⟩ := State.endFrameLocked_ending (s := stopped) (by rwa [same]) (.fault r.report.kind)
  refine (State.endBlankEarly_free ended slot).entered (e := .locked) rfl ?_
  unfold State.enterLocked
  rw [State.notice_hand]
  have paired (t : State) (u : FaultUnit) : ({ t with fu := u } : State).hand = t.hand := rfl
  exact (paired _ _).trans (by simp [stopped])

theorem InHand.endAborting {s : State} (h : InHand s) (aborting : s.es.engine = .aborting) :
    InHand s.endAborting := by
  have noBlank : s.hand.blank = false := Bool.eq_false_iff.2 fun blank => by
    have := h.placed.blank blank
    simp [State.hand, aborting] at this
  unfold State.endAborting
  split
  · exact h
  next r _ =>
    obtain ⟨ended, slot, blank⟩ := State.spoilFrame_ending (.inl h.stored) (.fault r.report.kind)
    have free := ended.free slot (blank.trans noBlank)
    dsimp only
    split
    · split
      · exact free.enterStopping
      split
      · exact ended.enterHalted r
      · exact free.enterReady
    · exact ended.enterHalted r

theorem Hand.Free.endAdvancing {s : State} (k : s.hand.Free) : InHand s.endAdvancing := by
  unfold State.endAdvancing
  split
  · exact Hand.Ending.enterHalted (.inl k.stored) _
  · split
    · exact k.enterStopping
    · exact k.enterReady

/-! ### The take of a fault (Table 9-2) -/

theorem FaultKind.lateApplied_cases (k : FaultKind) :
    k.lateApplied = .halt ∨ k.lateApplied = .defer ∨ k.lateApplied = .notice := by
  cases k <;> decide

/-- The table applies PAUSE in EXPOSING only, and ABORT there and in PAUSED. -/
theorem appliedByTable_lit (e : Engine) (a : Response) (k : FaultKind) :
    (appliedByTable e a k = .pause → e = .exposing) ∧
      (appliedByTable e a k = .abort → e = .exposing ∨ e = .paused) := by
  rcases k.lateApplied_cases with late | late | late <;> cases e <;> cases a <;> simp [appliedByTable, late]

/-- A close failure is applied as LOCK or RECORD, and any other fault by the table (R170). -/
theorem responseApplied_cases (e : Engine) (a : Response) (f : FaultReport) :
    f = .shutter .closing ∧ (responseApplied e a f = .record ∧ e = .locked ∨ responseApplied e a f = .lock) ∨
      responseApplied e a f = appliedByTable e a f.kind := by
  unfold responseApplied
  split
  · split
    next locked => exact .inl ⟨rfl, .inl ⟨rfl, locked⟩⟩
    · exact .inl ⟨rfl, .inr rfl⟩
  · exact .inr rfl

/-- A fault is applied as PAUSE in EXPOSING only, and as ABORT there and in PAUSED (Table 9-2, R170). -/
theorem State.faultRecord_applied (s : State) (f : FaultReport) :
    ((s.faultRecord f).applied = .pause → s.es.engine = .exposing) ∧
      ((s.faultRecord f).applied = .abort → s.es.engine = .exposing ∨ s.es.engine = .paused) := by
  have applied : (s.faultRecord f).applied = responseApplied s.es.engine (s.assigned f.kind) f := rfl
  rw [applied]
  rcases responseApplied_cases s.es.engine (s.assigned f.kind) f with ⟨-, ⟨x, -⟩ | x⟩ | x <;> rw [x]
  · exact ⟨nofun, nofun⟩
  · exact ⟨nofun, nofun⟩
  · exact appliedByTable_lit _ _ _

/-- A fault recorded and announced, before ES is directed (R159). -/
def State.announced (s : State) (f : FaultReport) : State :=
  (s.recordFault (s.faultRecord f)).announceFault (s.faultRecord f)

theorem State.takeFault_eq (s : State) (f : FaultReport) : s.takeFault f = (s.announced f).direct (s.faultRecord f) :=
  rfl

@[simp] theorem State.announced_hand (s : State) (f : FaultReport) : (s.announced f).hand = s.hand := by
  simp [State.announced]

@[simp] theorem State.announced_es (s : State) (f : FaultReport) : (s.announced f).es = s.es := by
  simp [State.announced]

theorem InHand.takeFault {s : State} (h : InHand s) (f : FaultReport) : InHand (s.takeFault f) := by
  obtain ⟨pause, abort⟩ := s.faultRecord_applied f
  have told : InHand (s.announced f) := h.same (by simp)
  have ending : (s.announced f).hand.Ending := .inl told.stored
  rw [State.takeFault_eq]
  unfold State.direct
  split
  · exact told
  · exact told
  next x => exact told.enterPaused (by simpa using pause x)
  next x => exact told.enterAborting (by simpa using abort x) _
  · unfold State.applyHalt
    split
    next lit => exact told.enterAborting (by rw [State.announced_es]; exact lit) _
    · exact ending.enterHalted _
  · exact told.same (by simp)
  · exact ending.enterLocked _
  · exact told

theorem InHand.takeEvent {s : State} (h : InHand s) (f : FaultReport) : InHand (s.takeEvent f) :=
  (h.takeFault f).same (by simp [State.takeEvent])

theorem InHand.takeInTurn {s : State} (h : InHand s) (f : FaultReport) : InHand (s.takeInTurn f) := by
  unfold State.takeInTurn
  split
  · exact h.takeEvent f
  · exact InHand.takeEvent (h.same s.flush_hand) f

theorem InHand.takeOne {s : State} (h : InHand s) {take : State → FaultReport → State}
    (takes : ∀ t f, InHand t → InHand (take t f)) : InHand (s.takeOne take) := by
  rcases s.takeOne_cases take with ⟨-, same⟩ | ⟨f, -, one⟩
  · rwa [same]
  · rw [one]
    exact takes _ f (h.same rfl)

theorem InHand.taking {must : FaultKind → Bool} {take : State → FaultReport → State}
    (takes : ∀ t f, InHand t → InHand (take t f)) (n : Nat) {s : State} (h : InHand s) :
    InHand (State.taking must take n s) := by
  induction n generalizing s with
  | zero => exact h
  | succ n ih =>
    unfold State.taking
    split
    · exact ih (h.takeOne takes)
    · exact h

theorem InHand.settledFor {s : State} (h : InHand s) (must : FaultKind → Bool) : InHand (s.settledFor must) :=
  .taking (fun _ f ht => ht.takeEvent f) _ h

theorem InHand.concluded {s : State} (h : InHand s) : InHand s.concluded :=
  InHand.same (.taking (fun _ f ht => ht.takeInTurn f) _ h) (State.flush_hand _)

/-! ### A failed pull-down of a blank advance (R143, R152)

The failure ends the reservation of the blank run, and the take of its fault ends the blank advance. Between the two
the hand does not agree; the fault waits to be taken on the same event, so it agrees again when the event is over. -/

/-- The kinds a failed gate operation raises. -/
def FaultKind.ofGate : FaultKind → Bool
  | .transport => true
  | .filmEnd => true
  | _ => false

theorem FaultKind.takenAtOnce_of_gate {k : FaultKind} (h : k.ofGate = true) : k.takenAtOnce = true := by
  cases k <;> simp_all [FaultKind.ofGate, FaultKind.takenAtOnce]

/-- ADVANCING with the blank run's reservation ended before its blank advance, under the response that ends it. -/
structure BlankUnreserved (s : State) : Prop where
  engine : s.es.engine = .advancing
  slot : s.hand.slot = none
  dropped : s.hand.dropBlank.Stored
  halts : ∀ k : FaultKind, k.ofGate = true → s.assigned k = .halt

/-- The same with the gate's fault, which ends the blank advance, not yet taken. -/
structure BlankFailed (s : State) : Prop where
  unreserved : BlankUnreserved s
  waits : ∃ f ∈ s.fu.raised, f.kind.ofGate = true

theorem BlankUnreserved.same {s t : State} (k : BlankUnreserved s) (hand : t.hand = s.hand)
    (responses : t.fu.responses = s.fu.responses) : BlankUnreserved t where
  engine := (congrArg Hand.engine hand).trans k.engine
  slot := (congrArg Hand.slot hand).trans k.slot
  dropped := hand ▸ k.dropped
  halts x gate := by simpa only [State.assigned, responses] using k.halts x gate

/-- In ADVANCING a fault halts, locks, or leaves the engine where it is. -/
theorem responseApplied_advancing (a : Response) (f : FaultReport) :
    responseApplied .advancing a f = .lock ∨ responseApplied .advancing a f = .halt ∨
      responseApplied .advancing a f = .notice ∨ responseApplied .advancing a f = .defer := by
  rcases responseApplied_cases .advancing a f with ⟨-, ⟨-, e⟩ | x⟩ | x
  · cases e
  · exact .inl x
  · rw [x]
    rcases f.kind.lateApplied_cases with late | late | late <;> cases a <;> simp [appliedByTable, late]

/-- A gate failure under the response HALT halts in ADVANCING. -/
theorem responseApplied_gate {f : FaultReport} (gate : f.kind.ofGate = true) :
    responseApplied .advancing .halt f = .halt := by
  cases f <;> simp_all [FaultReport.kind, FaultKind.ofGate, responseApplied, appliedByTable, FaultKind.lateApplied]

/-- A fault taken between the two brings the hand into agreement, or is another than the one that waits. -/
theorem BlankUnreserved.takeFault {s : State} (k : BlankUnreserved s) (f : FaultReport) :
    InHand (s.takeFault f) ∨
      f.kind.ofGate = false ∧ BlankUnreserved (s.takeFault f) ∧ (s.takeFault f).fu.raised = s.fu.raised := by
  have ending : (s.announced f).hand.Ending := .inr (by simpa using ⟨k.slot, k.dropped⟩)
  have raised : (s.announced f).fu.raised = s.fu.raised := by simp [State.announced, State.recordFault]
  have told : BlankUnreserved (s.announced f) := k.same (by simp) (by simp [State.announced, State.recordFault])
  have applied : (s.faultRecord f).applied = responseApplied .advancing (s.assigned f.kind) f := by
    rw [← k.engine]; rfl
  have other (x : responseApplied .advancing (s.assigned f.kind) f ≠ .halt) : f.kind.ofGate = false := by
    refine Bool.eq_false_iff.2 fun gate => x ?_
    rw [k.halts _ gate]
    exact responseApplied_gate gate
  rw [State.takeFault_eq]
  unfold State.direct
  rcases responseApplied_advancing (s.assigned f.kind) f with x | x | x | x <;> rw [applied, x]
  · exact .inl (ending.enterLocked _)
  · have dark : ¬ (s.es.engine = .exposing ∨ s.es.engine = .paused) := by simp [k.engine]
    exact .inl (by simpa only [State.applyHalt, State.faultRecord, dark, if_false] using ending.enterHalted _)
  · exact .inr ⟨other (by simp [x]), told, raised⟩
  · have deferred : ((s.announced f).deferHalt (s.faultRecord f)).fu = (s.announced f).fu := by
      unfold State.deferHalt
      split <;> rfl
    exact .inr ⟨other (by simp [x]), told.same (by simp) (by rw [deferred]), by rw [deferred]; exact raised⟩

theorem BlankUnreserved.takeEvent {s : State} (k : BlankUnreserved s) (f : FaultReport) :
    InHand (s.takeEvent f) ∨
      f.kind.ofGate = false ∧ BlankUnreserved (s.takeEvent f) ∧ (s.takeEvent f).fu.raised = s.fu.raised := by
  have hand : (s.takeEvent f).hand = (s.takeFault f).hand := by simp [State.takeEvent]
  have fu : (s.takeEvent f).fu = (s.takeFault f).fu := by
    unfold State.takeEvent State.driveAfter State.driveLine
    split
    · split <;> rfl
    · rfl
  rcases k.takeFault f with agrees | ⟨other, stays, raised⟩
  · exact .inl (agrees.same hand)
  · exact .inr ⟨other, stays.same hand (by rw [fu]), by rw [fu]; exact raised⟩

theorem BlankUnreserved.takeInTurn {s : State} (k : BlankUnreserved s) (f : FaultReport) :
    InHand (s.takeInTurn f) ∨
      f.kind.ofGate = false ∧ BlankUnreserved (s.takeInTurn f) ∧ (s.takeInTurn f).fu.raised = s.fu.raised := by
  have flushed : BlankUnreserved s.flush := k.same s.flush_hand rfl
  unfold State.takeInTurn
  split
  · exact k.takeEvent f
  · exact flushed.takeEvent f

/-- One fault taken brings the hand into agreement, or leaves fewer with the gate's among them. -/
theorem BlankFailed.takeOne {s : State} (k : BlankFailed s) : InHand (s.takeOne State.takeInTurn) ∨
    BlankFailed (s.takeOne State.takeInTurn) ∧
      (s.takeOne State.takeInTurn).fu.raised.length < s.fu.raised.length := by
  obtain ⟨unreserved, g, waits, gate⟩ := k
  rcases s.takeOne_cases State.takeInTurn with ⟨empty, -⟩ | ⟨f, chosen, one⟩
  · rw [empty] at waits
    cases waits
  · have chosenLeft : BlankUnreserved ((s.setRaised (s.fu.raised.erase f)).setChoices
        (countChoice s.fu.choices s.fu.raised)) := unreserved.same rfl rfl
    rw [one]
    rcases chosenLeft.takeInTurn f with agrees | ⟨other, stays, raised⟩
    · exact .inl agrees
    · have apart : g ≠ f := fun e => by rw [e, other] at gate; cases gate
      have shorter : (s.fu.raised.erase f).length < s.fu.raised.length := by
        rw [List.length_erase_of_mem (chooseFault_mem chosen).1]
        exact Nat.sub_lt (List.length_pos_of_mem waits) Nat.one_pos
      refine .inr ⟨⟨stays, g, ?_, gate⟩, ?_⟩
      · rw [raised]
        exact (List.mem_erase_of_ne apart).2 waits
      · rw [raised]
        exact shorter

/-- The gate's fault is due on its event, and ends the blank advance. -/
theorem BlankFailed.taking (n : Nat) {s : State} (k : BlankFailed s) (enough : s.fu.raised.length ≤ n) :
    InHand (State.taking FaultKind.takenAtOnce State.takeInTurn n s) := by
  obtain ⟨f, waits, gate⟩ := k.waits
  induction n generalizing s f with
  | zero =>
    have := List.length_pos_of_mem waits
    omega
  | succ n ih =>
    have due : s.fu.raised.any (FaultKind.takenAtOnce ·.kind) = true :=
      List.any_eq_true.2 ⟨f, waits, FaultKind.takenAtOnce_of_gate gate⟩
    rw [State.taking, if_pos due]
    rcases k.takeOne with agrees | ⟨failed, fewer⟩
    · exact .taking (fun _ f ht => ht.takeInTurn f) n agrees
    · obtain ⟨f, waits, gate⟩ := failed.waits
      exact ih failed (by omega) f waits gate

theorem BlankFailed.concluded {s : State} (k : BlankFailed s) : InHand s.concluded :=
  (k.taking _ (Nat.le_refl _)).same (State.flush_hand _)

/-! ### Commands -/

/-- An effect that keeps the frame in hand in agreement. -/
def KeepsInHand (effect : State → State) : Prop := ∀ s, InHand s → InHand (effect s)

theorem KeepsInHand.of_hand {effect : State → State} (same : ∀ s, (effect s).hand = s.hand) : KeepsInHand effect :=
  fun s h => h.same (same s)

theorem KeepsInHand.run {effect : State → State} (keeps : KeepsInHand effect) {s t : State} (h : InHand s)
    (e : Machine.run s effect = .next t) : InHand t := by
  obtain rfl := Host.Outcome.next.inj e
  exact (keeps s h).concluded

theorem KeepsInHand.runAfter {must : FaultKind → Bool} {effect : State → State} (keeps : KeepsInHand effect)
    {s t : State} (h : InHand s) (e : Machine.runAfter must s effect = .next t) : InHand t :=
  keeps.run (h.settledFor must) e

end Sys2Proof.Machine
end

