-- ==== Sys2Proof/Proofs/HandRequests.lean ====
section
/-! PROOFS. The frame in hand under every request: most leave the hand as it is, the Frame Store's move one slot that
is not in hand, and those that direct the engine go by its entries. -/

namespace Sys2Proof.Machine

/-! ### The intake of a request -/

/-- A decision that keeps the frame in hand in agreement, whatever its request carries. -/
def Decision.KeepsInHand (owner : Decision) : Prop := ∀ tag p, Machine.KeepsInHand (owner · tag p)

theorem InHand.refuse {s : State} (h : InHand s) {tag : Option Nat} {q : Request} {reason : Reason} {field : Nat}
    {d : ReplyData} : InHand (s.refuse tag q reason field d) := h.same (s.refuse_hand ..)

theorem InHand.done {s : State} (h : InHand s) {tag : Option Nat} {q : Request} {d : ReplyData} :
    InHand (s.done tag q d) := h.same (s.done_hand ..)

theorem InHand.handToOwner {owner : Decision} (keeps : owner.KeepsInHand) {s : State} (h : InHand s)
    (tag : Option Nat) (q : Request) (p : List Byte) : InHand (s.handToOwner tag q p owner) := by
  unfold State.handToOwner
  split
  · exact h.refuse
  · exact keeps tag p s h

theorem InHand.takeRequest {owner : Decision} (keeps : owner.KeepsInHand) {s : State} (h : InHand s) (tag : Nat)
    (q : Request) (p : List Byte) : InHand (s.takeRequest tag q p owner) := by
  have taken : InHand s.takeRecord := h.same s.takeRecord_hand
  unfold State.takeRequest
  dsimp only
  split
  · exact taken.handToOwner keeps _ q p
  split
  · exact taken.same (State.refuseIntake_hand ..)
  · exact InHand.handToOwner keeps (taken.same (State.enterTable_hand ..)) _ q p

theorem Decision.KeepsInHand.onRequestWhen {owner : Decision} (keeps : owner.KeepsInHand) (q : Request)
    (test : List Byte → Bool) : Machine.KeepsInHand (·.onRequestWhen q test owner) := by
  intro s h
  dsimp only [State.onRequestWhen]
  split
  · split
    · exact h.takeRequest keeps _ q _
    · exact h
  · exact h

theorem Decision.KeepsInHand.onRequest {owner : Decision} (keeps : owner.KeepsInHand) (q : Request) :
    Machine.KeepsInHand (·.onRequest q owner) := keeps.onRequestWhen q _

/-! ### Requests that leave the hand as it is -/

theorem decideIdentify_keepsInHand : Decision.KeepsInHand decideIdentify := fun _ _ =>
  .of_hand fun s => s.done_hand ..

theorem decideStatus_keepsInHand : Decision.KeepsInHand decideStatus := fun _ _ =>
  .of_hand fun s => s.done_hand ..

theorem decideCheckpoint_keepsInHand : Decision.KeepsInHand decideCheckpoint := fun _ _ =>
  .of_hand fun _ => State.done_hand ..

theorem decideSetNoticeMask_keepsInHand : Decision.KeepsInHand decideSetNoticeMask := fun tag p =>
  .of_hand fun s => by
    dsimp only [decideSetNoticeMask]
    split <;> simp

theorem decideSetRollTrim_keepsInHand : Decision.KeepsInHand decideSetRollTrim := fun _ _ =>
  .of_hand fun _ => State.answer_hand ..

theorem decideReadLogRepeat_keepsInHand : Decision.KeepsInHand decideReadLogRepeat := fun _ _ =>
  .of_hand fun s => s.done_hand ..

theorem decideReadRule_keepsInHand : Decision.KeepsInHand decideReadRule := fun tag p =>
  .of_hand fun s => by
    dsimp only [decideReadRule]
    split <;> simp

theorem decideReadProfile_keepsInHand : Decision.KeepsInHand decideReadProfile := fun tag p =>
  .of_hand fun s => by
    dsimp only [decideReadProfile]
    split <;> simp

theorem decideSetFacetGains_keepsInHand : Decision.KeepsInHand decideSetFacetGains := fun tag p =>
  .of_hand fun s => by
    dsimp only [decideSetFacetGains]
    repeat' split
    all_goals simp

theorem decideRestoreFacets_keepsInHand : Decision.KeepsInHand decideRestoreFacets := fun tag p =>
  .of_hand fun s => by
    dsimp only [decideRestoreFacets, State.noticeRestored]
    repeat' split
    all_goals simp

theorem decideSetFootage_keepsInHand : Decision.KeepsInHand decideSetFootage := fun tag p =>
  .of_hand fun s => by
    dsimp only [decideSetFootage]
    split
    · simp
    split
    · simp
    split
    · simp
    · exact State.done_hand ..

theorem decideSetFaultResponse_keepsInHand : Decision.KeepsInHand decideSetFaultResponse := fun tag p =>
  .of_hand fun s => by
    dsimp only [decideSetFaultResponse]
    repeat' split
    all_goals simp

theorem State.setRule_hand (s : State) (i : Fin 32) (r : Rule) : (s.setRule i r).hand = s.hand := rfl

theorem State.setProfile_hand (s : State) (i : Fin 8) (q : Profile) : (s.setProfile i q).hand = s.hand := rfl

theorem decideWriteRule_keepsInHand : Decision.KeepsInHand decideWriteRule := fun tag p =>
  .of_hand fun s => by
    dsimp only [decideWriteRule, State.writeRule]
    repeat' split
    all_goals simp [State.setRule_hand]

theorem decideLoadProfile_keepsInHand : Decision.KeepsInHand decideLoadProfile := fun tag p =>
  .of_hand fun s => by
    dsimp only [decideLoadProfile, State.loadProfile]
    repeat' split
    all_goals simp [State.setProfile_hand]

theorem decideAbortFrame_keepsInHand : Decision.KeepsInHand decideAbortFrame := fun tag p =>
  .of_hand fun s => by
    dsimp only [decideAbortFrame]
    repeat' split
    all_goals simp

theorem State.setParameter_hand (s : State) (p : Parameter) (v : Nat) : (s.setParameter p v).hand = s.hand := by
  cases p <;> rfl

theorem decideSetParameter_keepsInHand : Decision.KeepsInHand decideSetParameter := fun tag p =>
  .of_hand fun s => by
    dsimp only [decideSetParameter, State.decideParameter]
    repeat' split
    all_goals simp [State.setParameter_hand]

/-! ### Reading the log -/

/-- The records a Read Log takes leave the log (R184). -/
theorem decideReadLog_keepsInHand : Decision.KeepsInHand decideReadLog := by
  intro tag p s h
  dsimp only [decideReadLog]
  split
  · exact h.refuse
  split
  · exact h.refuse
  refine InHand.done ?_
  rw [inHand_iff]
  have fewer : (s.rl.records.drop (byteAt p 0)).length ≤ s.hand.records := by simp [State.hand]
  exact ⟨h.stored.fewer fewer, h.placed.present, h.placed.blank, h.placed.line⟩

/-! ### The Frame Store's requests -/

theorem State.phase_of_slot {s : State} {i : Fin 4} {r : SlotRecord} (here : s.slot i = some r) :
    s.hand.phase i = some r.phase := by simp [State.hand, State.phaseOf, here]

/-- A slot out of the hand has moved, and nothing else has. -/
theorem InHand.moved {s t : State} (h : InHand s) {i : Fin 4} {p : Option Phase} {queue : List (Fin 4)}
    (stored : (s.hand.move i p queue).Stored) (move : t.hand = s.hand.move i p queue) : InHand t := by
  rw [inHand_iff, move]
  exact ⟨stored, h.placed.present, h.placed.blank, h.placed.line⟩

theorem InHand.openUnder {s : State} (h : InHand s) (tag : Option Nat) (key : Key) (width height : Nat)
    (i : Fin 32) : InHand (s.openUnder tag key width height i) := by
  unfold State.openUnder
  dsimp only
  split
  · exact h.refuse
  split
  · exact h.refuse
  next slot found =>
    have free : s.hand.phase slot = none := by
      have isFree := List.find?_some found
      simpa [State.hand, State.phaseOf] using isFree
    refine InHand.done ?_
    exact h.moved (i := slot) (p := some .filling) (queue := s.hand.queue)
      (h.stored.setPhase (by simp [free]) (by simp [free]) (by simp) (by simp)) (by
        rw [State.fillSlot, State.setRefs_hand, State.setSlot_hand]
        rfl)

theorem decideOpenFrame_keepsInHand : Decision.KeepsInHand decideOpenFrame := by
  intro tag p s h
  dsimp only [decideOpenFrame, State.openFrame]
  split
  · exact h.refuse
  split
  · exact h.refuse
  split
  · exact h.refuse
  · exact h.openUnder ..

/-- The common checks of Close, Discard and Requeue Frame refuse, or leave it to the request's own (R12). -/
theorem InHand.addressSlot {s : State} (h : InHand s) (tag : Option Nat) (q : Request) (p : List Byte)
    {own : Fin 4 → State} (owns : ∀ i, InHand (own i)) : InHand (s.addressSlot tag q p own) := by
  unfold State.addressSlot
  split
  · exact h.refuse
  split
  · exact h.refuse
  split
  · exact h.refuse
  exact owns _

theorem InHand.closeSlot {s : State} (h : InHand s) (tag : Option Nat) (i : Fin 4) :
    InHand (s.closeSlot tag i) := by
  unfold State.closeSlot
  split
  · exact h.refuse
  next r here =>
    split
    · exact h.refuse
    next filling =>
      split
      · exact h.refuse
      have phase : s.hand.phase i = some .filling := by simpa [State.phase_of_slot here] using filling
      exact InHand.done
        (h.moved (h.stored.joinTail (by simp [phase]) (by simp [phase])) (State.joinTail_hand here))

theorem decideCloseFrame_keepsInHand : Decision.KeepsInHand decideCloseFrame := fun tag p _ h =>
  h.addressSlot tag _ p fun i => h.closeSlot tag i

theorem InHand.requeueSlot {s : State} (h : InHand s) (tag : Option Nat) (i : Fin 4) :
    InHand (s.requeueSlot tag i) := by
  unfold State.requeueSlot
  split
  · exact h.refuse
  next r here =>
    split
    next held =>
      have phase : s.hand.phase i = some .held := by rw [State.phase_of_slot here, held]
      exact InHand.done
        (h.moved (h.stored.joinHead (by simp [phase]) (by simp [phase])) (State.joinHead_hand here))
    · exact h.refuse

theorem decideRequeueFrame_keepsInHand : Decision.KeepsInHand decideRequeueFrame := fun tag p _ h =>
  h.addressSlot tag _ p fun i => h.requeueSlot tag i

theorem State.noticeEmptied_hand (s : State) : s.noticeEmptied.hand = s.hand := by
  unfold State.noticeEmptied
  split <;> simp

/-- A FILLING or HELD slot becomes FREE. -/
theorem InHand.freeSlot {s : State} (h : InHand s) {i : Fin 4} {r : SlotRecord} (here : s.slot i = some r)
    (was : r.phase ≠ .active) (waits : r.phase ≠ .queued) : InHand (s.freeSlot i) :=
  h.moved (i := i) (p := none) (queue := s.hand.queue)
    (h.stored.setPhase (by simpa [State.phase_of_slot here] using was)
      (by simpa [State.phase_of_slot here] using waits) (by simp) (by simp)) (State.freeSlot_hand here)

theorem InHand.discardSlot {s : State} (h : InHand s) (tag : Option Nat) (i : Fin 4) :
    InHand (s.discardSlot tag i) := by
  unfold State.discardSlot
  split
  · exact h.refuse
  next r here =>
    cases phase : r.phase with
    | filling => exact InHand.done (h.freeSlot here (by simp [phase]) (by simp [phase]))
    | queued =>
      have was : s.hand.phase i ≠ some .active := by simp [State.phase_of_slot here, phase]
      have left : ((s.freeSlot i).leaveQueue i).noticeEmptied.hand =
          s.hand.move i none (s.hand.queue.filter (· ≠ i)) := by
        rw [State.noticeEmptied_hand, State.leaveQueue, State.setQueue_hand, State.freeSlot_hand here]
        simp [State.freeSlot, here, State.hand, Hand.move, Hand.setPhase, State.setSlot]
      exact InHand.done (h.moved (h.stored.leaveQueue was) left)
    | active => exact h.refuse
    | held => exact InHand.done (h.freeSlot here (by simp [phase]) (by simp [phase]))

theorem decideDiscardFrame_keepsInHand : Decision.KeepsInHand decideDiscardFrame := fun tag p _ h =>
  h.addressSlot tag _ p fun i => h.discardSlot tag i

/-! ### Requests that direct the engine -/

theorem decideStart_keepsInHand (q : Request) (from_ : Engine) (filmPresent : Bool)
    (noFrame : from_.holdsFrame = false) (notAdvancing : from_ ≠ .advancing) :
    Decision.KeepsInHand (fun s tag _ => s.decideStart tag q from_ filmPresent) := by
  intro tag p s h
  dsimp only [State.decideStart]
  split
  · exact h.refuse
  next accepts =>
    have engine : s.es.engine = from_ := by simp only [not_or, not_not] at accepts; exact accepts.1
    split
    · exact h.refuse
    · exact (h.free (engine ▸ noFrame) (engine ▸ notAdvancing)).entered (e := .starting) rfl
        (State.enterStarting_hand _)

/-- A stop at once is of an engine with nothing in hand (R118). -/
theorem decideStopEngine_keepsInHand : Decision.KeepsInHand decideStopEngine := by
  intro tag p s h
  dsimp only [decideStopEngine]
  split
  · exact h.refuse
  split
  · exact h.same rfl
  next now =>
    have free : s.hand.Free := h.free
      (by cases engine : s.es.engine <;> simp_all [Engine.stopsLater, Engine.holdsFrame])
      (fun engine => now (by rw [engine]; rfl))
    have stops : InHand (s.setPending .stop (some ⟨.stopEngine, tag⟩)).enterStopping :=
      Hand.Free.enterStopping (s.setPending_hand .stop _ ▸ free)
    split
    · exact stops.same (State.failReply_hand ..)
    · exact stops

/-- A Reset Engine ends the frame or the blank advance in hand, whichever there is (R120). -/
theorem State.endInHand_free {s : State} (h : InHand s) : s.endInHand.hand.Free := by
  have ending : s.hand.Ending := .inl h.stored
  have noBlank (engine : s.es.engine ≠ .advancing) : s.hand.blank = false :=
    Bool.eq_false_iff.2 fun blank => engine (h.placed.blank blank)
  have spoiled (engine : s.es.engine ≠ .advancing) : (s.spoilFrame .reset).hand.Free := by
    obtain ⟨ended, slot, blank⟩ := State.spoilFrame_ending ending .reset
    exact ended.free slot (blank.trans (noBlank engine))
  unfold State.endInHand
  split
  next engine =>
    obtain ⟨ended, slot, blank⟩ := State.returnFrame_ending ending
    exact ended.free slot (blank.trans (noBlank (by simp [engine])))
  next engine => exact spoiled (by simp [engine])
  next engine => exact spoiled (by simp [engine])
  next engine => exact spoiled (by simp [engine])
  next engine => exact spoiled (by simp [engine])
  next engine =>
    have present : s.hand.slot.isSome = s.es.engine.holdsFrame := h.placed.present
    exact State.endBlankEarly_free ending (by simpa [engine, Engine.holdsFrame] using present)
  next preparing exposing paused finishing aborting advancing =>
    exact h.free (by cases engine : s.es.engine <;> simp_all [Engine.holdsFrame]) advancing

theorem Hand.Free.resetToStopping {s : State} (k : s.hand.Free) : InHand s.resetToStopping := by
  unfold State.resetToStopping
  split
  next stopping => exact k.entered (e := .stopping) rfl (by rw [← stopping]; rfl)
  · exact k.enterStopping

theorem decideResetEngine_keepsInHand : Decision.KeepsInHand decideResetEngine := fun tag p s h =>
  Hand.Free.resetToStopping (State.endInHand_free
    (h.same (by simp [State.clearFlags, State.abandonReplies, State.resetMechanisms])))

/-- The log has room for one more record with nothing in hand. -/
theorem Hand.Free.room {h : Hand} (k : h.Free) (room : h.load < 64) : h.records + 1 ≤ 64 := by
  have released : h.reservation = none := by rw [k.stored.reserved, Hand.due, k.slot]; simp [k.blank]
  simpa [Hand.load, released] using room

theorem decideAdvanceFilm_keepsInHand : Decision.KeepsInHand decideAdvanceFilm := by
  intro tag p s h
  dsimp only [decideAdvanceFilm]
  split
  · exact h.refuse
  next room =>
    split
    · exact h.refuse
    split
    · exact h.refuse
    next accepts =>
      have ready : s.es.engine = .ready := by simp only [not_or, not_not] at accepts; exact accepts.1
      have free : s.hand.Free := h.free (by rw [ready]; rfl) (by simp [ready])
      have stored := free.stored.beginBlank free.slot (free.room (Nat.lt_of_not_le room))
      have begun : (s.beginBlank tag (byteAt p 0)).hand = s.hand.beginBlank.enter .advancing := by
        rw [State.beginBlank, State.pullDown_hand, State.setEngine_hand]
        rfl
      rw [inHand_iff, begun]
      refine ⟨stored.enter _, by simp [Hand.enter, Hand.beginBlank, free.slot, Engine.holdsFrame], fun _ => rfl,
        fun onLine => ?_⟩
      have := free.stored.line onLine
      simp [free.slot] at this

end Sys2Proof.Machine
end

