-- ==== Sys2Proof/Proofs/HandEvents.lean ====
section
/-! PROOFS. The frame in hand under the events of the link, the scan, the lasers, the timers and the film mechanisms. -/

namespace Sys2Proof.Machine

/-! ### The link and line records -/

theorem State.bringUp_keepsInHand : KeepsInHand State.bringUp := .of_hand fun s => by
  unfold State.bringUp
  split
  · rfl
  · exact State.notice_hand ..

theorem State.resetLink_keepsInHand : KeepsInHand State.resetLink := .of_hand fun s => by
  unfold State.resetLink
  split
  · exact State.notice_hand ..
  · rfl

theorem State.arrive_keepsInHand (bytes : List Byte) : KeepsInHand (·.arrive bytes) := .of_hand fun s => by
  dsimp only [State.arrive]
  repeat' split
  all_goals rfl

theorem State.dropHead_keepsInHand : KeepsInHand State.dropHead := .of_hand fun s => by
  unfold State.dropHead
  split
  · exact s.takeRecord_hand
  · rfl

theorem State.refuseHead_keepsInHand : KeepsInHand State.refuseHead := .of_hand fun s => by
  unfold State.refuseHead
  split <;> simp

/-- A line stored leaves its slot in its phase (R11). -/
theorem State.storeLine_hand (s : State) (i : Fin 4) (line : Nat) (words : List Byte) :
    (s.storeLine i line words).hand = s.hand := by
  unfold State.storeLine
  split
  · rfl
  next r here =>
    have phase : (r.mark line).phase = r.phase := by
      unfold SlotRecord.mark
      split <;> rfl
    calc _ = (s.setSlot i (some (r.mark line))).hand := rfl
      _ = s.hand.setPhase i (some r.phase) := by rw [State.setSlot_hand, Option.map_some, phase]
      _ = s.hand := by
        rw [← State.phase_of_slot here, Hand.setPhase, Function.update_eq_self]

theorem State.decideLine_keepsInHand (slot line count : Nat) (words : List Byte) :
    KeepsInHand (·.decideLine slot line count words) := .of_hand fun s => by
  dsimp only [State.decideLine]
  split
  · rfl
  · split
    · rfl
    · exact s.storeLine_hand ..

/-! ### The take of the queue head (R121) -/

theorem State.aimWheels_hand (s : State) (targets : Rgb Nat) : (s.aimWheels targets).hand = s.hand := by
  have aim (t : State) (c : Channel) (target : Nat) : (t.aimWheel c target).hand = t.hand := by
    unfold State.aimWheel
    split <;> rfl
  simp only [State.aimWheels, aim]

theorem State.freshFilm_hand (s : State) : s.freshFilm.hand = s.hand := by
  unfold State.freshFilm
  split <;> simp

theorem State.bringStage_hand (s : State) : s.bringStage.hand = s.hand := by
  unfold State.bringStage
  repeat' split
  all_goals rfl

theorem State.takeSlot_hand {s : State} {i : Fin 4} {r : SlotRecord} (here : s.slot i = some r)
    (rest : List (Fin 4)) : (s.takeSlot i rest r).hand = (s.hand.take i rest).enter .preparing := by
  have active : ((s.setQueue rest).setPhase i .active).hand =
      { s.hand with queue := rest, phase := Function.update s.hand.phase i (some .active) } :=
    State.setPhase_hand (s := s.setQueue rest) here .active
  simp only [State.takeSlot, State.checkPreparing_hand, State.bringStage_hand, State.freshFilm_hand,
    State.aimWheels_hand, State.setEngine_hand]
  calc _ = ({ ((s.setQueue rest).setPhase i .active).hand with
        slot := some i, framed := true, reservation := some (.frame i) } : Hand).enter .preparing := rfl
    _ = _ := by rw [active]; rfl

theorem State.takeHeadSlot_keepsInHand : KeepsInHand State.takeHeadSlot := by
  intro s h
  unfold State.takeHeadSlot
  split
  · exact h
  next i rest head =>
    split
    · exact h
    next r here =>
      split
      next takes =>
        simp only [State.takes, Bool.and_eq_true, beq_iff_eq] at takes
        obtain ⟨⟨ready, room⟩, -⟩ := takes
        have free : s.hand.Free := h.free (by rw [ready]; rfl) (by simp [ready])
        have stored := free.stored.take head free.slot free.blank (free.room (of_decide_eq_true room))
        have noLine : s.hand.line = none := h.noLine (by simp [ready])
        exact stored.entered rfl rfl (fun onLine => by simp [Hand.take, Hand.setPhase, noLine] at onLine)
          (State.takeSlot_hand here rest)
      · exact h

/-! ### The scan (chapter 5) -/

theorem KeepsInHand.afterTicks {effect : State → State} (keeps : KeepsInHand effect) (ticks : Nat) :
    KeepsInHand (fun s => effect (s.elapse ticks)) := fun _ h => keeps _ (h.same rfl)

theorem InHand.setStu {s : State} (h : InHand s) (u : ScanUnit) : InHand (s.setStu u) := h.same rfl

theorem InHand.scanBegin {s : State} (h : InHand s) (f : Fin 8) : InHand (s.scanBegin f) := by
  unfold State.scanBegin
  split
  next starts =>
    have exposing : s.es.engine = .exposing := by
      unfold State.startsLine at starts
      split at starts
      · cases starts
      · simp_all
    have slot := h.slot_isSome (by rw [exposing]; rfl)
    rw [inHand_iff]
    exact ⟨h.stored.beginLine f slot, h.placed.present, h.placed.blank, fun _ => exposing⟩
  · exact h

/-- A line counted leaves its frame in hand, in EXPOSING or, after the last line, in FINISHING (R130). -/
theorem InHand.countLine {s : State} (h : InHand s) {e : ExposureRecord} (present : s.es.exposure = some e)
    (exposing : s.es.engine = .exposing) (o : ScanOutcome) : InHand (s.countLine e o) := by
  have slot : s.hand.dropLine.slot.isSome = true := h.slot_isSome (by rw [exposing]; rfl)
  have sameSlot : ({ s.hand.dropLine with slot := some e.slot } : Hand) = s.hand.dropLine := by
    rw [← State.hand_slot present]
    rfl
  unfold State.countLine
  dsimp only
  split
  · refine h.stored.dropLine.entered slot (e := .exposing) rfl (fun _ => rfl) ?_
    calc _ = ({ s.hand.dropLine with slot := some e.slot } : Hand) := rfl
      _ = s.hand.dropLine.enter .exposing := by rw [sameSlot, ← exposing]; rfl
  · refine h.stored.dropLine.entered slot (e := .finishing) rfl nofun ?_
    rw [State.enterFinishing_hand, ← sameSlot]
    rfl

theorem InHand.scanEnd {s : State} (h : InHand s) (f : Fin 8) (o : ScanOutcome) : InHand (s.scanEnd f o) := by
  unfold State.scanEnd
  split
  · exact h
  next e present =>
    split
    next onLine => exact h.countLine present onLine.1 o
    · exact h

theorem State.announceExclusion_hand (s : State) (f : Fin 8) (excluded : Bool) :
    (s.announceExclusion f excluded).hand = s.hand := by
  unfold State.announceExclusion
  dsimp only
  repeat' split
  all_goals simp

theorem InHand.badScan {s : State} (h : InHand s) (f : Fin 8) (o : ScanOutcome) : InHand (s.badScan f o) :=
  InHand.same (InHand.scanEnd (h.setStu _) f o) (State.announceExclusion_hand ..)

theorem InHand.endMissed {s : State} (h : InHand s) : InHand s.endMissed := by
  unfold State.endMissed
  split
  · exact h
  · split
    · exact (h.setStu _).scanEnd _ _
    · exact ((h.setStu _).setStu _).badScan _ _

theorem InHand.beginScan {s : State} (h : InHand s) : InHand s.beginScan := (h.setStu _).scanBegin _

theorem InHand.checkStarting {s : State} (h : InHand s) : InHand s.checkStarting := by
  unfold State.checkStarting
  split
  next starting =>
    have free : s.hand.Free := h.free (by rw [starting.1]; rfl) (by simp [starting.1])
    exact InHand.same (Hand.Free.enterReady (s := s.setEs { s.es with startTimer := none }) free)
      (State.endReply_hand ..)
  · exact h

theorem InHand.acquiringSos {s : State} (h : InHand s) : InHand s.acquiringSos := by
  have triggered (period : Nat) : InHand (s.advanceCounter.trigger period) :=
    (h.setStu _).same (State.trigger_hand ..)
  unfold State.acquiringSos State.lockSpeed
  dsimp only
  split
  · exact (((triggered _).setStu _).setStu _).checkStarting.beginScan
  · exact (triggered _).setStu _

theorem State.takeSos_keepsInHand : KeepsInHand State.takeSos := by
  intro s h
  unfold State.takeSos
  split
  · exact h
  · exact h.acquiringSos
  · exact InHand.same (InHand.beginScan (h.endMissed.setStu _)) (State.trigger_hand ..)

theorem State.takeEos_keepsInHand : KeepsInHand State.takeEos := by
  intro s h
  unfold State.takeEos
  split
  · split
    · exact h.setStu _
    · unfold State.endScan
      split
      · exact (h.setStu _).scanEnd _ _
      split
      · exact InHand.scanEnd (((h.setStu _).setStu _).setStu _) _ _
      · exact ((h.setStu _).setStu _).badScan _ _
  · exact h

theorem State.takeIndex_keepsInHand : KeepsInHand State.takeIndex := .of_hand fun s => by
  unfold State.takeIndex State.correctSlip
  repeat' split
  all_goals rfl

theorem State.takeWatchExpiry_keepsInHand : KeepsInHand State.takeWatchExpiry := by
  intro s h
  unfold State.takeWatchExpiry State.lossAtRun
  split
  · split <;> exact h.endMissed.same rfl
  · exact h

/-! ### The lasers (chapter 6) -/

theorem InHand.checkPreparing {s : State} (h : InHand s) : InHand s.checkPreparing := h.same s.checkPreparing_hand

theorem State.settleChannel_keepsInHand (c : Channel) : KeepsInHand (·.settleChannel c) := by
  intro s h
  dsimp only [State.settleChannel]
  split
  · exact (InHand.checkStarting (h.same (s.setChannels_hand _))).checkPreparing
  · exact h

theorem State.raise?_hand (s : State) (f : Option FaultReport) : (s.raise? f).hand = s.hand := by
  cases f <;> rfl

theorem State.noticeAtLimit_hand (s : State) (x : Rgb ChannelSample) : (s.noticeAtLimit x).hand = s.hand := by
  unfold State.noticeAtLimit
  split <;> simp

theorem InHand.leavePaused {s : State} (h : InHand s) (paused : s.es.engine = .paused) : InHand s.leavePaused :=
  h.stored.entered (h.slot_isSome (by rw [paused]; rfl)) rfl (fun _ => rfl) (by
    have sameSlot : (s.es.exposure.map ExposureRecord.resume).map (·.slot) = s.es.exposure.map (·.slot) := by
      cases s.es.exposure <;> rfl
    rw [State.leavePaused, State.setEngine_hand]
    calc _ = ({ s.hand with slot := (s.es.exposure.map ExposureRecord.resume).map (·.slot) } : Hand).enter
          .exposing := rfl
      _ = s.hand.enter .exposing := by rw [sameSlot]; rfl)

theorem InHand.onClear {s : State} (h : InHand s) (cleared : Bool) : InHand (s.onClear cleared) := by
  unfold State.onClear
  split
  · split
    next paused => exact h.leavePaused paused.1
    · exact h.checkPreparing
  · exact h

theorem InHand.takeSample {s : State} (h : InHand s) (r : Rgb Nat) : InHand (s.takeSample r) := by
  unfold State.takeSample State.reportSample
  split
  · have tripped : InHand ((s.setChannels ((s.pl.sample r).map (·.channel))).raise? (tripReport (s.pl.sample r) r)) :=
      h.same (State.raise?_hand ..)
    exact (tripped.onClear _).same (by rw [State.raise?_hand, State.noticeAtLimit_hand])
  · exact h

theorem State.openDoor_keepsInHand : KeepsInHand State.openDoor := .of_hand fun s => by simp [State.openDoor]

theorem State.closeDoor_keepsInHand : KeepsInHand State.closeDoor := .of_hand fun s => by simp [State.closeDoor]

/-! ### Timers, wheels and stage (chapter 7) -/

theorem State.expireStart_keepsInHand : KeepsInHand State.expireStart := .of_hand fun s => by
  unfold State.expireStart
  split <;> rfl

theorem State.expirePause_keepsInHand : KeepsInHand State.expirePause := .of_hand fun s => by
  unfold State.expirePause
  split <;> rfl

theorem InHand.enterOffline {s : State} (h : InHand s) (stopping : s.es.engine = .stopping) :
    InHand s.enterOffline :=
  (h.free (by rw [stopping]; rfl) (by simp [stopping])).entered rfl s.enterOffline_hand

theorem State.polygonAtRest_keepsInHand : KeepsInHand State.polygonAtRest := by
  intro s h
  unfold State.polygonAtRest
  split
  next stopping => exact h.enterOffline stopping
  · exact h

theorem State.expireStop_keepsInHand : KeepsInHand State.expireStop := by
  intro s h
  unfold State.expireStop
  split
  next stopping => exact h.enterOffline stopping.1
  · exact h

theorem State.wheelArrived_keepsInHand (c : Channel) : KeepsInHand (·.wheelArrived c) := .of_hand fun s => by
  dsimp only [State.wheelArrived]
  split <;> simp

theorem State.wheelExpired_keepsInHand (c : Channel) : KeepsInHand (·.wheelExpired c) := .of_hand fun s => by
  dsimp only [State.wheelExpired]
  split <;> simp

theorem State.stageHomed_keepsInHand : KeepsInHand State.stageHomed := by
  intro s h
  unfold State.stageHomed
  split
  · exact InHand.checkStarting (h.same rfl)
  · exact h

theorem State.stageArrived_keepsInHand : KeepsInHand State.stageArrived := .of_hand fun s => by
  unfold State.stageArrived
  dsimp only
  repeat' split
  all_goals simp

theorem State.stageExpired_keepsInHand : KeepsInHand State.stageExpired := .of_hand fun s => by
  unfold State.stageExpired
  dsimp only
  repeat' split
  all_goals simp

/-! ### The film mechanisms (chapter 8) -/

/-- A gate operation fails: the hand stays in agreement, or the blank advance is left without its reservation until the
fault raised with the failure is taken (R143, R152). -/
theorem InHand.failGate {s : State} (h : InHand s) (allowed : ResponsesAllowed s) (outcome : GateOutcome)
    {f : GateOp → FaultReport} (gate : ∀ op, (f op).kind.ofGate = true) :
    InHand (s.failGate outcome f) ∨ BlankFailed (s.failGate outcome f) := by
  unfold State.failGate
  split
  · exact .inl h
  next op _ =>
    have failed : InHand ((s.setTc (s.tc.fail op outcome)).command .transportStop) := h.same rfl
    rcases State.closeBlank_cases ((s.setTc (s.tc.fail op outcome)).command .transportStop) with
      ⟨same, -⟩ | ⟨⟨blank, reserved⟩, n, le, logged⟩
    · exact .inl (failed.same same)
    · refine .inr ⟨⟨?_, ?_, ?_, fun k ofGate => ?_⟩, f op, by simp [State.raise], gate op⟩
      · simpa using h.blank blank
      · rw [State.raise_hand, logged]
        exact failed.stored.alone blank
      · rw [State.raise_hand, logged]
        exact failed.stored.endBlank blank (le.trans (failed.stored.room reserved))
      · have only : s.assigned k ∈ k.allowed := allowed k
        have halts : k.allowed = [.halt] := by cases k <;> simp_all [FaultKind.ofGate, FaultKind.allowed]
        rw [halts, List.mem_singleton] at only
        simpa [State.assigned, State.raise] using only

/-- An event that fails a gate operation, if anything, keeps the hand in agreement once its faults are taken. -/
def FailsGate (effect : State → State) : Prop :=
  ∀ s, InHand s → ResponsesAllowed s → InHand (effect s) ∨ BlankFailed (effect s)

theorem FailsGate.run {effect : State → State} (fails : FailsGate effect) {s t : State} (h : InHand s)
    (allowed : ResponsesAllowed s) (e : Machine.run s effect = .next t) : InHand t := by
  obtain rfl := Host.Outcome.next.inj e
  rcases fails s h allowed with agrees | failed
  · exact agrees.concluded
  · exact failed.concluded

theorem State.cycleEnded_failsGate : FailsGate State.cycleEnded := by
  intro s h allowed
  unfold State.cycleEnded
  split
  · split
    · exact .inl (h.same rfl)
    · exact h.failGate allowed _ fun _ => rfl
  · exact .inl h

theorem State.clampClosed_failsGate (filmPresent : Bool) : FailsGate (·.clampClosed filmPresent) := by
  intro s h allowed
  dsimp only [State.clampClosed]
  split
  · split
    · exact .inl (h.same rfl)
    · exact h.failGate allowed _ fun _ => rfl
  · exact .inl h

theorem State.operationExpired_failsGate : FailsGate State.operationExpired := by
  intro s h allowed
  unfold State.operationExpired
  split
  · exact h.failGate allowed _ fun _ => rfl
  · exact .inl h

theorem State.clampOpened_keepsInHand : KeepsInHand State.clampOpened := .of_hand fun s => by
  unfold State.clampOpened
  split <;> rfl

theorem State.perforation_keepsInHand : KeepsInHand State.perforation := .of_hand fun s => by
  unfold State.perforation
  split <;> rfl

/-- The last pull-down of a blank advance appends its record to the place reserved for it (R151). -/
theorem InHand.endBlank {s : State} (h : InHand s) {b : BlankAdvance} (present : s.tc.blank = some b)
    (c : BlankAdvance) : InHand (s.endBlank c) := by
  have blank : s.hand.blank = true := by simp [State.hand, present]
  have slot := h.stored.alone blank
  have reserved : s.hand.reservation = some .blank := by rw [h.stored.reserved, Hand.due, slot]; simp [blank]
  have ended : (s.append c.start (.blank c.completed)).dropBlank.hand.Free := by
    rw [State.dropBlank_hand, State.append_hand]
    exact ⟨h.stored.endBlank blank (h.stored.room reserved), slot, rfl⟩
  refine Hand.Free.endAdvancing ?_
  rwa [State.endReply_hand]

theorem InHand.countBlank {s : State} (h : InHand s) {b : BlankAdvance} (present : s.tc.blank = some b) :
    InHand (s.countBlank b) := by
  unfold State.countBlank
  dsimp only
  split
  · have blank : s.hand.blank = true := by simp [State.hand, present]
    refine h.same ?_
    calc _ = ({ s.hand with blank := true } : Hand) := State.pullDown_hand _
      _ = s.hand := by rw [← blank]
  · exact h.endBlank present _

theorem InHand.pulledDown {s : State} (h : InHand s) : InHand s.pulledDown := by
  unfold State.pulledDown
  split
  next advancing =>
    split
    next absent =>
      have slot : s.hand.slot.isSome = s.es.engine.holdsFrame := h.placed.present
      have free : s.hand.Free := ⟨h.stored, by simpa [advancing, Engine.holdsFrame] using slot,
        by simp [State.hand, absent]⟩
      exact free.endAdvancing
    next b present => exact h.countBlank present
  · exact h.checkPreparing

theorem State.gateSettled_keepsInHand : KeepsInHand State.gateSettled := by
  intro s h
  unfold State.gateSettled
  split
  · split
    · exact h
    · exact InHand.pulledDown (h.same rfl)
    · exact InHand.checkStarting (h.same rfl)
  · exact h

theorem InHand.pauseIfTripped {s : State} (h : InHand s) (exposing : s.es.engine = .exposing) :
    InHand s.pauseIfTripped := by
  unfold State.pauseIfTripped
  split
  · exact h.enterPaused exposing
  · exact h

theorem InHand.beginExposing {s : State} (h : InHand s) (preparing : s.es.engine = .preparing) :
    InHand s.beginExposing := by
  unfold State.beginExposing
  split
  · exact h
  split
  · exact h
  · refine InHand.pauseIfTripped ?_ (by simp)
    exact h.stored.entered (h.slot_isSome (by rw [preparing]; rfl)) rfl (fun _ => rfl) (by simp)

theorem State.shutterOpened_keepsInHand : KeepsInHand State.shutterOpened := by
  intro s h
  unfold State.shutterOpened
  dsimp only
  split
  · split
    next preparing => exact InHand.beginExposing (h.same rfl) preparing
    · exact h.same rfl
  · exact h

/-- FINISHING's frame leaves the hand with its EXPOSED record, and its slot becomes FREE (R20, R134). -/
theorem InHand.finishFrame {s : State} (h : InHand s) : InHand s.finishFrame := by
  unfold State.finishFrame
  split
  · exact h
  next e present =>
    split
    · exact h
    next r here =>
      have slot := State.hand_slot present
      have stays (t : State) (fs : t.fs = s.fs) : t.slot e.slot = some r := by rw [State.slot, fs]; exact here
      have ended : ((s.append s.tc.footage (.exposed (s.frameEntry e r))).freeSlot e.slot).dropExposure.hand =
          s.hand.finish e.slot none := by
        rw [State.dropExposure_hand, State.freeSlot_hand (stays _ (by simp)), State.append_hand]
        rfl
      have free : (s.hand.finish e.slot none).Free :=
        ⟨h.stored.finish slot (by simp) (by simp), rfl, h.stored.noBlank_of_slot slot⟩
      exact (ended ▸ free).entered (e := .advancing) rfl (by simp)

theorem InHand.onClosed {s : State} (h : InHand s) : InHand s.onClosed := by
  unfold State.onClosed State.abortingClosed
  split
  · exact h.finishFrame
  next aborting =>
    split
    · exact h.same (s.print_hand _)
    · exact h.endAborting aborting
  · exact h.checkPreparing

theorem State.shutterClosed_keepsInHand : KeepsInHand State.shutterClosed := by
  intro s h
  unfold State.shutterClosed
  split
  · exact InHand.onClosed (h.same rfl)
  · exact h

theorem State.shutterExpired_keepsInHand : KeepsInHand State.shutterExpired := .of_hand fun s => by
  unfold State.shutterExpired
  repeat' split
  all_goals rfl

theorem State.headFree_hand (s : State) : s.headFree.hand = s.hand := by
  unfold State.headFree
  split <;> rfl

theorem State.frameMarkPrinted_hand (s : State) : s.frameMarkPrinted.hand = s.hand := by
  have sameSlot : s.frameMarkPrinted.es.exposure.map (·.slot) = s.es.exposure.map (·.slot) := by
    unfold State.frameMarkPrinted
    cases s.es.exposure <;> rfl
  calc s.frameMarkPrinted.hand
      = ({ s.hand with slot := s.frameMarkPrinted.es.exposure.map (·.slot) } : Hand) := rfl
    _ = s.hand := by rw [sameSlot]; rfl

theorem InHand.onPrinted {s : State} (h : InHand s) (m : Mark) : InHand (s.onPrinted m) := by
  unfold State.onPrinted
  split
  · split
    · exact h.same s.frameMarkPrinted_hand
    · split
      next aborting => exact h.endAborting aborting
      · exact h
  · exact h

theorem State.markDone_keepsInHand : KeepsInHand State.markDone := by
  intro s h
  unfold State.markDone
  split
  · exact h
  · exact InHand.onPrinted (h.same s.headFree_hand) _

end Sys2Proof.Machine
end

