-- ==== Sys2Proof/Proofs/InHandKept.lean ====
section
/-! PROOFS. The agreement of the frame in hand (R182) under every step: a command by its effect or its decision, and an
idle step by the takes it makes. -/

namespace Sys2Proof.Machine

/-- Nothing is in hand after power-on (R3, R111, R176). -/
theorem inHand_powerOn (doorOpen : Bool) : InHand (State.powerOn doorOpen) := by
  have noPhase (i : Fin 4) : (State.powerOn doorOpen).hand.phase i = none := by
    simp [State.hand, State.phaseOf, State.slot, State.powerOn, FrameStore.reset]
  have noSlot (i : Fin 4) : (State.powerOn doorOpen).hand.slot ≠ some i := nofun
  have noQueue (i : Fin 4) : i ∉ (State.powerOn doorOpen).hand.queue := nofun
  rw [inHand_iff]
  exact ⟨⟨fun i => iff_of_false (by simp [noPhase]) (noSlot i),
    fun i => iff_of_false (noQueue i) (by simp [noPhase]), List.nodup_nil, nofun, rfl, Nat.zero_le _, nofun, rfl,
    rfl⟩, rfl, nofun, nofun⟩

theorem inHand_execPowerOnReset {doorOpen : Bool} {s t : State} (e : execPowerOnReset doorOpen s = .next t) :
    InHand t := by
  obtain rfl := Host.Outcome.next.inj e
  exact (inHand_powerOn doorOpen).same rfl

theorem InHand.execLineRecord {s t : State} (h : InHand s) (e : execLineRecord s = .next t) : InHand t := by
  unfold Machine.execLineRecord at e
  split at e
  · split at e
    · obtain rfl := Host.Outcome.next.inj e
      exact (State.decideLine_keepsInHand _ _ _ _ _ (h.same s.takeRecord_hand)).concluded
    · cases e
  · obtain rfl := Host.Outcome.next.inj e
    exact h.concluded

theorem InHand.execSampleCompletion {s t : State} (h : InHand s) {r : Rgb Nat}
    (e : execSampleCompletion r s = .next t) : InHand t := by
  have settled : InHand (s.settledFor FaultKind.beforeSample) := h.settledFor _
  unfold Machine.execSampleCompletion at e
  dsimp only at e
  split at e
  · split at e
    · obtain rfl := Host.Outcome.next.inj e
      exact InHand.concluded ((settled.takeSample r).same (State.driveLine_hand _))
    · cases e
  · obtain rfl := Host.Outcome.next.inj e
    exact settled.concluded

theorem InHand.execFaultTake {s t : State} (h : InHand s) (e : execFaultTake s = .next t) : InHand t := by
  obtain rfl := Host.Outcome.next.inj e
  exact h.takeOne fun _ f ht => ht.takeEvent f

theorem InHand.idle {s : State} (h : InHand s) : InHand s.idle :=
  (h.settledFor _).same ((State.elapse_hand _ 1).trans (State.handOver_hand _))

/-- Every command keeps the agreement: an event, a request by its owner's decision, or one of the few with a shape of
their own. Only the events that fail a gate operation need the responses allowed. -/
theorem InHand.exec {s t : State} (h : InHand s) (allowed : ResponsesAllowed s) (i : Instr)
    (e : exec i s = .next t) : InHand t := by
  cases i with
  | powerOnReset doorOpen => exact inHand_execPowerOnReset e
  | linkUp => exact State.bringUp_keepsInHand.run h e
  | linkReset => exact State.resetLink_keepsInHand.run h e
  | recordArrival bytes => exact (State.arrive_keepsInHand bytes).run h e
  | droppedRecord => exact State.dropHead_keepsInHand.run h e
  | unknownRecord => exact State.refuseHead_keepsInHand.run h e
  | lineRecord => exact h.execLineRecord e
  | identify => exact (decideIdentify_keepsInHand.onRequest _).run h e
  | status => exact (decideStatus_keepsInHand.onRequest _).run h e
  | checkpoint => exact (decideCheckpoint_keepsInHand.onRequest _).run h e
  | setParameter => exact (decideSetParameter_keepsInHand.onRequest _).run h e
  | setNoticeMask => exact (decideSetNoticeMask_keepsInHand.onRequest _).run h e
  | openFrame => exact (decideOpenFrame_keepsInHand.onRequest _).run h e
  | closeFrame => exact (decideCloseFrame_keepsInHand.onRequest _).run h e
  | discardFrame => exact (decideDiscardFrame_keepsInHand.onRequest _).run h e
  | requeueFrame => exact (decideRequeueFrame_keepsInHand.onRequest _).run h e
  | writeRule => exact (decideWriteRule_keepsInHand.onRequest _).run h e
  | readRule => exact (decideReadRule_keepsInHand.onRequest _).run h e
  | loadProfile => exact (decideLoadProfile_keepsInHand.onRequest _).run h e
  | readProfile => exact (decideReadProfile_keepsInHand.onRequest _).run h e
  | setRollTrim => exact (decideSetRollTrim_keepsInHand.onRequest _).run h e
  | setFacetGains => exact (decideSetFacetGains_keepsInHand.onRequest _).run h e
  | restoreFacets => exact (decideRestoreFacets_keepsInHand.onRequest _).run h e
  | setFootage => exact (decideSetFootage_keepsInHand.onRequest _).run h e
  | setFaultResponse => exact (decideSetFaultResponse_keepsInHand.onRequest _).run h e
  | abortFrame => exact (decideAbortFrame_keepsInHand.onRequest _).run h e
  | readLog => exact (decideReadLog_keepsInHand.onRequestWhen _ _).run h e
  | readLogRepeat => exact (decideReadLogRepeat_keepsInHand.onRequestWhen _ _).run h e
  | startEngine filmPresent => exact ((decideStart_keepsInHand _ .offline filmPresent rfl nofun).onRequest _).run h e
  | resumeEngine filmPresent => exact ((decideStart_keepsInHand _ .halted filmPresent rfl nofun).onRequest _).run h e
  | stopEngine => exact (decideStopEngine_keepsInHand.onRequest _).run h e
  | resetEngine => exact (decideResetEngine_keepsInHand.onRequest _).run h e
  | advanceFilm => exact (decideAdvanceFilm_keepsInHand.onRequest _).run h e
  | queueTake => exact State.takeHeadSlot_keepsInHand.run h e
  | sos ticks => exact (State.takeSos_keepsInHand.afterTicks ticks).runAfter h e
  | eos ticks => exact (State.takeEos_keepsInHand.afterTicks ticks).runAfter h e
  | indexPulse => exact State.takeIndex_keepsInHand.run h e
  | sosWatchExpiry => exact State.takeWatchExpiry_keepsInHand.runAfter h e
  | laserSettleExpiry channel => exact (State.settleChannel_keepsInHand channel).runAfter h e
  | sampleCompletion readings => exact h.execSampleCompletion e
  | interlockOpening => exact State.openDoor_keepsInHand.run h e
  | interlockClosing => exact State.closeDoor_keepsInHand.run h e
  | startTimerExpiry => exact State.expireStart_keepsInHand.run h e
  | polygonStopped => exact State.polygonAtRest_keepsInHand.run h e
  | stopTimerExpiry => exact State.expireStop_keepsInHand.run h e
  | wheelInPosition channel => exact (State.wheelArrived_keepsInHand channel).run h e
  | wheelTimerExpiry channel => exact (State.wheelExpired_keepsInHand channel).runAfter h e
  | stageHomeReport => exact State.stageHomed_keepsInHand.runAfter h e
  | stageInPosition => exact State.stageArrived_keepsInHand.run h e
  | stageTimerExpiry => exact State.stageExpired_keepsInHand.run h e
  | pauseTimerExpiry => exact State.expirePause_keepsInHand.run h e
  | clampOpenConfirmation => exact State.clampOpened_keepsInHand.run h e
  | perforationEdge => exact State.perforation_keepsInHand.run h e
  | cycleEnd => exact State.cycleEnded_failsGate.run h allowed e
  | clampClosedConfirmation filmPresent => exact (State.clampClosed_failsGate filmPresent).run h allowed e
  | gateSettleExpiry => exact State.gateSettled_keepsInHand.runAfter h e
  | operationTimerExpiry => exact State.operationExpired_failsGate.run h allowed e
  | shutterOpenConfirmation => exact State.shutterOpened_keepsInHand.run h e
  | shutterClosedConfirmation => exact State.shutterClosed_keepsInHand.run h e
  | shutterTimerExpiry => exact State.shutterExpired_keepsInHand.run h e
  | edgePrintDone => exact State.markDone_keepsInHand.run h e
  | faultTake => exact h.execFaultTake e

/-- Settles O56: a step is a command or an idle step, and each keeps the frame in hand in agreement. -/
theorem inHandKept : Obligations.InHandKept := by
  intro s t h allowed e
  unfold step at e
  split at e
  · obtain rfl := Host.Outcome.next.inj e
    exact h.idle
  next c rest _ =>
    have popped : InHand { s with pending := rest } := h.same rfl
    exact popped.exec allowed c e

end Sys2Proof.Machine
end

