-- ==== Sys2Proof/Proofs/Ledger.lean ====
section
/-! PROOFS. What the other invariants speak of, as one record, and the moves by which a command may change it: the slots
with the queue and the profiles, the frame in hand, the roll log, the outstanding requests, the held notices and the
settings. Every step is a run of moves, so that an invariant is kept if each move keeps it. -/

namespace Sys2Proof.Machine

/-- What the invariants of the slots, the log, the link and the settings speak of. -/
structure Ledger where
  slots : Vector (Option SlotRecord) 4
  queue : List (Fin 4)
  image : Memory
  profiles : Vector Profile 8
  timing : TimingParams
  /-- the slot and the current line of the exposure record -/
  frame : Option (Fin 4 × Nat)
  records : List LogRecord
  lastSeq : Nat
  outstanding : List Outstanding
  notices : NoticeUnit
  responses : Vector Response 14
  trims : Rgb Int

def State.frameLine (s : State) : Option (Fin 4 × Nat) := s.es.exposure.map fun e => (e.slot, e.line)

def State.ledger (s : State) : Ledger where
  slots := s.fs.slots
  queue := s.fs.queue
  image := s.fs.image
  profiles := s.pt.profiles
  timing := s.stu.params
  frame := s.frameLine
  records := s.rl.records
  lastSeq := s.rl.lastSeq
  outstanding := s.lp.outstanding
  notices := s.nu
  responses := s.fu.responses
  trims := s.pl.channels.map (·.trim)

/-! ### Changes of one part -/

def Ledger.put (a : Ledger) (i : Fin 4) (r : Option SlotRecord) : Ledger := { a with slots := a.slots.set i r }

def Ledger.setPhase (a : Ledger) (i : Fin 4) (p : Phase) : Ledger :=
  match a.slots[i] with
  | none => a
  | some r => a.put i (some { r with phase := p })

def Ledger.setRefs (a : Ledger) (p : Fin 8) (f : Nat → Nat) : Ledger :=
  { a with profiles := a.profiles.set p { a.profiles[p] with refs := f a.profiles[p].refs } }

/-- A slot becomes FREE, and its profile's count falls (R49). -/
def Ledger.free (a : Ledger) (i : Fin 4) (r : SlotRecord) : Ledger := (a.put i none).setRefs r.profile (· - 1)

/-! ### The moves -/

/-- One change that a command may make to what the invariants speak of, with what the command has checked before it. -/
inductive Move : Ledger → Ledger → Prop
  /-- power-on (R3) -/
  | powerOn (a : Ledger) (door : Bool) : Move a (State.powerOn door).ledger
  /-- NU is given a notice (R199) -/
  | notice (a : Ledger) (p : NoticePayload) : Move a { a with notices := a.notices.given p }
  /-- the mask is set, and entries are released (R201) -/
  | mask (a : Ledger) (n : NoticeUnit)
      (kept : ∀ e ∈ releaseOrder, n.pending[e.1].isSome = true →
        a.notices.pending[e.1].isSome = true ∧ (e.2 ≤ a.notices.mask → e.2 ≤ n.mask)) :
      Move a { a with notices := n }
  /-- a record is appended to the roll log (R178) -/
  | append (a : Ledger) (footage : Footage) (body : LogBody) :
      Move a { a with
        records := a.records ++ [⟨nextNumber a.lastSeq, footage, body⟩], lastSeq := nextNumber a.lastSeq }
  /-- the oldest records leave the log (R184) -/
  | drop (a : Ledger) (n : Nat) : Move a { a with records := a.records.drop n }
  /-- a request that passes intake enters the table (R191) -/
  | enter (a : Ledger) (tag : Nat) (q : Request) (fresh : ∀ o ∈ a.outstanding, o.tag ≠ tag)
      (room : a.outstanding.length < 4) : Move a { a with outstanding := a.outstanding ++ [⟨tag, q⟩] }
  /-- a request leaves the table (R192) -/
  | leave (a : Ledger) (tag : Nat) : Move a { a with outstanding := a.outstanding.filter (·.tag ≠ tag) }
  /-- a link reset empties the table (R198) -/
  | unlink (a : Ledger) : Move a { a with outstanding := [] }
  /-- a line is stored into a FILLING slot (R11) -/
  | line (a : Ledger) (i : Fin 4) (r : SlotRecord) (line : Nat) (words : List Byte) (here : a.slots[i] = some r)
      (filling : r.phase = .filling) (inside : line < r.height) :
      Move a { a.put i (some (r.mark line)) with image := a.image.storeLine i line words }
  /-- an Open Frame fills a FREE slot (R8) -/
  | fill (a : Ledger) (i : Fin 4) (r : SlotRecord) (free : a.slots[i] = none)
      (loaded : a.profiles[r.profile].valid = true) (key : ∀ (j : Fin 4) (x : SlotRecord), a.slots[j] = some x → x.key ≠ r.key)
      (filling : r.phase = .filling) (present : r.Present) (size : r.width ≤ 4096 ∧ 1 ≤ r.height ∧ r.height ≤ 3200)
      (fits : a.timing.l0 + r.width ≤ a.timing.nsp) : Move a ((a.put i (some r)).setRefs r.profile (· + 1))
  /-- a complete slot joins the queue at the tail (R13) -/
  | close (a : Ledger) (i : Fin 4) (r : SlotRecord) (here : a.slots[i] = some r) (filling : r.phase = .filling)
      (complete : r.height ≤ r.presenceCount) : Move a { a.setPhase i .queued with queue := a.queue ++ [i] }
  /-- a FILLING or HELD slot becomes FREE (R14) -/
  | discard (a : Ledger) (i : Fin 4) (r : SlotRecord) (here : a.slots[i] = some r)
      (idle : r.phase = .filling ∨ r.phase = .held) : Move a (a.free i r)
  /-- a QUEUED slot becomes FREE and leaves the queue (R14) -/
  | unqueue (a : Ledger) (i : Fin 4) (r : SlotRecord) (here : a.slots[i] = some r) (queued : r.phase = .queued) :
      Move a { a.free i r with queue := a.queue.filter (· ≠ i) }
  /-- a HELD slot joins the queue at the head (R15) -/
  | requeue (a : Ledger) (i : Fin 4) (r : SlotRecord) (here : a.slots[i] = some r) (held : r.phase = .held) :
      Move a { a.setPhase i .queued with queue := i :: a.queue }
  /-- READY takes the queue head (R18, R122) -/
  | take (a : Ledger) (i : Fin 4) (rest : List (Fin 4)) (r : SlotRecord) (head : a.queue = i :: rest)
      (here : a.slots[i] = some r) : Move a { a.setPhase i .active with queue := rest, frame := some (i, 0) }
  /-- the frame in hand returns to the queue head (R22) -/
  | giveBack (a : Ledger) (i : Fin 4) (l : Nat) (inHand : a.frame = some (i, l)) :
      Move a { a.setPhase i .queued with queue := i :: a.queue, frame := none }
  /-- the frame in hand is spoiled (R21) -/
  | spoil (a : Ledger) (i : Fin 4) (l : Nat) (inHand : a.frame = some (i, l)) :
      Move a { a.setPhase i .held with frame := none }
  /-- the frame in hand is exposed, and its slot becomes FREE (R20) -/
  | finish (a : Ledger) (i : Fin 4) (l : Nat) (r : SlotRecord) (inHand : a.frame = some (i, l))
      (here : a.slots[i] = some r) : Move a { a.free i r with frame := none }
  /-- the frame in hand goes on to its next line (R130) -/
  | nextLine (a : Ledger) (i : Fin 4) (l : Nat) (r : SlotRecord) (inHand : a.frame = some (i, l))
      (here : a.slots[i] = some r) (more : l + 1 < r.height) : Move a { a with frame := some (i, l + 1) }
  /-- a profile that no slot names is loaded (R47) -/
  | load (a : Ledger) (i : Fin 8) (q : Profile) (unused : a.profiles[i].refs = 0) (same : q.refs = 0) :
      Move a { a with profiles := a.profiles.set i q }
  /-- the timing parameters change, with every slot's width still fitting (R6) -/
  | timing (a : Ledger) (p : TimingParams)
      (fits : ∀ (i : Fin 4) (r : SlotRecord), a.slots[i] = some r → a.timing.l0 + r.width ≤ a.timing.nsp → p.l0 + r.width ≤ p.nsp) :
      Move a { a with timing := p }
  /-- a kind is assigned a response it allows (R158) -/
  | assign (a : Ledger) (k : FaultKind) (r : Response) (allowed : r ∈ k.allowed) :
      Move a { a with responses := a.responses.set k.index r }
  /-- the servo steps a power trim within its range (R104) -/
  | trim (a : Ledger) (t : Rgb Int)
      (within : ∀ c : Channel, -31 ≤ a.trims.get c ∧ a.trims.get c ≤ 31 → -31 ≤ t.get c ∧ t.get c ≤ 31) :
      Move a { a with trims := t }

/-- The second state's ledger comes from the first's by moves. -/
def State.Leads (s t : State) : Prop := Relation.ReflTransGen Move s.ledger t.ledger

theorem State.Leads.same {s t : State} (same : t.ledger = s.ledger) : s.Leads t := by
  rw [State.Leads, same]

theorem State.Leads.move {s t : State} (move : Move s.ledger t.ledger) : s.Leads t := .single move

theorem State.Leads.trans {s t u : State} (first : s.Leads t) (second : t.Leads u) : s.Leads u :=
  Relation.ReflTransGen.trans first second

theorem State.Leads.toSame {s t u : State} (first : s.Leads t) (same : u.ledger = t.ledger) : s.Leads u :=
  first.trans (.same same)

/-- An effect that changes the ledger by moves. -/
def Leading (effect : State → State) : Prop := ∀ s : State, s.Leads (effect s)

/-- A decision that changes the ledger by moves, whatever its request carries. -/
def Decision.Leading (owner : Decision) : Prop := ∀ tag p, Machine.Leading (owner · tag p)

/-! ### Operations that leave the ledger as it is -/

/-- The blocks that the ledger is read from are as before. -/
theorem State.ledger_eq {s t : State} (fs : t.fs = s.fs) (pt : t.pt = s.pt) (timing : t.stu.params = s.stu.params)
    (frame : t.frameLine = s.frameLine) (rl : t.rl = s.rl) (outstanding : t.lp.outstanding = s.lp.outstanding)
    (nu : t.nu = s.nu) (responses : t.fu.responses = s.fu.responses)
    (trims : t.pl.channels.map (·.trim) = s.pl.channels.map (·.trim)) : t.ledger = s.ledger := by
  simp only [State.ledger, fs, pt, timing, frame, rl, outstanding, nu, responses, trims]

@[simp] theorem State.emit_ledger (s : State) (o : Output) : (s.emit o).ledger = s.ledger := rfl
@[simp] theorem State.command_ledger (s : State) (c : MechanismCommand) : (s.command c).ledger = s.ledger := rfl
@[simp] theorem State.flush_ledger (s : State) : s.flush.ledger = s.ledger := rfl
@[simp] theorem State.elapse_ledger (s : State) (n : Nat) : (s.elapse n).ledger = s.ledger := rfl
@[simp] theorem State.raise_ledger (s : State) (f : FaultReport) : (s.raise f).ledger = s.ledger := rfl
@[simp] theorem State.setTc_ledger (s : State) (t : Transport) : (s.setTc t).ledger = s.ledger := rfl
@[simp] theorem State.setInHand_ledger (s : State) (r : Option FaultRecord) : (s.setInHand r).ledger = s.ledger := rfl
@[simp] theorem State.setPending_ledger (s : State) (k : LongKind) (r : Option PendingReply) :
    (s.setPending k r).ledger = s.ledger := rfl
@[simp] theorem State.recordFault_ledger (s : State) (r : FaultRecord) : (s.recordFault r).ledger = s.ledger := rfl
@[simp] theorem State.setInterlock_ledger (s : State) (o : Bool) : (s.setInterlock o).ledger = s.ledger := rfl
@[simp] theorem State.setStage_ledger (s : State) (x : Stage) : (s.setStage x).ledger = s.ledger := rfl
@[simp] theorem State.setWheel_ledger (s : State) (c : Channel) (w : Wheel) : (s.setWheel c w).ledger = s.ledger := rfl
@[simp] theorem State.stopStage_ledger (s : State) : s.stopStage.ledger = s.ledger := rfl
@[simp] theorem State.returnStage_ledger (s : State) : s.returnStage.ledger = s.ledger := rfl
@[simp] theorem State.homeStage_ledger (s : State) : s.homeStage.ledger = s.ledger := rfl
@[simp] theorem State.stopEngineTimers_ledger (s : State) : s.stopEngineTimers.ledger = s.ledger := rfl
@[simp] theorem State.release_ledger (s : State) : s.release.ledger = s.ledger := rfl
@[simp] theorem State.reserve_ledger (s : State) (r : Reservation) : (s.reserve r).ledger = s.ledger := rfl
@[simp] theorem State.dropLine_ledger (s : State) : s.dropLine.ledger = s.ledger := rfl
@[simp] theorem State.dropBlank_ledger (s : State) : s.dropBlank.ledger = s.ledger := rfl
@[simp] theorem State.emptyLineLatch_ledger (s : State) : s.emptyLineLatch.ledger = s.ledger := rfl
@[simp] theorem State.fillFrameLatch_ledger (s : State) (p : Fin 8) : (s.fillFrameLatch p).ledger = s.ledger := rfl
@[simp] theorem State.fillLineLatch_ledger (s : State) (f : Fin 8) : (s.fillLineLatch f).ledger = s.ledger := rfl
@[simp] theorem State.countError_ledger (s : State) (e : LinkError) : (s.countError e).ledger = s.ledger := rfl
@[simp] theorem State.postRefusal_ledger (s : State) (slot line : Nat) (reason : LineReason) :
    (s.postRefusal slot line reason).ledger = s.ledger := rfl
@[simp] theorem State.setFacet_ledger (s : State) (f : Fin 8) (e : Facet) : (s.setFacet f e).ledger = s.ledger := rfl
@[simp] theorem State.setStats_ledger (s : State) (x : ScanStats) : (s.setStats x).ledger = s.ledger := rfl
@[simp] theorem State.armScan_ledger (s : State) : s.armScan.ledger = s.ledger := rfl
@[simp] theorem State.advanceCounter_ledger (s : State) : s.advanceCounter.ledger = s.ledger := rfl
@[simp] theorem State.setRule_ledger (s : State) (i : Fin 32) (r : Rule) : (s.setRule i r).ledger = s.ledger := rfl
@[simp] theorem State.setKnot_ledger (s : State) (c : Channel) (j : Fin 17) (v : Nat) :
    (s.setKnot c j v).ledger = s.ledger := rfl
@[simp] theorem State.setPower_ledger (s : State) (p : PowerParams) : (s.setPower p).ledger = s.ledger := rfl

/-- A write of ES that leaves the slot and the line of the exposure record as they are. -/
@[simp] theorem State.setEs_ledger {s : State} {e : Sequencer}
    (frame : e.exposure.map (fun x => (x.slot, x.line)) = s.es.exposure.map fun x => (x.slot, x.line)) :
    (s.setEs e).ledger = s.ledger := by
  simp only [State.ledger, State.frameLine, State.setEs, frame]

/-- A write of STU that leaves the timing parameters as they are. -/
@[simp] theorem State.setStu_ledger {s : State} {u : ScanUnit} (timing : u.params = s.stu.params) :
    (s.setStu u).ledger = s.ledger := by
  simp only [State.ledger, State.frameLine, State.setStu, timing]

/-- A write of the laser channels that leaves their trims as they are. -/
@[simp] theorem State.setChannels_ledger {s : State} {c : Rgb PowerChannel}
    (trims : c.map (·.trim) = s.pl.channels.map (·.trim)) : (s.setChannels c).ledger = s.ledger := by
  simp only [State.ledger, State.frameLine, State.setChannels, trims]

theorem PowerChannel.turnOff_trim (c : PowerChannel) : c.turnOff.trim = c.trim := by
  unfold PowerChannel.turnOff
  split <;> rfl

theorem PowerChannel.enable_trim (ms : Nat) (c : PowerChannel) : (c.enable ms).trim = c.trim := by
  unfold PowerChannel.enable
  split <;> rfl

@[simp] theorem State.laserDisable_ledger (s : State) : s.laserDisable.ledger = s.ledger := by
  have off : (s.setChannels (s.pl.channels.map PowerChannel.turnOff)).ledger = s.ledger :=
    State.setChannels_ledger (by simp [Rgb.map, PowerChannel.turnOff_trim])
  unfold State.laserDisable
  dsimp only
  split <;> exact off

@[simp] theorem State.laserEnable_ledger (s : State) : s.laserEnable.ledger = s.ledger := by
  unfold State.laserEnable
  split
  · rfl
  · exact State.setChannels_ledger (by simp [Rgb.map, PowerChannel.enable_trim])

@[simp] theorem State.trigger_ledger (s : State) (p : Nat) : (s.trigger p).ledger = s.ledger := by
  have fired : (s.setChannels (s.pl.channels.map PowerChannel.fire)).ledger = s.ledger :=
    State.setChannels_ledger (by simp [Rgb.map, PowerChannel.fire])
  unfold State.trigger
  dsimp only
  split <;> exact fired

@[simp] theorem State.polygonRun_ledger (s : State) : s.polygonRun.ledger = s.ledger := by
  unfold State.polygonRun
  split <;> rfl

@[simp] theorem State.polygonStop_ledger (s : State) : s.polygonStop.ledger = s.ledger := by
  unfold State.polygonStop
  rw [State.command_ledger]
  refine State.setStu_ledger ?_
  unfold ScanUnit.rest
  split <;> rfl

@[simp] theorem State.sendNotice_ledger (s : State) (n : Notice) : (s.sendNotice n).ledger = s.ledger := by
  unfold State.sendNotice
  split <;> rfl

@[simp] theorem State.stage_ledger (s : State) (r : Reply) : (s.stage r).ledger = s.ledger := by
  unfold State.stage
  split <;> rfl

@[simp] theorem State.refuseIntake_ledger (s : State) (tag code : Nat) (reason : Reason) :
    (s.refuseIntake tag code reason).ledger = s.ledger := State.stage_ledger ..

@[simp] theorem State.takeRecord_ledger (s : State) : s.takeRecord.ledger = s.ledger := by
  obtain ⟨q, f, h, o, form⟩ := s.takeRecord_form
  rw [form]
  rfl

@[simp] theorem State.stopGate_ledger (s : State) : s.stopGate.ledger = s.ledger := by
  unfold State.stopGate
  split <;> rfl

@[simp] theorem State.pullDown_ledger (s : State) : s.pullDown.ledger = s.ledger := by
  unfold State.pullDown
  repeat' split
  all_goals rfl

@[simp] theorem State.clampGate_ledger (s : State) : s.clampGate.ledger = s.ledger := by
  unfold State.clampGate
  repeat' split
  all_goals rfl

@[simp] theorem State.closeShutter_ledger (s : State) : s.closeShutter.ledger = s.ledger := by
  unfold State.closeShutter
  split <;> rfl

@[simp] theorem State.openShutter_ledger (s : State) : s.openShutter.ledger = s.ledger := by
  unfold State.openShutter
  split <;> rfl

@[simp] theorem State.print_ledger (s : State) (m : Mark) : (s.print m).ledger = s.ledger := by
  unfold State.print
  split <;> rfl

@[simp] theorem State.commandWheelStop_ledger (s : State) (c : Channel) :
    (s.commandWheelStop c).ledger = s.ledger := by
  unfold State.commandWheelStop
  split <;> rfl

@[simp] theorem State.stopWheels_ledger (s : State) : s.stopWheels.ledger = s.ledger :=
  calc s.stopWheels.ledger
      = (((s.commandWheelStop .red).commandWheelStop .green).commandWheelStop .blue).ledger := rfl
    _ = s.ledger := by simp only [State.commandWheelStop_ledger]

@[simp] theorem State.stopMechanisms_ledger (s : State) : s.stopMechanisms.ledger = s.ledger := by
  simp [State.stopMechanisms]

@[simp] theorem State.checkPreparing_ledger (s : State) : s.checkPreparing.ledger = s.ledger := by
  unfold State.checkPreparing
  split <;> simp

@[simp] theorem State.deferHalt_ledger (s : State) (r : FaultRecord) : (s.deferHalt r).ledger = s.ledger := by
  unfold State.deferHalt
  split <;> rfl

@[simp] theorem State.driveLine_ledger (s : State) : s.driveLine.ledger = s.ledger := by
  unfold State.driveLine
  split <;> rfl

@[simp] theorem State.driveAfter_ledger (s : State) (f : FaultReport) : (s.driveAfter f).ledger = s.ledger := by
  unfold State.driveAfter
  split <;> simp

@[simp] theorem State.scanBegin_ledger (s : State) (f : Fin 8) : (s.scanBegin f).ledger = s.ledger := by
  unfold State.scanBegin
  split <;> rfl

@[simp] theorem State.raise?_ledger (s : State) (f : Option FaultReport) : (s.raise? f).ledger = s.ledger := by
  cases f <;> rfl

@[simp] theorem State.clearFlags_ledger (s : State) : s.clearFlags.ledger = s.ledger := rfl

/-! ### What the other shared operations do to the ledger -/

theorem State.setSlot_ledger (s : State) (i : Fin 4) (r : Option SlotRecord) :
    (s.setSlot i r).ledger = s.ledger.put i r := rfl

theorem State.setPhase_ledger (s : State) (i : Fin 4) (p : Phase) :
    (s.setPhase i p).ledger = s.ledger.setPhase i p := by
  have slot : s.slot i = s.ledger.slots[i] := rfl
  cases here : s.ledger.slots[i] with
  | none => simp only [State.setPhase, Ledger.setPhase, slot, here]
  | some r =>
    simp only [State.setPhase, Ledger.setPhase, slot, here]
    rfl

theorem State.setRefs_ledger (s : State) (p : Fin 8) (f : Nat → Nat) :
    (s.setRefs p f).ledger = s.ledger.setRefs p f := rfl

theorem State.freeSlot_ledger {s : State} {i : Fin 4} {r : SlotRecord} (here : s.slot i = some r) :
    (s.freeSlot i).ledger = s.ledger.free i r := by
  rw [State.freeSlot, here]
  rfl

theorem State.joinTail_ledger (s : State) (i : Fin 4) :
    (s.joinTail i).ledger = { s.ledger.setPhase i .queued with queue := s.ledger.queue ++ [i] } := by
  rw [← State.setPhase_ledger]
  rfl

theorem State.joinHead_ledger (s : State) (i : Fin 4) :
    (s.joinHead i).ledger = { s.ledger.setPhase i .queued with queue := i :: s.ledger.queue } := by
  rw [← State.setPhase_ledger]
  rfl

theorem State.dropExposure_ledger (s : State) : s.dropExposure.ledger = { s.ledger with frame := none } := rfl

theorem State.frameLine_of {s : State} {e : ExposureRecord} (h : s.es.exposure = some e) :
    s.ledger.frame = some (e.slot, e.line) := by
  simp [State.ledger, State.frameLine, h]

theorem State.notice_leads (s : State) (p : NoticePayload) : s.Leads (s.notice p) := by
  refine .move ?_
  have given : (s.notice p).ledger = { s.ledger with notices := s.ledger.notices.given p } := by
    rw [State.notice_eq]
    rfl
  rw [given]
  exact .notice ..

theorem State.answer_leads (s : State) (tag : Option Nat) (q : Request) (a : Answer) :
    s.Leads (s.answer tag q a) := by
  unfold State.answer
  split
  · exact .same rfl
  next tag =>
    refine .move ?_
    rw [State.stage_ledger]
    exact .leave s.ledger tag

theorem State.endReply_leads (s : State) (k : LongKind) (a : Answer) : s.Leads (s.endReply k a) := by
  unfold State.endReply
  split
  · exact .same rfl
  · exact State.answer_leads (s.setPending k none) ..

theorem State.failReply_leads (s : State) (k : LongKind) (reason : Reason) (n : Nat) :
    s.Leads (s.failReply k reason n) := State.endReply_leads ..

theorem State.announceLog_leads (s : State) : s.Leads s.announceLog := by
  unfold State.announceLog
  split
  · exact s.notice_leads _
  · exact .same rfl

theorem State.append_leads (s : State) (footage : Footage) (body : LogBody) :
    s.Leads (s.append footage body) :=
  State.Leads.trans (.move (.append s.ledger footage body)) (State.announceLog_leads _)

theorem State.setEngine_leads (s : State) (e : Engine) (c : Option FaultKind) : s.Leads (s.setEngine e c) := by
  have entered : ((s.holdBeam e).setEs { s.es with engine := e }).ledger = s.ledger := by
    unfold State.holdBeam
    split <;> rfl
  exact (State.Leads.same entered).trans (State.notice_leads ..)

theorem State.announceFault_leads (s : State) (r : FaultRecord) : s.Leads (s.announceFault r) := by
  unfold State.announceFault
  split
  · exact .same rfl
  · exact s.notice_leads _

end Sys2Proof.Machine
end

