-- ==== Sys2Proof/Proofs/LedgerEntries.lean ====
section
/-! PROOFS. The moves of the engine's entries, of the ends of a frame and of a blank advance, of the take of a fault and
of the shape of a command. -/

namespace Sys2Proof.Machine

/-! ### The ends of a frame and of a blank advance -/

theorem State.returnFrame_leads (s : State) : s.Leads s.returnFrame := by
  unfold State.returnFrame
  split
  · exact .same rfl
  next e present =>
    refine .move ?_
    rw [State.dropExposure_ledger, State.release_ledger, State.joinHead_ledger]
    exact .giveBack s.ledger e.slot e.line (State.frameLine_of present)

theorem State.spoilFrame_leads (s : State) (c : Cause) : s.Leads (s.spoilFrame c) := by
  unfold State.spoilFrame
  split
  · exact .same rfl
  next e present =>
    split
    next absent =>
      refine .move ?_
      have kept : s.ledger.setPhase e.slot .held = s.ledger := by
        have free : s.ledger.slots[e.slot] = none := absent
        simp only [Ledger.setPhase, free]
      have spoiled := Move.spoil s.ledger e.slot e.line (State.frameLine_of present)
      rwa [kept] at spoiled
    next r here =>
      have appended := s.append_leads s.tc.footage (.spoiled (s.frameEntry e r) c)
      refine (appended.trans (.move ?_)).trans (State.notice_leads ..)
      rw [State.dropExposure_ledger, State.setPhase_ledger]
      exact .spoil _ e.slot e.line (State.frameLine_of (by simpa using present))

theorem State.endFrameLocked_leads (s : State) (c : Cause) : s.Leads (s.endFrameLocked c) := by
  unfold State.endFrameLocked
  split
  · exact s.returnFrame_leads
  · exact s.spoilFrame_leads c

theorem State.closeBlank_leads (s : State) : s.Leads s.closeBlank := by
  unfold State.closeBlank
  split
  · exact .same rfl
  split
  · split
    · exact s.append_leads _ _
    · exact .same rfl
  · exact .same rfl

theorem State.endBlankEarly_leads (s : State) : s.Leads s.endBlankEarly :=
  s.closeBlank_leads.toSame (State.dropBlank_ledger _)

theorem State.finishFrame_leads (s : State) : s.Leads s.finishFrame := by
  unfold State.finishFrame
  split
  · exact .same rfl
  next e present =>
    split
    · exact .same rfl
    next r here =>
      have appended := s.append_leads s.tc.footage (.exposed (s.frameEntry e r))
      have stays : (s.append s.tc.footage (.exposed (s.frameEntry e r))).slot e.slot = some r := by
        simpa [State.slot] using here
      have freed : (s.append s.tc.footage (.exposed (s.frameEntry e r))).Leads
          ((s.append s.tc.footage (.exposed (s.frameEntry e r))).freeSlot e.slot).dropExposure := by
        refine .move ?_
        rw [State.dropExposure_ledger, State.freeSlot_ledger stays]
        exact .finish _ e.slot e.line r (State.frameLine_of (by simpa using present)) stays
      exact ((appended.trans freed).trans (State.notice_leads ..)).trans
        ((State.setEngine_leads ..).toSame (State.pullDown_ledger _))

/-! ### The entries -/

theorem State.enterOffline_leads (s : State) : s.Leads s.enterOffline :=
  ((State.setEngine_leads (s.setEs { s.es with stopTimer := none }) .offline none).trans
    (State.endReply_leads ..)).trans (State.endReply_leads ..)

theorem State.enterStopping_leads (s : State) : s.Leads s.enterStopping :=
  State.Leads.trans (.same (by simp)) (State.setEngine_leads
    ((s.stopMechanisms.setEs { s.stopMechanisms.es with
      stopPending := false, stopTimer := some Config.stopTime }).setInHand none) .stopping none)

theorem State.enterReady_leads (s : State) : s.Leads s.enterReady := by
  have entered := State.setEngine_leads (s.setInHand none) .ready none
  unfold State.enterReady
  dsimp only
  split
  · exact entered.trans (State.notice_leads ..)
  · exact entered

theorem State.enterHalted_leads (s : State) (r : FaultRecord) : s.Leads (s.enterHalted r) := by
  have stopped : s.Leads s.stopMechanisms := .same (by simp)
  have ended := (stopped.trans (State.returnFrame_leads _)).trans (State.endBlankEarly_leads _)
  have entered := ended.trans (State.setEngine_leads ((s.stopMechanisms.returnFrame.endBlankEarly.setEs
    { s.stopMechanisms.returnFrame.endBlankEarly.es with stopPending := false, deferredHalt := none }).setInHand
      (some r)) .halted (some r.report.kind))
  exact ((entered.trans (State.failReply_leads ..)).trans (State.failReply_leads ..)).trans
    (State.failReply_leads ..)

theorem State.enterPaused_leads (s : State) : s.Leads s.enterPaused :=
  State.setEngine_leads (s.dropLine.setEs { s.dropLine.es with
    pauseTimer := some (Config.ms s.dropLine.es.pauseMs) }) .paused none

theorem State.enterAborting_leads (s : State) (r : FaultRecord) : s.Leads (s.enterAborting r) :=
  State.Leads.trans (.same (by simp)) (State.setEngine_leads
    ((s.dropLine.closeShutter.setEs { s.dropLine.closeShutter.es with pauseTimer := none }).setInHand (some r))
      .aborting none)

theorem State.enterFinishing_leads (s : State) : s.Leads s.enterFinishing :=
  State.Leads.trans (.same s.closeShutter_ledger) (State.setEngine_leads ..)

theorem State.enterStarting_leads (s : State) : s.Leads s.enterStarting :=
  State.Leads.trans (.same (by simp)) (State.setEngine_leads
    ((s.polygonRun.laserEnable.homeStage.clampGate.setEs { s.polygonRun.laserEnable.homeStage.clampGate.es with
      startTimer := some Config.startTime }).setInHand none) .starting none)

theorem State.lockPair_ledger (s : State) (p : Option LockPair) :
    ({ s with fu := { s.fu with lockPair := p } } : State).ledger = s.ledger := rfl

theorem State.enterLocked_leads (s : State) (r : FaultRecord) : s.Leads (s.enterLocked r) := by
  have stopped : s.Leads (s.stopMechanisms.setEs
      { s.stopMechanisms.es with stopTimer := none, stopPending := false, deferredHalt := none }) :=
    .same (by simp)
  have entered := ((stopped.trans (State.endFrameLocked_leads _ (.fault r.report.kind))).trans
    (State.endBlankEarly_leads _)).trans (State.setEngine_leads _ .locked (some r.report.kind))
  unfold State.enterLocked
  refine State.Leads.trans (.toSame ?_ (State.lockPair_ledger ..)) (State.notice_leads ..)
  exact (((entered.trans (State.failReply_leads ..)).trans (State.failReply_leads ..)).trans
    (State.failReply_leads ..)).trans (State.failReply_leads ..)

theorem State.endAborting_leads (s : State) : s.Leads s.endAborting := by
  unfold State.endAborting
  split
  · exact .same rfl
  next r _ =>
    have spoiled := s.spoilFrame_leads (.fault r.report.kind)
    dsimp only
    split
    · split
      · exact spoiled.trans (State.enterStopping_leads _)
      split
      · exact spoiled.trans (State.enterHalted_leads ..)
      · exact spoiled.trans (State.enterReady_leads _)
    · exact spoiled.trans (State.enterHalted_leads ..)

theorem State.endAdvancing_leads (s : State) : s.Leads s.endAdvancing := by
  unfold State.endAdvancing
  split
  · exact State.enterHalted_leads ..
  · split
    · exact s.enterStopping_leads
    · exact s.enterReady_leads

theorem State.checkStarting_leads (s : State) : s.Leads s.checkStarting := by
  unfold State.checkStarting
  split
  · exact (State.enterReady_leads (s.setEs { s.es with startTimer := none })).trans (State.endReply_leads ..)
  · exact .same rfl

/-! ### The take of a fault -/

theorem State.direct_leads (s : State) (r : FaultRecord) : s.Leads (s.direct r) := by
  unfold State.direct
  cases r.applied with
  | notice | hold | record => exact .same rfl
  | pause => exact s.enterPaused_leads
  | abort => exact s.enterAborting_leads r
  | halt =>
    dsimp only [State.applyHalt]
    split
    · exact s.enterAborting_leads r
    · exact s.enterHalted_leads r
  | defer => exact .same (s.deferHalt_ledger r)
  | lock => exact s.enterLocked_leads r

theorem State.takeFault_leads (s : State) (f : FaultReport) : s.Leads (s.takeFault f) :=
  (State.announceFault_leads (s.recordFault (s.faultRecord f)) _).trans (State.direct_leads ..)

theorem State.takeEvent_leads (s : State) (f : FaultReport) : s.Leads (s.takeEvent f) :=
  (s.takeFault_leads f).toSame (State.driveAfter_ledger ..)

theorem State.takeInTurn_leads (s : State) (f : FaultReport) : s.Leads (s.takeInTurn f) := by
  unfold State.takeInTurn
  split
  · exact s.takeEvent_leads f
  · exact State.takeEvent_leads s.flush f

theorem State.takeOne_leads {take : State → FaultReport → State} (takes : ∀ (t : State) f, t.Leads (take t f))
    (s : State) : s.Leads (s.takeOne take) := by
  rcases s.takeOne_cases take with ⟨-, none⟩ | ⟨f, -, one⟩
  · exact .same (by rw [none])
  · rw [one]
    refine State.Leads.trans (.same ?_) (takes _ f)
    rfl

theorem State.taking_leads {take : State → FaultReport → State} (takes : ∀ (t : State) f, t.Leads (take t f))
    (must : FaultKind → Bool) (n : Nat) (s : State) : s.Leads (State.taking must take n s) := by
  induction n generalizing s with
  | zero => exact .same rfl
  | succ n ih =>
    unfold State.taking
    split
    · exact (State.takeOne_leads takes s).trans (ih _)
    · exact .same rfl

theorem State.settledFor_leads (s : State) (must : FaultKind → Bool) : s.Leads (s.settledFor must) :=
  State.taking_leads State.takeEvent_leads ..

theorem State.concluded_leads (s : State) : s.Leads s.concluded :=
  (State.taking_leads State.takeInTurn_leads ..).toSame (State.flush_ledger _)

/-! ### Commands and requests -/

theorem Leading.run {effect : State → State} (leads : Leading effect) {s t : State}
    (e : Machine.run s effect = .next t) : s.Leads t := by
  obtain rfl := Host.Outcome.next.inj e
  exact (leads s).trans (State.concluded_leads _)

theorem Leading.runAfter {must : FaultKind → Bool} {effect : State → State} (leads : Leading effect) {s t : State}
    (e : Machine.runAfter must s effect = .next t) : s.Leads t := (s.settledFor_leads must).trans (leads.run e)

theorem Leading.of_ledger {effect : State → State} (same : ∀ s, (effect s).ledger = s.ledger) : Leading effect :=
  fun s => .same (same s)

theorem State.refuse_leads (s : State) (tag : Option Nat) (q : Request) (reason : Reason) (field : Nat)
    (d : ReplyData) : s.Leads (s.refuse tag q reason field d) := State.answer_leads ..

theorem State.done_leads (s : State) (tag : Option Nat) (q : Request) (d : ReplyData) :
    s.Leads (s.done tag q d) := State.answer_leads ..

/-- A change of the ledger that a DONE reply follows. -/
theorem State.Leads.done {s t : State} (h : s.Leads t) {tag : Option Nat} {q : Request} {d : ReplyData} :
    s.Leads (t.done tag q d) := h.trans (t.done_leads tag q d)

/-- What a request that passes intake has been checked for (Table 11-2). -/
theorem LinkPort.intakeRefusal_none {l : LinkPort} {tag : Nat} {q : Request} {p : List Byte}
    (h : l.intakeRefusal tag q p = none) :
    (∀ o ∈ l.outstanding, o.tag ≠ tag) ∧ l.outstanding.length < 4 := by
  unfold LinkPort.intakeRefusal at h
  split at h
  · cases h
  split at h
  · cases h
  next fresh =>
    split at h
    · cases h
    next room => exact ⟨by simpa using fresh, Nat.lt_of_not_le room⟩

theorem State.enterTable_leads {s : State} {tag : Nat} {q : Request} {p : List Byte}
    (h : s.lp.intakeRefusal tag q p = none) : s.Leads (s.enterTable tag q) := by
  obtain ⟨fresh, room⟩ := LinkPort.intakeRefusal_none h
  exact .move (.enter s.ledger tag q fresh room)

theorem State.handToOwner_leads {owner : Decision} (leads : owner.Leading) (s : State) (tag : Option Nat)
    (q : Request) (p : List Byte) : s.Leads (s.handToOwner tag q p owner) := by
  unfold State.handToOwner
  split
  · exact State.refuse_leads ..
  · exact leads tag p s

theorem State.takeRequest_leads {owner : Decision} (leads : owner.Leading) (s : State) (tag : Nat) (q : Request)
    (p : List Byte) : s.Leads (s.takeRequest tag q p owner) := by
  have taken : s.Leads s.takeRecord := .same s.takeRecord_ledger
  unfold State.takeRequest
  dsimp only
  split
  · exact taken.trans (State.handToOwner_leads leads ..)
  split
  · exact taken.toSame (State.refuseIntake_ledger ..)
  next passes =>
    exact (taken.trans (State.enterTable_leads passes)).trans (State.handToOwner_leads leads ..)

theorem Decision.Leading.onRequestWhen {owner : Decision} (leads : owner.Leading) (q : Request)
    (test : List Byte → Bool) : Machine.Leading (·.onRequestWhen q test owner) := by
  intro s
  dsimp only [State.onRequestWhen]
  split
  · split
    · exact State.takeRequest_leads leads ..
    · exact .same rfl
  · exact .same rfl

theorem Decision.Leading.onRequest {owner : Decision} (leads : owner.Leading) (q : Request) :
    Machine.Leading (·.onRequest q owner) := leads.onRequestWhen q _

theorem State.handOver_leads (s : State) : s.Leads s.handOver := by
  rcases s.handOver_cases with same | ⟨r, -, -, hands, handed⟩
  · exact .same (by rw [same])
  have taken : s.Leads s.removeHead := by
    rcases s.removeHead_cases with e | ⟨-, -, e⟩ <;> exact .same (by rw [e]; rfl)
  have entered : s.removeHead.Leads (s.removeHead.enterRecord (judge r)) := by
    unfold State.enterRecord
    split
    next tag q p judged =>
      have free : (s.lp.intakeRefusal tag q p).isNone = true := by
        rw [judged] at hands
        simp only [LinkPort.handsOver, Bool.and_eq_true] at hands
        exact hands.2
      have passes : s.removeHead.lp.intakeRefusal tag q p = none := by
        rcases s.removeHead_cases with e | ⟨-, -, e⟩ <;> rw [e] <;> exact Option.isNone_iff_eq_none.1 free
      exact State.enterTable_leads passes
    · exact .same rfl
  exact (taken.trans entered).toSame (by rw [handed]; rfl)

theorem State.idle_leads (s : State) : s.Leads s.idle :=
  (s.settledFor_leads _).trans ((State.handOver_leads _).toSame (State.elapse_ledger _ 1))

end Sys2Proof.Machine
end

