-- ==== Sys2Proof/Proofs/LedgerRequests.lean ====
section
/-! PROOFS. The moves of every request. -/

namespace Sys2Proof.Machine

/-! ### Requests that only answer, or change what the ledger does not hold -/

theorem decideIdentify_leading : Decision.Leading decideIdentify := fun _ _ s => s.done_leads ..

theorem decideStatus_leading : Decision.Leading decideStatus := fun _ _ s => s.done_leads ..

theorem decideCheckpoint_leading : Decision.Leading decideCheckpoint := fun _ _ s =>
  State.done_leads { s with lp := s.lp.clearErrors } ..

theorem decideSetRollTrim_leading : Decision.Leading decideSetRollTrim := fun _ p s =>
  State.answer_leads { s with du := { s.du with rollTrims := (trimsAt p).map clampTrim } } ..

theorem decideReadLogRepeat_leading : Decision.Leading decideReadLogRepeat := fun _ _ s => s.done_leads ..

theorem decideReadRule_leading : Decision.Leading decideReadRule := by
  intro tag p s
  dsimp only [decideReadRule]
  split
  · exact s.refuse_leads ..
  · exact s.done_leads ..

theorem decideReadProfile_leading : Decision.Leading decideReadProfile := by
  intro tag p s
  dsimp only [decideReadProfile]
  split
  · exact s.refuse_leads ..
  · exact s.done_leads ..

theorem decideSetFacetGains_leading : Decision.Leading decideSetFacetGains := by
  intro tag p s
  dsimp only [decideSetFacetGains]
  split
  · exact s.refuse_leads ..
  split
  · exact s.refuse_leads ..
  · have gained : s.Leads (s.setStu { s.stu with facets := setGains s.stu.facets p }) :=
      .same (State.setStu_ledger rfl)
    exact gained.done

theorem decideRestoreFacets_leading : Decision.Leading decideRestoreFacets := by
  intro tag p s
  dsimp only [decideRestoreFacets, State.noticeRestored]
  split
  · exact s.refuse_leads ..
  have restored : s.Leads (s.setStu { s.stu with facets := mapTable Facet.restore s.stu.facets }) :=
    .same (State.setStu_ledger rfl)
  split
  · exact (restored.trans (State.notice_leads ..)).done
  · exact restored.done

theorem decideSetFootage_leading : Decision.Leading decideSetFootage := by
  intro tag p s
  dsimp only [decideSetFootage]
  split
  · exact s.refuse_leads ..
  split
  · exact s.refuse_leads ..
  split
  · exact s.refuse_leads ..
  · exact State.Leads.done (.same (State.setTc_ledger ..))

theorem decideWriteRule_leading : Decision.Leading decideWriteRule := by
  intro tag p s
  dsimp only [decideWriteRule, State.writeRule]
  split
  · exact s.refuse_leads ..
  split
  · exact s.refuse_leads ..
  split
  · exact s.refuse_leads ..
  split
  · exact s.refuse_leads ..
  split
  · exact s.refuse_leads ..
  · exact State.Leads.done (.same (State.setRule_ledger ..))

theorem decideAbortFrame_leading : Decision.Leading decideAbortFrame := by
  intro tag p s
  dsimp only [decideAbortFrame]
  split
  · exact s.refuse_leads ..
  split
  · exact s.refuse_leads ..
  split
  · exact s.refuse_leads ..
  · exact State.Leads.done (.same (State.raise_ledger ..))

/-! ### The notice mask, the log, the responses and the profiles -/

/-- A release keeps the mask and every pending entry but the one released. -/
theorem State.releaseEntry_kept (s : State) (i : Fin 11) (level : Nat) :
    (s.releaseEntry i level).nu.mask = s.nu.mask ∧
      ∀ j : Fin 11, (s.releaseEntry i level).nu.pending[j].isSome = true → s.nu.pending[j].isSome = true := by
  unfold State.releaseEntry
  split
  · split
    · exact ⟨rfl, fun _ => id⟩
    · refine ⟨by simp, fun j => ?_⟩
      by_cases same : i.val = j.val <;> simp [same]
  · exact ⟨rfl, fun _ => id⟩

/-- A release clears a pending entry of a level above the mask (R201). -/
theorem State.releaseEntry_clears (s : State) (i : Fin 11) (level : Nat) (above : s.nu.mask < level) :
    (s.releaseEntry i level).nu.pending[i] = none := by
  unfold State.releaseEntry
  rw [if_pos above]
  split
  · assumption
  · simp

/-- The releases of a list of entries, in order (R201). -/
def State.releaseAll (s : State) (l : List (Fin 11 × Nat)) : State := l.foldl (fun t e => t.releaseEntry e.1 e.2) s

theorem State.setMask_eq (s : State) (m : Nat) : s.setMask m =
    if m < s.nu.mask then State.releaseAll { s with nu := { s.nu with mask := m } } releaseOrder
    else { s with nu := { s.nu with mask := m } } := rfl

theorem State.releaseAll_cons (s : State) (e : Fin 11 × Nat) (l : List (Fin 11 × Nat)) :
    s.releaseAll (e :: l) = (s.releaseEntry e.1 e.2).releaseAll l := rfl

/-- Releases in order leave the mask, and leave pending only entries that were so and are not above it. -/
theorem State.releaseAll_kept (l : List (Fin 11 × Nat)) (s : State) :
    (s.releaseAll l).nu.mask = s.nu.mask ∧
      (∀ j : Fin 11, (s.releaseAll l).nu.pending[j].isSome = true → s.nu.pending[j].isSome = true) ∧
      ∀ e ∈ l, (s.releaseAll l).nu.pending[e.1].isSome = true → e.2 ≤ s.nu.mask := by
  induction l generalizing s with
  | nil => exact ⟨rfl, fun _ => id, by simp⟩
  | cons e l ih =>
    obtain ⟨mask, only⟩ := s.releaseEntry_kept e.1 e.2
    obtain ⟨maskAfter, onlyAfter, low⟩ := ih (s.releaseEntry e.1 e.2)
    refine ⟨maskAfter.trans mask, fun j pending => only j (onlyAfter j pending), fun x hx pending => ?_⟩
    rcases List.mem_cons.1 hx with rfl | later
    · by_contra above
      have cleared := s.releaseEntry_clears x.1 x.2 (Nat.lt_of_not_le above)
      have stillPending := onlyAfter x.1 pending
      rw [cleared] at stillPending
      cases stillPending
    · exact mask ▸ low x later pending

theorem State.releaseAll_ledger (l : List (Fin 11 × Nat)) (s : State) :
    (s.releaseAll l).ledger = { s.ledger with notices := (s.releaseAll l).nu } := by
  induction l generalizing s with
  | nil => rfl
  | cons e l ih =>
    obtain ⟨n, o, form⟩ := s.releaseEntry_form e.1 e.2
    have one : (s.releaseEntry e.1 e.2).ledger =
        { s.ledger with notices := (s.releaseEntry e.1 e.2).nu } := by
      rw [form]
      rfl
    rw [State.releaseAll_cons, ih, one]

theorem State.setMask_leads (s : State) (m : Nat) : s.Leads (s.setMask m) := by
  have released (t : State) (l : List (Fin 11 × Nat)) (all : l = releaseOrder)
      (ledger : t.ledger = { s.ledger with notices := t.nu }) (pending : t.nu.pending = s.nu.pending) :
      s.Leads (t.releaseAll l) := by
    obtain ⟨mask, only, low⟩ := t.releaseAll_kept l
    refine .move ?_
    rw [State.releaseAll_ledger, ledger]
    refine .mask s.ledger _ fun e he isPending => ⟨?_, fun _ => ?_⟩
    · exact pending ▸ only e.1 isPending
    · exact mask ▸ low e (all ▸ he) isPending
  rw [State.setMask_eq]
  split
  · exact released _ _ rfl rfl rfl
  next raised =>
    refine .move (.mask s.ledger { s.nu with mask := m } fun e _ pending =>
      ⟨pending, fun low => low.trans (Nat.le_of_not_lt raised)⟩)

theorem decideSetNoticeMask_leading : Decision.Leading decideSetNoticeMask := by
  intro tag p s
  dsimp only [decideSetNoticeMask]
  split
  · exact s.refuse_leads ..
  · exact (s.setMask_leads _).done

theorem decideReadLog_leading : Decision.Leading decideReadLog := by
  intro tag p s
  dsimp only [decideReadLog]
  split
  · exact s.refuse_leads ..
  split
  · exact s.refuse_leads ..
  · exact State.Leads.done (t := { s with rl := s.rl.removeOldest (byteAt p 0) })
      (.move (.drop s.ledger (byteAt p 0)))

theorem allowedResponse_mem {k : FaultKind} {code : Nat} {r : Response} (h : allowedResponse k code = some r) :
    r ∈ k.allowed := by
  unfold allowedResponse at h
  split at h
  · cases h
  · split at h
    next allowed => exact Option.some.inj h ▸ allowed
    · cases h

theorem decideSetFaultResponse_leading : Decision.Leading decideSetFaultResponse := by
  intro tag p s
  dsimp only [decideSetFaultResponse]
  split
  · exact s.refuse_leads ..
  split
  · exact s.refuse_leads ..
  next k _ _ r allowed =>
    exact State.Leads.done (t := s.assign k r) (.move (.assign s.ledger k r (allowedResponse_mem allowed)))

theorem decideLoadProfile_leading : Decision.Leading decideLoadProfile := by
  intro tag p s
  dsimp only [decideLoadProfile, State.loadProfile]
  split
  · exact s.refuse_leads ..
  split
  · exact s.refuse_leads ..
  split
  · exact s.refuse_leads ..
  next i _ _ _ _ _ =>
    split
    · exact s.refuse_leads ..
    next unused =>
      have none : s.pt.profiles[i].refs = 0 := Nat.eq_zero_of_not_pos unused
      exact State.Leads.done (t := s.setProfile i (profileAt p s.pt.profiles[i].refs))
        (.move (.load s.ledger i (profileAt p s.pt.profiles[i].refs) none none))

/-! ### Set Parameter -/

/-- A change of Nsp or L0 is checked against the width of every slot (R6). -/
theorem State.setParameter_leads {s : State} {p : Parameter} {v : Nat} (holds : s.geometryHolds p v = true) :
    s.Leads (s.setParameter p v) := by
  have timing (x : TimingParams)
      (fits : ∀ (i : Fin 4) (r : SlotRecord), s.slot i = some r →
        s.stu.params.l0 + r.width ≤ s.stu.params.nsp → x.l0 + r.width ≤ x.nsp) : s.Leads (s.setTiming x) :=
    .move (.timing s.ledger x fits)
  have widths {nsp l0 : Nat} (fit : s.widthsFit nsp l0 = true) (i : Fin 4) (r : SlotRecord)
      (here : s.slot i = some r) : l0 + r.width ≤ nsp := by
    have member : s.slot i ∈ s.fs.slots.toList := by simp [State.slot]
    have fitsHere := List.all_eq_true.1 fit _ member
    rw [here] at fitsHere
    exact of_decide_eq_true fitsHere
  cases p with
  | tn | pn | tolerance => exact timing _ fun _ _ _ => id
  | nsp | l0 => exact timing _ fun i r here _ => widths holds i r here
  | target | deadband | steps | direction | persistence | settleTime => exact .same rfl
  | pauseTimeout | linePitch => exact .same rfl
  | knot => exact .same rfl

theorem decideSetParameter_leading : Decision.Leading decideSetParameter := by
  intro tag p s
  dsimp only [decideSetParameter]
  split
  · exact s.refuse_leads ..
  dsimp only [State.decideParameter]
  split
  · exact s.refuse_leads ..
  split
  · exact s.refuse_leads ..
  split
  · exact s.refuse_leads ..
  split
  · exact s.refuse_leads ..
  next holds => exact (State.setParameter_leads (by simpa using holds)).done

/-! ### The Frame Store's requests -/

/-- No non-FREE slot holds a key (R7). -/
theorem State.holdsKey_eq_false {s : State} {key : Key} (h : ¬ s.holdsKey key = true) (j : Fin 4) (x : SlotRecord)
    (there : s.slot j = some x) : x.key ≠ key := by
  rintro rfl
  have member : s.slot j ∈ s.fs.slots.toList := by simp [State.slot]
  refine h (List.any_eq_true.2 ⟨_, member, ?_⟩)
  simp [there]

/-- The geometry check (Table 1-3, R6). -/
theorem State.geometryFits_iff (s : State) (width height : Nat) : s.geometryFits width height = true ↔
    1 ≤ width ∧ width ≤ 4096 ∧ 1 ≤ height ∧ height ≤ 3200 ∧ s.stu.params.l0 + width ≤ s.stu.params.nsp := by
  simp only [State.geometryFits, Bool.and_eq_true, decide_eq_true_eq, and_assoc]
  rfl

/-- The slot an Open Frame fills is FREE. -/
theorem State.freeSlotIndex_free {s : State} {i : Fin 4} (h : s.freeSlotIndex = some i) : s.slot i = none := by
  simpa using List.find?_some h

theorem State.fillSlot_leads {s : State} {slot : Fin 4} {key : Key} {width height : Nat} {i : Fin 32}
    (fits : s.geometryFits width height = true) (fresh : ¬ s.holdsKey key = true)
    (loaded : ¬ s.pt.profiles[s.admission.rules[i].profile].valid = false) (free : s.freeSlotIndex = some slot) :
    s.Leads (s.fillSlot slot key width height i) := by
  obtain ⟨-, width4096, height1, height3200, scan⟩ := (s.geometryFits_iff width height).1 fits
  refine .move (.fill s.ledger slot
    (openedSlot key width height i s.admission.rules[i] (nextNumber s.fs.openCounter))
    (State.freeSlotIndex_free free) (Bool.eq_true_of_not_eq_false loaded) (State.holdsKey_eq_false fresh) rfl
    ⟨List.length_replicate, ?_, fun phase => absurd rfl phase⟩ ⟨width4096, height1, height3200⟩ scan)
  simp [openedSlot, List.countP_replicate]

theorem decideOpenFrame_leading : Decision.Leading decideOpenFrame := by
  intro tag p s
  dsimp only [decideOpenFrame, State.openFrame]
  split
  · exact s.refuse_leads ..
  next fits =>
    split
    · exact s.refuse_leads ..
    next fresh =>
      split
      · exact s.refuse_leads ..
      · dsimp only [State.openUnder]
        split
        · exact s.refuse_leads ..
        next loaded =>
          split
          · exact s.refuse_leads ..
          next free => exact (State.fillSlot_leads (by simpa using fits) fresh loaded free).done

theorem State.addressSlot_leads {s : State} (tag : Option Nat) (q : Request) (p : List Byte)
    {own : Fin 4 → State} (owns : ∀ i, s.Leads (own i)) : s.Leads (s.addressSlot tag q p own) := by
  unfold State.addressSlot
  split
  · exact s.refuse_leads ..
  split
  · exact s.refuse_leads ..
  split
  · exact s.refuse_leads ..
  exact owns _

theorem State.closeSlot_leads (s : State) (tag : Option Nat) (i : Fin 4) : s.Leads (s.closeSlot tag i) := by
  unfold State.closeSlot
  split
  · exact s.refuse_leads ..
  next r here =>
    split
    · exact s.refuse_leads ..
    next filling =>
      split
      · exact s.refuse_leads ..
      next complete =>
        refine State.Leads.done (.move ?_)
        rw [State.joinTail_ledger]
        exact .close s.ledger i r here (not_not.1 filling) (Nat.le_of_not_lt complete)

theorem decideCloseFrame_leading : Decision.Leading decideCloseFrame := fun tag p s =>
  State.addressSlot_leads tag _ p fun i => s.closeSlot_leads tag i

theorem State.requeueSlot_leads (s : State) (tag : Option Nat) (i : Fin 4) : s.Leads (s.requeueSlot tag i) := by
  unfold State.requeueSlot
  split
  · exact s.refuse_leads ..
  next r here =>
    split
    next held =>
      refine State.Leads.done (.move ?_)
      rw [State.joinHead_ledger]
      exact .requeue s.ledger i r here held
    · exact s.refuse_leads ..

theorem decideRequeueFrame_leading : Decision.Leading decideRequeueFrame := fun tag p s =>
  State.addressSlot_leads tag _ p fun i => s.requeueSlot_leads tag i

theorem State.noticeEmptied_leads (s : State) : s.Leads s.noticeEmptied := by
  unfold State.noticeEmptied
  split
  · exact s.notice_leads _
  · exact .same rfl

theorem State.discardSlot_leads (s : State) (tag : Option Nat) (i : Fin 4) : s.Leads (s.discardSlot tag i) := by
  have freed (r : SlotRecord) (here : s.slot i = some r) (idle : r.phase = .filling ∨ r.phase = .held) :
      s.Leads (s.freeSlot i) := by
    refine .move ?_
    rw [State.freeSlot_ledger here]
    exact .discard s.ledger i r here idle
  unfold State.discardSlot
  split
  · exact s.refuse_leads ..
  next r here =>
    cases phase : r.phase with
    | filling => exact (freed r here (.inl phase)).done
    | queued =>
      have left : s.Leads ((s.freeSlot i).leaveQueue i) := by
        refine .move ?_
        have ledger : ((s.freeSlot i).leaveQueue i).ledger =
            { s.ledger.free i r with queue := s.ledger.queue.filter (· ≠ i) } := by
          rw [State.freeSlot, here]
          rfl
        rw [ledger]
        exact .unqueue s.ledger i r here phase
      exact (left.trans (State.noticeEmptied_leads _)).done
    | active => exact s.refuse_leads ..
    | held => exact (freed r here (.inr phase)).done

theorem decideDiscardFrame_leading : Decision.Leading decideDiscardFrame := fun tag p s =>
  State.addressSlot_leads tag _ p fun i => s.discardSlot_leads tag i

/-! ### Requests that direct the engine -/

theorem decideStart_leading (q : Request) (from_ : Engine) (filmPresent : Bool) :
    Decision.Leading (fun s tag _ => s.decideStart tag q from_ filmPresent) := by
  intro tag p s
  dsimp only [State.decideStart]
  split
  · exact s.refuse_leads ..
  split
  · exact s.refuse_leads ..
  · exact State.enterStarting_leads (s.setPending .start (some ⟨q, tag⟩))

theorem decideStopEngine_leading : Decision.Leading decideStopEngine := by
  intro tag p s
  have stops := State.enterStopping_leads (s.setPending .stop (some ⟨.stopEngine, tag⟩))
  dsimp only [decideStopEngine]
  split
  · exact s.refuse_leads ..
  split
  · exact .same rfl
  split
  · exact stops.trans (State.failReply_leads ..)
  · exact stops

theorem State.endInHand_leads (s : State) : s.Leads s.endInHand := by
  unfold State.endInHand
  split
  · exact s.returnFrame_leads
  · exact s.spoilFrame_leads _
  · exact s.spoilFrame_leads _
  · exact s.spoilFrame_leads _
  · exact s.spoilFrame_leads _
  · exact s.endBlankEarly_leads
  · exact .same rfl

theorem decideResetEngine_leading : Decision.Leading decideResetEngine := by
  intro tag p s
  have stopped : s.Leads s.resetMechanisms := .same (by simp [State.resetMechanisms])
  have abandoned (t : State) : t.Leads (t.abandonReplies tag) :=
    ((((t.failReply_leads ..).trans (State.failReply_leads ..)).trans (State.failReply_leads ..)).trans
      (State.failReply_leads ..)).toSame (State.setPending_ledger ..)
  have ended := ((stopped.trans (abandoned _)).toSame (State.clearFlags_ledger _)).trans (State.endInHand_leads _)
  dsimp only [decideResetEngine, State.resetToStopping]
  split
  · exact ended
  · exact ended.trans (State.enterStopping_leads _)

theorem decideAdvanceFilm_leading : Decision.Leading decideAdvanceFilm := by
  intro tag p s
  dsimp only [decideAdvanceFilm, State.beginBlank]
  split
  · exact s.refuse_leads ..
  split
  · exact s.refuse_leads ..
  split
  · exact s.refuse_leads ..
  · refine State.Leads.toSame (State.Leads.trans (.same ?_) (State.setEngine_leads ..)) (State.pullDown_ledger _)
    rfl

end Sys2Proof.Machine
end

