-- ==== Sys2Proof/Proofs/LedgerEvents.lean ====
section
/-! PROOFS. The moves of the events of the link, the scan, the lasers, the timers and the film mechanisms, and so of
every step. -/

namespace Sys2Proof.Machine

/-! ### The link and line records -/

theorem State.bringUp_leading : Leading State.bringUp := by
  intro s
  unfold State.bringUp
  split
  · exact .same rfl
  · exact State.Leads.trans (t := ({ s with lp := { s.lp with up := true } } : State).sendFlow .go) (.same rfl)
      (State.notice_leads ..)

theorem State.resetLink_leading : Leading State.resetLink := by
  intro s
  unfold State.resetLink
  split
  · refine State.Leads.trans (.move ?_) (State.notice_leads ..)
    exact .unlink s.ledger
  · exact .same rfl

theorem State.arrive_leading (bytes : List Byte) : Leading (·.arrive bytes) := .of_ledger fun s => by
  dsimp only [State.arrive]
  repeat' split
  all_goals rfl

theorem State.dropHead_leading : Leading State.dropHead := .of_ledger fun s => by
  unfold State.dropHead
  split <;> simp

theorem State.refuseHead_leading : Leading State.refuseHead := .of_ledger fun s => by
  unfold State.refuseHead
  split <;> simp

/-- What a line record that is stored has been checked for (Table 1-4). -/
theorem State.lineRefusal_none {s : State} {slot line count : Nat} (h : s.lineRefusal slot line count = none) :
    ∃ i r, index? slot 4 = some i ∧ s.slot i = some r ∧ r.phase = .filling ∧ line < r.height ∧ count = r.width := by
  unfold State.lineRefusal at h
  split at h
  · cases h
  next i index =>
    split at h
    · cases h
    next r here =>
      split at h
      · cases h
      next filling =>
        split at h
        · cases h
        next inside =>
          split at h
          · cases h
          next width => exact ⟨i, r, index, here, not_not.1 filling, Nat.lt_of_not_le inside, not_not.1 width⟩

theorem State.decideLine_leading (slot line count : Nat) (words : List Byte) :
    Leading (·.decideLine slot line count words) := by
  intro s
  dsimp only [State.decideLine]
  split
  · exact .same rfl
  next passes =>
    obtain ⟨i, r, index, here, filling, inside, -⟩ := State.lineRefusal_none passes
    simp only [index, State.storeLine, here]
    exact .move (.line s.ledger i r line words here filling inside)

/-! ### The take of the queue head (R121) -/

theorem State.aimWheels_ledger (s : State) (targets : Rgb Nat) : (s.aimWheels targets).ledger = s.ledger := by
  have aim (t : State) (c : Channel) (target : Nat) : (t.aimWheel c target).ledger = t.ledger := by
    unfold State.aimWheel
    split <;> rfl
  simp only [State.aimWheels, aim]

theorem State.freshFilm_ledger (s : State) : s.freshFilm.ledger = s.ledger := by
  unfold State.freshFilm
  split <;> simp

theorem State.bringStage_ledger (s : State) : s.bringStage.ledger = s.ledger := by
  unfold State.bringStage
  repeat' split
  all_goals rfl

theorem State.takeSlot_leads {s : State} {i : Fin 4} {rest : List (Fin 4)} {r : SlotRecord}
    (head : s.fs.queue = i :: rest) (here : s.slot i = some r) : s.Leads (s.takeSlot i rest r) := by
  have taken : s.Leads (((((s.setQueue rest).setPhase i .active).reserve (.frame i)).fillFrameLatch r.profile).setEs
      { ((((s.setQueue rest).setPhase i .active).reserve (.frame i)).fillFrameLatch r.profile).es with
        exposure := some (newExposure i r
          ((((s.setQueue rest).setPhase i .active).reserve (.frame i)).fillFrameLatch r.profile).du.rollTrims) }) := by
    refine .move ?_
    have active : ((s.setQueue rest).setPhase i .active).ledger =
        { s.ledger.setPhase i .active with queue := rest } := by
      rw [State.setPhase, show (s.setQueue rest).slot i = some r from here, Ledger.setPhase,
        show s.ledger.slots[i] = some r from here]
      rfl
    have ledger : ∀ t : State, ∀ e, (((t.reserve (.frame i)).fillFrameLatch r.profile).setEs
        { ((t.reserve (.frame i)).fillFrameLatch r.profile).es with exposure := some (newExposure i r e) }).ledger =
          { t.ledger with frame := some (i, 0) } := fun _ _ => rfl
    rw [ledger, active]
    exact .take s.ledger i rest r head here
  refine (taken.trans (State.setEngine_leads _ .preparing none)).toSame ?_
  unfold State.takeSlot
  rw [State.checkPreparing_ledger, State.bringStage_ledger, State.freshFilm_ledger, State.aimWheels_ledger]

theorem State.takeHeadSlot_leading : Leading State.takeHeadSlot := by
  intro s
  unfold State.takeHeadSlot
  split
  · exact .same rfl
  next i rest head =>
    split
    · exact .same rfl
    next r here =>
      split
      · exact State.takeSlot_leads head here
      · exact .same rfl

/-! ### The scan (chapter 5) -/

theorem Leading.afterTicks {effect : State → State} (leads : Leading effect) (ticks : Nat) :
    Leading (fun s => effect (s.elapse ticks)) := fun s =>
  State.Leads.trans (.same (s.elapse_ledger ticks)) (leads _)

theorem State.countLine_leads {s : State} {e : ExposureRecord} (present : s.es.exposure = some e)
    (o : ScanOutcome) : s.Leads (s.countLine e o) := by
  have counted (x : ExposureRecord) (same : (x.slot, x.line) = (e.slot, e.line)) :
      ((s.setEs { s.es with lineInProgress := none, exposure := some x }).emptyLineLatch).ledger = s.ledger := by
    rw [State.emptyLineLatch_ledger]
    exact State.setEs_ledger (by simp [present, same])
  unfold State.countLine
  dsimp only
  split
  next more =>
    have heightOf : e.line + 1 < s.heightOf e.slot := more
    unfold State.heightOf at heightOf
    split at heightOf
    · cases heightOf
    next r here =>
      exact .move (.nextLine s.ledger e.slot e.line r (State.frameLine_of present) here heightOf)
  · exact State.Leads.trans (.same (counted (e.count o s.du.lineClips) rfl)) (State.enterFinishing_leads _)

theorem State.scanEnd_leads (s : State) (f : Fin 8) (o : ScanOutcome) : s.Leads (s.scanEnd f o) := by
  unfold State.scanEnd
  split
  · exact .same rfl
  next present =>
    split
    · exact State.countLine_leads present o
    · exact .same rfl

theorem State.announceExclusion_leads (s : State) (f : Fin 8) (excluded : Bool) :
    s.Leads (s.announceExclusion f excluded) := by
  unfold State.announceExclusion
  split
  · dsimp only
    split
    · exact (s.notice_leads _).toSame (State.raise_ledger ..)
    · exact s.notice_leads _
  · exact .same rfl

theorem State.badScan_leads (s : State) (f : Fin 8) (o : ScanOutcome) : s.Leads (s.badScan f o) :=
  (State.Leads.trans (.same (s.setFacet_ledger f _)) (State.scanEnd_leads ..)).trans
    (State.announceExclusion_leads ..)

theorem State.goodScan_leads (s : State) (f : Fin 8) (tm : Nat) : s.Leads (s.goodScan f tm) :=
  State.Leads.trans (.same (s.setFacet_ledger f _)) (State.scanEnd_leads ..)

theorem State.endMissed_leads (s : State) : s.Leads s.endMissed := by
  unfold State.endMissed
  split
  · exact .same rfl
  · split
    · exact State.Leads.trans (.same s.armScan_ledger) (State.scanEnd_leads ..)
    · have counted (x : ScanStats) : s.Leads (s.armScan.setStats x) := .same rfl
      exact (counted _).trans (State.badScan_leads ..)

@[simp] theorem State.beginScan_ledger (s : State) : s.beginScan.ledger = s.ledger := by
  rw [State.beginScan, State.scanBegin_ledger]
  rfl

theorem State.lockSpeed_leads (s : State) : s.Leads s.lockSpeed := by
  have running : s.Leads (s.setStu { s.stu with speed := .running }) := .same (State.setStu_ledger rfl)
  exact (running.trans (State.checkStarting_leads _)).toSame (State.beginScan_ledger _)

theorem State.acquiringSos_leads (s : State) : s.Leads s.acquiringSos := by
  have judged (t : State) : (t.setStu t.stu.lockJudge).ledger = t.ledger := by
    refine State.setStu_ledger ?_
    unfold ScanUnit.lockJudge
    split <;> rfl
  have triggered (p : Nat) : s.Leads ((s.advanceCounter.trigger p).setStu (s.advanceCounter.trigger p).stu.lockJudge) :=
    .same (by rw [judged, State.trigger_ledger, State.advanceCounter_ledger])
  unfold State.acquiringSos
  dsimp only
  split
  · exact (triggered _).trans (State.lockSpeed_leads _)
  · exact triggered _

theorem State.takeSos_leading : Leading State.takeSos := by
  intro s
  unfold State.takeSos
  split
  · exact .same rfl
  · exact s.acquiringSos_leads
  · unfold State.runningSos
    exact s.endMissed_leads.toSame (by simp)

theorem State.takeEos_leading : Leading State.takeEos := by
  intro s
  unfold State.takeEos
  split
  · split
    · exact .same rfl
    next f tm slipped _ _ =>
      have measured : s.Leads (s.armScan.measure f tm) := .same rfl
      unfold State.endScan
      split
      · exact State.Leads.trans (.same s.armScan_ledger) (State.scanEnd_leads ..)
      split
      · exact measured.trans (State.goodScan_leads ..)
      · exact measured.trans (State.badScan_leads ..)
  · exact .same rfl

theorem State.takeIndex_leading : Leading State.takeIndex := .of_ledger fun s => by
  unfold State.takeIndex State.correctSlip
  repeat' split
  all_goals rfl

theorem State.takeWatchExpiry_leading : Leading State.takeWatchExpiry := by
  intro s
  unfold State.takeWatchExpiry State.lossAtRun
  split
  · split <;> exact s.endMissed_leads.toSame rfl
  · exact .same rfl

/-! ### The lasers (chapter 6) -/

theorem PowerChannel.judge_trim (c : PowerChannel) (p : PowerParams) (target r : Nat) :
    (c.judge p target r).channel.trim = c.trim := by
  unfold PowerChannel.judge
  dsimp only
  repeat' split
  all_goals rfl

/-- The servo steps a trim within −31 to +31, or leaves it (R104). -/
theorem ChannelSample.servo_trim (x : ChannelSample) (deadband target r : Nat) :
    (x.servo deadband target r).channel.trim = x.channel.trim ∨
      -31 ≤ (x.servo deadband target r).channel.trim ∧ (x.servo deadband target r).channel.trim ≤ 31 := by
  unfold ChannelSample.servo ChannelSample.endBlock
  dsimp only
  split
  · split
    · exact .inl rfl
    split
    next within => exact .inr within
    · exact .inl rfl
  · exact .inl rfl

theorem PowerChannel.sample_trim {c : PowerChannel} (p : PowerParams) (target r : Nat)
    (within : -31 ≤ c.trim ∧ c.trim ≤ 31) :
    -31 ≤ (c.sample p target r).channel.trim ∧ (c.sample p target r).channel.trim ≤ 31 := by
  unfold PowerChannel.sample
  split
  · rcases ChannelSample.servo_trim ({ c with reading := some r, firing := false }.judge p target r)
      p.deadband target r with same | stepped
    · rw [same, PowerChannel.judge_trim]
      exact within
    · exact stepped
  · exact within

theorem State.setSample_leads (s : State) (r : Rgb Nat) :
    s.Leads (s.setChannels ((s.pl.sample r).map (·.channel))) := by
  refine .move (Move.trim s.ledger ((s.pl.sample r).map (fun x : ChannelSample => x.channel.trim)) fun c => ?_)
  cases c with
  | red | green | blue => exact PowerChannel.sample_trim _ _ _

theorem State.settleChannel_leading (c : Channel) : Leading (·.settleChannel c) := by
  intro s
  dsimp only [State.settleChannel]
  split
  · refine State.Leads.toSame (State.Leads.trans (.same ?_) (State.checkStarting_leads _))
      (State.checkPreparing_ledger _)
    refine State.setChannels_ledger ?_
    cases c <;> rfl
  · exact .same rfl

theorem State.onClear_leads (s : State) (cleared : Bool) : s.Leads (s.onClear cleared) := by
  have resumed : (s.es.exposure.map ExposureRecord.resume).map (fun e => (e.slot, e.line)) =
      s.es.exposure.map fun e => (e.slot, e.line) := by
    cases s.es.exposure <;> rfl
  unfold State.onClear State.leavePaused
  split
  · split
    · exact State.Leads.trans (.same (State.setEs_ledger resumed)) (State.setEngine_leads ..)
    · exact .same s.checkPreparing_ledger
  · exact .same rfl

theorem State.noticeAtLimit_leads (s : State) (x : Rgb ChannelSample) : s.Leads (s.noticeAtLimit x) := by
  unfold State.noticeAtLimit
  split
  · exact s.notice_leads _
  · exact .same rfl

theorem State.takeSample_leads (s : State) (r : Rgb Nat) : s.Leads (s.takeSample r) := by
  unfold State.takeSample State.reportSample
  split
  · exact ((((s.setSample_leads r).toSame (State.raise?_ledger ..)).trans (State.onClear_leads ..)).trans
      (State.noticeAtLimit_leads ..)).toSame (State.raise?_ledger ..)
  · exact .same rfl

theorem State.openDoor_leading : Leading State.openDoor := fun s =>
  State.Leads.trans (.same (by simp)) (State.notice_leads ((s.laserDisable.setInterlock true).raise .interlock) _)

theorem State.closeDoor_leading : Leading State.closeDoor := fun s => State.notice_leads (s.setInterlock false) _

/-! ### Timers, wheels and stage (chapter 7) -/

theorem State.expireStart_leading : Leading State.expireStart := .of_ledger fun s => by
  unfold State.expireStart
  split <;> rfl

theorem State.expirePause_leading : Leading State.expirePause := .of_ledger fun s => by
  unfold State.expirePause
  split <;> rfl

theorem State.polygonAtRest_leading : Leading State.polygonAtRest := by
  intro s
  unfold State.polygonAtRest
  split
  · exact s.enterOffline_leads
  · exact .same rfl

theorem State.expireStop_leading : Leading State.expireStop := by
  intro s
  unfold State.expireStop
  split
  · exact s.enterOffline_leads
  · exact .same rfl

theorem State.wheelArrived_leading (c : Channel) : Leading (·.wheelArrived c) := .of_ledger fun s => by
  dsimp only [State.wheelArrived]
  split <;> simp

theorem State.wheelExpired_leading (c : Channel) : Leading (·.wheelExpired c) := .of_ledger fun s => by
  dsimp only [State.wheelExpired]
  split <;> simp

theorem State.stageHomed_leading : Leading State.stageHomed := by
  intro s
  unfold State.stageHomed
  split
  · exact State.checkStarting_leads (s.setStage (.settled 0))
  · exact .same rfl

theorem State.stageArrived_leading : Leading State.stageArrived := .of_ledger fun s => by
  unfold State.stageArrived
  dsimp only
  repeat' split
  all_goals simp

theorem State.stageExpired_leading : Leading State.stageExpired := .of_ledger fun s => by
  unfold State.stageExpired
  dsimp only
  repeat' split
  all_goals simp

/-! ### The film mechanisms (chapter 8) -/

theorem State.failGate_leads (s : State) (outcome : GateOutcome) (f : GateOp → FaultReport) :
    s.Leads (s.failGate outcome f) := by
  unfold State.failGate
  split
  · exact .same rfl
  next op _ =>
    exact (State.closeBlank_leads ((s.setTc (s.tc.fail op outcome)).command .transportStop)).toSame
      (State.raise_ledger ..)

theorem State.clampOpened_leading : Leading State.clampOpened := .of_ledger fun s => by
  unfold State.clampOpened
  split <;> rfl

theorem State.perforation_leading : Leading State.perforation := .of_ledger fun s => by
  unfold State.perforation
  split <;> rfl

theorem State.cycleEnded_leading : Leading State.cycleEnded := by
  intro s
  unfold State.cycleEnded
  split
  · split
    · exact .same rfl
    · exact s.failGate_leads ..
  · exact .same rfl

theorem State.clampClosed_leading (filmPresent : Bool) : Leading (·.clampClosed filmPresent) := by
  intro s
  dsimp only [State.clampClosed]
  split
  · split
    · exact .same rfl
    · exact s.failGate_leads ..
  · exact .same rfl

theorem State.operationExpired_leading : Leading State.operationExpired := by
  intro s
  unfold State.operationExpired
  split
  · exact s.failGate_leads ..
  · exact .same rfl

theorem State.countBlank_leads (s : State) (b : BlankAdvance) : s.Leads (s.countBlank b) := by
  unfold State.countBlank State.endBlank
  dsimp only
  split
  · exact .same (State.pullDown_ledger _)
  · exact (((s.append_leads _ _).toSame (State.dropBlank_ledger _)).trans (State.endReply_leads ..)).trans
      (State.endAdvancing_leads _)

theorem State.pulledDown_leads (s : State) : s.Leads s.pulledDown := by
  unfold State.pulledDown
  split
  · split
    · exact s.endAdvancing_leads
    · exact s.countBlank_leads _
  · exact .same s.checkPreparing_ledger

theorem State.gateSettled_leading : Leading State.gateSettled := by
  intro s
  unfold State.gateSettled
  split
  · split
    · exact .same rfl
    · exact State.pulledDown_leads (s.setTc s.tc.completePullDown)
    · exact State.checkStarting_leads (s.setTc s.tc.completeClamp)
  · exact .same rfl

theorem State.pauseIfTripped_leads (s : State) : s.Leads s.pauseIfTripped := by
  unfold State.pauseIfTripped
  split
  · exact s.enterPaused_leads
  · exact .same rfl

theorem State.beginExposing_leads (s : State) : s.Leads s.beginExposing := by
  unfold State.beginExposing
  split
  · exact .same rfl
  split
  · exact .same rfl
  · exact ((State.Leads.trans (.same (s.print_ledger _)) (State.setEngine_leads ..)).trans
      (State.notice_leads ..)).trans (State.pauseIfTripped_leads _)

theorem State.shutterOpened_leading : Leading State.shutterOpened := by
  intro s
  unfold State.shutterOpened
  dsimp only
  split
  · split
    · exact State.beginExposing_leads
        (s.setTc { s.tc with shutter := .opened, shutterTimer := none, gateUsed := true })
    · exact .same rfl
  · exact .same rfl

theorem State.onClosed_leads (s : State) : s.Leads s.onClosed := by
  unfold State.onClosed State.abortingClosed
  split
  · exact s.finishFrame_leads
  · split
    · exact .same (s.print_ledger _)
    · exact s.endAborting_leads
  · exact .same s.checkPreparing_ledger

theorem State.shutterClosed_leading : Leading State.shutterClosed := by
  intro s
  unfold State.shutterClosed
  split
  · exact State.onClosed_leads (s.setTc { s.tc with shutter := .closed, shutterTimer := none })
  · exact .same rfl

theorem State.shutterExpired_leading : Leading State.shutterExpired := .of_ledger fun s => by
  unfold State.shutterExpired
  repeat' split
  all_goals rfl

@[simp] theorem State.headFree_ledger (s : State) : s.headFree.ledger = s.ledger := by
  unfold State.headFree
  split <;> rfl

theorem State.frameMarkPrinted_ledger (s : State) : s.frameMarkPrinted.ledger = s.ledger :=
  State.setEs_ledger (by cases s.es.exposure <;> rfl)

theorem State.onPrinted_leads (s : State) (m : Mark) : s.Leads (s.onPrinted m) := by
  unfold State.onPrinted
  split
  · split
    · exact .same s.frameMarkPrinted_ledger
    · split
      · exact s.endAborting_leads
      · exact .same rfl
  · exact .same rfl

theorem State.markDone_leading : Leading State.markDone := by
  intro s
  unfold State.markDone
  split
  · exact .same rfl
  · exact State.Leads.trans (.same s.headFree_ledger) (State.onPrinted_leads ..)

/-! ### The commands with a shape of their own -/

theorem execPowerOnReset_leads {doorOpen : Bool} {s t : State} (e : execPowerOnReset doorOpen s = .next t) :
    s.Leads t := by
  obtain rfl := Host.Outcome.next.inj e
  exact .move (.powerOn s.ledger doorOpen)

theorem execLineRecord_leads {s t : State} (e : execLineRecord s = .next t) : s.Leads t := by
  unfold Machine.execLineRecord at e
  split at e
  · split at e
    · obtain rfl := Host.Outcome.next.inj e
      exact (State.Leads.trans (.same s.takeRecord_ledger) (State.decideLine_leading ..)).trans
        (State.concluded_leads _)
    · cases e
  · obtain rfl := Host.Outcome.next.inj e
    exact s.concluded_leads

theorem execSampleCompletion_leads {s t : State} {r : Rgb Nat} (e : execSampleCompletion r s = .next t) :
    s.Leads t := by
  have settled := s.settledFor_leads FaultKind.beforeSample
  unfold Machine.execSampleCompletion at e
  dsimp only at e
  split at e
  · split at e
    · obtain rfl := Host.Outcome.next.inj e
      exact ((settled.trans (State.takeSample_leads ..)).toSame (State.driveLine_ledger _)).trans
        (State.concluded_leads _)
    · cases e
  · obtain rfl := Host.Outcome.next.inj e
    exact settled.trans (State.concluded_leads _)

theorem execFaultTake_leads {s t : State} (e : execFaultTake s = .next t) : s.Leads t := by
  obtain rfl := Host.Outcome.next.inj e
  exact State.takeOne_leads State.takeEvent_leads s

/-- Every command changes the ledger by moves: an event, a request by its owner's decision, or one of the few with a
shape of their own. -/
theorem exec_leads {s t : State} (i : Instr) (e : exec i s = .next t) : s.Leads t := by
  cases i with
  | powerOnReset doorOpen => exact execPowerOnReset_leads e
  | linkUp => exact State.bringUp_leading.run e
  | linkReset => exact State.resetLink_leading.run e
  | recordArrival bytes => exact (State.arrive_leading bytes).run e
  | droppedRecord => exact State.dropHead_leading.run e
  | unknownRecord => exact State.refuseHead_leading.run e
  | lineRecord => exact execLineRecord_leads e
  | identify => exact (decideIdentify_leading.onRequest _).run e
  | status => exact (decideStatus_leading.onRequest _).run e
  | checkpoint => exact (decideCheckpoint_leading.onRequest _).run e
  | setParameter => exact (decideSetParameter_leading.onRequest _).run e
  | setNoticeMask => exact (decideSetNoticeMask_leading.onRequest _).run e
  | openFrame => exact (decideOpenFrame_leading.onRequest _).run e
  | closeFrame => exact (decideCloseFrame_leading.onRequest _).run e
  | discardFrame => exact (decideDiscardFrame_leading.onRequest _).run e
  | requeueFrame => exact (decideRequeueFrame_leading.onRequest _).run e
  | writeRule => exact (decideWriteRule_leading.onRequest _).run e
  | readRule => exact (decideReadRule_leading.onRequest _).run e
  | loadProfile => exact (decideLoadProfile_leading.onRequest _).run e
  | readProfile => exact (decideReadProfile_leading.onRequest _).run e
  | setRollTrim => exact (decideSetRollTrim_leading.onRequest _).run e
  | setFacetGains => exact (decideSetFacetGains_leading.onRequest _).run e
  | restoreFacets => exact (decideRestoreFacets_leading.onRequest _).run e
  | setFootage => exact (decideSetFootage_leading.onRequest _).run e
  | setFaultResponse => exact (decideSetFaultResponse_leading.onRequest _).run e
  | abortFrame => exact (decideAbortFrame_leading.onRequest _).run e
  | readLog => exact (decideReadLog_leading.onRequestWhen _ _).run e
  | readLogRepeat => exact (decideReadLogRepeat_leading.onRequestWhen _ _).run e
  | startEngine filmPresent => exact ((decideStart_leading _ _ filmPresent).onRequest _).run e
  | resumeEngine filmPresent => exact ((decideStart_leading _ _ filmPresent).onRequest _).run e
  | stopEngine => exact (decideStopEngine_leading.onRequest _).run e
  | resetEngine => exact (decideResetEngine_leading.onRequest _).run e
  | advanceFilm => exact (decideAdvanceFilm_leading.onRequest _).run e
  | queueTake => exact State.takeHeadSlot_leading.run e
  | sos ticks => exact (State.takeSos_leading.afterTicks ticks).runAfter e
  | eos ticks => exact (State.takeEos_leading.afterTicks ticks).runAfter e
  | indexPulse => exact State.takeIndex_leading.run e
  | sosWatchExpiry => exact State.takeWatchExpiry_leading.runAfter e
  | laserSettleExpiry channel => exact (State.settleChannel_leading channel).runAfter e
  | sampleCompletion readings => exact execSampleCompletion_leads e
  | interlockOpening => exact State.openDoor_leading.run e
  | interlockClosing => exact State.closeDoor_leading.run e
  | startTimerExpiry => exact State.expireStart_leading.run e
  | polygonStopped => exact State.polygonAtRest_leading.run e
  | stopTimerExpiry => exact State.expireStop_leading.run e
  | wheelInPosition channel => exact (State.wheelArrived_leading channel).run e
  | wheelTimerExpiry channel => exact (State.wheelExpired_leading channel).runAfter e
  | stageHomeReport => exact State.stageHomed_leading.runAfter e
  | stageInPosition => exact State.stageArrived_leading.run e
  | stageTimerExpiry => exact State.stageExpired_leading.run e
  | pauseTimerExpiry => exact State.expirePause_leading.run e
  | clampOpenConfirmation => exact State.clampOpened_leading.run e
  | perforationEdge => exact State.perforation_leading.run e
  | cycleEnd => exact State.cycleEnded_leading.run e
  | clampClosedConfirmation filmPresent => exact (State.clampClosed_leading filmPresent).run e
  | gateSettleExpiry => exact State.gateSettled_leading.runAfter e
  | operationTimerExpiry => exact State.operationExpired_leading.run e
  | shutterOpenConfirmation => exact State.shutterOpened_leading.run e
  | shutterClosedConfirmation => exact State.shutterClosed_leading.run e
  | shutterTimerExpiry => exact State.shutterExpired_leading.run e
  | edgePrintDone => exact State.markDone_leading.run e
  | faultTake => exact execFaultTake_leads e

/-- Every step changes the ledger by moves alone. -/
theorem step_leads {s t : State} (e : step s = .next t) : s.Leads t := by
  unfold step at e
  split at e
  · obtain rfl := Host.Outcome.next.inj e
    exact s.idle_leads
  next c rest _ => exact State.Leads.trans (t := { s with pending := rest }) (.same rfl) (exec_leads c e)

end Sys2Proof.Machine
end

