-- ==== Sys2Proof/Proofs/SlotsKept.lean ====
section
/-! PROOFS. Each move keeps each invariant of the slots, the log, the link and the settings, and so does every step. -/

namespace Sys2Proof.Machine

/-- What every move keeps, every step keeps. -/
theorem State.Leads.keeps {P : Ledger → Prop} (keeps : ∀ {a b}, Move a b → P a → P b) {s t : State} (h : s.Leads t) :
    P s.ledger → P t.ledger := by
  intro holds
  exact Relation.ReflTransGen.head_induction_on (motive := fun a _ => P a → P t.ledger) h id
    (fun move _ rest holds => rest (keeps move holds)) holds

/-! ### Slots under the changes of one part -/

theorem Ledger.put_slots (a : Ledger) (i j : Fin 4) (r : Option SlotRecord) :
    (a.put i r).slots[j] = if i = j then r else a.slots[j] := by
  simp [Ledger.put, Vector.getElem_set, Fin.ext_iff]

theorem Ledger.setPhase_of {a : Ledger} {i : Fin 4} {r : SlotRecord} (here : a.slots[i] = some r) (p : Phase) :
    a.setPhase i p = a.put i (some { r with phase := p }) := by
  simp only [Ledger.setPhase, here]

theorem SlotRecord.mark_same (r : SlotRecord) (line : Nat) :
    (r.mark line).phase = r.phase ∧ (r.mark line).key = r.key ∧ (r.mark line).width = r.width ∧
      (r.mark line).height = r.height ∧ (r.mark line).profile = r.profile := by
  unfold SlotRecord.mark
  split <;> exact ⟨rfl, rfl, rfl, rfl, rfl⟩

/-- A line marked keeps the presence law of a FILLING slot (R11). -/
theorem SlotRecord.Present.mark {r : SlotRecord} (h : r.Present) (filling : r.phase = .filling) {line : Nat}
    (inside : line < r.height) : (r.mark line).Present := by
  obtain ⟨length, count, -⟩ := h
  have line' : line < r.presence.length := length ▸ inside
  unfold SlotRecord.mark
  split
  · exact ⟨length, count, fun left => absurd filling left⟩
  next absent =>
    have unmarked : r.presence[line] = false := by simpa [List.getElem?_eq_getElem line'] using absent
    refine ⟨List.length_set.trans length, ?_, fun left => absurd filling left⟩
    simp [List.countP_set, line', unmarked, count]

/-! ### Reference counts (R49, R50, R52) -/

/-- Whether a slot names a profile. -/
def namesProfile (p : Fin 8) : Option SlotRecord → Bool
  | none => false
  | some r => r.profile == p

def Ledger.naming (a : Ledger) (p : Fin 8) : Nat := a.slots.toList.countP (namesProfile p)

theorem State.naming_ledger (s : State) (p : Fin 8) : s.naming p = s.ledger.naming p := by
  refine congrArg (List.countP · s.fs.slots.toList) (funext fun r => ?_)
  cases r <;> rfl

def Ledger.refs (a : Ledger) (p : Fin 8) : Nat := a.profiles[p].refs

def Ledger.loaded (a : Ledger) (p : Fin 8) : Bool := a.profiles[p].valid

structure Ledger.ProfilesHeld (a : Ledger) : Prop where
  counts : ∀ p, a.refs p = a.naming p
  loaded : ∀ p, 0 < a.naming p → a.loaded p = true

theorem profilesHeld_iff (s : State) : ProfilesHeld s ↔ s.ledger.ProfilesHeld := by
  have naming := s.naming_ledger
  exact ⟨fun h => ⟨fun p => naming p ▸ h.counts p, fun p => naming p ▸ h.loaded p⟩,
    fun h => ⟨fun p => naming p ▸ h.counts p, fun p => naming p ▸ h.loaded p⟩⟩

theorem Ledger.naming_put (a : Ledger) (i : Fin 4) (r : Option SlotRecord) (p : Fin 8) :
    (a.put i r).naming p + (if namesProfile p a.slots[i] then 1 else 0) =
      a.naming p + if namesProfile p r then 1 else 0 := by
  have positive : namesProfile p a.slots[i] = true → 0 < a.naming p := fun names =>
    List.countP_pos_iff.2 ⟨_, by simp, names⟩
  have count : (a.put i r).naming p = a.naming p - (if namesProfile p a.slots[i] then 1 else 0) +
      if namesProfile p r then 1 else 0 := by
    rw [Ledger.naming, Ledger.put, Vector.toList_set, List.countP_set (by simp), Vector.getElem_toList]
    rfl
  rw [count]
  split
  next names => have := positive names; omega
  · omega

theorem Ledger.setRefs_refs (a : Ledger) (p q : Fin 8) (f : Nat → Nat) :
    (a.setRefs p f).refs q = if p = q then f (a.refs p) else a.refs q := by
  simp only [Ledger.refs, Ledger.setRefs, Fin.getElem_fin, Vector.getElem_set, Fin.ext_iff]
  split <;> rfl

theorem Ledger.setRefs_loaded (a : Ledger) (p q : Fin 8) (f : Nat → Nat) :
    (a.setRefs p f).loaded q = a.loaded q := by
  simp only [Ledger.loaded, Ledger.setRefs, Fin.getElem_fin, Vector.getElem_set]
  split
  next same => simp only [same]
  · rfl

/-- The slots and the profiles as before. -/
theorem Ledger.ProfilesHeld.same {a b : Ledger} (h : a.ProfilesHeld) (slots : b.slots = a.slots)
    (profiles : b.profiles = a.profiles) : b.ProfilesHeld := by
  have naming (p : Fin 8) : b.naming p = a.naming p := by rw [Ledger.naming, slots]; rfl
  have refs (p : Fin 8) : b.refs p = a.refs p := by rw [Ledger.refs, profiles]; rfl
  have loaded (p : Fin 8) : b.loaded p = a.loaded p := by rw [Ledger.loaded, profiles]; rfl
  exact ⟨fun p => by rw [refs, naming, h.counts], fun p named => by rw [loaded, h.loaded p (naming p ▸ named)]⟩

/-- A slot rewritten with the profile it named (R49). -/
theorem Ledger.ProfilesHeld.rewrite {a : Ledger} (h : a.ProfilesHeld) {i : Fin 4} {r x : SlotRecord}
    (here : a.slots[i] = some r) (same : x.profile = r.profile) : (a.put i (some x)).ProfilesHeld := by
  have naming (p : Fin 8) : (a.put i (some x)).naming p = a.naming p := by
    have moved := a.naming_put i (some x) p
    simp only [here, namesProfile, same] at moved
    omega
  exact ⟨fun p => (h.counts p).trans (naming p).symm, fun p named => h.loaded p (naming p ▸ named)⟩

theorem Ledger.ProfilesHeld.setPhase {a : Ledger} (h : a.ProfilesHeld) (i : Fin 4) (p : Phase) :
    (a.setPhase i p).ProfilesHeld := by
  unfold Ledger.setPhase
  split
  · exact h
  next here => exact h.rewrite here rfl

theorem Ledger.ProfilesHeld.fill {a : Ledger} (h : a.ProfilesHeld) {i : Fin 4} {r : SlotRecord}
    (free : a.slots[i] = none) (loaded : a.loaded r.profile = true) :
    ((a.put i (some r)).setRefs r.profile (· + 1)).ProfilesHeld := by
  have naming (p : Fin 8) : ((a.put i (some r)).setRefs r.profile (· + 1)).naming p =
      a.naming p + if r.profile = p then 1 else 0 := by
    change (a.put i (some r)).naming p = _
    simpa [free, namesProfile] using a.naming_put i (some r) p
  refine ⟨fun p => ?_, fun p named => ?_⟩
  · have counts : (a.put i (some r)).refs p = a.naming p := h.counts p
    rw [Ledger.setRefs_refs, naming]
    split
    next here => rw [here, counts]
    · exact counts
  · rw [Ledger.setRefs_loaded]
    by_cases here : r.profile = p
    · exact here ▸ loaded
    · exact h.loaded p (by simpa [naming, here] using named)

theorem Ledger.ProfilesHeld.free {a : Ledger} (h : a.ProfilesHeld) {i : Fin 4} {r : SlotRecord}
    (here : a.slots[i] = some r) : (a.free i r).ProfilesHeld := by
  have naming (p : Fin 8) : (a.free i r).naming p + (if r.profile = p then 1 else 0) = a.naming p := by
    change (a.put i none).naming p + _ = _
    simpa [here, namesProfile] using a.naming_put i none p
  refine ⟨fun p => ?_, fun p named => ?_⟩
  · have counts : (a.put i none).refs p = a.naming p := h.counts p
    have now := naming p
    rw [Ledger.free, Ledger.setRefs_refs]
    split
    next its =>
      rw [if_pos its] at now
      rw [its, counts, ← now]
      rfl
    next other =>
      rw [if_neg other] at now
      exact counts.trans now.symm
  · rw [Ledger.free, Ledger.setRefs_loaded]
    exact h.loaded p (by have now := naming p; omega)

theorem Ledger.ProfilesHeld.load {a : Ledger} (h : a.ProfilesHeld) {i : Fin 8} {q : Profile}
    (unused : a.refs i = 0) (same : q.refs = 0) :
    ({ a with profiles := a.profiles.set i q } : Ledger).ProfilesHeld := by
  have unnamed : a.naming i = 0 := (h.counts i).symm.trans unused
  have profiles (p : Fin 8) : (a.profiles.set i q)[p] = if i = p then q else a.profiles[p] := by
    simp [Vector.getElem_set, Fin.ext_iff]
  refine ⟨fun p => ?_, fun p named => ?_⟩
  · refine (congrArg Profile.refs (profiles p)).trans ?_
    split
    next here => exact same.trans (here ▸ unnamed).symm
    · exact h.counts p
  · refine (congrArg Profile.valid (profiles p)).trans ?_
    split
    next here =>
      have stillNamed : 0 < a.naming p := named
      rw [← here, unnamed] at stillNamed
      cases stillNamed
    · exact h.loaded p named

theorem Ledger.profilesHeld_powerOn (door : Bool) : (State.powerOn door).ledger.ProfilesHeld :=
  ⟨by cases door <;> decide, by cases door <;> decide⟩

theorem Move.profilesHeld {a b : Ledger} (move : Move a b) (h : a.ProfilesHeld) : b.ProfilesHeld := by
  cases move with
  | powerOn door => exact Ledger.profilesHeld_powerOn door
  | line i r line words here => exact (h.rewrite here (r.mark_same line).2.2.2.2).same rfl rfl
  | fill i r free loaded => exact h.fill free loaded
  | close i | requeue i | take i | giveBack i | spoil i => exact (h.setPhase i _).same rfl rfl
  | discard i r here | unqueue i r here | finish i l r _ here => exact (h.free here).same rfl rfl
  | load i q unused same => exact h.load unused same
  | notice | mask | append | drop | enter | leave | unlink | nextLine | timing | assign | trim => exact h.same rfl rfl

/-! ### Slots and the frame in hand (R5 to R7, R11, R19) -/

/-- The rules of one non-FREE slot: its presence law, its size and its fit in the scan. -/
structure SlotRecord.Sound (t : TimingParams) (r : SlotRecord) : Prop where
  present : r.Present
  fits : t.l0 + r.width ≤ t.nsp
  size : r.width ≤ 4096 ∧ 1 ≤ r.height ∧ r.height ≤ 3200

structure Ledger.SlotsSound (a : Ledger) : Prop where
  keys : ∀ (i j : Fin 4) (ri rj : SlotRecord),
    a.slots[i] = some ri → a.slots[j] = some rj → ri.key = rj.key → i = j
  each : ∀ (i : Fin 4) (r : SlotRecord), a.slots[i] = some r → r.Sound a.timing

/-- The queue holds QUEUED slots, each once, and the frame in hand an ACTIVE one with its current line inside. -/
structure Ledger.Seated (a : Ledger) : Prop where
  once : a.queue.Nodup
  queued : ∀ i ∈ a.queue, ∃ r : SlotRecord, a.slots[i] = some r ∧ r.phase = .queued
  active : ∀ i l, a.frame = some (i, l) → ∃ r : SlotRecord, a.slots[i] = some r ∧ r.phase = .active ∧ l < r.height

theorem slotsSound_seated {s : State} (inHand : InHand s) (sound : SlotsSound s) :
    s.ledger.SlotsSound ∧ s.ledger.Seated := by
  refine ⟨⟨sound.keys, fun i r here => ⟨sound.present i r here, sound.fits i r here, sound.size i r here⟩⟩,
    ⟨inHand.once, fun i hi => ?_, fun i l onFrame => ?_⟩⟩
  · obtain ⟨r, here, phase⟩ := Option.map_eq_some_iff.1 ((inHand.queued i).1 hi)
    exact ⟨r, here, phase⟩
  · obtain ⟨e, present, places⟩ := Option.map_eq_some_iff.1 onFrame
    obtain ⟨rfl, rfl⟩ := Prod.mk.inj places
    obtain ⟨r, here, phase⟩ := Option.map_eq_some_iff.1 ((inHand.active e.slot).2 ⟨e, present, rfl⟩)
    exact ⟨r, here, phase, sound.line e r present here⟩

theorem SlotsSound.of_ledger {s : State} (sound : s.ledger.SlotsSound) (seated : s.ledger.Seated) : SlotsSound s where
  keys := sound.keys
  present i r here := (sound.each i r here).present
  fits i r here := (sound.each i r here).fits
  size i r here := (sound.each i r here).size
  line e r present here := by
    obtain ⟨x, there, -, inside⟩ := seated.active _ _ (State.frameLine_of present)
    obtain rfl : r = x := Option.some.inj (here.symm.trans there)
    exact inside

theorem Ledger.SlotsSound.same {a b : Ledger} (h : a.SlotsSound) (slots : b.slots = a.slots)
    (timing : b.timing = a.timing) : b.SlotsSound :=
  ⟨by rw [slots]; exact h.keys, by rw [slots, timing]; exact h.each⟩

/-- A slot written with a key that no other slot holds. -/
theorem Ledger.SlotsSound.put {a : Ledger} (h : a.SlotsSound) {i : Fin 4} {r : SlotRecord}
    (fresh : ∀ (j : Fin 4) (x : SlotRecord), j ≠ i → a.slots[j] = some x → x.key ≠ r.key) (sound : r.Sound a.timing) :
    (a.put i (some r)).SlotsSound := by
  refine ⟨fun j k rj rk hj hk same => ?_, fun j x hj => ?_⟩
  · rw [Ledger.put_slots] at hj hk
    split at hj <;> split at hk
    next ij ik => exact ij.symm.trans ik
    next ij ik =>
      obtain rfl := Option.some.inj hj
      exact absurd same.symm (fresh k rk (Ne.symm ik) hk)
    next ij ik =>
      obtain rfl := Option.some.inj hk
      exact absurd same (fresh j rj (Ne.symm ij) hj)
    next ij ik => exact h.keys j k rj rk hj hk same
  · rw [Ledger.put_slots] at hj
    split at hj
    · exact Option.some.inj hj ▸ sound
    · exact h.each j x hj

theorem Ledger.SlotsSound.putNone {a : Ledger} (h : a.SlotsSound) (i : Fin 4) : (a.put i none).SlotsSound := by
  have stays (j : Fin 4) (x : SlotRecord) (hj : (a.put i none).slots[j] = some x) : a.slots[j] = some x := by
    rw [Ledger.put_slots] at hj
    split at hj
    · cases hj
    · exact hj
  exact ⟨fun j k rj rk hj hk => h.keys j k rj rk (stays j rj hj) (stays k rk hk),
    fun j x hj => h.each j x (stays j x hj)⟩

/-- A slot rewritten with its key. -/
theorem Ledger.SlotsSound.rewrite {a : Ledger} (h : a.SlotsSound) {i : Fin 4} {r x : SlotRecord}
    (here : a.slots[i] = some r) (key : x.key = r.key) (sound : x.Sound a.timing) :
    (a.put i (some x)).SlotsSound :=
  h.put (fun j y apart there same => apart (h.keys j i y r there here (same.trans key))) sound

/-- A slot that has every line present takes another phase. -/
theorem Ledger.SlotsSound.setPhase {a : Ledger} (h : a.SlotsSound) {i : Fin 4} {r : SlotRecord}
    (here : a.slots[i] = some r) (complete : r.presenceCount = r.height) (p : Phase) :
    (a.setPhase i p).SlotsSound := by
  obtain ⟨⟨length, count, -⟩, fits, size⟩ := h.each i r here
  rw [Ledger.setPhase_of here]
  exact h.rewrite here rfl ⟨⟨length, count, fun _ => complete⟩, fits, size⟩

/-- A slot past FILLING has every line present (R11). -/
theorem Ledger.SlotsSound.complete {a : Ledger} (h : a.SlotsSound) {i : Fin 4} {r : SlotRecord}
    (here : a.slots[i] = some r) (past : r.phase ≠ .filling) : r.presenceCount = r.height :=
  (h.each i r here).present.2.2 past

theorem Ledger.slotsSound_powerOn (door : Bool) : (State.powerOn door).ledger.SlotsSound := by
  have free (i : Fin 4) : (State.powerOn door).ledger.slots[i] = none := by
    simp [State.ledger, State.powerOn, FrameStore.reset]
  refine ⟨fun i j ri rj hi => ?_, fun i r hi => ?_⟩ <;> rw [free] at hi <;> cases hi

theorem Move.slotsSound {a b : Ledger} (move : Move a b) (h : a.SlotsSound) (seated : a.Seated) : b.SlotsSound := by
  cases move with
  | powerOn door => exact Ledger.slotsSound_powerOn door
  | line i r line words here filling inside =>
    obtain ⟨-, key, width, height, -⟩ := r.mark_same line
    obtain ⟨present, fits, size⟩ := h.each i r here
    exact (h.rewrite here key ⟨present.mark filling inside, width ▸ fits, by rwa [width, height]⟩).same rfl rfl
  | fill i r free loaded key filling present size fits =>
    exact (h.put (fun j x _ there => key j x there) ⟨present, fits, size⟩).same rfl rfl
  | close i r here filling complete =>
    have most : r.presenceCount ≤ r.height := by
      obtain ⟨length, count, -⟩ := (h.each i r here).present
      rw [← length, ← count]
      exact List.countP_le_length
    exact (h.setPhase here (Nat.le_antisymm most complete) _).same rfl rfl
  | requeue i r here held => exact (h.setPhase here (h.complete here (by simp [held])) _).same rfl rfl
  | take i rest r head here =>
    obtain ⟨x, there, queued⟩ := seated.queued i (by simp [head])
    obtain rfl : r = x := Option.some.inj (here.symm.trans there)
    exact (h.setPhase here (h.complete here (by simp [queued])) _).same rfl rfl
  | giveBack i l inHand | spoil i l inHand =>
    obtain ⟨r, here, active, -⟩ := seated.active i l inHand
    exact (h.setPhase here (h.complete here (by simp [active])) _).same rfl rfl
  | discard i r here | unqueue i r here | finish i l r _ here => exact (h.putNone i).same rfl rfl
  | timing p fits =>
    refine ⟨h.keys, fun i r here => ?_⟩
    obtain ⟨present, fitted, size⟩ := h.each i r here
    exact ⟨present, fits i r here fitted, size⟩
  | notice | mask | append | drop | enter | leave | unlink | nextLine | load | assign | trim => exact h.same rfl rfl

theorem Ledger.Seated.same {a b : Ledger} (h : a.Seated) (slots : b.slots = a.slots) (queue : b.queue = a.queue)
    (frame : b.frame = a.frame) : b.Seated :=
  ⟨by rw [queue]; exact h.once, by rw [queue, slots]; exact h.queued, by rw [frame, slots]; exact h.active⟩

/-- A slot written that is neither in the queue nor in hand. -/
theorem Ledger.Seated.put {a : Ledger} (h : a.Seated) {i : Fin 4} (r : Option SlotRecord) (waits : i ∉ a.queue)
    (idle : ∀ l, a.frame ≠ some (i, l)) : (a.put i r).Seated := by
  refine ⟨h.once, fun j hj => ?_, fun j l onFrame => ?_⟩ <;> rw [Ledger.put_slots]
  · have apart : i ≠ j := fun same => waits (same ▸ hj)
    rw [if_neg apart]
    exact h.queued j hj
  · have apart : i ≠ j := fun same => idle l (same ▸ onFrame)
    rw [if_neg apart]
    exact h.active j l onFrame

/-- A slot of a phase that is neither QUEUED nor ACTIVE is neither in the queue nor in hand. -/
theorem Ledger.Seated.apart {a : Ledger} (h : a.Seated) {i : Fin 4}
    (neither : ∀ r : SlotRecord, a.slots[i] = some r → r.phase ≠ .queued ∧ r.phase ≠ .active) :
    i ∉ a.queue ∧ ∀ l, a.frame ≠ some (i, l) := by
  refine ⟨fun hi => ?_, fun l onFrame => ?_⟩
  · obtain ⟨r, here, queued⟩ := h.queued i hi
    exact (neither r here).1 queued
  · obtain ⟨r, here, active, -⟩ := h.active i l onFrame
    exact (neither r here).2 active

/-- A slot joins the queue, which it was not in, and the frame in hand is another. -/
theorem Ledger.Seated.join {a : Ledger} (h : a.Seated) {i : Fin 4} {r : SlotRecord} (here : a.slots[i] = some r)
    {queue : List (Fin 4)} {frame : Option (Fin 4 × Nat)} (members : ∀ j, j ∈ queue ↔ j = i ∨ j ∈ a.queue)
    (once : queue.Nodup) (frames : ∀ j l, frame = some (j, l) → a.frame = some (j, l) ∧ j ≠ i) :
    ({ a.setPhase i .queued with queue := queue, frame := frame } : Ledger).Seated := by
  rw [Ledger.setPhase_of here]
  refine ⟨once, fun j hj => ?_, fun j l onFrame => ?_⟩
  · change ∃ x : SlotRecord, (a.put i _).slots[j] = some x ∧ _
    rw [Ledger.put_slots]
    split
    · exact ⟨_, rfl, rfl⟩
    next apart => exact h.queued j (((members j).1 hj).resolve_left (Ne.symm apart))
  · obtain ⟨was, apart⟩ := frames j l onFrame
    change ∃ x : SlotRecord, (a.put i _).slots[j] = some x ∧ _
    rw [Ledger.put_slots, if_neg (Ne.symm apart)]
    exact h.active j l was

/-- A slot that leaves the queue, or was not in it, and is not in hand after the move. -/
theorem Ledger.Seated.part {a : Ledger} (h : a.Seated) {i : Fin 4} (r : Option SlotRecord) {queue : List (Fin 4)}
    (members : ∀ j ∈ queue, j ∈ a.queue ∧ j ≠ i) (once : queue.Nodup) {frame : Option (Fin 4 × Nat)}
    (frames : ∀ j l, frame = some (j, l) → a.frame = some (j, l) ∧ j ≠ i) :
    ({ a.put i r with queue := queue, frame := frame } : Ledger).Seated := by
  refine ⟨once, fun j hj => ?_, fun j l onFrame => ?_⟩
  · obtain ⟨was, apart⟩ := members j hj
    change ∃ x : SlotRecord, (a.put i r).slots[j] = some x ∧ _
    rw [Ledger.put_slots, if_neg (Ne.symm apart)]
    exact h.queued j was
  · obtain ⟨was, apart⟩ := frames j l onFrame
    change ∃ x : SlotRecord, (a.put i r).slots[j] = some x ∧ _
    rw [Ledger.put_slots, if_neg (Ne.symm apart)]
    exact h.active j l was

theorem Ledger.Seated.not_queued_of_active {a : Ledger} (h : a.Seated) {i : Fin 4} {r : SlotRecord}
    (here : a.slots[i] = some r) (active : r.phase = .active) : i ∉ a.queue := fun hi => by
  obtain ⟨x, there, queued⟩ := h.queued i hi
  obtain rfl : r = x := Option.some.inj (here.symm.trans there)
  rw [active] at queued
  cases queued

theorem Ledger.Seated.not_inHand {a : Ledger} (h : a.Seated) {i : Fin 4} {r : SlotRecord}
    (here : a.slots[i] = some r) (idle : r.phase ≠ .active) (l : Nat) : a.frame ≠ some (i, l) := fun onFrame => by
  obtain ⟨x, there, active, -⟩ := h.active i l onFrame
  obtain rfl : r = x := Option.some.inj (here.symm.trans there)
  exact idle active

/-- READY's take: the head leaves the queue and is the frame in hand, at line 0. -/
theorem Ledger.Seated.take {a : Ledger} (h : a.Seated) {i : Fin 4} {rest : List (Fin 4)} {r : SlotRecord}
    (head : a.queue = i :: rest) (here : a.slots[i] = some r) (lines : 1 ≤ r.height) :
    ({ a.setPhase i .active with queue := rest, frame := some (i, 0) } : Ledger).Seated := by
  obtain ⟨left, once⟩ := List.nodup_cons.1 (head ▸ h.once)
  have rests := h.part (i := i) (some { r with phase := .active }) (queue := rest) (frame := none)
    (fun j hj => ⟨by simp [head, hj], fun same => left (same ▸ hj)⟩) once nofun
  rw [Ledger.setPhase_of here]
  refine ⟨once, rests.queued, fun j l onFrame => ?_⟩
  obtain ⟨rfl, rfl⟩ := Prod.mk.inj (Option.some.inj onFrame)
  refine ⟨_, (Ledger.put_slots ..).trans (if_pos rfl), rfl, lines⟩

theorem Ledger.seated_powerOn (door : Bool) : (State.powerOn door).ledger.Seated :=
  ⟨List.nodup_nil, (fun _ hi => by cases hi), nofun⟩

theorem Move.seated {a b : Ledger} (move : Move a b) (sound : a.SlotsSound) (h : a.Seated) : b.Seated := by
  cases move with
  | powerOn door => exact Ledger.seated_powerOn door
  | line i r line words here filling =>
    obtain ⟨waits, idle⟩ := h.apart (i := i) fun x there => by
      obtain rfl : r = x := Option.some.inj (here.symm.trans there)
      simp [filling]
    exact (h.put _ waits idle).same rfl rfl rfl
  | fill i r free =>
    obtain ⟨waits, idle⟩ := h.apart (i := i) fun x there => by
      rw [free] at there
      cases there
    exact (h.put _ waits idle).same rfl rfl rfl
  | close i r here filling =>
    obtain ⟨waits, idle⟩ := h.apart (i := i) fun x there => by
      obtain rfl : r = x := Option.some.inj (here.symm.trans there)
      simp [filling]
    refine h.join here (by simp [or_comm]) (List.nodup_append.2 ⟨h.once, by simp, fun x hx y hy => ?_⟩)
      (frame := (a.setPhase i .queued).frame) fun j l onFrame => ?_
    · obtain rfl := List.mem_singleton.1 hy
      exact fun same => waits (same ▸ hx)
    · rw [Ledger.setPhase_of here] at onFrame
      exact ⟨onFrame, fun same => idle l (same ▸ onFrame)⟩
  | requeue i r here held =>
    obtain ⟨waits, idle⟩ := h.apart (i := i) fun x there => by
      obtain rfl : r = x := Option.some.inj (here.symm.trans there)
      simp [held]
    refine h.join here (by simp) (List.nodup_cons.2 ⟨waits, h.once⟩)
      (frame := (a.setPhase i .queued).frame) fun j l onFrame => ?_
    rw [Ledger.setPhase_of here] at onFrame
    exact ⟨onFrame, fun same => idle l (same ▸ onFrame)⟩
  | discard i r here idle =>
    obtain ⟨waits, apart⟩ := h.apart (i := i) fun x there => by
      obtain rfl : r = x := Option.some.inj (here.symm.trans there)
      rcases idle with phase | phase <;> simp [phase]
    exact (h.put none waits apart).same rfl rfl rfl
  | unqueue i r here queued =>
    have others : ∀ j ∈ a.queue.filter (· ≠ i), j ∈ a.queue ∧ j ≠ i := by simp
    have parted := h.part none others (h.once.filter _) (frame := a.frame) fun j l onFrame =>
      ⟨onFrame, fun same => h.not_inHand here (by simp [queued]) l (same ▸ onFrame)⟩
    exact parted.same rfl rfl rfl
  | take i rest r head here => exact h.take head here (sound.each i r here).size.2.1
  | giveBack i l inHand =>
    obtain ⟨r, here, active, -⟩ := h.active i l inHand
    exact h.join here (by simp) (List.nodup_cons.2 ⟨h.not_queued_of_active here active, h.once⟩) nofun
  | spoil i l inHand =>
    obtain ⟨r, here, active, -⟩ := h.active i l inHand
    have waits := h.not_queued_of_active here active
    rw [Ledger.setPhase_of here]
    exact h.part (i := i) _ (queue := a.queue) (fun j hj => ⟨hj, fun same => waits (same ▸ hj)⟩) h.once nofun
  | finish i l r inHand here =>
    obtain ⟨x, there, active, -⟩ := h.active i l inHand
    have waits := h.not_queued_of_active there active
    exact (h.part (i := i) none (queue := a.queue) (fun j hj => ⟨hj, fun same => waits (same ▸ hj)⟩) h.once
      (frame := none) nofun).same rfl rfl rfl
  | nextLine i l r inHand here more =>
    refine ⟨h.once, h.queued, fun j k onFrame => ?_⟩
    obtain ⟨rfl, rfl⟩ := Prod.mk.inj (Option.some.inj onFrame)
    obtain ⟨x, there, active, -⟩ := h.active i l inHand
    obtain rfl : r = x := Option.some.inj (here.symm.trans there)
    exact ⟨r, here, active, more⟩
  | notice | mask | append | drop | enter | leave | unlink | timing | load | assign | trim => exact h.same rfl rfl rfl

/-- Settles O57: the moves keep the reference counts, and the slots with the frame in hand among them. -/
theorem slotsAndProfilesKept : Obligations.SlotsAndProfilesKept := by
  intro s t e
  have leads := step_leads e
  refine ⟨fun held => ?_, fun inHand sound => ?_⟩
  · exact (profilesHeld_iff t).2 (leads.keeps Move.profilesHeld ((profilesHeld_iff s).1 held))
  · obtain ⟨slots, seated⟩ := leads.keeps (P := fun a => a.SlotsSound ∧ a.Seated)
      (fun move h => ⟨move.slotsSound h.1 h.2, move.seated h.1 h.2⟩) (slotsSound_seated inHand sound)
    exact .of_ledger slots seated

end Sys2Proof.Machine
end

