-- ==== Sys2Proof/Proofs/SettingsKept.lean ====
section
/-! PROOFS. The moves keep the invariants of the roll log, the image memory, the link and the settings; and all the
invariants after power-on. -/

namespace Sys2Proof.Machine

/-! ### The roll log and the image memory (R178, LOG 19) -/

/-- The number of the newest record, with the last sequence number for an empty log. -/
theorem consecutive_append {l : List LogRecord} {last : Nat} (h : consecutive l last) (r : LogRecord)
    (next : r.seq = nextNumber last) : consecutive (l ++ [r]) r.seq := by
  induction l with
  | nil => rfl
  | cons q l ih =>
    cases l with
    | nil =>
      have newest : q.seq = last := h
      exact ⟨by rw [newest, next], rfl⟩
    | cons x l => exact ⟨h.1, ih h.2⟩

theorem consecutive_tail {r : LogRecord} {l : List LogRecord} {last : Nat} (h : consecutive (r :: l) last) :
    consecutive l last := by
  cases l with
  | nil => trivial
  | cons q l => exact h.2

theorem consecutive_drop {l : List LogRecord} {last : Nat} (h : consecutive l last) (n : Nat) :
    consecutive (l.drop n) last := by
  induction n generalizing l with
  | zero => exact h
  | succ n ih =>
    cases l with
    | nil => exact h
    | cons r l => exact ih (consecutive_tail h)

def Ledger.LogNumbered (a : Ledger) : Prop := consecutive a.records a.lastSeq

theorem Move.logNumbered {a b : Ledger} (move : Move a b) (h : a.LogNumbered) : b.LogNumbered := by
  cases move with
  | powerOn => exact trivial
  | append footage body => exact consecutive_append h _ rfl
  | drop n => exact consecutive_drop h n
  | close i | requeue i | take i | giveBack i | spoil i =>
    unfold Ledger.setPhase
    split <;> exact h
  | _ => exact h

def Ledger.ImageCanonical (a : Ledger) : Prop := a.image.wf

theorem Move.imageCanonical {a b : Ledger} (move : Move a b) (h : a.ImageCanonical) : b.ImageCanonical := by
  cases move with
  | powerOn => exact Memory.wf_nil
  | line i r line words => exact Memory.wf_storeLine _ h i line words
  | close i | requeue i | take i | giveBack i | spoil i =>
    unfold Ledger.setPhase
    split <;> exact h
  | _ => exact h

/-- Settles O58: an append takes the next number, a Read Log drops the oldest, and a line stored keeps the form. -/
theorem logAndImageKept : Obligations.LogAndImageKept := fun _ _ e =>
  ⟨(step_leads e).keeps Move.logNumbered, (step_leads e).keeps Move.imageCanonical⟩

/-! ### The outstanding requests and the held notices (R192, R199) -/

def Ledger.TagsDistinct (a : Ledger) : Prop := a.outstanding.length ≤ 4 ∧ (a.outstanding.map (·.tag)).Nodup

theorem Move.tagsDistinct {a b : Ledger} (move : Move a b) (h : a.TagsDistinct) : b.TagsDistinct := by
  obtain ⟨most, distinct⟩ := h
  cases move with
  | powerOn => exact ⟨Nat.zero_le _, List.nodup_nil⟩
  | enter tag q fresh room =>
    refine ⟨by simpa using room, ?_⟩
    rw [List.map_append]
    refine List.nodup_append.2 ⟨distinct, by simp, fun x hx y hy same => ?_⟩
    obtain ⟨o, mem, rfl⟩ := List.mem_map.1 hx
    exact fresh o mem (same.trans (by simpa using hy))
  | leave tag =>
    exact ⟨(List.length_filter_le ..).trans most, distinct.sublist (List.filter_sublist.map _)⟩
  | unlink => exact ⟨Nat.zero_le _, List.nodup_nil⟩
  | close i | requeue i | take i | giveBack i | spoil i =>
    unfold Ledger.setPhase
    split <;> exact ⟨most, distinct⟩
  | _ => exact ⟨most, distinct⟩

def NoticeUnit.HeldLow (n : NoticeUnit) : Prop :=
  ∀ e ∈ releaseOrder, n.pending[e.1].isSome = true → e.2 ≤ n.mask ∧ e.2 ≠ 7

/-- The entry of a kind stands in the order of release with the kind's level. -/
theorem NoticeKind.level_of_entry {k : NoticeKind} {i : Fin 11} (entry : k.entry = some i) {e : Fin 11 × Nat}
    (he : e ∈ releaseOrder) (here : i = e.1) : e.2 = k.level := by
  subst here
  revert e
  cases k <;> decide

/-- A notice is held only if its level is no higher than the mask, and not 7 (R199). -/
theorem NoticeUnit.HeldLow.given {n : NoticeUnit} (h : n.HeldLow) (p : NoticePayload) : (n.given p).HeldLow := by
  unfold NoticeUnit.given
  split
  · exact h
  next low =>
    split
    · exact h
    next i entry =>
      intro e he pending
      by_cases here : i = e.1
      · rw [NoticeKind.level_of_entry entry he here]
        exact ⟨Nat.le_of_not_lt fun above => low (.inr above), fun top => low (.inl top)⟩
      · have apart : i.val ≠ e.1.val := fun same => here (Fin.ext same)
        exact h e he (by simpa [apart] using pending)

theorem Move.heldLow {a b : Ledger} (move : Move a b) (h : a.notices.HeldLow) : b.notices.HeldLow := by
  cases move with
  | powerOn =>
    intro e he pending
    simp [State.ledger, State.powerOn, NoticeUnit.reset] at pending
  | notice p => exact h.given p
  | mask n kept =>
    intro e he pending
    obtain ⟨was, low⟩ := kept e he pending
    exact ⟨low (h e he was).1, (h e he was).2⟩
  | close i | requeue i | take i | giveBack i | spoil i =>
    unfold Ledger.setPhase
    split <;> exact h
  | _ => exact h

/-- Settles O59: a request enters the table with a tag that is not in it and with room, and a notice is held only at a
level that the mask holds. -/
theorem linkKept : Obligations.LinkKept := fun _ _ e =>
  ⟨(step_leads e).keeps Move.tagsDistinct, (step_leads e).keeps Move.heldLow⟩

/-! ### The responses and the power trims (R157, R104) -/

def Ledger.ResponsesAllowed (a : Ledger) : Prop := ∀ k : FaultKind, a.responses[k.index] ∈ k.allowed

theorem FaultKind.index_injective {j k : FaultKind} (same : j.index = k.index) : j = k := by
  revert same
  cases j <;> cases k <;> decide

theorem Ledger.responsesAllowed_powerOn (door : Bool) : (State.powerOn door).ledger.ResponsesAllowed := by
  intro k
  revert door
  cases k <;> decide

theorem Move.responsesAllowed {a b : Ledger} (move : Move a b) (h : a.ResponsesAllowed) : b.ResponsesAllowed := by
  cases move with
  | powerOn door => exact Ledger.responsesAllowed_powerOn door
  | assign k r allowed =>
    intro j
    change (a.responses.set k.index r)[j.index] ∈ j.allowed
    by_cases same : k = j
    · subst same
      simpa using allowed
    · have apart : k.index.val ≠ j.index.val := fun e => same (FaultKind.index_injective (Fin.ext e))
      simpa [apart] using h j
  | close i | requeue i | take i | giveBack i | spoil i =>
    unfold Ledger.setPhase
    split <;> exact h
  | _ => exact h

def Ledger.TrimsInRange (a : Ledger) : Prop := ∀ c : Channel, -31 ≤ a.trims.get c ∧ a.trims.get c ≤ 31

theorem trimsInRange_iff (s : State) : TrimsInRange s ↔ s.ledger.TrimsInRange := by
  have trims (c : Channel) : (s.pl.channels.get c).trim = s.ledger.trims.get c := by cases c <;> rfl
  simp only [TrimsInRange, Ledger.TrimsInRange, trims]

theorem Ledger.trimsInRange_powerOn (door : Bool) : (State.powerOn door).ledger.TrimsInRange := by
  intro c
  revert door
  cases c <;> decide

theorem Move.trimsInRange {a b : Ledger} (move : Move a b) (h : a.TrimsInRange) : b.TrimsInRange := by
  cases move with
  | powerOn door => exact Ledger.trimsInRange_powerOn door
  | trim t within => exact fun c => within c (h c)
  | close i | requeue i | take i | giveBack i | spoil i =>
    unfold Ledger.setPhase
    split <;> exact h
  | _ => exact h

/-- Settles O60: a response assigned is one its kind allows, and the servo steps a trim within its range. -/
theorem settingsKept : Obligations.SettingsKept := fun s t e =>
  ⟨(step_leads e).keeps Move.responsesAllowed, fun h =>
    (trimsInRange_iff t).2 ((step_leads e).keeps Move.trimsInRange ((trimsInRange_iff s).1 h))⟩

/-! ### After power-on -/

/-- Settles O3: power-on is a move that gives each invariant without one before it; the other two are of its lasers
and of an empty hand. -/
theorem invariantsAtPowerOn : Obligations.InvariantsAtPowerOn := by
  intro door
  have free (i : Fin 4) : (State.powerOn door).slot i = none := by
    simp [State.slot, State.powerOn, FrameStore.reset]
  exact ⟨fun _ => ⟨rfl, rfl, rfl⟩, inHand_powerOn door,
    (profilesHeld_iff _).2 (Ledger.profilesHeld_powerOn door), trivial, Memory.wf_nil,
    ⟨Nat.zero_le _, List.nodup_nil⟩, fun e _ pending => by simp [State.powerOn, NoticeUnit.reset] at pending,
    Ledger.responsesAllowed_powerOn door, (trimsInRange_iff _).2 (Ledger.trimsInRange_powerOn door),
    .of_ledger (Ledger.slotsSound_powerOn door) (Ledger.seated_powerOn door)⟩

end Sys2Proof.Machine
end

