-- ==== Sys2Proof/Proofs/StepRuns.lean ====
section
/-! PROOFS. A step runs the command at the front of the queue, or takes the faults raised one after another and lets one
tick pass; and the state after power-on. -/

namespace Sys2Proof.Machine

/-! ### The faults raised and the waiting commands under a take -/

/-- An operation that neither raises nor takes a fault, and leaves the waiting commands. -/
def State.Apart (s t : State) : Prop := t.fu.raised = s.fu.raised ∧ t.pending = s.pending

theorem State.Apart.of_fu {s t : State} (fu : t.fu = s.fu) (pending : t.pending = s.pending) : s.Apart t :=
  ⟨by rw [fu], pending⟩

theorem State.Apart.trans {s t u : State} (first : s.Apart t) (second : t.Apart u) : s.Apart u :=
  ⟨second.1.trans first.1, second.2.trans first.2⟩

theorem State.returnFrame_apart (s : State) : s.Apart s.returnFrame := by
  unfold State.returnFrame
  split
  · exact ⟨rfl, rfl⟩
  · exact .of_fu (by simp) (by simp)

theorem State.spoilFrame_apart (s : State) (c : Cause) : s.Apart (s.spoilFrame c) := by
  unfold State.spoilFrame
  split
  · exact ⟨rfl, rfl⟩
  split
  · exact .of_fu (by simp) (by simp)
  · exact .of_fu (by simp) (by simp)

theorem State.endFrameLocked_apart (s : State) (c : Cause) : s.Apart (s.endFrameLocked c) := by
  unfold State.endFrameLocked
  split
  · exact s.returnFrame_apart
  · exact s.spoilFrame_apart c

theorem State.endBlankEarly_apart (s : State) : s.Apart s.endBlankEarly :=
  .of_fu (by simp [State.endBlankEarly]) (by simp [State.endBlankEarly])

theorem State.enterHalted_apart (s : State) (r : FaultRecord) : s.Apart (s.enterHalted r) := by
  have stopped : s.Apart s.stopMechanisms := .of_fu (by simp) (by simp)
  have ended := (stopped.trans (State.returnFrame_apart _)).trans (State.endBlankEarly_apart _)
  refine ended.trans ⟨?_, ?_⟩ <;> simp [State.enterHalted, State.setInHand]

theorem State.enterLocked_apart (s : State) (r : FaultRecord) : s.Apart (s.enterLocked r) := by
  have stopped : s.Apart (s.stopMechanisms.setEs
      { s.stopMechanisms.es with stopTimer := none, stopPending := false, deferredHalt := none }) :=
    .of_fu (by simp) (by simp)
  have ended := (stopped.trans (State.endFrameLocked_apart _ (.fault r.report.kind))).trans
    (State.endBlankEarly_apart _)
  refine ended.trans ⟨?_, ?_⟩ <;> simp [State.enterLocked]

theorem State.enterAborting_apart (s : State) (r : FaultRecord) : s.Apart (s.enterAborting r) := by
  constructor <;> simp [State.enterAborting, State.setInHand]

theorem State.direct_apart (s : State) (r : FaultRecord) : s.Apart (s.direct r) := by
  unfold State.direct
  cases r.applied with
  | notice | hold | record => exact ⟨rfl, rfl⟩
  | pause => exact .of_fu (by simp [State.enterPaused]) (by simp [State.enterPaused])
  | abort => exact s.enterAborting_apart r
  | halt =>
    dsimp only [State.applyHalt]
    split
    · exact s.enterAborting_apart r
    · exact s.enterHalted_apart r
  | defer =>
    dsimp only [State.deferHalt]
    split <;> exact ⟨rfl, rfl⟩
  | lock => exact s.enterLocked_apart r

theorem State.takeFault_apart (s : State) (f : FaultReport) : s.Apart (s.takeFault f) := by
  have told : s.Apart (s.announced f) := by
    constructor <;> simp [State.announced, State.recordFault]
  exact told.trans (State.direct_apart ..)

theorem State.takeEvent_apart (s : State) (f : FaultReport) : s.Apart (s.takeEvent f) := by
  refine (s.takeFault_apart f).trans ?_
  unfold State.takeEvent State.driveAfter State.driveLine
  split
  · split <;> exact ⟨rfl, rfl⟩
  · exact ⟨rfl, rfl⟩

/-- FAULT_TAKE takes one of the faults raised, and leaves the waiting commands. -/
theorem State.takeOne_pending (s : State) : (s.takeOne State.takeEvent).pending = s.pending := by
  rcases s.takeOne_cases State.takeEvent with ⟨-, same⟩ | ⟨f, -, one⟩
  · rw [same]
  · rw [one, (State.takeEvent_apart _ f).2]
    rfl

/-- With a fault raised, to take every one is to take the next and then every other. -/
theorem State.settled_takeOne (s : State) (raised : s.fu.raised ≠ []) :
    s.settled = (s.takeOne State.takeEvent).settled := by
  obtain ⟨f, waits⟩ := List.exists_mem_of_ne_nil _ raised
  exact s.taking_next _ _ (fun t f => (t.takeEvent_apart f).1) ⟨f, waits, rfl⟩

theorem step_front {s : State} {c : Instr} {rest : List Instr} (front : s.pending = c :: rest) :
    step s = exec c { s with pending := rest } := by
  unfold step
  rw [front]

theorem step_idle {s : State} (empty : s.pending = []) : step s = .next s.idle := by
  unfold step
  rw [empty]

/-! ### Time -/

theorem Timer.elapse_add (t : Timer) (m n : Nat) : Timer.elapse n (Timer.elapse m t) = Timer.elapse (m + n) t := by
  cases t with
  | none => rfl
  | some left => exact congrArg some (Nat.sub_sub left m n)

theorem Measurement.elapse_add (x : Measurement) (m n : Nat) : (x.elapse m).elapse n = x.elapse (m + n) := by
  cases x with
  | armed => rfl
  | timing f t slipped p => exact congrArg (Measurement.timing f · slipped p) (Nat.add_assoc t m n)

theorem Stage.elapse_add (x : Stage) (m n : Nat) : (x.elapse m).elapse n = x.elapse (m + n) := by
  cases x with
  | moving l t => exact congrArg (Stage.moving l) (Timer.elapse_add t m n)
  | _ => rfl

theorem Wheel.elapse_add (w : Wheel) (m n : Nat) : (w.elapse m).elapse n = w.elapse (m + n) := by
  obtain ⟨position, move⟩ := w
  cases move with
  | none => rfl
  | some x => simp [Wheel.elapse, Nat.sub_sub]

theorem Head.elapse_add (x : Head) (m n : Nat) : (x.elapse m).elapse n = x.elapse (m + n) := by
  cases x with
  | idle => rfl
  | printing mark left => exact congrArg (Head.printing mark) (Nat.sub_sub left m n)

theorem PowerChannel.elapse_add (c : PowerChannel) (m n : Nat) : (c.elapse m).elapse n = c.elapse (m + n) := by
  simp [PowerChannel.elapse, Timer.elapse_add]

/-- `m` ticks and then `n` are `m + n`. -/
theorem State.elapse_add (s : State) (m n : Nat) : (s.elapse m).elapse n = s.elapse (m + n) := by
  have since : (s.stu.sinceSos.map (· + m)).map (· + n) = s.stu.sinceSos.map (· + (m + n)) := by
    cases s.stu.sinceSos <;> simp [Nat.add_assoc]
  simp only [State.elapse, Rgb.map, Measurement.elapse_add, Stage.elapse_add, Wheel.elapse_add, Head.elapse_add,
    PowerChannel.elapse_add, Timer.elapse_add, since]

/-- The passage of time, timer by timer. -/
theorem State.elapse_eq (s : State) (n : Nat) : s.elapse n = { s with
      stu := { s.stu with
        measurement := s.stu.measurement.elapse n
        sinceSos := s.stu.sinceSos.map (· + n)
        watch := s.stu.watch.map (· - n) }
      pl := { s.pl with channels :=
        s.pl.channels.map (fun c => { c with settle := c.settle.map (· - n) }) }
      es := { s.es with
        stage := s.es.stage.elapse n
        wheels := s.es.wheels.map (fun w => { w with move := w.move.map (fun m => (m.1, m.2 - n)) })
        startTimer := s.es.startTimer.map (· - n)
        stopTimer := s.es.stopTimer.map (· - n)
        pauseTimer := s.es.pauseTimer.map (· - n) }
      tc := { s.tc with
        opTimer := s.tc.opTimer.map (· - n)
        settleTimer := s.tc.settleTimer.map (· - n)
        shutterTimer := s.tc.shutterTimer.map (· - n)
        head := s.tc.head.elapse n } } := rfl

/-- Settles O1: the front command runs, or an idle step takes the next fault as FAULT_TAKE would. -/
theorem stepRunsFront : Obligations.StepRunsFront := by
  intro s
  refine ⟨fun c rest => step_front, fun empty quiet => ?_, fun t empty raised taken => ?_, fun n => ?_, s.elapse_add⟩
  · rw [step_idle empty, State.idle, State.settled, s.settledFor_none _ (by simp [quiet.raised])]
  · obtain rfl : s.takeOne State.takeEvent = t := Host.Outcome.next.inj taken
    rw [step_idle empty, step_idle (s.takeOne_pending.trans empty), State.idle, State.idle,
      s.settled_takeOne raised]
  · exact s.elapse_eq n

/-- Settles O2: the power-on state is the model's, field by field. -/
theorem powerOnState : Obligations.PowerOnState := fun _ _ => rfl

end Sys2Proof.Machine
end

