-- ==== Sys2Proof/Proofs/Intake.lean ====
section
/-! PROOFS. The input queue and the record in hand, LP's judgement of a record, and the refusals at intake and in
LOCKED. -/

namespace Sys2Proof.Machine

/-! ### The take of a record -/

@[simp] theorem State.takeRecord_up (s : State) : s.takeRecord.lp.up = s.lp.up := by
  obtain ⟨Q, F, H, O, taken⟩ := s.takeRecord_form
  rw [taken]

@[simp] theorem State.takeRecord_outstanding (s : State) :
    s.takeRecord.lp.outstanding = s.lp.outstanding := by
  obtain ⟨Q, F, H, O, taken⟩ := s.takeRecord_form
  rw [taken]

@[simp] theorem State.takeRecord_errors (s : State) : s.takeRecord.lp.errors = s.lp.errors := by
  obtain ⟨Q, F, H, O, taken⟩ := s.takeRecord_form
  rw [taken]

@[simp] theorem State.takeRecord_firstError (s : State) : s.takeRecord.lp.firstError = s.lp.firstError := by
  obtain ⟨Q, F, H, O, taken⟩ := s.takeRecord_form
  rw [taken]

@[simp] theorem State.takeRecord_posted (s : State) : s.takeRecord.lp.posted = s.lp.posted := by
  obtain ⟨Q, F, H, O, taken⟩ := s.takeRecord_form
  rw [taken]

/-- Once its record is taken, LP has none in hand. -/
@[simp] theorem State.takeRecord_empties (s : State) : s.takeRecord.lp.held = none := by
  cases held : s.lp.held with
  | none => rw [s.takeRecord_free held]; rcases s.removeHead_cases with e | ⟨-, -, e⟩ <;> rw [e] <;> exact held
  | some r => rw [s.takeRecord_held r held]

theorem State.Before.takeRecord {s : State} {first : List FaultKind} (h : s.Before first) :
    s.takeRecord.Before first :=
  ⟨by simpa using h.raised, by simpa using h.staged⟩

/-- The record that stands at the head of the queue, with none in hand. -/
theorem State.head_free {s : State} (free : s.lp.held = none) (j : Judgement) :
    s.head = some j ↔ ∃ r, s.lp.queue.head? = some r ∧ judge r = j := by
  simp [State.head, free]

/-- With no fault due and no reply staged, the end of an event changes nothing. -/
theorem State.Before.concluded {s : State} {first : List FaultKind} (h : s.Before first) : s.concluded = s := by
  rw [State.concluded_later _ fun f raised => (h.raised f raised).1, State.flush_none _ h.staged]

/-- An event that only stages a reply sends it. -/
theorem State.concluded_stage (s : State) (r : Reply) (before : s.Before []) (up : s.lp.up = true) :
    (s.stage r).concluded = s.replied r := by
  rw [State.concluded_later _ (by simpa using fun f h => (before.raised f h).1)]
  simp [State.stage, up, State.flush, State.replied, before.staged]

/-! ### The commands of the requests -/

/-- The payloads with which a request is the command that it is for the payload given: a Read Log is one of two by
its repeat flag. -/
def Request.picks (q : Request) (p : List Byte) : List Byte → Bool :=
  if q = .readLog then fun x => asksRepeat x == asksRepeat p else fun _ => true

theorem Request.picks_self (q : Request) (p : List Byte) : q.picks p p = true := by
  unfold Request.picks
  split <;> simp

/-- The owner of a request, with the film sensor and the payload as given. -/
def Request.owner (q : Request) (film : Bool) (p : List Byte) : Decision :=
  match q with
  | .identify => decideIdentify
  | .status => decideStatus
  | .checkpoint => decideCheckpoint
  | .setParameter => decideSetParameter
  | .setNoticeMask => decideSetNoticeMask
  | .openFrame => decideOpenFrame
  | .closeFrame => decideCloseFrame
  | .discardFrame => decideDiscardFrame
  | .requeueFrame => decideRequeueFrame
  | .writeRule => decideWriteRule
  | .readRule => decideReadRule
  | .loadProfile => decideLoadProfile
  | .readProfile => decideReadProfile
  | .setRollTrim => decideSetRollTrim
  | .setFacetGains => decideSetFacetGains
  | .restoreFacets => decideRestoreFacets
  | .setFootage => decideSetFootage
  | .setFaultResponse => decideSetFaultResponse
  | .abortFrame => decideAbortFrame
  | .readLog => if asksRepeat p then decideReadLogRepeat else decideReadLog
  | .startEngine => fun s tag _ => s.decideStart tag .startEngine .offline film
  | .resumeEngine => fun s tag _ => s.decideStart tag .resumeEngine .halted film
  | .stopEngine => decideStopEngine
  | .resetEngine => decideResetEngine
  | .advanceFilm => decideAdvanceFilm

/-- The command of a request is the take of that request and its owner's decision. -/
theorem exec_command (q : Request) (film : Bool) (p : List Byte) (s : State) :
    exec (q.command film p) s = run s (fun t => t.onRequestWhen q (q.picks p) (q.owner film p)) := by
  cases q with
  | readLog =>
    have picks : Request.readLog.picks p = fun x => asksRepeat x == asksRepeat p := rfl
    cases asks : asksRepeat p <;> simp [Request.command, Request.owner, picks, asks] <;> rfl
  | _ => rfl

/-! ### Intake -/

/-- A request at the head that fails the intake is refused: the record is taken, and nothing else changes. -/
theorem exec_refused_at_intake {s : State} {tag : Nat} {q : Request} {p : List Byte} {reason : Reason} (film : Bool)
    (before : s.Before []) (up : s.lp.up = true) (free : s.lp.held = none)
    (head : s.head = some (.request tag q p)) (refused : s.lp.intakeRefusal tag q p = some reason) :
    exec (q.command film p) s = .next (s.takeRecord.repliedRefused tag q reason 0 .empty) := by
  have same : s.takeRecord.lp.intakeRefusal tag q p = some reason := by
    rw [← refused]
    simp [LinkPort.intakeRefusal]
  have taken : s.onRequestWhen q (q.picks p) (q.owner film p) =
      s.takeRecord.refuseIntake tag q.code reason := by
    simp [State.onRequestWhen, head, q.picks_self, State.takeRequest, free, same]
  rw [exec_command, run, taken, State.refuseIntake, State.concluded_stage _ _ before.takeRecord (by simpa using up)]
  rfl

/-- Settles O8: checks 3 to 5 of Table 11-2, one by one. -/
theorem intakeRefuses : Obligations.IntakeRefuses := by
  refine ⟨rfl, fun s tag q p film reason before up free head why => ?_⟩
  refine exec_refused_at_intake film before up free head ?_
  rcases why with ⟨size, rfl⟩ | ⟨size, used, rfl⟩ | ⟨size, fresh, full, rfl⟩
  · exact if_pos size
  · have used : s.lp.outstanding.any (·.tag == tag) = true := by simpa using used
    simp [LinkPort.intakeRefusal, size, used]
  · have fresh : s.lp.outstanding.any (·.tag == tag) = false := by simpa using fresh
    simp [LinkPort.intakeRefusal, size, fresh, Config.outstandingPlaces, full]

/-! ### LOCKED -/

theorem Request.acceptedInLocked_eq_false (q : Request) : q.acceptedInLocked = false ↔
    q ∉ [Request.identify, .status, .checkpoint, .setNoticeMask, .readLog] := by
  cases q <;> decide

theorem State.handToOwner_locked {s : State} {q : Request} (locked : s.es.engine = .locked)
    (others : q.acceptedInLocked = false) (tag : Option Nat) (p : List Byte) (owner : Decision) :
    s.handToOwner tag q p owner = s.refuse tag q .locked := if_pos ⟨locked, others⟩

/-- Settles O9, by the refusal in place of the owner's decision. -/
theorem lockedRefuses : Obligations.LockedRefuses := by
  constructor
  · intro s tag q p film before up free head size fresh room locked others
    have passes : s.takeRecord.lp.intakeRefusal tag q p = none := by
      have unused : s.lp.outstanding.any (·.tag == tag) = false := by simpa using fresh
      simp [LinkPort.intakeRefusal, size, unused, Config.outstandingPlaces, room]
    have taken : s.onRequestWhen q (q.picks p) (q.owner film p) =
        (s.takeRecord.enterTable tag q).refuse (some tag) q .locked := by
      have refused := State.handToOwner_locked (s := s.takeRecord.enterTable tag q) (by simpa using locked)
        (q.acceptedInLocked_eq_false.2 others) (some tag) p (q.owner film p)
      simp [State.onRequestWhen, head, q.picks_self, State.takeRequest, free, passes, refused]
    have gone := outstanding_restored s.lp.outstanding tag q fresh
    have restored : (s.takeRecord.enterTable tag q).refuse (some tag) q .locked =
        s.takeRecord.stage ⟨tag, q.code, .refused, .locked, s.es.engine, 0, false, .empty⟩ := by
      obtain ⟨Q, F, H, O, form⟩ := s.takeRecord_form
      simp only [State.refuse, State.answer, State.enterTable, form, gone]
    rw [exec_command, run, taken, restored, State.concluded_stage _ _ before.takeRecord (by simpa using up)]
    simp [State.repliedRefused]
  · intro s t r tag q p film before up held judged locked others left
    subst left
    rw [exec_command, run, s.onRequestWhen_inHand tag q p r held judged _ (q.picks_self p),
      State.handToOwner_locked (by simpa using locked) (q.acceptedInLocked_eq_false.2 others)]
    cases tagged : r.tagged with
    | false =>
      simp only [Bool.false_eq_true, if_false, State.refuse, State.answer]
      exact congrArg Host.Outcome.next (State.Before.concluded ⟨before.raised, before.staged⟩)
    | true =>
      simp only [if_true, State.refuse, State.answer]
      exact congrArg Host.Outcome.next (State.concluded_stage _ _ ⟨before.raised, before.staged⟩ up)

/-! ### LP's judgement -/

theorem framed_iff (r : Record) :
    framed r = true ↔ 12 ≤ r.length ∧ r.length ≤ 16402 ∧ r.length = 12 + payloadLength r := by
  simp only [framed, Bool.and_eq_true, decide_eq_true_eq, beq_iff_eq, and_assoc]
  rfl

theorem checked_iff (r : Record) :
    checked r = true ↔ (crc32 (r.take (8 + payloadLength r))).toNat = longAt r (8 + payloadLength r) := by
  simp [checked]

theorem judge_unframed {r : Record} (bad : ¬ framed r = true) : judge r = .dropped .framing := if_neg bad

theorem judge_unchecked {r : Record} (good : framed r = true) (bad : ¬ checked r = true) :
    judge r = .dropped .badCrc := by
  rw [judge, if_pos good, if_neg bad]

theorem judge_kind {r : Record} (good : framed r = true) (whole : checked r = true) : judge r = judgeKind r := by
  rw [judge, if_pos good, if_pos whole]

/-- A drop is counted up to 65535, and the first reason is kept. -/
theorem State.countError_eq (s : State) (e : LinkError) : s.countError e = { s with lp := { s.lp with
    errors := min 65535 (s.lp.errors + 1)
    firstError := some (s.lp.firstError.getD e) } } := by
  unfold State.countError
  rw [saturate_eq_min]
  cases s.lp.firstError <;> rfl

/-- Settles O6: framing, the CRC and the kind in this order; then the two commands of a record that LP itself deals
with. -/
theorem recordsJudged : Obligations.RecordsJudged := by
  refine ⟨fun r => ⟨fun bad => judge_unframed ?_, fun short long whole => ?_⟩, fun s before up => ?_⟩
  · rw [framed_iff]
    omega
  · have good := (framed_iff r).2 ⟨short, long, whole⟩
    refine ⟨fun bad => judge_unchecked good (mt (checked_iff r).1 bad), fun sum => ?_⟩
    rw [judge_kind good ((checked_iff r).2 sum)]
    refine ⟨fun noRequest noLine => ?_, fun request => ?_, fun line => ?_⟩
    · simp [judgeKind, noRequest, noLine]
    · simp only [judgeKind, request, if_true]
    · simp [judgeKind, line]
  · have refused (tag code : Nat) (reason : Reason) :
        (s.takeRecord.refuseIntake tag code reason).concluded =
          s.takeRecord.replied ⟨tag, code, .refused, reason, s.es.engine, 0, false, .empty⟩ := by
      rw [State.refuseIntake, State.concluded_stage _ _ before.takeRecord (by simpa using up)]
      simp
    refine ⟨fun e head => ?_, fun tag head => ?_, fun tag code head => ?_⟩
    · have dropped : s.dropHead = s.takeRecord.countError e := by simp [State.dropHead, head]
      refine (run_plain s State.dropHead ?_).trans (by simp [dropped, State.countError_eq])
      rw [dropped]
      exact ⟨before.takeRecord.raised, before.takeRecord.staged⟩
    · have taken : s.refuseHead = s.takeRecord.refuseIntake tag 0 .badFormat := by simp [State.refuseHead, head]
      exact (congrArg (fun t => Host.Outcome.next t.concluded) taken).trans (by rw [refused])
    · have taken : s.refuseHead = s.takeRecord.refuseIntake tag code .unknownRequest := by
        simp [State.refuseHead, head]
      exact (congrArg (fun t => Host.Outcome.next t.concluded) taken).trans (by rw [refused])

end Sys2Proof.Machine
end

