-- ==== Sys2Proof/Proofs/Queue.lean ====
section
/-! PROOFS. The arrivals and takes of the input queue, and the record in hand. -/

namespace Sys2Proof.Machine

/-- An arrival is dropped at 16 records, sends HOLD where it makes 12 of them in GO, and is queued in every other
case. -/
theorem State.arrive_eq (s : State) (r : Record) (up : s.lp.up = true) : s.arrive r =
    if 16 ≤ s.lp.queue.length then s.countError .queueOverrun
    else if s.lp.queue.length + 1 = 12 ∧ s.lp.flow = .go then
      State.puts { s with lp := { s.lp with queue := s.lp.queue ++ [r], flow := .hold } } [.flow .hold]
    else { s with lp := { s.lp with queue := s.lp.queue ++ [r] } } := by
  simp only [State.arrive, up, if_true, Config.inputQueuePlaces, Config.holdLevel, List.length_append,
    List.length_singleton]
  rfl

/-- The removal of the head of a queue. -/
theorem State.removeHead_eq {s : State} {r : Record} {rest : List Record} (queue : s.lp.queue = r :: rest) :
    s.removeHead = if rest.length = 4 ∧ s.lp.flow = .hold then
        State.puts { s with lp := { s.lp with queue := rest, flow := .go } } [.flow .go]
      else { s with lp := { s.lp with queue := rest } } := by
  simp [State.removeHead, queue, Config.goLevel, State.sendFlow, State.puts, State.emit]

/-- LP's hand stays empty when the record at the head is none that it hands to a block. -/
theorem State.handOver_stays {s : State} {r : Record} {rest : List Record} (queue : s.lp.queue = r :: rest)
    (stays : s.lp.handsOver (judge r) = false) : s.handOver = s := by
  rcases s.handOver_cases with same | ⟨x, -, first, hands, -⟩
  · exact same
  · obtain rfl : r = x := by simpa [queue] using first
    rw [stays] at hands
    cases hands

theorem State.handOver_takes {s : State} {r : Record} {rest : List Record} (free : s.lp.held = none)
    (queue : s.lp.queue = r :: rest) (hands : s.lp.handsOver (judge r) = true) :
    s.handOver = { s.takeRecord.enterRecord (judge r) with
      lp := { (s.takeRecord.enterRecord (judge r)).lp with held := some ⟨r, true⟩ } } := by
  simp [State.handOver, free, queue, hands, s.takeRecord_free free]

/-- The record in hand is the one that stood at the head. -/
theorem State.takeRecord_restores (s : State) (l : LinkPort) (h : HeldRecord) (lp : s.lp = { l with held := some h })
    (free : l.held = none) : s.takeRecord = { s with lp := l } := by
  rw [s.takeRecord_held h (by rw [lp]), lp, ← free]

theorem LinkPort.intakeRefusal_eq_none_iff (l : LinkPort) (tag : Nat) (q : Request) (p : List Byte) :
    l.intakeRefusal tag q p = none ↔
      p.length = q.payloadBytes ∧ (∀ o ∈ l.outstanding, o.tag ≠ tag) ∧ l.outstanding.length < 4 := by
  constructor
  · intro passes
    refine ⟨?_, LinkPort.intakeRefusal_none passes⟩
    by_contra size
    simp [LinkPort.intakeRefusal, size] at passes
  · rintro ⟨size, fresh, room⟩
    have unused : l.outstanding.any (·.tag == tag) = false := by simpa using fresh
    simp [LinkPort.intakeRefusal, size, unused, Config.outstandingPlaces, show ¬ 4 ≤ l.outstanding.length by omega]

theorem LinkPort.handsOver_request (l : LinkPort) (tag : Nat) (q : Request) (p : List Byte) :
    l.handsOver (.request tag q p) = true ↔ q ≠ .checkpoint ∧ p.length = q.payloadBytes ∧
      (∀ o ∈ l.outstanding, o.tag ≠ tag) ∧ l.outstanding.length < 4 := by
  rw [← l.intakeRefusal_eq_none_iff]
  simp [LinkPort.handsOver]

theorem State.Accepts.hands {s : State} {tag : Nat} {q : Request} {p : List Byte} (accepts : s.Accepts tag q p)
    (other : q ≠ .checkpoint) : s.lp.handsOver (.request tag q p) = true :=
  (s.lp.handsOver_request tag q p).2 ⟨other, accepts.size, accepts.fresh, accepts.room⟩

theorem State.head_queue {s : State} {j : Judgement} (free : s.lp.held = none) (head : s.head = some j) :
    ∃ r rest, s.lp.queue = r :: rest ∧ judge r = j := by
  obtain ⟨r, first, judged⟩ := (s.head_free free j).1 head
  obtain ⟨rest, queue⟩ := List.head?_eq_some_iff.1 first
  exact ⟨r, rest, queue, judged⟩

/-- A request that was taken in hand first is decided as it would have been at the head. -/
theorem State.onRequestWhen_handOver {s : State} {tag : Nat} {q : Request} {p : List Byte}
    (accepts : s.Accepts tag q p) (test : List Byte → Bool) (picks : test p = true) (owner : Decision) :
    s.handOver.onRequestWhen q test owner = s.onRequestWhen q test owner := by
  obtain ⟨r, rest, queue, judged⟩ := State.head_queue accepts.free accepts.head
  by_cases other : q = .checkpoint
  · rw [State.handOver_stays queue (by simp [judged, LinkPort.handsOver, other])]
  · have taken : s.handOver = { s.takeRecord.enterTable tag q with
        lp := { (s.takeRecord.enterTable tag q).lp with held := some ⟨r, true⟩ } } := by
      rw [State.handOver_takes accepts.free queue (by rw [judged]; exact accepts.hands other), judged]
      rfl
    have back : { s.handOver with lp := { s.handOver.lp with held := none } } = s.takeRecord.enterTable tag q := by
      obtain ⟨Q, F, H, O, form⟩ := s.takeRecord_form
      have empty := s.takeRecord_empties
      rw [form] at empty
      rw [taken, form]
      simp only at empty
      subst empty
      rfl
    rw [s.onRequestWhen_accepts tag q p accepts test picks,
      State.onRequestWhen_inHand _ tag q p ⟨r, true⟩ (by rw [taken]) judged test picks, back,
      State.handToOwner_unlocked _ _ _ _ _ (by simpa using accepts.unlocked)]
    rfl

/-- A line record that was taken in hand first is decided as it would have been at the head. -/
theorem exec_lineRecord_handOver {s : State} {slot line count : Nat} {words : List Byte} (free : s.lp.held = none)
    (head : s.head = some (.line slot line count words)) :
    exec .lineRecord s.handOver = exec .lineRecord s := by
  obtain ⟨r, rest, queue, judged⟩ := State.head_queue free head
  have taken : s.handOver = { s.takeRecord with lp := { s.takeRecord.lp with held := some ⟨r, true⟩ } } := by
    rw [State.handOver_takes free queue (by rw [judged]; rfl), judged]
    rfl
  have back : s.handOver.takeRecord = s.takeRecord :=
    s.handOver.takeRecord_restores s.takeRecord.lp ⟨r, true⟩ (by rw [taken]) s.takeRecord_empties |>.trans
      (by rw [taken])
  have next : s.handOver.head = some (.line slot line count words) := by simp [State.head, taken, judged]
  have range : s.handOver.lineInRange slot line count = s.lineInRange slot line count := by
    simp [State.lineInRange, State.lineRefusal, State.slot]
  change execLineRecord s.handOver = execLineRecord s
  simp only [execLineRecord, next, head, range, back]

/-- Settles O5: arrivals, takes and LP's hand, clause by clause. -/
theorem queueFlows : Obligations.QueueFlows := by
  refine ⟨fun s r before up => ?_, fun s r rest free queue => ⟨?_, fun slot line count words judged => ?_,
    fun tag q p judged => ⟨fun passes => ?_, fun fails => ?_⟩, fun noLine noRequest => ?_⟩, fun s idle => ?_,
    fun s h held => s.takeRecord_held h held, fun s tag q p film accepts => ?_,
    fun s slot line count words free head => exec_lineRecord_handOver free head⟩
  · have same : (s.arrive r).Before [] := by
      rw [s.arrive_eq r up]
      split_ifs <;> exact ⟨before.raised, before.staged⟩
    rw [← State.countError_eq, ← s.arrive_eq r up]
    exact run_plain s (·.arrive r) same
  · rw [s.takeRecord_free free, State.removeHead_eq queue]
  · rw [State.handOver_takes free queue (by rw [judged]; rfl), judged]
    rfl
  · rw [State.handOver_takes free queue (by rw [judged]; exact (s.lp.handsOver_request tag q p).2 passes), judged]
    simp [State.enterRecord, State.enterTable]
  · refine State.handOver_stays queue (Bool.eq_false_iff.2 fun hands => ?_)
    rw [judged, LinkPort.handsOver_request] at hands
    obtain ⟨other, size, fresh, room⟩ := hands
    rcases fails with checkpoint | wrong | ⟨o, here, used⟩ | full
    · exact other checkpoint
    · exact wrong size
    · exact fresh o here used
    · omega
  · refine State.handOver_stays queue ?_
    cases judged : judge r with
    | line slot line count words => exact absurd judged (noLine slot line count words)
    | request tag q p => exact absurd judged (noRequest tag q p)
    | dropped _ => rfl
    | otherKind _ => rfl
    | unknownRequest _ _ => rfl
  · rcases s.handOver_cases with same | ⟨r, free, first, -, -⟩
    · exact same
    · rcases idle with inHand | empty
      · exact absurd free inHand
      · simp [empty] at first
  · rw [exec_command, exec_command, run, run, State.onRequestWhen_handOver accepts _ (q.picks_self p)]

end Sys2Proof.Machine
end

