-- ==== Sys2Proof/Proofs/Lines.lean ====
section
/-! PROOFS. Line records: the line stored, the line refused, and the bytes and code values that a stored line reads
back as. -/

namespace Sys2Proof.Machine

/-! ### The decision of a line record -/

/-- A line record is refused for a slot number above 3. -/
theorem State.lineRefusal_badSlot (s : State) {slot : Nat} (above : 3 < slot) (line count : Nat) :
    s.lineRefusal slot line count = some .badSlot := by
  simp [State.lineRefusal, index?, show ¬ slot < 4 by omega]

/-- The checks of a line record past the slot number. -/
theorem State.lineRefusal_slot (s : State) (i : Fin 4) (line count : Nat) : s.lineRefusal i.val line count =
    match s.slot i with
    | none => some .slotNotFilling
    | some r =>
      if r.phase ≠ .filling then some .slotNotFilling
      else if r.height ≤ line then some .lineRange
      else if count ≠ r.width then some .widthMismatch
      else none := by
  simp only [State.lineRefusal, index?, i.isLt, dif_pos] <;> rfl

theorem SlotRecord.mark_eq (r : SlotRecord) (line : Nat) : r.mark line =
    if r.presence[line]?.getD false then { r with rewrites := min 65535 (r.rewrites + 1) }
    else { r with presence := r.presence.set line true, presenceCount := r.presenceCount + 1 } := by
  unfold SlotRecord.mark
  rw [saturate_eq_min]

/-- LP's take of a line record leaves what FS reads to check it. -/
theorem State.takeRecord_lineRefusal (s : State) (slot line count : Nat) :
    s.takeRecord.lineRefusal slot line count = s.lineRefusal slot line count := by
  simp [State.lineRefusal, State.slot]

theorem exec_lineRecord {s : State} {slot line count : Nat} {words : List Byte}
    (head : s.head = some (.line slot line count words)) : exec .lineRecord s =
      if s.lineInRange slot line count then
        .next (s.takeRecord.decideLine slot line count words).concluded
      else .fault .imagePosition := by
  change execLineRecord s = _
  rw [execLineRecord, head]

/-- Settles O10: no check refuses the line, so that it is stored. -/
theorem lineStored : Obligations.LineStored := by
  rintro s i line _ words r before head here filling below rfl
  have passes : s.lineRefusal i.val line r.width = none := by
    simp [s.lineRefusal_slot, here, filling, below]
  refine ⟨fun narrow low => ?_, fun large => ?_⟩
  · have inRange : s.lineInRange i.val line r.width = true := by
      simp [State.lineInRange, passes, narrow, low, Config.maxWidth, Config.maxHeight]
    have stored : s.takeRecord.decideLine i.val line r.width words = { s.takeRecord with fs := { s.fs with
        slots := s.fs.slots.set i (some (r.mark line))
        image := Memory.storeLine s.fs.image i line words } } := by
      have there : s.takeRecord.slot i = some r := by simpa [State.slot] using here
      simp [State.decideLine, s.takeRecord_lineRefusal, passes, index?, State.storeLine, there, State.setSlot]
    rw [exec_lineRecord head, if_pos inRange, stored, ← r.mark_eq]
    exact congrArg Host.Outcome.next
      (State.Before.concluded ⟨before.takeRecord.raised, before.takeRecord.staged⟩)
  · have outside : s.lineInRange i.val line r.width = false := by
      rw [State.lineInRange, passes, Bool.and_eq_false_iff, decide_eq_false_iff_not, decide_eq_false_iff_not]
      exact large.imp Nat.not_le.2 Nat.not_lt.2
    simp [exec_lineRecord head, outside]

/-- Settles O11: the reason is that of the first check that fails, and it alone is entered. -/
theorem lineRefused : Obligations.LineRefused := by
  intro s slot line count words reason before head fails
  have refused : s.lineRefusal slot line count = some reason := by
    rcases fails with ⟨above, rfl⟩ | ⟨i, rfl, other, rfl⟩ | ⟨i, r, rfl, here, filling, fails⟩
    · exact s.lineRefusal_badSlot above line count
    · rw [s.lineRefusal_slot]
      cases here : s.slot i with
      | none => rfl
      | some r =>
        have other : r.phase ≠ .filling := by simpa [State.phaseOf, here] using other
        simp [other]
    · rcases fails with ⟨above, rfl⟩ | ⟨below, width, rfl⟩
      · simp [s.lineRefusal_slot, here, filling, above]
      · simp [s.lineRefusal_slot, here, filling, width, show ¬ r.height ≤ line by omega]
  have posted : s.takeRecord.decideLine slot line count words =
      { s.takeRecord with lp := { s.takeRecord.lp with posted :=
        ⟨min 65535 (s.lp.posted.count + 1), some (s.lp.posted.first.getD ⟨slot, line, reason⟩)⟩ } } := by
    have first : s.lp.posted.first.or (some ⟨slot, line, reason⟩) =
        some (s.lp.posted.first.getD ⟨slot, line, reason⟩) := by cases s.lp.posted.first <;> rfl
    simp [State.decideLine, s.takeRecord_lineRefusal, refused, State.postRefusal, saturate_eq_min, first]
  rw [exec_lineRecord head, if_pos (by simp [State.lineInRange, refused]), posted]
  exact congrArg Host.Outcome.next (State.Before.concluded ⟨before.takeRecord.raised, before.takeRecord.staged⟩)

/-! ### The stored words -/

theorem byteAt_cons_succ (b : Byte) (l : List Byte) (i : Nat) : byteAt (b :: l) (i + 1) = byteAt l i := rfl

theorem byteAt_lt (l : List Byte) (i : Nat) : byteAt l i < 256 := (l[i]?.getD 0).isLt

/-- The four bytes of a long field. -/
theorem longAt_eq (l : List Byte) (i : Nat) : longAt l i =
    byteAt l i + 256 * byteAt l (i + 1) + 65536 * byteAt l (i + 2) + 16777216 * byteAt l (i + 3) := by
  simp only [longAt, wordAt, Nat.add_assoc, Nat.reduceAdd]
  omega

theorem longAt_drop_word (b0 b1 b2 b3 : Byte) (l : List Byte) (i : Nat) :
    longAt (b0 :: b1 :: b2 :: b3 :: l) (i + 4) = longAt l i := rfl

/-- Bits 30 and 31 are the two highest of the fourth byte. -/
theorem byte_without_high (b : Byte) : (b &&& 0x3F).toNat = b.toNat % 64 := by
  rw [BitVec.toNat_and]
  exact Nat.and_two_pow_sub_one_eq_mod b.toNat 6

theorem length_storedWords (words : List Byte) (n : Nat) (whole : words.length = 4 * n) :
    (storedWords words).length = 4 * n := by
  induction n generalizing words with
  | zero => rw [List.length_eq_zero_iff.1 whole]; rfl
  | succ n ih =>
    match words, whole with
    | b0 :: b1 :: b2 :: b3 :: rest, whole =>
      have rest := ih rest (by simp only [List.length_cons] at whole; omega)
      simp only [storedWords, List.length_cons, rest]
      omega

theorem longAt_storedWords (words : List Byte) (n x : Nat) (whole : words.length = 4 * n) (inside : x < n) :
    longAt (storedWords words) (4 * x) = longAt words (4 * x) % 1073741824 := by
  induction n generalizing words x with
  | zero => omega
  | succ n ih =>
    match words, whole with
    | b0 :: b1 :: b2 :: b3 :: rest, whole =>
      cases x with
      | zero =>
        have bytes : longAt (storedWords (b0 :: b1 :: b2 :: b3 :: rest)) 0 =
            b0.toNat + 256 * b1.toNat + 65536 * b2.toNat + 16777216 * (b3 &&& 0x3F).toNat := longAt_eq _ 0
        have word : longAt (b0 :: b1 :: b2 :: b3 :: rest) 0 =
            b0.toNat + 256 * b1.toNat + 65536 * b2.toNat + 16777216 * b3.toNat := longAt_eq _ 0
        rw [Nat.mul_zero, bytes, word, byte_without_high]
        have := b0.isLt
        have := b1.isLt
        have := b2.isLt
        omega
      | succ x =>
        have rest := ih rest x (by simp only [List.length_cons] at whole; omega) (by omega)
        exact rest

/-! ### What a pixel reads back as -/

/-- The three code values of a pixel word. -/
def pixelOf (w : Nat) : Rgb Nat := ⟨w % 1024, w / 1024 % 1024, w / 1048576 % 1024⟩

/-- A pixel is that of the four bytes at its address. -/
theorem Memory.pixel_congr {m m' : Memory} {slot line x : Nat}
    (same : ∀ k < 4, m.read (pixelAddress slot line x + k) = m'.read (pixelAddress slot line x + k)) :
    m.pixel slot line x = m'.pixel slot line x := by
  have b0 := same 0 (by decide)
  have b1 := same 1 (by decide)
  have b2 := same 2 (by decide)
  have b3 := same 3 (by decide)
  simp only [Memory.pixel, Nat.add_zero] at b0 ⊢
  rw [b0, b1, b2, b3]

theorem Memory.pixel_eq {m : Memory} {slot line x i : Nat} {bytes : List Byte}
    (here : ∀ k < 4, (m.read (pixelAddress slot line x + k)).toNat = byteAt bytes (i + k)) :
    m.pixel slot line x = pixelOf (longAt bytes i) := by
  have b0 := here 0 (by decide)
  have b1 := here 1 (by decide)
  have b2 := here 2 (by decide)
  have b3 := here 3 (by decide)
  simp only [Nat.add_zero] at b0
  rw [longAt_eq]
  simp only [Memory.pixel, pixelOf, b0, b1, b2, b3]

theorem Memory.read_storeLine (m : Memory) (slot line a : Nat) (words : List Byte) (wf : m.wf) :
    Memory.read (m.storeLine slot line words) a =
      if pixelAddress slot line 0 ≤ a ∧ a < pixelAddress slot line 0 + (storedWords words).length then
        (storedWords words)[a - pixelAddress slot line 0]?.getD 0
      else Memory.read m a := Memory.read_writeBytes _ m wf _ a

theorem pixelAddress_eq (slot line x : Nat) :
    pixelAddress slot line x = 4 * ((slot * 3200 + line) * 4096 + x) := rfl

/-- Settles O12: the bytes of a line, the words they make, and the pixels at its positions and elsewhere. -/
theorem lineBytes : Obligations.LineBytes := by
  refine ⟨fun m slot line a words wf => m.read_storeLine slot line a words wf,
    fun words n whole => ⟨length_storedWords words n whole, fun x => longAt_storedWords words n x whole⟩,
    fun m slot line n words wf slots lines narrow whole => ?_⟩
  have length := length_storedWords words n whole
  constructor
  · rintro x w inside rfl
    have reads : ∀ k < 4, ((m.storeLine slot line words).read (pixelAddress slot line x + k)).toNat =
        byteAt (storedWords words) (4 * x + k) := by
      intro k small
      have place : pixelAddress slot line x + k = pixelAddress slot line 0 + (4 * x + k) := by
        simp only [pixelAddress_eq]
        omega
      rw [m.read_storeLine slot line _ words wf, place, if_pos (by omega), Nat.add_sub_cancel_left]
      rfl
    rw [Memory.pixel_eq reads, longAt_storedWords words n x whole inside]
    simp only [pixelOf, Rgb.mk.injEq]
    omega
  · intro slot' line' x slots' lines' narrow' other
    refine Memory.pixel_congr fun k small => ?_
    rw [m.read_storeLine slot line _ words wf, if_neg]
    simp only [pixelAddress_eq, length]
    omega

end Sys2Proof.Machine
end

