-- ==== Sys2Proof/Proofs/Notices.lean ====
section
/-! PROOFS. Notices: the release of the held ones, the decision by the mask, and what a list of things sent puts
out. -/

namespace Sys2Proof.Machine

/-! ### One entry released -/

theorem State.releaseEntry_low (s : State) (i : Fin 11) (level : Nat) (low : level ≤ s.nu.mask) :
    s.releaseEntry i level = s := if_neg (Nat.not_lt.2 low)

theorem State.releaseEntry_mask (s : State) (i : Fin 11) (level : Nat) :
    (s.releaseEntry i level).nu.mask = s.nu.mask := (s.releaseEntry_kept i level).1

/-- A release leaves every entry but its own. -/
theorem State.releaseEntry_others (s : State) (i j : Fin 11) (level : Nat) (other : i ≠ j) :
    (s.releaseEntry i level).nu.pending[j] = s.nu.pending[j] := by
  have apart : i.val ≠ j.val := fun same => other (Fin.ext same)
  unfold State.releaseEntry
  split
  · split
    · rfl
    · simp [apart]
  · rfl

/-- An entry released goes out, with the link UP. -/
theorem State.releaseEntry_out (s : State) (i : Fin 11) (level : Nat) : (s.releaseEntry i level).out = s.out ++
    (if s.lp.up = true ∧ s.nu.mask < level then (s.nu.pending[i].map Output.notice).toList else []) := by
  unfold State.releaseEntry State.sendNotice
  by_cases above : s.nu.mask < level <;> simp only [above, if_true, if_false, and_true, and_false, List.append_nil]
  cases here : s.nu.pending[i] with
  | none => simp
  | some n => cases up : s.lp.up <;> simp [State.emit]

/-! ### A list of entries released -/

theorem State.releaseAll_form (l : List (Fin 11 × Nat)) (s : State) :
    ∃ n o, s.releaseAll l = { s with nu := n, out := o } := by
  induction l generalizing s with
  | nil => exact ⟨_, _, rfl⟩
  | cons e l ih =>
    obtain ⟨n, o, one⟩ := s.releaseEntry_form e.1 e.2
    obtain ⟨n', o', rest⟩ := ih (s.releaseEntry e.1 e.2)
    exact ⟨n', o', by rw [State.releaseAll_cons, rest, one]⟩

/-- Entries that are not released stay as they are. -/
theorem State.releaseAll_others (l : List (Fin 11 × Nat)) (s : State) (j : Fin 11) (other : ∀ e ∈ l, e.1 ≠ j) :
    (s.releaseAll l).nu.pending[j] = s.nu.pending[j] := by
  induction l generalizing s with
  | nil => rfl
  | cons e l ih =>
    rw [State.releaseAll_cons, ih _ fun x here => other x (List.mem_cons_of_mem e here),
      s.releaseEntry_others e.1 j e.2 (other e List.mem_cons_self)]

/-- Of entries of distinct places exactly those above the mask are cleared. -/
theorem State.releaseAll_pending (l : List (Fin 11 × Nat)) (s : State) (distinct : (l.map (·.1)).Nodup) :
    ∀ e ∈ l, (s.releaseAll l).nu.pending[e.1] = if s.nu.mask < e.2 then none else s.nu.pending[e.1] := by
  induction l generalizing s with
  | nil => simp
  | cons e l ih =>
    obtain ⟨apart, distinct⟩ := List.nodup_cons.1 distinct
    intro x here
    rw [State.releaseAll_cons]
    rcases List.mem_cons.1 here with rfl | later
    · rw [State.releaseAll_others l _ x.1 fun y there same => apart (List.mem_map.2 ⟨y, there, same⟩)]
      split
      next above => exact s.releaseEntry_clears x.1 x.2 above
      next low => rw [s.releaseEntry_low x.1 x.2 (Nat.le_of_not_lt low)]
    · have other : e.1 ≠ x.1 := fun same => apart (List.mem_map.2 ⟨x, later, same.symm⟩)
      rw [ih _ distinct x later, s.releaseEntry_mask, s.releaseEntry_others e.1 x.1 e.2 other]

/-- What goes out of entries of distinct places: those above the mask, in their order, with the link UP. -/
theorem State.releaseAll_out (l : List (Fin 11 × Nat)) (s : State) (distinct : (l.map (·.1)).Nodup) :
    (s.releaseAll l).out = s.out ++ (if s.lp.up = true then
      (l.filter (fun e => s.nu.mask < e.2)).filterMap (fun e => s.nu.pending[e.1].map Output.notice) else []) := by
  induction l generalizing s with
  | nil => simp [State.releaseAll]
  | cons e l ih =>
    obtain ⟨apart, distinct⟩ := List.nodup_cons.1 distinct
    have later : (l.filter (fun x => s.nu.mask < x.2)).filterMap
          (fun x => (s.releaseEntry e.1 e.2).nu.pending[x.1].map Output.notice) =
        (l.filter (fun x => s.nu.mask < x.2)).filterMap (fun x => s.nu.pending[x.1].map Output.notice) := by
      refine List.filterMap_congr fun x here => ?_
      have there : x ∈ l := (List.mem_filter.1 here).1
      rw [s.releaseEntry_others e.1 x.1 e.2 fun same => apart (List.mem_map.2 ⟨x, there, same.symm⟩)]
    have up : (s.releaseEntry e.1 e.2).lp.up = s.lp.up := by
      obtain ⟨n, o, one⟩ := s.releaseEntry_form e.1 e.2
      rw [one]
    rw [State.releaseAll_cons, ih _ distinct, s.releaseEntry_mask, later, up, s.releaseEntry_out, List.append_assoc]
    congr 1
    by_cases isUp : s.lp.up = true <;> by_cases above : s.nu.mask < e.2 <;>
      simp only [isUp, above, and_self, and_true, and_false, if_true, if_false, List.append_nil,
        List.nil_append, List.filter_cons, decide_true, decide_false, Bool.false_eq_true]
    rw [List.filterMap_cons]
    cases s.nu.pending[e.1] <;> rfl

/-! ### The mask -/

theorem releaseOrder_distinct : (releaseOrder.map (·.1)).Nodup := by decide

/-- Setting the mask changes the Notice Unit and what is put out, and nothing else. -/
theorem State.setMask_form (s : State) (m : Nat) : ∃ n o, s.setMask m = { s with nu := n, out := o } := by
  have released (t : State) (l : List (Fin 11 × Nat)) (same : ∃ n, t = { s with nu := n }) :
      ∃ n o, t.releaseAll l = { s with nu := n, out := o } := by
    obtain ⟨n, rfl⟩ := same
    exact State.releaseAll_form l _
  rw [State.setMask_eq]
  split
  · exact released _ _ ⟨_, rfl⟩
  · exact ⟨_, _, rfl⟩

/-- The mask set is the level asked for, whatever it releases. -/
theorem State.setMask_mask (s : State) (m : Nat) : (s.setMask m).nu.mask = m := by
  rw [State.setMask_eq]
  split
  · exact (State.releaseAll_kept releaseOrder _).1
  · rfl

theorem State.setMask_pending (s : State) (m : Nat) : ∀ e ∈ releaseOrder,
    (s.setMask m).nu.pending[e.1] = if m < s.nu.mask ∧ m < e.2 then none else s.nu.pending[e.1] := by
  intro e here
  rw [State.setMask_eq]
  by_cases lowered : m < s.nu.mask
  · rw [if_pos lowered, State.releaseAll_pending releaseOrder _ releaseOrder_distinct e here]
    simp only [lowered, true_and]
  · rw [if_neg lowered, if_neg fun both => lowered both.1]

theorem State.setMask_out (s : State) (m : Nat) : (s.setMask m).out = s.out ++
    (if m < s.nu.mask ∧ s.lp.up = true then
      (releaseOrder.filter (fun e => m < e.2)).filterMap (fun e => s.nu.pending[e.1].map Output.notice)
    else []) := by
  rw [State.setMask_eq]
  by_cases lowered : m < s.nu.mask
  · rw [if_pos lowered, State.releaseAll_out releaseOrder _ releaseOrder_distinct]
    simp only [lowered, true_and]
  · rw [if_neg lowered, if_neg fun both => lowered both.1, List.append_nil]

/-- Settles O14: the release, the decision by the level, and the things sent. -/
theorem noticesDecided : Obligations.NoticesDecided := by
  refine ⟨rfl, rfl, fun s m => ⟨s.setMask_mask m, s.setMask_pending m, s.setMask_out m, ?_⟩,
    fun s p => ⟨fun sent => ?_, fun i entry below low => ?_⟩, fun s c o x l => ⟨rfl, rfl, rfl, rfl, ?_⟩⟩
  · obtain ⟨n, o, form⟩ := s.setMask_form m
    rw [form]
  · exact if_pos sent
  · have held : ¬ (p.kind.level = 7 ∨ s.nu.mask < p.kind.level) := by omega
    rw [State.notice, if_neg held, State.holdNotice, entry]
    simp only [heldNotice, saturate_eq_min] <;> rfl
  · cases x <;> rfl

end Sys2Proof.Machine
end

