-- ==== Sys2Proof/Proofs/Parameters.lean ====
section
/-! PROOFS. A request that passes intake, refused or done by its owner; Set Parameter. -/

namespace Sys2Proof.Machine

/-! ### A request that passes intake -/

/-- A request that its owner refuses. -/
theorem exec_refused {s : State} {tag : Nat} {q : Request} {p : List Byte} (film : Bool) (accepts : s.Accepts tag q p)
    {reason : Reason} {field : Nat} {data : ReplyData}
    (refuses : q.owner film p (s.takeRecord.enterTable tag q) (some tag) p =
      (s.takeRecord.enterTable tag q).refuse (some tag) q reason field data) :
    exec (q.command film p) s = .next (s.takeRecord.repliedRefused tag q reason field data) := by
  rw [exec_command, run_refused s tag q p accepts _ (q.picks_self p) _ reason field data refuses]

/-- A request that its owner answers, with the state changed to `u` but for the outstanding-request table. -/
theorem exec_answered {s u : State} {tag : Nat} {q : Request} {p : List Byte} (film : Bool)
    (accepts : s.Accepts tag q p) {a : Answer}
    (answers : q.owner film p (s.takeRecord.enterTable tag q) (some tag) p =
      (u.enterTable tag q).answer (some tag) q a)
    (table : u.lp.outstanding = s.lp.outstanding := by simp) (up : u.lp.up = s.lp.up := by simp)
    (staged : u.staged = s.staged := by simp) (raised : u.fu.raised = s.fu.raised := by simp) :
    exec (q.command film p) s =
      .next (u.replied ⟨tag, q.code, a.outcome, a.reason, u.es.engine, a.field, a.clamped, a.data⟩) := by
  rw [exec_command]
  refine run_answer s tag q p accepts _ (q.picks_self p) _ (u.enterTable tag q) u a answers ?_ (up.trans accepts.up)
    (staged.trans accepts.before.staged) (fun f raisedHere => (accepts.before.raised f (raised ▸ raisedHere)).1) ?_
  · rw [← table, State.enterTable]
  · rw [← table, State.enterTable]

/-- A request that its owner does, with the state changed to `u` but for the outstanding-request table. -/
theorem exec_done {s u : State} {tag : Nat} {q : Request} {p : List Byte} (film : Bool) (accepts : s.Accepts tag q p)
    {data : ReplyData}
    (does : q.owner film p (s.takeRecord.enterTable tag q) (some tag) p =
      (u.enterTable tag q).done (some tag) q data)
    (table : u.lp.outstanding = s.lp.outstanding := by simp) (up : u.lp.up = s.lp.up := by simp)
    (staged : u.staged = s.staged := by simp) (raised : u.fu.raised = s.fu.raised := by simp) :
    exec (q.command film p) s = .next (u.repliedDone tag q data) :=
  exec_answered film accepts does table up staged raised

/-! ### The parameters one by one -/

theorem Channel.get_set {α : Type} (v : Rgb α) (c d : Channel) (x : α) :
    (v.set c x).get d = if d = c then x else v.get d := by
  cases c <;> cases d <;> rfl

/-- A direction is known by its code. -/
theorem Direction.code_ofCode {v : Nat} (range : v ≤ 2) : (Direction.ofCode v).code = v := by
  interval_cases v <;> rfl

/-- What a parameter takes it holds. -/
theorem State.parameter_setParameter (s : State) (q : Parameter) (v : Nat) (range : q.inRange v = true) :
    (s.setParameter q v).parameter q = v := by
  cases q with
  | target c => exact (Channel.get_set _ c c v).trans (if_pos rfl)
  | direction => exact Direction.code_ofCode (of_decide_eq_true range)
  | knot c j => simp [State.setParameter, State.parameter, State.setKnot, Channel.get_set]
  | _ => rfl

/-- Every other parameter holds what it held. -/
theorem State.parameter_setParameter_other (s : State) (q q' : Parameter) (v : Nat) (other : q' ≠ q) :
    (s.setParameter q v).parameter q' = s.parameter q' := by
  cases q with
  | target c =>
    cases q' with
    | target d =>
      have apart : d ≠ c := fun same => other (by rw [same])
      exact (Channel.get_set _ c d v).trans (if_neg apart)
    | _ => rfl
  | knot c j =>
    cases q' with
    | knot d k =>
      simp only [State.setParameter, State.parameter, State.setKnot, Channel.get_set]
      split
      next same =>
        subst same
        have apart : j.val ≠ k.val := fun equal => other (by rw [Fin.ext equal])
        exact Vector.getElem_set_ne j.isLt k.isLt apart
      next => rfl
    | _ => rfl
  | _ => cases q' <;> trivial

/-- The fields of the parameters are the only ones that Set Parameter changes. -/
theorem State.setParameter_frame (s : State) (q : Parameter) (v : Nat) : s = { s.setParameter q v with
    stu := { (s.setParameter q v).stu with params := s.stu.params }
    pl := { (s.setParameter q v).pl with params := s.pl.params }
    es := { (s.setParameter q v).es with linePitch := s.es.linePitch, pauseMs := s.es.pauseMs }
    du := { (s.setParameter q v).du with shading := s.du.shading } } := by
  cases q <;> rfl

/-- Set Parameter reads and leaves the outstanding-request table as it is. -/
theorem State.setParameter_enterTable (s : State) (q : Parameter) (v tag : Nat) (r : Request) :
    (s.enterTable tag r).setParameter q v = (s.setParameter q v).enterTable tag r := by
  cases q <;> rfl

@[simp] theorem State.setParameter_lp (s : State) (q : Parameter) (v : Nat) : (s.setParameter q v).lp = s.lp := by
  cases q <;> rfl

@[simp] theorem State.setParameter_staged (s : State) (q : Parameter) (v : Nat) :
    (s.setParameter q v).staged = s.staged := by
  cases q <;> rfl

@[simp] theorem State.setParameter_fu (s : State) (q : Parameter) (v : Nat) : (s.setParameter q v).fu = s.fu := by
  cases q <;> rfl

/-! ### The checks of Set Parameter -/

/-- Every non-FREE slot fits. -/
theorem State.widthsFit_iff (s : State) (nsp l0 : Nat) : s.widthsFit nsp l0 = true ↔
    ∀ (i : Fin 4) (r : SlotRecord), s.slot i = some r → l0 + r.width ≤ nsp := by
  constructor
  · intro fit i r here
    have member : s.slot i ∈ s.fs.slots.toList := by simp [State.slot]
    have fits := List.all_eq_true.1 fit _ member
    rw [here] at fits
    exact of_decide_eq_true fits
  · intro fits
    refine List.all_eq_true.2 fun x member => ?_
    obtain ⟨i, small, rfl⟩ := List.mem_iff_getElem.1 member
    cases here : s.fs.slots.toList[i] with
    | none => rfl
    | some r => exact decide_eq_true (fits ⟨i, by simpa using small⟩ r (by simpa [State.slot] using here))

theorem State.pairHolds_iff (s : State) (q : Parameter) (v : Nat) : s.pairHolds q v = true ↔
    (q = .tn → v < s.stu.params.pn) ∧ (q = .pn → s.stu.params.tn < v) := by
  cases q <;> simp [State.pairHolds]

theorem State.geometryHolds_iff (s : State) (q : Parameter) (v : Nat) : s.geometryHolds q v = true ↔
    ∀ (i : Fin 4) (r : SlotRecord), s.slot i = some r →
      (q = .nsp → s.stu.params.l0 + r.width ≤ v) ∧ (q = .l0 → v + r.width ≤ s.stu.params.nsp) := by
  cases q <;> simp [State.geometryHolds, State.widthsFit_iff]

/-- What Set Parameter reads is not the link's. -/
theorem State.pairHolds_taken (s : State) (tag : Nat) (r : Request) (q : Parameter) (v : Nat) :
    (s.takeRecord.enterTable tag r).pairHolds q v = s.pairHolds q v := by
  cases q <;> simp [State.pairHolds]

theorem State.geometryHolds_taken (s : State) (tag : Nat) (r : Request) (q : Parameter) (v : Nat) :
    (s.takeRecord.enterTable tag r).geometryHolds q v = s.geometryHolds q v := by
  cases q <;> simp [State.geometryHolds, State.widthsFit]

theorem State.parameter_taken (s : State) (tag : Nat) (r : Request) (q : Parameter) :
    (s.takeRecord.enterTable tag r).parameter q = s.parameter q := by
  cases q <;> simp [State.parameter]

/-! ### The ids -/

/-- An id of the single parameters is one of fifteen, and any other is looked up as that of a knot. -/
theorem Parameter.ofId_eq_ofKnotId {n : Nat} (noRow : ∀ x ∈ parameterRows, x.1 ≠ n) :
    Parameter.ofId n = Parameter.ofKnotId n := by
  simp only [parameterRows, List.forall_mem_cons, List.not_mem_nil, false_implies, implies_true, and_true] at noRow
  unfold Parameter.ofId
  split
  case h_16 => rfl
  all_goals omega

theorem Parameter.ofKnotId_eq_none {n : Nat}
    (noKnot : ∀ (c : Channel) (j : Fin 17), 0x0100 + 0x20 * channelNumber c + j.val ≠ n) :
    Parameter.ofKnotId n = none := by
  unfold Parameter.ofKnotId
  cases place : index? (n % 32) 17 with
  | none => rfl
  | some j =>
    have here : j.val = n % 32 := by
      unfold index? at place
      split at place
      · rw [← Option.some.inj place]
      · cases place
    have red := noKnot .red j
    have green := noKnot .green j
    have blue := noKnot .blue j
    simp only [channelNumber] at red green blue
    simp only [show n / 32 ≠ 8 by omega, show n / 32 ≠ 9 by omega, show n / 32 ≠ 10 by omega, if_false]

theorem Parameter.ofId_knot (c : Channel) (j : Fin 17) :
    Parameter.ofId (0x0100 + 0x20 * channelNumber c + j.val) = some (.knot c j) := by
  cases c <;> revert j <;> decide

theorem parameterRows_hold : ∀ x ∈ parameterRows, Parameter.ofId x.1 = some x.2.1 ∧
    (∀ v, x.2.1.inRange v = true ↔ x.2.2.1 ≤ v ∧ v ≤ x.2.2.2) ∧
    (∀ e, x.2.1.acceptedIn e = true ↔ e = .offline) := by
  intro x row
  simp only [parameterRows, List.mem_cons, List.not_mem_nil, or_false] at row
  rcases row with rfl | rfl | rfl | rfl | rfl | rfl | rfl | rfl | rfl | rfl | rfl | rfl | rfl | rfl | rfl <;>
    exact ⟨rfl, fun v => by simp [Parameter.inRange], fun e => by simp [Parameter.acceptedIn]⟩

/-- Settles O15: the accepted form, the refusals in order, and the tables. -/
theorem parameterDecided : Obligations.ParameterDecided := by
  refine ⟨fun s tag p q accepts known state range pair geometry => ⟨?_, s.parameter_setParameter q _ range,
      fun q' other => s.parameter_setParameter_other q q' _ other⟩,
    fun s tag p accepts => ⟨fun unknown => ?_, fun q known => ⟨fun state => ?_, fun state value => ?_,
      fun state range pair geometry => ?_⟩⟩,
    parameterRows_hold,
    fun c j => ⟨Parameter.ofId_knot c j, fun v => by simp [Parameter.inRange],
      fun e => by simp [Parameter.acceptedIn]⟩,
    fun n noRow noKnot => (Parameter.ofId_eq_ofKnotId noRow).trans (Parameter.ofKnotId_eq_none noKnot),
    fun s q v => ⟨s.pairHolds_iff q v, s.geometryHolds_iff q v, ?_⟩,
    fun s => ⟨rfl, rfl, rfl, rfl, fun c => rfl, fun c j => rfl⟩⟩
  · refine exec_done (q := .setParameter) false accepts ?_
    simp only [Request.owner, decideSetParameter, known, State.decideParameter, s.pairHolds_taken,
      s.geometryHolds_taken, s.parameter_taken, State.setParameter_enterTable, range, pair, geometry]
    simp [state]
  · refine exec_refused (q := .setParameter) false accepts ?_
    simp only [Request.owner, decideSetParameter, unknown]
  · refine exec_refused (q := .setParameter) false accepts ?_
    simp only [Request.owner, decideSetParameter, known, State.decideParameter]
    simp [state]
  · refine exec_refused (q := .setParameter) false accepts ?_
    simp only [Request.owner, decideSetParameter, known, State.decideParameter, s.pairHolds_taken]
    rcases value with out | crossed
    · simp [state, out]
    · simp [state, crossed]
  · refine exec_refused (q := .setParameter) false accepts ?_
    simp only [Request.owner, decideSetParameter, known, State.decideParameter, s.pairHolds_taken,
      s.geometryHolds_taken]
    simp [state, range, pair, geometry]
  · rintro t rfl
    exact s.setParameter_frame q v

end Sys2Proof.Machine
end

