-- ==== Sys2Proof/Proofs/Sending.lean ====
section
/-! PROOFS. What a list of things sent does to the state, field by field, and its independence of what it does not
read. -/

namespace Sys2Proof.Machine

/-- The Notice Unit after a list of things is sent. -/
def NoticeUnit.gives (n : NoticeUnit) : List Sent → NoticeUnit
  | [] => n
  | .notice p :: l => (n.given p).gives l
  | .command _ :: l => n.gives l
  | .output _ :: l => n.gives l

/-- What a list of things sent puts out. -/
def NoticeUnit.putsOut (n : NoticeUnit) (up : Bool) : List Sent → List Output
  | [] => []
  | .notice p :: l => n.putOut up p ++ (n.given p).putsOut up l
  | .command c :: l => .mechanism c :: n.putsOut up l
  | .output o :: l => o :: n.putsOut up l

/-- Sending reads the Notice Unit and the link state, and changes the Notice Unit and what is put out. -/
theorem State.sends_eq (l : List Sent) (s : State) :
    s.sends l = { s with nu := s.nu.gives l, out := s.out ++ s.nu.putsOut s.lp.up l } := by
  induction l generalizing s with
  | nil => simp [State.sends_nil, NoticeUnit.gives, NoticeUnit.putsOut]
  | cons x l ih =>
    cases x with
    | notice p =>
      rw [State.sends_notice, ih, State.notice_eq]
      simp [NoticeUnit.gives, NoticeUnit.putsOut, List.append_assoc]
    | command c =>
      rw [State.sends_command, ih]
      simp [NoticeUnit.gives, NoticeUnit.putsOut, State.command, State.emit]
    | output o =>
      rw [State.sends_output, ih]
      simp [NoticeUnit.gives, NoticeUnit.putsOut, State.emit]

@[simp] theorem State.sends_fs (s : State) (l : List Sent) : (s.sends l).fs = s.fs := by rw [State.sends_eq]

@[simp] theorem State.sends_admission (s : State) (l : List Sent) : (s.sends l).admission = s.admission := by rw [State.sends_eq]

@[simp] theorem State.sends_pt (s : State) (l : List Sent) : (s.sends l).pt = s.pt := by rw [State.sends_eq]

@[simp] theorem State.sends_du (s : State) (l : List Sent) : (s.sends l).du = s.du := by rw [State.sends_eq]

@[simp] theorem State.sends_stu (s : State) (l : List Sent) : (s.sends l).stu = s.stu := by rw [State.sends_eq]

@[simp] theorem State.sends_pl (s : State) (l : List Sent) : (s.sends l).pl = s.pl := by rw [State.sends_eq]

@[simp] theorem State.sends_es (s : State) (l : List Sent) : (s.sends l).es = s.es := by rw [State.sends_eq]

@[simp] theorem State.sends_tc (s : State) (l : List Sent) : (s.sends l).tc = s.tc := by rw [State.sends_eq]

@[simp] theorem State.sends_fu (s : State) (l : List Sent) : (s.sends l).fu = s.fu := by rw [State.sends_eq]

@[simp] theorem State.sends_rl (s : State) (l : List Sent) : (s.sends l).rl = s.rl := by rw [State.sends_eq]

@[simp] theorem State.sends_lp (s : State) (l : List Sent) : (s.sends l).lp = s.lp := by rw [State.sends_eq]

@[simp] theorem State.sends_staged (s : State) (l : List Sent) : (s.sends l).staged = s.staged := by rw [State.sends_eq]

@[simp] theorem State.sends_pending (s : State) (l : List Sent) : (s.sends l).pending = s.pending := by rw [State.sends_eq]

/-- One thing more is sent at the end of a list. -/
theorem State.notice_sends (s : State) (l : List Sent) (p : NoticePayload) :
    (s.sends l).notice p = s.sends (l ++ [.notice p]) := (State.sends_append s l [.notice p]).symm

theorem State.command_sends (s : State) (l : List Sent) (c : MechanismCommand) :
    (s.sends l).command c = s.sends (l ++ [.command c]) := (State.sends_append s l [.command c]).symm

theorem State.emit_sends (s : State) (l : List Sent) (o : Output) :
    (s.sends l).emit o = s.sends (l ++ [.output o]) := (State.sends_append s l [.output o]).symm

/-- Sending does not read the outstanding-request table. -/
theorem State.sends_enterTable (s : State) (l : List Sent) (tag : Nat) (q : Request) :
    (s.enterTable tag q).sends l = (s.sends l).enterTable tag q := by
  rw [State.sends_eq, State.sends_eq]
  rfl

theorem State.sends_withEs (s : State) (l : List Sent) (x : Sequencer) :
    State.sends { s with es := x } l = { s.sends l with es := x } := by
  rw [State.sends_eq, State.sends_eq]

theorem State.sends_withTc (s : State) (l : List Sent) (x : Transport) :
    State.sends { s with tc := x } l = { s.sends l with tc := x } := by
  rw [State.sends_eq, State.sends_eq]

theorem State.sends_withFu (s : State) (l : List Sent) (x : FaultUnit) :
    State.sends { s with fu := x } l = { s.sends l with fu := x } := by
  rw [State.sends_eq, State.sends_eq]

theorem State.sends_withRl (s : State) (l : List Sent) (x : RollLog) :
    State.sends { s with rl := x } l = { s.sends l with rl := x } := by
  rw [State.sends_eq, State.sends_eq]

theorem State.sends_withStaged (s : State) (l : List Sent) (x : List Reply) :
    State.sends { s with staged := x } l = { s.sends l with staged := x } := by
  rw [State.sends_eq, State.sends_eq]

end Sys2Proof.Machine
end

