-- ==== Sys2Proof/Proofs/Settings.lean ====
section
/-! PROOFS. The Link Port's immediate requests, roll trims and facets, the footage, the fault responses and Read
Log. -/

namespace Sys2Proof.Machine

/-! ### Tables and counts -/

theorem getElem_tabulate {α : Type} (n : Nat) (f : Nat → α) (i : Nat) (small : i < n) :
    (tabulate n f)[i] = f i := by
  simp [tabulate]

theorem getElem_mapTable {α β : Type} {n : Nat} (f : α → β) (v : Vector α n) (i : Nat) (small : i < n) :
    (mapTable f v)[i] = f v[i] := by
  simp [mapTable]

/-- A count over a table is the number of the places that pass. -/
theorem countP_toList_eq {α : Type} {n : Nat} (v : Vector α n) (f : α → Bool) (l : List (Fin n))
    (distinct : l.Nodup) (here : ∀ i, i ∈ l ↔ f v[i] = true) : v.toList.countP f = l.length := by
  have table : v.toList = (List.finRange n).map (fun i => v[i]) := by
    apply List.ext_getElem <;> simp
  have same : l.Perm ((List.finRange n).filter (fun i => f v[i])) :=
    (List.perm_ext_iff_of_nodup distinct ((List.nodup_finRange n).filter _)).2 fun i => by
      simp [here, List.mem_filter]
  rw [table, List.countP_map, List.countP_eq_length_filter, same.length_eq]
  rfl

theorem clampInt_eq {lo hi : Int} (order : lo ≤ hi) (x : Int) : clampInt lo hi x = max lo (min hi x) := by
  unfold clampInt
  split_ifs <;> omega

/-! ### Identify, Status, Checkpoint and Set Notice Mask -/

/-- The report of a request taken: the queue, the flow and the table are those after the take. -/
theorem State.report_taken (s : State) (tag : Nat) (q : Request) : (s.takeRecord.enterTable tag q).report =
    { s.report with
      occupancy := s.takeRecord.lp.queue.length
      flow := s.takeRecord.lp.flow
      outstanding := s.lp.outstanding ++ [⟨tag, q⟩] } := by
  obtain ⟨Q, F, H, O, form⟩ := s.takeRecord_form
  rw [form]
  rfl

/-- The take of the head leaves one record fewer in the queue. -/
theorem State.takeRecord_occupancy (s : State) (free : s.lp.held = none) :
    s.takeRecord.lp.queue.length = s.lp.queue.length - 1 := by
  rw [s.takeRecord_free free]
  rcases s.removeHead_cases with e | ⟨-, -, e⟩ <;> rw [e] <;> exact List.length_tail

theorem State.slots_toList (s : State) : s.fs.slots.toList = [s.slot 0, s.slot 1, s.slot 2, s.slot 3] := by
  apply List.ext_getElem
  · simp
  · intro i small _
    have four : i < 4 := by simpa using small
    interval_cases i <;> rfl

theorem ProfileTable.toList_map {α : Type} (t : Vector Profile 8) (f : Profile → α) :
    t.toList.map f = (List.finRange 8).map (fun i => f t[i]) := by
  apply List.ext_getElem <;> simp

theorem State.releaseEntry_enterTable (s : State) (i : Fin 11) (level tag : Nat) (q : Request) :
    (s.enterTable tag q).releaseEntry i level = (s.releaseEntry i level).enterTable tag q := by
  unfold State.releaseEntry State.sendNotice
  by_cases above : s.nu.mask < level
  · cases here : s.nu.pending[i] with
    | none => simp [above, here]
    | some n => cases up : s.lp.up <;> simp [State.enterTable, above, here, up, State.emit]
  · simp [above]

theorem State.releaseAll_enterTable (l : List (Fin 11 × Nat)) (s : State) (tag : Nat) (q : Request) :
    (s.enterTable tag q).releaseAll l = (s.releaseAll l).enterTable tag q := by
  induction l generalizing s with
  | nil => rfl
  | cons e l ih => rw [State.releaseAll_cons, s.releaseEntry_enterTable, ih, State.releaseAll_cons]

/-- The mask is set whatever requests stand in the table. -/
theorem State.setMask_enterTable (s : State) (m tag : Nat) (q : Request) :
    (s.enterTable tag q).setMask m = (s.setMask m).enterTable tag q := by
  rw [State.setMask_eq, State.setMask_eq, State.enterTable_nu]
  by_cases lowered : m < s.nu.mask
  · rw [if_pos lowered, if_pos lowered, ← State.releaseAll_enterTable]
    rfl
  · rw [if_neg lowered, if_neg lowered]
    rfl

@[simp] theorem State.setMask_lp (s : State) (m : Nat) : (s.setMask m).lp = s.lp := by
  obtain ⟨n, o, form⟩ := s.setMask_form m
  rw [form]

@[simp] theorem State.setMask_staged (s : State) (m : Nat) : (s.setMask m).staged = s.staged := by
  obtain ⟨n, o, form⟩ := s.setMask_form m
  rw [form]

@[simp] theorem State.setMask_fu (s : State) (m : Nat) : (s.setMask m).fu = s.fu := by
  obtain ⟨n, o, form⟩ := s.setMask_form m
  rw [form]

/-- Settles O13: the four requests that LP answers itself. -/
theorem linkPortAnswers : Obligations.LinkPortAnswers := by
  refine fun s tag p => ⟨fun accepts => ?_, fun accepts => ?_, fun accepts => ?_, fun accepts => ?_⟩
  · exact exec_done (q := .identify) false accepts rfl
  · refine exec_done (q := .status) false accepts ?_
    have report : s.report = { s.report with
        slots := [s.slot 0, s.slot 1, s.slot 2, s.slot 3].map (Option.map SlotRecord.summary)
        profiles := (List.finRange 8).map (fun i =>
          (s.pt.profiles[i].valid, s.pt.profiles[i].stock, s.pt.profiles[i].refs)) } := by
      rw [← s.slots_toList, ← ProfileTable.toList_map s.pt.profiles (fun p => (p.valid, p.stock, p.refs))]
      rfl
    simp only [Request.owner, decideStatus, s.report_taken, s.takeRecord_occupancy accepts.free]
    rw [report]
    simp only [State.report, accepts.up]
    rfl
  · refine exec_done (q := .checkpoint) (u := { s.takeRecord with lp := s.takeRecord.lp.clearErrors }) false accepts ?_
      (by simp [LinkPort.clearErrors]) (by simp [LinkPort.clearErrors])
    simp [Request.owner, decideCheckpoint, State.enterTable, LinkPort.clearErrors]
  · by_cases above : 6 < byteAt p 0
    · rw [if_pos above]
      refine exec_refused (q := .setNoticeMask) false accepts ?_
      simp [Request.owner, decideSetNoticeMask, above]
    · rw [if_neg above]
      refine exec_done (q := .setNoticeMask) false accepts ?_
      simp [Request.owner, decideSetNoticeMask, above, State.setMask_enterTable, NoticeUnit.released,
        NoticeUnit.countAbove]

/-! ### Roll trims and facets -/

theorem State.excludedFacets_eq (s : State) (l : List (Fin 8)) (distinct : l.Nodup)
    (here : ∀ i, i ∈ l ↔ s.stu.facets[i].usable = false) : s.excludedFacets = l.length :=
  countP_toList_eq s.stu.facets (fun f => !f.usable) l distinct fun i => by simp [here]

/-- Every gain is in range where none is found out of it. -/
theorem badGain_eq_none {p : List Byte}
    (range : ∀ f : Fin 8, 3277 ≤ wordAt p (2 * f) ∧ wordAt p (2 * f) ≤ 4915) : badGain p = none := by
  refine List.find?_eq_none.2 fun f _ => ?_
  simp [gainInRange, gainAt, range f]

/-- A restore of an EXCLUDED facet is announced. -/
theorem State.noticeRestored_eq (s : State) (n : Nat) :
    s.noticeRestored n = s.sends (if 0 < n then [.notice (.facetChange none true 8)] else []) := by
  unfold State.noticeRestored
  split <;> rfl

/-- Settles O23: the three requests, and the count of the EXCLUDED facets. -/
theorem trimsAndFacetsSet : Obligations.TrimsAndFacetsSet := by
  refine ⟨fun s tag p stored accepts clamped => ?_, fun s tag p => ⟨fun accepts => ⟨fun state range => ?_,
    fun offline ready => ?_⟩, fun accepts => ⟨fun state => ?_, fun ready halted => ?_⟩⟩,
    fun s => s.excludedFacets_eq⟩
  · have trims : stored = (trimsAt p).map clampTrim := by
      simp [clamped, trimsAt, Rgb.map, clampTrim, Config.rollTrimLimit, clampInt_eq]
    refine (exec_answered (q := .setRollTrim) (u := { s.takeRecord with du := { s.du with rollTrims := stored } })
      (a := { outcome := .done, clamped := decide (stored ≠ trimsAt p), data := .trims stored })
      false accepts ?_).trans ?_
    · simp [Request.owner, decideSetRollTrim, State.enterTable, trims]
    · simp only [State.takeRecord_es]
      rfl
  · refine ⟨setGains s.stu.facets p, fun f => ?_, exec_done (q := .setFacetGains)
      (u := { s.takeRecord with stu := { s.stu with facets := setGains s.stu.facets p } }) false accepts ?_⟩
    · simp [setGains, getElem_tabulate, gainAt]
    · rcases state with engine | engine <;>
        simp [Request.owner, decideSetFacetGains, engine, badGain_eq_none range, State.setStu, State.enterTable]
  · refine exec_refused (q := .setFacetGains) false accepts ?_
    simp [Request.owner, decideSetFacetGains, offline, ready]
  · refine ⟨mapTable Facet.restore s.stu.facets, fun f => by simp [getElem_mapTable, Facet.restore], ?_⟩
    have excluded : (s.takeRecord.enterTable tag .restoreFacets).excludedFacets = s.excludedFacets := by
      simp [State.excludedFacets]
    refine exec_done (q := .restoreFacets) false accepts ?_
    rw [← State.sends_enterTable]
    rcases state with engine | engine <;>
      simp [Request.owner, decideRestoreFacets, engine, excluded, State.setStu, State.noticeRestored_eq] <;> rfl
  · refine exec_refused (q := .restoreFacets) false accepts ?_
    simp [Request.owner, decideRestoreFacets, ready, halted]

/-! ### The footage -/

theorem Digit.up_val (carry : Bool) (d : Digit) :
    (Digit.up carry d).1.val = (d.val + carry.toNat) % 10 ∧ ((Digit.up carry d).2.toNat = (d.val + carry.toNat) / 10) := by
  have small := d.isLt
  cases carry with
  | false => simp [Digit.up]; omega
  | true =>
    by_cases nine : d.val = 9
    · simp [Digit.up, nine]
    · simp [Digit.up, nine, digit]
      omega

/-- The feet up by one, with no carry out of the highest digit. -/
theorem Footage.upFoot_feet (f : Footage) : f.upFoot.feet = (f.feet + 1) % 10000 := by
  obtain ⟨ones, carry1⟩ := Digit.up_val true f.ones
  obtain ⟨tens, carry2⟩ := Digit.up_val (Digit.up true f.ones).2 f.tens
  obtain ⟨hundreds, carry3⟩ := Digit.up_val (Digit.up (Digit.up true f.ones).2 f.tens).2 f.hundreds
  obtain ⟨thousands, -⟩ := Digit.up_val
    (Digit.up (Digit.up (Digit.up true f.ones).2 f.tens).2 f.hundreds).2 f.thousands
  have := f.ones.isLt
  have := f.tens.isLt
  have := f.hundreds.isLt
  have := f.thousands.isLt
  simp only [Footage.upFoot, Footage.feet, ones, tens, hundreds, thousands, carry1, carry2, carry3, Bool.toNat_true]
  omega

theorem Footage.ofNumbers_feet {feet frames : Nat} (range : feet ≤ 9999) :
    (Footage.ofNumbers feet frames).feet = feet := by
  simp only [Footage.ofNumbers, Footage.feet, digit]
  omega

theorem Footage.ofNumbers_frames {feet frames : Nat} (range : frames ≤ 15) :
    (Footage.ofNumbers feet frames).frames = frames := by
  simp only [Footage.ofNumbers, Footage.frames, digit]
  omega

theorem Footage.advance_frames {f : Footage} (range : f.frames ≤ 15) : f.advance.frames = (f.frames + 1) % 16 := by
  unfold Footage.advance
  split
  next last =>
    rw [last]
    simp [Footage.upFoot, Footage.frames]
  next more =>
    rw [Nat.mod_eq_of_lt (by omega)]
    generalize f.frames = n at more range
    simp only [Footage.frames, digit]
    omega

theorem Footage.advance_feet (f : Footage) :
    f.advance.feet = if f.frames = 15 then (f.feet + 1) % 10000 else f.feet := by
  unfold Footage.advance
  by_cases last : f.frames = 15
  · rw [if_pos (by omega), if_pos last, Footage.upFoot_feet]
    rfl
  · rw [if_neg (by omega), if_neg last]
    rfl

/-- Settles O24: the request by engine state, and the successor digit by digit. -/
theorem footageSet : Obligations.FootageSet := by
  refine ⟨fun s tag p accepts => ⟨fun state feet frames => ?_, fun offline ready halted => ?_⟩,
    fun f range => ⟨Footage.advance_frames range, f.advance_feet⟩⟩
  · refine ⟨Footage.ofNumbers (wordAt p 0) (byteAt p 2), Footage.ofNumbers_feet feet, Footage.ofNumbers_frames frames,
      exec_done (q := .setFootage)
        (u := { s.takeRecord with tc := { s.tc with footage := Footage.ofNumbers (wordAt p 0) (byteAt p 2) } })
        false accepts ?_⟩
    have takes : s.es.engine.takesFootage = true := by rcases state with e | e | e <;> rw [e] <;> rfl
    simp [Request.owner, decideSetFootage, takes, Nat.not_lt.2 feet, Nat.not_lt.2 frames, State.setTc,
      State.enterTable]
  · refine exec_refused (q := .setFootage) false accepts ?_
    simp [Request.owner, decideSetFootage, Engine.takesFootage, offline, ready, halted]

/-! ### Fault responses -/

theorem allowedResponse_eq {k : FaultKind} {code : Nat} {r : Response} (known : Response.ofCode code = some r)
    (allowed : r ∈ k.allowed) : allowedResponse k code = some r := by
  simp [allowedResponse, known, allowed]

theorem allowedResponse_eq_none {k : FaultKind} {code : Nat}
    (none : ∀ r, Response.ofCode code = some r → r ∉ k.allowed) : allowedResponse k code = Option.none := by
  unfold allowedResponse
  cases known : Response.ofCode code with
  | none => rfl
  | some r => exact if_neg (none r known)

theorem exec_setFaultResponse {s : State} {tag : Nat} {p : List Byte} {k : FaultKind} {r : Response}
    (accepts : s.Accepts tag .setFaultResponse p) (kind : FaultKind.ofCode (byteAt p 0) = some k)
    (known : Response.ofCode (byteAt p 1) = some r) (allowed : r ∈ k.allowed) :
    exec .setFaultResponse s = .next
      (State.repliedDone { s.takeRecord with fu := { s.fu with responses := s.fu.responses.set k.index r } } tag
        .setFaultResponse (.response (s.assigned k))) := by
  refine exec_done (q := .setFaultResponse)
    (u := { s.takeRecord with fu := { s.fu with responses := s.fu.responses.set k.index r } }) false accepts ?_
  simp [Request.owner, decideSetFaultResponse, kind, allowedResponse_eq known allowed, State.assign, State.assigned,
    State.enterTable]

/-- Settles O25: the assignment, its refusal, and the responses that later takes find. -/
theorem faultResponseSet : Obligations.FaultResponseSet := by
  refine ⟨rfl, fun s tag p k accepts kind => ⟨fun r known allowed => exec_setFaultResponse accepts kind known allowed,
    fun none => ?_, fun t r known allowed next => ?_⟩⟩
  · refine exec_refused (q := .setFaultResponse) false accepts ?_
    simp [Request.owner, decideSetFaultResponse, kind, allowedResponse_eq_none none]
  · rw [exec_setFaultResponse accepts kind known allowed] at next
    obtain rfl := Host.Outcome.next.inj next
    have own : State.assigned (State.repliedDone { s.takeRecord with
        fu := { s.fu with responses := s.fu.responses.set k.index r } } tag .setFaultResponse
        (.response (s.assigned k))) k = r := by
      simp [State.assigned, State.repliedDone, State.replied]
    have others (j : FaultKind) (other : j ≠ k) : State.assigned (State.repliedDone { s.takeRecord with
        fu := { s.fu with responses := s.fu.responses.set k.index r } } tag .setFaultResponse
        (.response (s.assigned k))) j = s.assigned j := by
      have apart : k.index.val ≠ j.index.val := fun same => other (FaultKind.index_injective (Fin.ext same)).symm
      simp [State.assigned, State.repliedDone, State.replied, apart]
    refine ⟨rfl, own, others, fun f => ?_⟩
    have engine : (s.takeRecord).es = s.es := by simp
    split
    next same =>
      subst same
      exact congrArg₂ (responseApplied · · f) (congrArg _ engine) own
    next other => exact congrArg₂ (responseApplied · · f) (congrArg _ engine) (others f.kind other)

/-! ### Read Log -/

theorem asksRepeat_iff {s : State} {tag : Nat} {p : List Byte} (accepts : s.Accepts tag .readLog p) :
    asksRepeat p = (byteAt p 1 == 1) := by
  have size : p.length = 2 := accepts.size
  simp [asksRepeat, size]

/-- A Read Log that asks for no repeat is READ_LOG. -/
theorem exec_readLog {p : List Byte} (asks : asksRepeat p = false) (s : State) :
    exec .readLog s = exec (Request.readLog.command false p) s := by
  simp [Request.command, asks]

/-- Settles O26: the removing read and its repeat. -/
theorem logRead : Obligations.LogRead := by
  refine fun s tag p accepts => ⟨fun flag low high => ?_, fun flag => ?_⟩
  · have asks : asksRepeat p = false := by simp [asksRepeat_iff accepts, flag]
    have taken : s.rl.records.take (byteAt p 0) = [] ↔ s.rl.records = [] := by
      simp [show byteAt p 0 ≠ 0 by omega]
    rw [exec_readLog asks]
    refine exec_done (u := { s.takeRecord with rl := { s.rl with
        records := s.rl.records.drop (byteAt p 0)
        lastBatch := if s.rl.records = [] then s.rl.lastBatch else some (s.rl.records.take (byteAt p 0)) } })
      false accepts ?_
    simp [Request.owner, asks, decideReadLog, flag, show byteAt p 0 ≠ 0 by omega, Config.logBatch,
      show ¬ 8 < byteAt p 0 by omega, State.enterTable, RollLog.removeOldest, RollLog.oldest, RollLog.reply, taken]
  · have asks : asksRepeat p = true := by simp [asksRepeat_iff accepts, flag]
    have command : exec .readLogRepeat s = exec (Request.readLog.command false p) s := by
      simp [Request.command, asks]
    rw [command]
    refine exec_done false accepts ?_
    simp [Request.owner, asks, decideReadLogRepeat, RollLog.reply]

end Sys2Proof.Machine
end

