-- ==== Sys2Proof/Proofs/RulesProfiles.lean ====
section
/-! PROOFS. Rules and profiles: what is written and read, the order of the checks of a Load Profile, and the values
refused. -/

namespace Sys2Proof.Machine

/-! ### Indexes and label characters -/

theorem index?_val {bound : Nat} (i : Fin bound) : index? i.val bound = some i := by
  simp [index?]

theorem index?_eq_some {n bound : Nat} {i : Fin bound} (same : i.val = n) : index? n bound = some i :=
  same ▸ index?_val i

theorem index?_eq_none {n bound : Nat} (above : bound ≤ n) : index? n bound = none := by
  simp [index?, Nat.not_lt.2 above]

theorem exists_index {n bound : Nat} (below : n < bound) : ∃ i : Fin bound, i.val = n := ⟨⟨n, below⟩, rfl⟩

/-- The 38 label characters. -/
theorem isLabelCharacter_iff (b : Byte) : isLabelCharacter b = true ↔ b.toNat = 0x20 ∨ b.toNat = 0x2D ∨
    (0x30 ≤ b.toNat ∧ b.toNat ≤ 0x39) ∨ (0x41 ≤ b.toNat ∧ b.toNat ≤ 0x5A) := by
  simp [isLabelCharacter, ← BitVec.toNat_inj, or_assoc]

theorem getElem_labelAt (p : List Byte) (i : Nat) (k : Fin 8) : (labelAt p i)[k] = (p[i + k]?).getD 0 :=
  getElem_tabulate 8 _ k.val k.isLt

theorem badLabelPosition_eq_none {l : Label} (good : ∀ b ∈ l.toList, isLabelCharacter b = true) :
    badLabelPosition l = none := by
  refine List.findIdx?_eq_none_iff.2 fun b here => ?_
  simp [good b here]

theorem badLabelPosition_eq_some {l : Label} {k : Fin 8} (bad : isLabelCharacter l[k] = false)
    (before : ∀ j : Fin 8, j < k → isLabelCharacter l[j] = true) : badLabelPosition l = some k.val := by
  refine List.findIdx?_eq_some_iff_getElem.2 ⟨by simp, by simpa using bad, fun j below => ?_⟩
  have good := before ⟨j, by omega⟩ below
  simpa using good

/-! ### The profile carried -/

theorem channelPlace_eq (c : Channel) : channelPlace c = channelNumber c := by
  cases c <;> rfl

theorem profileAt_channel (p : List Byte) (refs : Nat) (c : Channel) :
    (profileAt p refs).channels.get c = profileChannelAt p c := by
  cases c <;> rfl

theorem State.admittedUnder_eq (s : State) (i : Fin 32) (l : List (Fin 4)) (distinct : l.Nodup)
    (here : ∀ j, j ∈ l ↔ ∃ r, s.slot j = some r ∧ r.rule = i) : s.admittedUnder i = l.length := by
  refine countP_toList_eq s.fs.slots _ l distinct fun j => ?_
  rw [here]
  change (∃ r, s.slot j = some r ∧ r.rule = i) ↔ (match s.slot j with | none => false | some r => r.rule == i) = true
  cases s.slot j <;> simp

/-- Settles O22: writes and reads, and the fields by their offsets. -/
theorem rulesAndProfiles : Obligations.RulesAndProfiles := by
  refine ⟨fun s tag p i place => ⟨fun accepts k profile flag height label w carried => ?_, fun accepts => ?_⟩,
    fun s tag p i place => ⟨fun accepts fields curve q carried => ?_, fun accepts => ?_⟩,
    isLabelCharacter_iff, fun s => s.admittedUnder_eq, fun p k => ?_, fun p refs q carried => ?_⟩
  · have rule : w = ruleAt p k := carried
    subst rule
    refine exec_done (q := .writeRule)
      (u := { s.takeRecord with admission := ⟨s.admission.rules.set i (ruleAt p k)⟩ }) false accepts ?_
    have good : badLabelPosition (ruleAt p k).label = none := badLabelPosition_eq_none label
    have under : (s.takeRecord.enterTable tag .writeRule).admittedUnder i = s.admittedUnder i := by
      simp [State.admittedUnder]
    simp only [Request.owner, decideWriteRule, index?_eq_some place, index?_eq_some profile, Nat.not_lt.2 flag,
      Config.maxHeight, Nat.not_lt.2 height, if_false, State.writeRule, good, under]
    simp [State.setRule, State.enterTable]
  · refine exec_done (q := .readRule) false accepts ?_
    simp [Request.owner, decideReadRule, index?_eq_some place, State.admittedUnder]
  · subst carried
    split_ifs with named
    · refine exec_refused (q := .loadProfile) false accepts ?_
      have named : 0 < s.pt.profiles[i.val].refs := named
      simp [Request.owner, decideLoadProfile, index?_eq_some place, fields, State.loadProfile, curve, named]
    · refine exec_done (q := .loadProfile)
        (u := { s.takeRecord with pt := ⟨s.pt.profiles.set i (profileAt p s.pt.profiles[i].refs)⟩ }) false accepts ?_
      have free : s.pt.profiles[i.val].refs = 0 := Nat.eq_zero_of_not_pos named
      simp [Request.owner, decideLoadProfile, index?_eq_some place, fields, State.loadProfile, curve, free,
        State.setProfile, State.enterTable]
  · refine exec_done (q := .readProfile) false accepts ?_
    simp [Request.owner, decideReadProfile, index?_eq_some place]
  · rw [getElem_labelAt]
    rfl
  · subst carried
    refine ⟨rfl, rfl, rfl, fun c => ?_⟩
    rw [profileAt_channel, ← channelPlace_eq]
    exact ⟨rfl, rfl, rfl, fun k => getElem_tabulate 33 _ k.val k.isLt⟩

/-! ### The first field out of range -/

/-- Whether a field of a payload is out of its range. -/
def fieldFails (p : List Byte) (x : Nat × Nat × Nat × Nat) : Bool :=
  let v := if x.2.1 = 1 then byteAt p x.1 else if x.2.1 = 2 then wordAt p x.1 else longAt p x.1
  v < x.2.2.1 || x.2.2.2 < v

theorem fieldFails_iff (p : List Byte) (x : Nat × Nat × Nat × Nat) : fieldFails p x = true ↔ ¬ fieldPasses p x := by
  simp only [fieldFails, fieldPasses, Bool.or_eq_true, decide_eq_true_eq]
  omega

/-- The offset of the first of some fields that is out of its range. -/
def firstFailing (p : List Byte) (l : List (Nat × Nat × Nat × Nat)) : Option Nat := (l.find? (fieldFails p)).map (·.1)

theorem firstFailing_append (p : List Byte) (l m : List (Nat × Nat × Nat × Nat)) :
    firstFailing p (l ++ m) = (firstFailing p l).or (firstFailing p m) := by
  unfold firstFailing
  rw [List.find?_append]
  cases l.find? (fieldFails p) <;> rfl

/-- The fields of one size and one range, by their offsets. -/
def fieldsAt (offsets : List Nat) (size low high : Nat) : List (Nat × Nat × Nat × Nat) :=
  offsets.map (fun o => (o, size, low, high))

theorem firstFailing_fieldsAt (p : List Byte) (offsets : List Nat) (size low high : Nat) :
    firstFailing p (fieldsAt offsets size low high) =
      offsets.find? (fun o => fieldFails p (o, size, low, high)) := by
  unfold firstFailing fieldsAt
  rw [List.find?_map, Option.map_map]
  exact Option.map_id'

/-- The fields of Table 3-4 by their checks. -/
theorem profileFields_eq : profileFields = fieldsAt [1] 1 0 1 ++ (fieldsAt (channels.map enableOffset) 1 0 1 ++
    (fieldsAt (channels.map rangeOffset) 1 0 2 ++ (fieldsAt (channels.map scaleOffset) 4 1 245760 ++
      fieldsAt ((knotPlaces 0).map (fun x => knotOffset x.1 x.2)) 2 0 3000))) := by
  decide

/-- Checks 2 to 6 of Table 3-4 find the first field that is out of its range. -/
theorem badProfileField_eq (p : List Byte) : badProfileField p = firstFailing p profileFields := by
  simp only [profileFields_eq, firstFailing_append, firstFailing_fieldsAt, fieldFails, badProfileField]
  by_cases flag : 1 < byteAt p 1 <;> simp [flag] <;> rfl

theorem badProfileField_eq_none_iff (p : List Byte) :
    badProfileField p = none ↔ ∀ x ∈ profileFields, fieldPasses p x := by
  rw [badProfileField_eq, firstFailing, Option.map_eq_none_iff, List.find?_eq_none]
  simp only [fieldFails_iff, not_not]

theorem badProfileField_eq_some_iff (p : List Byte) (offset : Nat) : badProfileField p = some offset ↔
    ∃ before x after, profileFields = before ++ x :: after ∧ x.1 = offset ∧ ¬ fieldPasses p x ∧
      ∀ y ∈ before, fieldPasses p y := by
  have passes (y : Nat × Nat × Nat × Nat) : (!fieldFails p y) = true ↔ fieldPasses p y := by
    rw [Bool.not_eq_true', ← Bool.not_eq_true, fieldFails_iff, not_not]
  rw [badProfileField_eq, firstFailing, Option.map_eq_some_iff]
  constructor
  · rintro ⟨x, found, rfl⟩
    obtain ⟨fails, before, after, split, good⟩ := List.find?_eq_some_iff_append.1 found
    exact ⟨before, x, after, split, rfl, (fieldFails_iff p x).1 fails, fun y here => (passes y).1 (good y here)⟩
  · rintro ⟨before, x, after, split, rfl, fails, good⟩
    exact ⟨x, List.find?_eq_some_iff_append.2 ⟨(fieldFails_iff p x).2 fails, before, after, split,
      fun y here => (passes y).2 (good y here)⟩, rfl⟩

/-! ### The first falling knot -/

/-- In a list in strict order, the first entry that passes is the one with none before it that does. -/
theorem find?_eq_some_iff_ordered {α : Type} {before : α → α → Prop} (asymm : ∀ a b, before a b → ¬ before b a)
    {l : List α} (ordered : l.Pairwise before) (test : α → Bool) (a : α) :
    l.find? test = some a ↔ a ∈ l ∧ test a = true ∧ ∀ b ∈ l, before b a → test b = false := by
  constructor
  · intro found
    obtain ⟨passes, front, back, rfl, fails⟩ := List.find?_eq_some_iff_append.1 found
    refine ⟨by simp, passes, fun b here earlier => ?_⟩
    rcases List.mem_append.1 here with inFront | inBack
    · simpa using fails b inFront
    · obtain ⟨-, tail, -⟩ := List.pairwise_append.1 ordered
      rcases List.mem_cons.1 inBack with rfl | later
      · exact absurd earlier (asymm b b earlier)
      · exact absurd earlier (asymm a b (List.rel_of_pairwise_cons tail later))
  · rintro ⟨here, passes, fails⟩
    obtain ⟨front, back, rfl⟩ := List.append_of_mem here
    refine List.find?_eq_some_iff_append.2 ⟨passes, front, back, rfl, fun b inFront => ?_⟩
    obtain ⟨-, -, across⟩ := List.pairwise_append.1 ordered
    simpa using fails b (by simp [inFront]) (across b inFront a (by simp))

/-- The order of the knots: the channels in order, and the knots of each ascending. -/
def knotBefore (x y : Channel × Nat) : Prop :=
  channelNumber x.1 < channelNumber y.1 ∨ (x.1 = y.1 ∧ x.2 < y.2)

theorem knotPlaces_ordered (first : Nat) : (knotPlaces first).Pairwise knotBefore := by
  unfold knotPlaces
  rw [List.pairwise_flatMap]
  constructor
  · intro c _
    rw [List.pairwise_map]
    exact List.pairwise_lt_range.imp fun below => .inr ⟨rfl, by dsimp only; omega⟩
  · have channelOrder : channels.Pairwise (fun c d => channelNumber c < channelNumber d) := by decide
    refine channelOrder.imp fun below x inC y inD => .inl ?_
    obtain ⟨_, -, rfl⟩ := List.mem_map.1 inC
    obtain ⟨_, -, rfl⟩ := List.mem_map.1 inD
    exact below

theorem mem_knotPlaces (c : Channel) (k : Nat) : (c, k) ∈ knotPlaces 1 ↔ 1 ≤ k ∧ k ≤ 32 := by
  have known : c ∈ channels := by cases c <;> decide
  simp only [knotPlaces, List.mem_flatMap, List.mem_map, List.mem_range, Prod.mk.injEq]
  constructor
  · rintro ⟨_, -, j, small, -, rfl⟩
    omega
  · rintro ⟨low, high⟩
    exact ⟨c, known, k - 1, by omega, rfl, by omega⟩

theorem carriedKnot_eq (p : List Byte) (c : Channel) (k : Nat) : wordAt p (knotOffset c k) = carriedKnot p c k := by
  rw [knotOffset, channelPlace_eq, carriedKnot]

theorem badCurve_eq_none_iff (p : List Byte) : badCurve p = none ↔
    ∀ (c : Channel) (k : Nat), 1 ≤ k → k ≤ 32 → carriedKnot p c (k - 1) ≤ carriedKnot p c k := by
  simp only [badCurve, List.find?_eq_none, carriedKnot_eq, decide_eq_true_eq, not_lt, Prod.forall, mem_knotPlaces,
    and_imp]

theorem badCurve_eq_some_iff (p : List Byte) (c : Channel) (k : Nat) : badCurve p = some (c, k) ↔
    1 ≤ k ∧ k ≤ 32 ∧ carriedKnot p c k < carriedKnot p c (k - 1) ∧
      ∀ (d : Channel) (j : Nat), 1 ≤ j → j ≤ 32 →
        channelNumber d < channelNumber c ∨ (d = c ∧ j < k) → carriedKnot p d (j - 1) ≤ carriedKnot p d j := by
  have asymm (x y : Channel × Nat) (first : knotBefore x y) : ¬ knotBefore y x := by
    rcases first with below | ⟨same, below⟩
    · rintro (above | ⟨same, -⟩)
      · omega
      · rw [same] at below
        omega
    · rintro (above | ⟨-, above⟩)
      · rw [same] at above
        omega
      · omega
  rw [badCurve, find?_eq_some_iff_ordered asymm (knotPlaces_ordered 1)]
  simp only [mem_knotPlaces, carriedKnot_eq, decide_eq_true_eq, decide_eq_false_iff_not, not_lt, Prod.forall, and_imp,
    and_assoc]
  rfl

/-! ### Values out of range -/

theorem badGain_eq_some {p : List Byte} {f : Fin 8} (out : wordAt p (2 * f) < 3277 ∨ 4915 < wordAt p (2 * f))
    (before : ∀ g : Fin 8, g < f → 3277 ≤ wordAt p (2 * g) ∧ wordAt p (2 * g) ≤ 4915) : badGain p = some f := by
  refine (find?_finRange_eq_some_iff _ f).2 ⟨?_, fun g below => ?_⟩
  · have outside : ¬ (3277 ≤ wordAt p (2 * f) ∧ wordAt p (2 * f) ≤ 4915) := by omega
    rwa [gainInRange, gainAt, Bool.not_eq_true', ← Bool.not_eq_true, Bool.and_eq_true, decide_eq_true_eq,
      decide_eq_true_eq]
  · simp [gainInRange, gainAt, before g below]

/-- Settles O27: the refusals in the order of the checks, and the fields and knots of Table 3-4. -/
theorem valuesRefused : Obligations.ValuesRefused := by
  refine ⟨fun s tag p => ⟨fun accepts field out => ?_, fun accepts rule flag profile height k bad before => ?_,
    fun accepts above => ?_, fun accepts => ⟨fun above => ?_, fun field below out => ?_, fun c k below good curve => ?_⟩,
    fun accepts above => ?_, fun accepts state f out before => ?_, fun accepts state field out => ?_,
    fun accepts unknown => ?_, fun accepts field out => ?_⟩, isLabelCharacter_iff,
    fun p => ⟨badProfileField_eq_none_iff p, badProfileField_eq_some_iff p, badCurve_eq_none_iff p,
      badCurve_eq_some_iff p⟩⟩
  · refine exec_refused (q := .writeRule) false accepts ?_
    have place (below : byteAt p 0 ≤ 31) : ∃ i : Fin 32, i.val = byteAt p 0 := exists_index (by omega)
    rcases out with ⟨above, rfl⟩ | ⟨below, flag, rfl⟩ | ⟨below, flag, above, rfl⟩ | ⟨below, flag, named, high, rfl⟩
    · simp [Request.owner, decideWriteRule, index?_eq_none above]
    · obtain ⟨i, place⟩ := place below
      simp [Request.owner, decideWriteRule, index?_eq_some place, flag]
    · obtain ⟨i, place⟩ := place below
      simp [Request.owner, decideWriteRule, index?_eq_some place, Nat.not_lt.2 flag, index?_eq_none above]
    · obtain ⟨i, place⟩ := place below
      obtain ⟨k, profile⟩ : ∃ k : Fin 8, k.val = byteAt p 2 := exists_index (by omega)
      simp [Request.owner, decideWriteRule, index?_eq_some place, Nat.not_lt.2 flag, index?_eq_some profile,
        Config.maxHeight, high]
  · refine exec_refused (q := .writeRule) false accepts ?_
    obtain ⟨i, place⟩ : ∃ i : Fin 32, i.val = byteAt p 0 := exists_index (by omega)
    obtain ⟨j, named⟩ : ∃ j : Fin 8, j.val = byteAt p 2 := exists_index (by omega)
    have position : badLabelPosition (ruleAt p j).label = some k.val := badLabelPosition_eq_some bad before
    simp [Request.owner, decideWriteRule, index?_eq_some place, Nat.not_lt.2 flag, index?_eq_some named,
      Config.maxHeight, Nat.not_lt.2 height, State.writeRule, position]
  · refine exec_refused (q := .readRule) false accepts ?_
    simp [Request.owner, decideReadRule, index?_eq_none above]
  · refine exec_refused (q := .loadProfile) false accepts ?_
    simp [Request.owner, decideLoadProfile, index?_eq_none above]
  · refine exec_refused (q := .loadProfile) false accepts ?_
    obtain ⟨i, place⟩ : ∃ i : Fin 8, i.val = byteAt p 0 := exists_index (by omega)
    simp [Request.owner, decideLoadProfile, index?_eq_some place, out]
  · refine exec_refused (q := .loadProfile) false accepts ?_
    obtain ⟨i, place⟩ : ∃ i : Fin 8, i.val = byteAt p 0 := exists_index (by omega)
    simp [Request.owner, decideLoadProfile, index?_eq_some place, good, State.loadProfile, curve]
  · refine exec_refused (q := .readProfile) false accepts ?_
    simp [Request.owner, decideReadProfile, index?_eq_none above]
  · refine exec_refused (q := .setFacetGains) false accepts ?_
    rcases state with engine | engine <;>
      simp [Request.owner, decideSetFacetGains, engine, badGain_eq_some out before]
  · refine exec_refused (q := .setFootage) false accepts ?_
    have takes : s.es.engine.takesFootage = true := by rcases state with e | e | e <;> rw [e] <;> rfl
    rcases out with ⟨feet, rfl⟩ | ⟨feet, frames, rfl⟩
    · simp [Request.owner, decideSetFootage, takes, feet]
    · simp [Request.owner, decideSetFootage, takes, Nat.not_lt.2 feet, frames]
  · refine exec_refused (q := .setFaultResponse) false accepts ?_
    simp [Request.owner, decideSetFaultResponse, unknown]
  · have asks : asksRepeat p = false := by
      rw [asksRepeat_iff accepts, beq_eq_false_iff_ne]
      omega
    rw [exec_readLog asks]
    refine exec_refused false accepts ?_
    rcases out with ⟨flag, rfl⟩ | ⟨flag, count, rfl⟩
    · simp [Request.owner, asks, decideReadLog, show byteAt p 1 ≠ 0 by omega]
    · simp [Request.owner, asks, decideReadLog, flag, Config.logBatch, count]

end Sys2Proof.Machine
end

