-- ==== Sys2Proof/Proofs/Frames.lean ====
section
/-! PROOFS. Open, Close, Discard and Requeue Frame. -/

namespace Sys2Proof.Machine

/-! ### Slots and profiles -/

theorem State.slot_setSlot (s : State) (i j : Fin 4) (r : Option SlotRecord) :
    (s.setSlot i r).slot j = if j = i then r else s.slot j := by
  unfold State.setSlot State.slot
  split
  next same => simp [same]
  next other =>
    have apart : i.val ≠ j.val := fun same => other (Fin.ext same).symm
    exact Vector.getElem_set_ne i.isLt j.isLt apart

theorem State.profiles_setRefs (s : State) (p k : Fin 8) (f : Nat → Nat) : (s.setRefs p f).pt.profiles[k] =
    if k = p then { s.pt.profiles[p] with refs := f s.pt.profiles[p].refs } else s.pt.profiles[k] := by
  unfold State.setRefs
  split
  next same => simp [same]
  next other =>
    have apart : p.val ≠ k.val := fun same => other (Fin.ext same).symm
    exact Vector.getElem_set_ne p.isLt k.isLt apart

/-! ### The checks of Open Frame -/

theorem State.holdsKey_iff (s : State) (key : Key) : s.holdsKey key = true ↔
    ∃ (i : Fin 4) (r : SlotRecord), s.slot i = some r ∧ r.key = key := by
  constructor
  · intro held
    obtain ⟨x, member, same⟩ := List.any_eq_true.1 held
    obtain ⟨i, small, rfl⟩ := List.mem_iff_getElem.1 member
    cases here : s.fs.slots.toList[i] with
    | none => simp [here] at same
    | some r => exact ⟨⟨i, by simpa using small⟩, r, by simpa [State.slot] using here, by simpa [here] using same⟩
  · rintro ⟨i, r, here, rfl⟩
    by_contra unheld
    exact State.holdsKey_eq_false unheld i r here rfl

theorem State.freeSlotIndex_eq_some {s : State} {i : Fin 4} (free : s.slot i = none)
    (before : ∀ j, j < i → s.slot j ≠ none) : s.freeSlotIndex = some i := by
  refine (find?_finRange_eq_some_iff _ i).2 ⟨by rw [free]; rfl, fun j below => ?_⟩
  exact Option.isNone_eq_false_iff.2 (Option.isSome_iff_ne_none.2 (before j below))

theorem State.freeSlotIndex_eq_none {s : State} (full : ∀ j, s.slot j ≠ none) : s.freeSlotIndex = none := by
  refine List.find?_eq_none.2 fun j _ => ?_
  simpa using full j

/-- The height test fails exactly below a minimum that is not 0. -/
theorem Rule.fallsByHeight_iff (r : Rule) (key : Key) (height : Nat) : r.fallsByHeight key height = true ↔
    r.valid = true ∧ (∀ b, b < 32 → r.mask.getLsbD b = true → key.getLsbD b = r.key.getLsbD b) ∧
      r.minHeight ≠ 0 ∧ height < r.minHeight := by
  simp [Rule.fallsByHeight, Rule.heightMatches, Rule.keyMatches_iff, and_assoc]

theorem countP_finRange_eq {n : Nat} (f : Fin n → Bool) (l : List (Fin n)) (distinct : l.Nodup)
    (here : ∀ i, i ∈ l ↔ f i = true) : (List.finRange n).countP f = l.length := by
  have same : l.Perm ((List.finRange n).filter f) :=
    (List.perm_ext_iff_of_nodup distinct ((List.nodup_finRange n).filter _)).2 fun i => by
      simp [here, List.mem_filter]
  rw [List.countP_eq_length_filter, same.length_eq]

/-- Open Frame reads no field of the link. -/
theorem State.geometryFits_taken (s : State) (tag : Nat) (q : Request) (width height : Nat) :
    (s.takeRecord.enterTable tag q).geometryFits width height = s.geometryFits width height := by
  simp [State.geometryFits]

theorem State.holdsKey_taken (s : State) (tag : Nat) (q : Request) (key : Key) :
    (s.takeRecord.enterTable tag q).holdsKey key = s.holdsKey key := by
  simp [State.holdsKey]

theorem State.freeSlotIndex_taken (s : State) (tag : Nat) (q : Request) :
    (s.takeRecord.enterTable tag q).freeSlotIndex = s.freeSlotIndex := by
  simp [State.freeSlotIndex, State.slot]

theorem State.fillSlot_enterTable (s : State) (slot : Fin 4) (key : Key) (width height : Nat) (i : Fin 32) (tag : Nat)
    (q : Request) : (s.enterTable tag q).fillSlot slot key width height i =
      (s.fillSlot slot key width height i).enterTable tag q := rfl

/-- Settles O17: every check passes, and FS fills the slot. -/
theorem frameOpened : Obligations.FrameOpened := by
  intro s tag p i slot q n accepts widthLow widthHigh heightLow heightHigh fits fresh found named loaded free before next
  have geometry := (s.geometryFits_iff (wordAt p 4) (wordAt p 6)).2 ⟨widthLow, widthHigh, heightLow, heightHigh, fits⟩
  have unheld : s.holdsKey (BitVec.ofNat 32 (longAt p 0)) = false := by
    rw [← Bool.not_eq_true, s.holdsKey_iff]
    rintro ⟨j, r, here, same⟩
    exact fresh j r here same
  have count : nextNumber s.fs.openCounter = n := next.symm
  refine ⟨s.takeRecord.fillSlot slot (BitVec.ofNat 32 (longAt p 0)) (wordAt p 4) (wordAt p 6) i,
    exec_done (q := .openFrame) false accepts ?_ ?_ ?_ ?_ ?_, ?_, ?_, ?_, ?_, ?_, ?_, ?_, ?_⟩
  · subst named
    simp only [Request.owner, decideOpenFrame, State.openFrame, State.openUnder, s.geometryFits_taken,
      s.holdsKey_taken, s.freeSlotIndex_taken, State.freeSlotIndex_eq_some free before, State.fillSlot_enterTable,
      geometry, unheld]
    have loaded : s.pt.profiles[s.admission.rules[i.val].profile.val].valid = true := loaded
    simp [found, loaded, count]
  · exact s.takeRecord_outstanding
  · exact s.takeRecord_up
  · exact s.takeRecord_staged
  · exact congrArg _ s.takeRecord_fu
  · subst named
    simp [State.fillSlot, State.setRefs, State.setSlot, State.slot, openedSlot, count]
  · intro j other
    exact (State.slot_setSlot _ slot j _).trans ((if_neg other).trans (by simp [State.slot]))
  · exact (congrArg (nextNumber ·.openCounter) s.takeRecord_fs).trans count
  · exact congrArg (·.queue) s.takeRecord_fs
  · exact congrArg (·.image) s.takeRecord_fs
  · subst named
    refine (State.profiles_setRefs _ _ _ _).trans ?_
    simp [State.setSlot]
  · intro k other
    subst named
    refine (State.profiles_setRefs _ _ _ _).trans ?_
    simp only [State.setSlot, s.takeRecord_admission]
    rw [if_neg other, s.takeRecord_pt]
  · rfl

/-- Settles O18: the refusals one by one, and what each check reads. -/
theorem openRefused : Obligations.OpenRefused := by
  refine ⟨fun s tag p reason data accepts why => exec_refused (q := .openFrame) false accepts ?_,
    fun s => s.geometryFits_iff, fun s => s.holdsKey_iff, fun t key height falls spelled => ?_⟩
  · simp only [Request.owner, decideOpenFrame, State.openFrame, State.openUnder, s.geometryFits_taken,
      s.holdsKey_taken, s.freeSlotIndex_taken]
    rcases why with ⟨bad, rfl, rfl⟩ | ⟨fits, ⟨held, rfl, rfl⟩ | ⟨fresh, ⟨missing, rfl, rfl⟩ | ⟨i, found, last⟩⟩⟩
    · simp [bad]
    · simp [fits, held]
    · simp [fits, fresh, missing]
    · rcases last with ⟨empty, rfl, rfl⟩ | ⟨loaded, full, rfl, rfl⟩
      · have empty : s.pt.profiles[s.admission.rules[i.val].profile.val].valid = false := empty
        simp [fits, fresh, found, empty]
      · have loaded : s.pt.profiles[s.admission.rules[i.val].profile.val].valid = true := loaded
        simp [fits, fresh, found, loaded, State.freeSlotIndex_eq_none full]
  · have falls_iff (i : Fin 32) : t.rules[i].fallsByHeight key height = true ↔ falls i :=
      (Rule.fallsByHeight_iff _ key height).trans (spelled i).symm
    refine ⟨fun l distinct here => countP_finRange_eq _ l distinct fun i => (here i).trans (falls_iff i).symm,
      fun n => ?_, ?_⟩
    · simp only [Admission.heightFalls, Option.map_eq_some_iff, find?_finRange_eq_some_iff, falls_iff,
        ← Bool.not_eq_true]
      exact ⟨fun ⟨i, ⟨fall, first⟩, place⟩ => ⟨i, place, fall, first⟩,
        fun ⟨i, place, fall, first⟩ => ⟨i, ⟨fall, first⟩, place⟩⟩
    · simp only [Admission.heightFalls, Option.map_eq_none_iff, List.find?_eq_none, List.mem_finRange, true_implies,
        falls_iff]

/-! ### The common checks -/

/-- The decision of Close, Discard or Requeue Frame past the common checks. -/
def Request.ownDecision (q : Request) (s : State) (tag : Option Nat) (i : Fin 4) : State :=
  match q with
  | .closeFrame => s.closeSlot tag i
  | .discardFrame => s.discardSlot tag i
  | _ => s.requeueSlot tag i

theorem Request.owner_addressed {q : Request} (one : q = .closeFrame ∨ q = .discardFrame ∨ q = .requeueFrame)
    (film : Bool) (p : List Byte) (s : State) (tag : Option Nat) :
    q.owner film p s tag p = s.addressSlot tag q p (q.ownDecision s tag) := by
  rcases one with rfl | rfl | rfl <;> rfl

/-- The guard fails where it is carried and is not the slot's open sequence. -/
theorem State.guardFails_iff (s : State) (i : Fin 4) (p : List Byte) : s.guardFails i p = true ↔
    byteAt p 1 = 1 ∧ (s.slot i).map (·.openSeq) ≠ some (longAt p 4) := by
  unfold State.guardFails
  cases s.slot i <;> simp

/-- The common checks passed, the request's own decide. -/
theorem State.addressSlot_own {s : State} {i : Fin 4} {p : List Byte} (place : i.val = byteAt p 0)
    (guard : byteAt p 1 = 0 ∨ (byteAt p 1 = 1 ∧ (s.slot i).map (·.openSeq) = some (longAt p 4))) (tag : Option Nat)
    (q : Request) (own : Fin 4 → State) : s.addressSlot tag q p own = own i := by
  have meets : ¬ s.guardFails i p = true := by
    rw [s.guardFails_iff]
    rintro ⟨carried, other⟩
    rcases guard with absent | ⟨-, same⟩
    · omega
    · exact other same
  simp only [State.addressSlot, index?_eq_some place, show ¬ 1 < byteAt p 1 by omega, meets, if_false]
  simp

theorem State.slot_taken (s : State) (tag : Nat) (q : Request) (i : Fin 4) :
    (s.takeRecord.enterTable tag q).slot i = s.slot i := by
  simp [State.slot]

/-- A slot that is FREE, or of a Close not FILLING, is refused for its state. -/
theorem Request.ownDecision_slotState {q : Request} (one : q = .closeFrame ∨ q = .discardFrame ∨ q = .requeueFrame)
    {s : State} {i : Fin 4} (state : s.slot i = none ∨ (q = .closeFrame ∧ s.phaseOf i ≠ some .filling))
    (tag : Option Nat) : q.ownDecision s tag i = s.refuseSlotState tag q i := by
  rcases state with free | ⟨rfl, other⟩
  · rcases one with rfl | rfl | rfl
    · simp [Request.ownDecision, State.closeSlot, free]
    · simp [Request.ownDecision, State.discardSlot, free]
    · simp [Request.ownDecision, State.requeueSlot, free]
  · cases here : s.slot i with
    | none => simp [Request.ownDecision, State.closeSlot, here]
    | some r =>
      have other : r.phase ≠ .filling := by simpa [State.phaseOf, here] using other
      simp [Request.ownDecision, State.closeSlot, here, other]

/-- Settles O19: the checks in their order, for the three requests together. -/
theorem addressChecks : Obligations.AddressChecks := by
  intro s tag q p film one accepts
  refine ⟨fun above => exec_refused film accepts ?_, fun i place => ⟨fun above => exec_refused film accepts ?_,
    fun carried other => exec_refused film accepts ?_, fun guard state => exec_refused film accepts ?_⟩⟩
  all_goals rw [Request.owner_addressed one]
  · simp only [State.addressSlot, index?_eq_none above]
  · simp only [State.addressSlot, index?_eq_some place, above, if_true]
  · have fails := ((s.takeRecord.enterTable tag q).guardFails_iff i p).2 ⟨carried, by rwa [s.slot_taken]⟩
    simp only [State.addressSlot, index?_eq_some place, fails, if_true, show ¬ 1 < byteAt p 1 by omega, if_false,
      s.slot_taken, State.phaseOf]
  · rw [State.addressSlot_own place (by rwa [s.slot_taken]),
      Request.ownDecision_slotState one (by simpa only [State.phaseOf, s.slot_taken] using state)]
    simp only [State.refuseSlotState, s.slot_taken, State.phaseOf]

/-! ### Close, Discard and Requeue -/

/-- A guard met by the slot's record. -/
theorem guard_met {s : State} {i : Fin 4} {r : SlotRecord} {p : List Byte} (here : s.slot i = some r)
    (guard : byteAt p 1 = 0 ∨ (byteAt p 1 = 1 ∧ r.openSeq = longAt p 4)) :
    byteAt p 1 = 0 ∨ (byteAt p 1 = 1 ∧ (s.slot i).map (·.openSeq) = some (longAt p 4)) := by
  simpa [here] using guard

/-- Past the common checks a request is its own decision. -/
theorem Request.owner_own {s : State} {q : Request} (one : q = .closeFrame ∨ q = .discardFrame ∨ q = .requeueFrame)
    {i : Fin 4} {r : SlotRecord} {p : List Byte} (place : i.val = byteAt p 0) (here : s.slot i = some r)
    (guard : byteAt p 1 = 0 ∨ (byteAt p 1 = 1 ∧ r.openSeq = longAt p 4)) (film : Bool) (tag : Nat) :
    q.owner film p (s.takeRecord.enterTable tag q) (some tag) p =
      q.ownDecision (s.takeRecord.enterTable tag q) (some tag) i := by
  rw [Request.owner_addressed one, State.addressSlot_own place]
  exact guard_met (by rwa [s.slot_taken]) guard

theorem State.joinTail_eq {s : State} {i : Fin 4} {r : SlotRecord} (here : s.slot i = some r) :
    s.joinTail i = { s with fs := { s.fs with
      slots := s.fs.slots.set i (some { r with phase := .queued })
      queue := s.fs.queue ++ [i] } } := by
  simp [State.joinTail, State.setPhase, here, State.setSlot, State.setQueue]

theorem State.joinHead_eq {s : State} {i : Fin 4} {r : SlotRecord} (here : s.slot i = some r) :
    s.joinHead i = { s with fs := { s.fs with
      slots := s.fs.slots.set i (some { r with phase := .queued })
      queue := i :: s.fs.queue } } := by
  simp [State.joinHead, State.setPhase, here, State.setSlot, State.setQueue]

theorem State.freeSlot_eq {s : State} {i : Fin 4} {r : SlotRecord} (here : s.slot i = some r) :
    s.freeSlot i = (s.setSlot i none).setRefs r.profile (· - 1) := by
  simp [State.freeSlot, here]

/-- Settles O20: the slot joins the queue at its tail, or misses lines. -/
theorem frameClosed : Obligations.FrameClosed := by
  intro s tag p i r accepts place here filling guard
  have owner := Request.owner_own (q := .closeFrame) (.inl rfl) place here guard false tag
  have there : (s.takeRecord.enterTable tag .closeFrame).slot i = some r := by rwa [s.slot_taken]
  split_ifs with missing
  · refine exec_refused (q := .closeFrame) false accepts (owner.trans ?_)
    simp [Request.ownDecision, State.closeSlot, there, filling, missing, SlotRecord.missing]
  · refine exec_done (q := .closeFrame) (u := { s.takeRecord with fs := { s.fs with
        slots := s.fs.slots.set i (some { r with phase := .queued }), queue := s.fs.queue ++ [i] } })
      false accepts (owner.trans ?_)
    simp only [Request.ownDecision, State.closeSlot, there, filling, missing, State.joinTail_eq there]
    simp [State.enterTable]

/-- The discard of a slot that is not ACTIVE: the slot FREE, out of the queue, and its profile's count lowered. -/
def State.discards (s : State) (i : Fin 4) (r : SlotRecord) : State :=
  if r.phase = .queued then (s.freeSlot i).leaveQueue i else s.freeSlot i

theorem State.discards_enterTable {s : State} {i : Fin 4} {r : SlotRecord} (here : s.slot i = some r) (tag : Nat)
    (q : Request) : (s.enterTable tag q).discards i r = (s.discards i r).enterTable tag q := by
  have there : (s.enterTable tag q).slot i = some r := here
  unfold State.discards
  rw [State.freeSlot_eq here, State.freeSlot_eq there]
  split <;> rfl

theorem State.discards_form {s : State} {i : Fin 4} {r : SlotRecord} (here : s.slot i = some r) :
    s.discards i r = { s with fs := (s.discards i r).fs, pt := (s.discards i r).pt } := by
  unfold State.discards
  rw [State.freeSlot_eq here]
  split <;> rfl

theorem State.discards_queue {s : State} {i : Fin 4} {r : SlotRecord} (here : s.slot i = some r) :
    (s.discards i r).fs.queue = if r.phase = .queued then s.fs.queue.filter (· ≠ i) else s.fs.queue := by
  unfold State.discards
  rw [State.freeSlot_eq here]
  split <;> rfl

theorem State.discards_slot {s : State} {i : Fin 4} {r : SlotRecord} (here : s.slot i = some r) (j : Fin 4) :
    (s.discards i r).slot j = if j = i then none else s.slot j := by
  have freed : (s.discards i r).slot j = (s.setSlot i none).slot j := by
    unfold State.discards
    rw [State.freeSlot_eq here]
    split <;> rfl
  rw [freed, State.slot_setSlot]

theorem State.discards_profiles {s : State} {i : Fin 4} {r : SlotRecord} (here : s.slot i = some r) (k : Fin 8) :
    (s.discards i r).pt.profiles[k] =
      if k = r.profile then { s.pt.profiles[k] with refs := s.pt.profiles[k].refs - 1 } else s.pt.profiles[k] := by
  have lowered : (s.discards i r).pt.profiles[k] = ((s.setSlot i none).setRefs r.profile (· - 1)).pt.profiles[k] := by
    unfold State.discards
    rw [State.freeSlot_eq here]
    split <;> rfl
  rw [lowered, State.profiles_setRefs]
  split
  next same => rw [same]; rfl
  next => rfl

theorem State.discards_kept {s : State} {i : Fin 4} {r : SlotRecord} (here : s.slot i = some r) :
    (s.discards i r).fs.image = s.fs.image ∧ (s.discards i r).fs.openCounter = s.fs.openCounter := by
  unfold State.discards
  rw [State.freeSlot_eq here]
  split <;> exact ⟨rfl, rfl⟩

/-- A Discard Frame of a slot that is not ACTIVE, and the notice of a queue that it empties. -/
theorem State.discardSlot_eq {s : State} {i : Fin 4} {r : SlotRecord} (here : s.slot i = some r)
    (idle : r.phase ≠ .active) (tag : Option Nat) : s.discardSlot tag i =
      ((s.discards i r).sends (if r.phase = .queued ∧ s.es.engine = .ready ∧ (s.discards i r).fs.queue = [] then
        [.notice .queueEmpty] else [])).done tag .discardFrame := by
  have engine : (s.discards i r).es = s.es := by
    rw [State.discards_form here]
  cases phase : r.phase with
  | active => exact absurd phase idle
  | queued =>
    have discards : s.discards i r = (s.freeSlot i).leaveQueue i := by simp [State.discards, phase]
    simp only [State.discardSlot, here, phase, ← discards, State.noticeEmptied, engine, true_and]
    split <;> rfl
  | filling | held => simp [State.discardSlot, here, phase, State.discards, State.sends_nil]

/-- Settles O21: the discard by slot state, and the requeue of a HELD slot. -/
theorem frameDiscardedOrRequeued : Obligations.FrameDiscardedOrRequeued := by
  intro s tag p i r place here guard
  have taken (q : Request) : (s.takeRecord.enterTable tag q).slot i = some r := by rwa [s.slot_taken]
  have free : s.takeRecord.slot i = some r := taken .discardFrame
  refine ⟨fun accepts => ⟨fun active => ?_, fun idle => ?_⟩, fun accepts => ⟨fun held => ?_, fun other => ?_⟩⟩
  · have owner := Request.owner_own (q := .discardFrame) (.inr (.inl rfl)) place here guard false tag
    refine exec_refused (q := .discardFrame) false accepts (owner.trans ?_)
    simp [Request.ownDecision, State.discardSlot, taken, active]
  · have owner := Request.owner_own (q := .discardFrame) (.inr (.inl rfl)) place here guard false tag
    have form := State.discards_form free
    obtain ⟨image, counter⟩ := State.discards_kept free
    refine ⟨s.takeRecord.discards i r, exec_done (q := .discardFrame) false accepts (owner.trans ?_)
      (by rw [State.sends_lp, form, s.takeRecord_outstanding]) (by rw [State.sends_lp, form, s.takeRecord_up])
      (by rw [State.sends_staged, form, s.takeRecord_staged]) (by rw [State.sends_fu, form, s.takeRecord_fu]),
      ?_, fun j other => ?_, ?_, ?_, ?_, ?_, fun k other => ?_, form⟩
    · rw [Request.ownDecision, State.discardSlot_eq (taken .discardFrame) idle, State.discards_enterTable free,
        State.sends_enterTable]
      simp only [State.enterTable_es, State.takeRecord_es, State.enterTable_fs]
    · rw [State.discards_slot free, if_pos rfl]
    · rw [State.discards_slot free, if_neg other]
      simp [State.slot]
    · rw [State.discards_queue free, s.takeRecord_fs]
    · rw [image, s.takeRecord_fs]
    · rw [counter, s.takeRecord_fs]
    · rw [State.discards_profiles free, if_pos rfl, s.takeRecord_pt]
    · rw [State.discards_profiles free, if_neg other, s.takeRecord_pt]
  · have owner := Request.owner_own (q := .requeueFrame) (.inr (.inr rfl)) place here guard false tag
    refine exec_done (q := .requeueFrame) (u := { s.takeRecord with fs := { s.fs with
        slots := s.fs.slots.set i (some { r with phase := .queued }), queue := i :: s.fs.queue } })
      false accepts (owner.trans ?_)
    simp only [Request.ownDecision, State.requeueSlot, taken, held, if_true, State.joinHead_eq (taken .requeueFrame)]
    simp [State.enterTable]
  · have owner := Request.owner_own (q := .requeueFrame) (.inr (.inr rfl)) place here guard false tag
    refine exec_refused (q := .requeueFrame) false accepts (owner.trans ?_)
    simp [Request.ownDecision, State.requeueSlot, taken, other, State.refuseSlotState]

end Sys2Proof.Machine
end

