-- ==== Sys2Proof/Proofs/Mechanisms.lean ====
section
/-! PROOFS. The mechanism commands given one after another, and the requests that start and stop the engine, abort a
frame and advance the film. -/

namespace Sys2Proof.Machine

/-! ### One more command after a list of things sent -/

theorem State.sends_withStu (s : State) (l : List Sent) (x : ScanUnit) :
    State.sends { s with stu := x } l = { s.sends l with stu := x } := by
  rw [State.sends_eq, State.sends_eq]

theorem State.sends_withPl (s : State) (l : List Sent) (x : PowerLoop) :
    State.sends { s with pl := x } l = { s.sends l with pl := x } := by
  rw [State.sends_eq, State.sends_eq]

theorem State.sends_withDu (s : State) (l : List Sent) (x : DoseUnit) :
    State.sends { s with du := x } l = { s.sends l with du := x } := by
  rw [State.sends_eq, State.sends_eq]

theorem State.setEs_sends (s : State) (l : List Sent) (x : Sequencer) : (s.sends l).setEs x = (s.setEs x).sends l :=
  (s.sends_withEs l x).symm

theorem State.setTc_sends (s : State) (l : List Sent) (x : Transport) : (s.sends l).setTc x = (s.setTc x).sends l :=
  (s.sends_withTc l x).symm

theorem State.setStu_sends (s : State) (l : List Sent) (x : ScanUnit) : (s.sends l).setStu x = (s.setStu x).sends l :=
  (s.sends_withStu l x).symm

theorem State.setInHand_sends (s : State) (l : List Sent) (r : Option FaultRecord) :
    (s.sends l).setInHand r = (s.setInHand r).sends l := by
  rw [State.setInHand, State.sends_fu]
  exact (s.sends_withFu l _).symm

theorem State.setEngine_sends (s : State) (l : List Sent) (e : Engine) (c : Option FaultKind) :
    (s.sends l).setEngine e c =
      State.sends { s with es := { s.es with engine := e } } (l ++ engineMoves s.es.engine e c) := by
  rw [State.setEngine_eq, State.sends_es, ← State.sends_withEs, State.sends_append]

theorem State.polygonStop_sends (s : State) (l : List Sent) : (s.sends l).polygonStop =
    State.sends { s with stu := s.stu.rest } (l ++ [.command .polygonStop]) := by
  rw [State.polygonStop, State.sends_stu, State.setStu_sends, State.command_sends, State.setStu]

theorem State.stopStage_sends (s : State) (l : List Sent) : (s.sends l).stopStage =
    State.sends { s with es := { s.es with stage := .unhomed } } (l ++ [.command .stageStop]) := by
  rw [State.stopStage, State.sends_es, State.setEs_sends, State.command_sends, State.setEs]

/-- The stop command of a wheel, given where it moves. -/
def State.wheelStop (s : State) (c : Channel) : List Sent :=
  if (s.es.wheels.get c).move.isSome then [.command (.wheelStop c)] else []

theorem State.wheelStops_eq (s : State) :
    s.wheelStops = s.wheelStop .red ++ s.wheelStop .green ++ s.wheelStop .blue := by
  unfold State.wheelStops State.wheelStop
  by_cases red : (s.es.wheels.get .red).move.isSome = true <;>
    by_cases green : (s.es.wheels.get .green).move.isSome = true <;>
    by_cases blue : (s.es.wheels.get .blue).move.isSome = true <;>
    simp [red, green, blue]

theorem State.commandWheelStop_sends (s : State) (l : List Sent) (c : Channel) :
    (s.sends l).commandWheelStop c = s.sends (l ++ s.wheelStop c) := by
  rw [State.commandWheelStop, State.wheelStop, State.sends_es]
  split
  · rw [State.command_sends]
  · rw [List.append_nil]

theorem Wheel.stop_eq (w : Wheel) : w.stop = if w.move = none then w else ⟨none, none⟩ := by
  obtain ⟨position, move⟩ := w
  cases move <;> rfl

theorem State.stopWheels_sends (s : State) (l : List Sent) : (s.sends l).stopWheels =
    State.sends { s with es := { s.es with
      wheels := s.es.wheels.map (fun w => if w.move = none then w else ⟨none, none⟩) } } (l ++ s.wheelStops) := by
  have stop : Wheel.stop = fun w => if w.move = none then w else ⟨none, none⟩ := funext Wheel.stop_eq
  rw [State.stopWheels, State.commandWheelStop_sends, State.commandWheelStop_sends, State.commandWheelStop_sends]
  simp only [State.sends_es, State.setEs_sends, stop, s.wheelStops_eq, List.append_assoc]
  rfl

theorem State.stopGate_sends (s : State) (l : List Sent) : (s.sends l).stopGate =
    State.sends { s with tc := match s.tc.op with
        | none => s.tc
        | some op => s.tc.failing op .cut }
      (l ++ if s.tc.op = none then [] else [.command .transportStop]) := by
  rw [State.stopGate, State.sends_tc]
  cases op : s.tc.op with
  | none => simp
  | some op =>
    dsimp only
    rw [State.setTc_sends, State.command_sends, Transport.fail_eq_failing, if_neg (by simp)]
    rfl

theorem State.closeShutter_sends (s : State) (l : List Sent) : (s.sends l).closeShutter =
    State.sends { s with tc := s.tc.shutting } (l ++ s.tc.shutCommand) := by
  rw [State.closeShutter_eq, State.sends_tc, ← State.sends_withTc, State.sends_append]

theorem State.stopEngineTimers_sends (s : State) (l : List Sent) : (s.sends l).stopEngineTimers =
    State.sends { s with es := { s.es with startTimer := none, pauseTimer := none } } l := by
  rw [State.stopEngineTimers, State.sends_es, State.setEs_sends, State.setEs]

theorem PowerChannel.turnOff_eq (c : PowerChannel) : c.turnOff =
    if c.laser = .off then c else ⟨.off, none, c.trim, c.reading, .clear, 0, 0, 0, 0, false⟩ := by
  obtain ⟨laser, _⟩ := c
  cases laser <;> rfl

theorem ScanUnit.rest_eq (u : ScanUnit) : u.rest =
    if u.speed = .idle then u else { u with speed := .idle, measurement := .armed, watch := none } := rfl

/-- The disable command: every channel OFF with its trim and its reading kept. -/
theorem State.laserDisable_off (s : State) : s.laserDisable =
    State.sends { s with pl := { s.pl with channels := s.pl.channels.map (fun c =>
      if c.laser = .off then c
      else ⟨.off, none, c.trim, c.reading, .clear, 0, 0, 0, 0, false⟩) } } s.cutsPulses := by
  have off : PowerChannel.turnOff =
      fun c => if c.laser = .off then c else ⟨.off, none, c.trim, c.reading, .clear, 0, 0, 0, 0, false⟩ :=
    funext PowerChannel.turnOff_eq
  rw [s.laserDisable_eq, off]

theorem Transport.shutCommand_cut (t : Transport) :
    Transport.shutCommand (match t.op with | none => t | some op => t.failing op .cut) = t.shutCommand := by
  cases t.op <;> rfl

/-- Settles O30: the seven stop commands one after another. -/
theorem mechanismsStopped : Obligations.MechanismsStopped := by
  intro s
  unfold State.stopMechanisms
  simp only [State.laserDisable_off, State.polygonStop_sends, State.stopStage_sends, State.stopWheels_sends,
    State.stopGate_sends, State.closeShutter_sends, State.stopEngineTimers_sends, Transport.shutCommand_cut,
    List.append_assoc] <;> rfl

/-! ### A long request accepted -/

/-- A request that is not answered on its event is its owner's decision, with the replies staged sent. -/
theorem exec_decided {s t : State} {tag : Nat} {q : Request} {p : List Byte} (film : Bool) (accepts : s.Accepts tag q p)
    (decides : q.owner film p (s.takeRecord.enterTable tag q) (some tag) p = t)
    (raised : t.fu.raised = s.fu.raised := by simp) : exec (q.command film p) s = .next t.flush := by
  rw [exec_command, run, s.onRequestWhen_accepts tag q p accepts _ (q.picks_self p), decides,
    State.concluded_later _ fun f here => (accepts.before.raised f (raised ▸ here)).1]

/-- With no reply staged, the owner's decision is all. -/
theorem exec_accepted {s t : State} {tag : Nat} {q : Request} {p : List Byte} (film : Bool) (accepts : s.Accepts tag q p)
    (decides : q.owner film p (s.takeRecord.enterTable tag q) (some tag) p = t)
    (raised : t.fu.raised = s.fu.raised := by simp) (staged : t.staged = s.staged := by simp) :
    exec (q.command film p) s = .next t := by
  rw [exec_decided film accepts decides raised, State.flush_none _ (staged.trans accepts.before.staged)]

/-! ### Start and Resume -/

theorem State.polygonRun_eq (s : State) : s.polygonRun =
    State.sends { s with stu := if s.stu.speed = .idle then s.stu.acquire else s.stu } [.command .polygonRun] := by
  unfold State.polygonRun
  split <;> rfl

theorem PowerChannel.enable_eq (ms : Nat) (c : PowerChannel) : c.enable ms =
    if c.laser = .off then { c with laser := .settling, settle := some (Config.ms ms) } else c := by
  obtain ⟨laser, _⟩ := c
  cases laser <;> rfl

theorem State.setChannels_sends (s : State) (l : List Sent) (c : Rgb PowerChannel) :
    (s.sends l).setChannels c = (s.setChannels c).sends l := by
  rw [State.setChannels, State.sends_pl]
  exact (s.sends_withPl l _).symm

theorem State.laserEnable_sends (s : State) (l : List Sent) (closed : s.pl.interlockOpen = false) :
    (s.sends l).laserEnable = State.sends { s with pl := { s.pl with channels := s.pl.channels.map (fun c =>
      if c.laser = .off then
        { c with laser := .settling, settle := some (Config.ms s.pl.params.settleMs) }
      else c) } } l := by
  have on : PowerChannel.enable s.pl.params.settleMs = fun c => if c.laser = .off then
      { c with laser := .settling, settle := some (Config.ms s.pl.params.settleMs) } else c :=
    funext (PowerChannel.enable_eq s.pl.params.settleMs)
  rw [State.laserEnable, State.sends_pl, if_neg (by simp [closed]), on, State.setChannels_sends]
  rfl

theorem State.homeStage_sends (s : State) (l : List Sent) : (s.sends l).homeStage =
    State.sends { s with es := { s.es with stage := .homing } } (l ++ [.command .stageHome]) := by
  rw [State.homeStage, State.sends_es, State.setEs_sends, State.command_sends, State.setEs]

theorem State.clampGate_sends (s : State) (l : List Sent) : (s.sends l).clampGate =
    State.sends { s with tc := if s.tc.op = none ∧ s.tc.gate ≠ .clamped then
        { s.tc with
          gate := .clamping, op := some .clamp, opTimer := some (Config.ms 400)
          perforations := 0 }
      else s.tc }
      (l ++ if s.tc.op = none ∧ s.tc.gate ≠ .clamped then [.command .clampClose] else []) := by
  rw [State.clampGate, State.sends_tc]
  cases op : s.tc.op with
  | some o => simp
  | none =>
    by_cases clamped : s.tc.gate = .clamped
    · simp [clamped]
    · rw [if_neg (by simp), if_neg clamped, if_pos ⟨rfl, clamped⟩, if_pos ⟨rfl, clamped⟩, State.setTc_sends,
        State.command_sends]
      rfl

/-- Entry to STARTING, with the door closed. -/
theorem State.enterStarting_eq (s : State) (closed : s.pl.interlockOpen = false) (idle : s.es.engine ≠ .exposing) :
    s.enterStarting = State.sends { s with
      stu := if s.stu.speed = .idle then s.stu.acquire else s.stu
      pl := { s.pl with channels := s.pl.channels.map (fun c =>
        if c.laser = .off then
          { c with laser := .settling, settle := some (Config.ms s.pl.params.settleMs) }
        else c) }
      es := { s.es with engine := .starting, stage := .homing, startTimer := some (Config.ms 20000) }
      tc := if s.tc.op = none ∧ s.tc.gate ≠ .clamped then
          { s.tc with
            gate := .clamping, op := some .clamp, opTimer := some (Config.ms 400)
            perforations := 0 }
        else s.tc
      fu := { s.fu with inHand := none } }
      ([.command .polygonRun, .command .stageHome] ++
        (if s.tc.op = none ∧ s.tc.gate ≠ .clamped then [.command .clampClose] else []) ++
        [.notice (.engineState s.es.engine .starting none)]) := by
  have moves : engineMoves s.es.engine .starting none = [.notice (.engineState s.es.engine .starting none)] := by
    simp [engineMoves, idle]
  unfold State.enterStarting
  rw [State.polygonRun_eq, State.laserEnable_sends, State.homeStage_sends, State.clampGate_sends]
  · dsimp only
    rw [State.sends_es, State.setEs_sends, State.setInHand_sends, State.setEngine_sends, ← moves]
    rfl
  · exact closed

/-- Settles O29: both requests, by state, conditions and entry. -/
theorem engineStarted : Obligations.EngineStarted := by
  intro s tag p film q from_ which accepts
  have owner (t : State) : q.owner film p t (some tag) p = t.decideStart (some tag) q from_ film := by
    rcases which with ⟨rfl, rfl⟩ | ⟨rfl, rfl⟩ <;> rfl
  refine ⟨fun wrong => exec_refused film accepts ?_, fun engine free => ⟨fun unmet => exec_refused film accepts ?_,
    fun closed present => exec_accepted film accepts ?_⟩⟩
  · have wrong : s.es.engine ≠ from_ ∨ s.es.replies.start.isSome = true := by simpa [Option.isSome_iff_ne_none] using wrong
    rw [owner, State.decideStart, if_pos (by simpa using wrong)]
  · rw [owner, State.decideStart, if_neg (by simp [engine, free]), if_pos (by simpa using unmet)]
    simp
  · have idle : s.es.engine ≠ .exposing := by
      rw [engine]
      rcases which with ⟨-, rfl⟩ | ⟨-, rfl⟩ <;> decide
    have closed' : ((s.takeRecord.enterTable tag q).setPending .start (some ⟨q, some tag⟩)).pl.interlockOpen = false := by
      simpa [State.setPending] using closed
    rw [owner, State.decideStart, if_neg (by simp [engine, free]), if_neg (by simp [closed, present]),
      State.enterStarting_eq _ closed' (by simpa [State.setPending, State.setEs] using idle)]
    obtain ⟨Q, F, H, O, form⟩ := s.takeRecord_form
    rw [form, ← engine]
    rfl

/-! ### Stop -/

/-- The mechanisms are stopped whatever replies are pending. -/
theorem State.stopMechanisms_setPending (s : State) (k : LongKind) (r : Option PendingReply) :
    (s.setPending k r).stopMechanisms = { s.stopMechanisms with
      es := { s.stopMechanisms.es with replies := s.es.replies.set k r } } := by
  rw [mechanismsStopped, mechanismsStopped, State.sends_eq, State.sends_eq]
  rfl

theorem State.stopMechanisms_engine (s : State) : s.stopMechanisms.es.engine = s.es.engine := by
  rw [mechanismsStopped, State.sends_es]

theorem State.enterStopping_eq (s : State) : s.enterStopping = s.entersStopping := by
  unfold State.enterStopping State.entersStopping
  dsimp only
  rw [State.setEngine_eq]
  simp only [State.setInHand, State.setEs, State.stopMechanisms_engine]
  rfl

end Sys2Proof.Machine
end

