-- ==== Sys2Proof/Proofs/Commands.lean ====
section
/-! PROOFS. Stop Engine, Advance Film and Abort Frame. -/

namespace Sys2Proof.Machine

/-! ### Stop -/

theorem engineMoves_dark {previous : Engine} (dark : previous ≠ .exposing) (new : Engine) (cause : Option FaultKind) :
    engineMoves previous new cause = [.notice (.engineState previous new cause)] := by
  simp [engineMoves, dark]

/-- The reply of a long request is abandoned. -/
theorem State.failReply_abandoned (s : State) (k : LongKind) (short : k ≠ .advance) (n : Nat) :
    s.failReply k .abandoned n = s.ends k .failed .abandoned .empty := by
  cases k with
  | advance => exact absurd rfl short
  | _ => exact s.endReply_eq_ends _ _ rfl rfl

@[simp] theorem State.ends_fu (s : State) (k : LongKind) (o : ReplyOutcome) (r : Reason) (d : ReplyData) :
    (s.ends k o r d).fu = s.fu := by
  unfold State.ends
  split <;> rfl

theorem Engine.stopsLater_iff (e : Engine) : e.stopsLater = true ↔
    e ∈ [Engine.preparing, .exposing, .paused, .finishing, .advancing, .aborting] := by
  cases e <;> decide

/-- Settles O31: the refusal, the wait and the stop, by engine state. -/
theorem engineStopped : Obligations.EngineStopped := by
  refine fun s tag p accepts => ⟨fun refused => exec_refused (q := .stopEngine) false accepts ?_,
    fun free clear => ⟨fun later => exec_accepted (q := .stopEngine) false accepts ?_, fun now t u stopped sent => ?_⟩⟩
  · have refused : s.es.replies.stop.isSome = true ∨ s.es.stopPending = true ∨ s.es.engine = .offline ∨
        s.es.engine = .stopping := by
      rw [Option.isSome_iff_ne_none]
      tauto
    exact if_pos (by simpa using refused)
  · have notIdle : ¬ (s.es.engine = .offline ∨ s.es.engine = .stopping) := by
      rintro (engine | engine) <;> rw [engine] at later <;> simp at later
    have waits := (Engine.stopsLater_iff _).2 later
    refine (if_neg (by simpa [free, clear] using notIdle)).trans ((if_pos (by simpa using waits)).trans ?_)
    simp [State.setPending, State.setEs, PendingReplies.set]
  · have dark : s.es.engine ≠ .exposing := by
      rintro engine
      simp [engine] at now
    have notIdle : ¬ (s.es.engine = .offline ∨ s.es.engine = .stopping) := by
      rintro (engine | engine) <;> rw [engine] at now <;> simp at now
    have notLater : ¬ s.es.engine.stopsLater = true := by
      rw [Engine.stopsLater_iff]
      rcases List.mem_cons.1 now with engine | now
      · simp [engine]
      rcases List.mem_cons.1 now with engine | now
      · simp [engine]
      · simp [List.mem_singleton.1 now]
    have stops : ((s.takeRecord.enterTable tag .stopEngine).setPending .stop
        (some ⟨.stopEngine, some tag⟩)).enterStopping = u := by
      have engine : (s.takeRecord.enterTable tag .stopEngine).es.engine = s.es.engine := by simp
      have pending : (s.takeRecord.enterTable tag .stopEngine).stopMechanisms.es.stopPending = false := by
        rw [mechanismsStopped, State.sends_es]
        simpa using clear
      rw [sent, stopped, State.enterStopping_eq, State.entersStopping, State.stopMechanisms_setPending]
      simp only [State.setPending, State.setEs, engine, engineMoves_dark dark, ← pending, PendingReplies.set]
      simp
    have decided : decideStopEngine (s.takeRecord.enterTable tag .stopEngine) (some tag) p =
        if s.es.engine = .starting then u.failReply .start .abandoned 0 else u := by
      refine (if_neg (by simpa [free, clear] using notIdle)).trans ((if_neg (by simpa using notLater)).trans ?_)
      rw [stops]
      simp
    have raised : u.fu.raised = s.fu.raised := by rw [sent, State.sends_fu]
    rw [State.failReply_abandoned _ _ (by decide)] at decided
    by_cases starting : s.es.engine = .starting
    · rw [if_pos starting] at decided ⊢
      exact exec_decided (q := .stopEngine) false accepts decided (by simpa using raised)
    · rw [if_neg starting] at decided ⊢
      refine exec_accepted (q := .stopEngine) false accepts decided raised ?_
      rw [sent, State.sends_staged, stopped, State.stopMechanisms_staged]
      simp

/-! ### Advance Film -/

theorem State.pullDown_sends (s : State) (l : List Sent) :
    (s.sends l).pullDown = State.sends { s with tc := s.tc.pulling } (l ++ s.tc.pullCommand) := by
  rw [State.pullDown_eq, State.sends_tc, ← State.sends_withTc, State.sends_append]

/-- The blank record does not direct the gate. -/
theorem Transport.pulling_blank (t : Transport) (b : Option BlankAdvance) :
    Transport.pulling { t with blank := b } = { t.pulling with blank := b } := by
  unfold Transport.pulling
  split <;> rfl

/-- Settles O33: the refusals in order, and the accepted form. -/
theorem filmAdvanced : Obligations.FilmAdvanced := by
  refine fun s tag p accepts => ⟨fun reason why => exec_refused (q := .advanceFilm) false accepts ?_,
    fun room low high ready free => exec_accepted (q := .advanceFilm) false accepts ?_⟩
  · have load : (s.takeRecord.enterTable tag .advanceFilm).rl.load = s.rl.load := by simp
    rcases why with ⟨full, rfl⟩ | ⟨room, count, rfl⟩ | ⟨room, low, high, wrong, rfl⟩
    · exact if_pos (by rwa [load])
    · have count : byteAt p 0 < 1 ∨ 16 < byteAt p 0 := by omega
      exact (if_neg (by rw [load]; exact Nat.not_le.2 room)).trans (if_pos count)
    · have wrong : s.es.engine ≠ .ready ∨ s.es.replies.advance.isSome = true := by
        simpa [Option.isSome_iff_ne_none] using wrong
      exact (if_neg (by rw [load]; exact Nat.not_le.2 room)).trans
        ((if_neg (by omega)).trans (if_pos (by simpa using wrong)))
  · have load : (s.takeRecord.enterTable tag .advanceFilm).rl.load = s.rl.load := by simp
    have decided : decideAdvanceFilm (s.takeRecord.enterTable tag .advanceFilm) (some tag) p =
        (s.takeRecord.enterTable tag .advanceFilm).beginBlank (some tag) (byteAt p 0) :=
      (if_neg (by rw [load]; exact Nat.not_le.2 room)).trans
        ((if_neg (by omega)).trans (if_neg (by simp [ready, free])))
    refine decided.trans ?_
    unfold State.beginBlank
    dsimp only
    rw [State.setEngine_eq, State.pullDown_sends]
    have engine : (s.takeRecord.enterTable tag .advanceFilm).es.engine = .ready := by simpa using ready
    simp only [State.setPending, State.setTc, State.setEs, State.reserve, engine, engineMoves_dark (previous := .ready)
      (by decide), Transport.pulling_blank]
    simp [PendingReplies.set]
    rfl

/-! ### Abort Frame -/

/-- An OPERATOR that waits with faults of other kinds is taken first. -/
theorem nextFaults_operator (l : List FaultReport) (n : Nat) (others : ∀ f ∈ l, f.kind ≠ .operator) :
    nextFaults (l ++ [.operator n]) = [.operator n] := by
  have follow (f : FaultReport) (here : f ∈ l) : f.kind.follows .operator = true := by
    have other := others f here
    revert other
    cases f.kind <;> decide
  have first (f : FaultReport) : FaultKind.operator.follows f.kind = false := by
    cases f.kind <;> rfl
  have waits : l.filter (fun f => (l ++ [FaultReport.operator n]).all (fun g => !f.kind.follows g.kind)) = [] := by
    refine List.filter_eq_nil_iff.2 fun f here all => ?_
    have last := List.all_eq_true.1 all (.operator n) (by simp)
    rw [show (FaultReport.operator n).kind = .operator from rfl, follow f here] at last
    cases last
  rw [nextFaults, List.filter_append, waits, List.nil_append]
  refine List.filter_eq_self.2 fun f here => List.all_eq_true.2 fun g _ => ?_
  rw [List.mem_singleton.1 here, show (FaultReport.operator n).kind = .operator from rfl, first]
  rfl

/-- The end of the event that raises OPERATOR: it is taken, and the replies staged are sent. -/
theorem State.concluded_operator {s : State} {l : List FaultReport} {n : Nat}
    (raised : s.fu.raised = l ++ [.operator n]) (others : ∀ f ∈ l,
      f.kind ∉ [FaultKind.facetShortage, .operator, .shutter, .transport, .filmEnd]) :
    s.concluded = (State.takeFault { s with fu := { s.fu with raised := l } } (.operator n)).flush := by
  have notOperator : ∀ f ∈ l, f.kind ≠ .operator := fun f here same => others f here (by simp [same])
  have fresh : FaultReport.operator n ∉ l := fun here => notOperator _ here rfl
  have next := nextFaults_operator l n notOperator
  have chosen : s.takeOne State.takeInTurn =
      State.takeInTurn { s with fu := { s.fu with raised := l } } (.operator n) := by
    have erased : (l ++ [FaultReport.operator n]).erase (.operator n) = l := by
      rw [List.erase_append_right _ fresh]
      simp
    unfold State.takeOne
    simp only [chooseFault, countChoice, raised, next, erased]
    rfl
  have keeps (t : State) (f : FaultReport) : (t.takeInTurn f).fu.raised = t.fu.raised := by
    unfold State.takeInTurn
    rw [(State.takeEvent_apart _ f).1]
    split <;> rfl
  have left : (s.takeOne State.takeInTurn).fu.raised = l := by
    rw [chosen, keeps]
  have due : ∃ f ∈ s.fu.raised, f.kind.takenAtOnce = true := ⟨.operator n, by simp [raised], rfl⟩
  have taken : s.takeDue = s.takeOne State.takeInTurn := by
    refine (s.taking_next _ _ keeps due).trans ?_
    refine State.taking_none _ _ _ _ fun f here => f.kind.takenAtOnce_eq_false.2 (others f ?_)
    rwa [left] at here
  rw [State.concluded, taken, chosen, State.takeInTurn_due _ _ rfl, State.flush_flush]

/-- What a state sends that differs from one that has sent a list only in what sending leaves. -/
theorem State.sends_after {s t : State} {l : List Sent} (m : List Sent) (nu : t.nu = (s.sends l).nu)
    (out : t.out = (s.sends l).out) (up : t.lp.up = s.lp.up) :
    t.sends m = State.sends { t with nu := s.nu, out := s.out } (l ++ m) := by
  rw [State.sends_eq] at nu out
  have same : State.sends { t with nu := s.nu, out := s.out } l = t := by
    rw [State.sends_eq]
    dsimp only at nu out ⊢
    rw [up, ← nu, ← out]
  rw [State.sends_append, same]

theorem State.aborts_sends (s : State) (l : List Sent) (r : FaultRecord) : (s.sends l).aborts r =
    State.sends { s with
      es := { s.es with engine := .aborting, lineInProgress := none, pauseTimer := none }
      du := { s.du with lineLatch := none, lineClips := Rgb.all ⟨0, 0⟩ }
      tc := s.tc.shutting
      fu := { s.fu with inHand := some r } }
      (l ++ s.tc.shutCommand ++ engineMoves s.es.engine .aborting none) := by
  unfold State.aborts
  rw [State.sends_after (s := s) (l := l)]
  · simp
  · rfl
  · rfl
  · simp

/-- The Fault Unit's take of a fault under ABORT. -/
theorem State.takeFault_abort {s : State} {f : FaultReport} {r : FaultRecord} (record : s.faultRecord f = r)
    (abort : r.applied = .abort) (unlocked : s.es.engine ≠ .locked) : s.takeFault f =
      State.sends { s with
        es := { s.es with engine := .aborting, lineInProgress := none, pauseTimer := none }
        du := { s.du with lineLatch := none, lineClips := Rgb.all ⟨0, 0⟩ }
        tc := s.tc.shutting
        fu := { s.fu with
          lastFault := some r
          inHand := some r
          counts := s.fu.counts.set f.kind.index (min 65535 (s.fu.counts[f.kind.index] + 1)) } }
        ([.notice (.fault r)] ++ s.tc.shutCommand ++ engineMoves s.es.engine .aborting none) := by
  obtain rfl : r.report = f := by rw [← record]; rfl
  have engine : r.engine = s.es.engine := by rw [← record]; rfl
  have announced : (s.recordFault r).announceFault r = State.sends (s.recordFault r) [.notice (.fault r)] :=
    if_neg (by rwa [engine])
  unfold State.takeFault
  dsimp only
  rw [record, announced, State.direct, abort]
  dsimp only
  rw [State.enterAborting_eq, State.aborts_sends, State.recordFault, saturate_eq_min]

/-- One reply staged goes out. -/
theorem State.flush_single {s : State} {r : Reply} (staged : s.staged = [r]) :
    s.flush = State.replied { s with staged := [] } r := by
  simp [State.flush, State.replied, staged]

/-- Settles O28: the refusals in order, and the OPERATOR fault raised and taken on the event. -/
theorem frameAborted : Obligations.FrameAborted := by
  refine fun s tag p accepts => ⟨fun exposing paused => exec_refused (q := .abortFrame) false accepts ?_,
    fun state => ⟨fun flag => exec_refused (q := .abortFrame) false accepts ?_, fun e here => ⟨fun carried other =>
      exec_refused (q := .abortFrame) false accepts ?_, fun guard assigned r record => ?_⟩⟩⟩
  · exact if_pos (by simpa using ⟨exposing, paused⟩)
  all_goals have inState : ¬ (s.es.engine ≠ .exposing ∧ s.es.engine ≠ .paused) := by tauto
  · exact (if_neg (by simpa using inState)).trans (if_pos flag)
  · have stale : (s.takeRecord.enterTable tag .abortFrame).abortGuardFails p = true := by
      simp [State.abortGuardFails, carried, here, other]
    refine (if_neg (by simpa using inState)).trans ((if_neg (by omega)).trans ((if_pos stale).trans ?_))
    simp [State.activeSequence, here]
  · have met : ¬ (s.takeRecord.enterTable tag .abortFrame).abortGuardFails p = true := by
      rcases guard with absent | ⟨carried, same⟩
      · simp [State.abortGuardFails, absent]
      · simp [State.abortGuardFails, carried, here, same]
    have sequence : (s.takeRecord.enterTable tag .abortFrame).activeSequence = e.openSeq := by
      simp [State.activeSequence, here]
    have decided : decideAbortFrame (s.takeRecord.enterTable tag .abortFrame) (some tag) p =
        ((s.takeRecord.enterTable tag .abortFrame).raise (.operator e.openSeq)).done (some tag) .abortFrame :=
      (if_neg (by simpa using inState)).trans ((if_neg (by omega)).trans ((if_neg met).trans (by rw [sequence])))
    have answered : ((s.takeRecord.enterTable tag .abortFrame).raise (.operator e.openSeq)).done (some tag)
        .abortFrame .empty = { s.takeRecord with
          fu := { s.fu with raised := s.fu.raised ++ [.operator e.openSeq] }
          staged := [⟨tag, 0x28, .done, .none_, s.es.engine, 0, false, .empty⟩] } := by
      obtain ⟨Q, F, H, O, form⟩ := s.takeRecord_form
      have gone := outstanding_restored s.lp.outstanding tag .abortFrame accepts.fresh
      simp only [State.done, State.answer, State.raise, State.enterTable, form, gone, State.stage, accepts.up, if_true,
        accepts.before.staged]
      rfl
    have unlocked : s.es.engine ≠ .locked := by
      rcases state with engine | engine <;> rw [engine] <;> decide
    have recorded : State.faultRecord { s.takeRecord with
        staged := [⟨tag, 0x28, .done, .none_, s.es.engine, 0, false, .empty⟩] } (.operator e.openSeq) = r := by
      have applied : responseApplied s.es.engine (s.assigned .operator) (.operator e.openSeq) = .abort := by
        rw [assigned]
        rcases state with engine | engine <;> rw [engine] <;> rfl
      have same : State.assigned { s.takeRecord with
          staged := [⟨tag, 0x28, .done, .none_, s.es.engine, 0, false, .empty⟩] } .operator = s.assigned .operator := by
        simp [State.assigned]
      rw [record, ← applied, ← same]
      simp [State.faultRecord, here, FaultReport.kind, FaultReport.facet]
    have concluded := State.concluded_operator (s := { s.takeRecord with
      fu := { s.fu with raised := s.fu.raised ++ [.operator e.openSeq] }
      staged := [⟨tag, 0x28, .done, .none_, s.es.engine, 0, false, .empty⟩] }) rfl
      fun f raised => (accepts.before.raised f raised).1
    have taken := State.takeFault_abort recorded (by rw [record]) (by simpa using unlocked)
    refine (exec_command .abortFrame false p s).trans ?_
    rw [run, s.onRequestWhen_accepts tag .abortFrame p accepts _ (Request.picks_self _ p)]
    refine congrArg Host.Outcome.next ((congrArg State.concluded (decided.trans answered)).trans (concluded.trans ?_))
    have same : State.takeFault { s.takeRecord with
        fu := s.fu, staged := [⟨tag, 0x28, .done, .none_, s.es.engine, 0, false, .empty⟩] } (.operator e.openSeq) =
        State.takeFault { s.takeRecord with
        staged := [⟨tag, 0x28, .done, .none_, s.es.engine, 0, false, .empty⟩] } (.operator e.openSeq) :=
      congrArg (fun fu => State.takeFault { s.takeRecord with
        fu := fu, staged := [⟨tag, 0x28, .done, .none_, s.es.engine, 0, false, .empty⟩] } (.operator e.openSeq))
        s.takeRecord_fu.symm
    refine (congrArg State.flush (same.trans taken)).trans ?_
    rw [State.flush_single (by rw [State.sends_staged]), ← State.sends_withStaged]
    simp only [State.takeRecord_es, State.takeRecord_du, State.takeRecord_tc, State.takeRecord_fu]
    have empty : s.takeRecord.staged = [] := by simpa using accepts.before.staged
    rw [← empty]
    rfl

end Sys2Proof.Machine
end

