-- ==== Sys2Proof/Proofs/Events.lean ====
section
/-! PROOFS. The events of the gate, the engine's timers and the positions: each is its effect, with the replies staged on
it sent at its end. -/

namespace Sys2Proof.Machine

/-! ### The end of a command on which no fault is due -/

/-- A command on which no fault is due is its effect, with the replies staged on it sent. -/
theorem run_later {s t : State} {effect : State → State} {first : List FaultKind} (before : s.Before first)
    (done : effect s = t) (raised : t.fu.raised = s.fu.raised) : run s effect = .next t.flush := by
  rw [run, done, State.concluded_later _ fun f here => (before.raised f (raised ▸ here)).1]

/-- A command on which no fault is due and no reply is staged is its effect. -/
theorem run_event {s t : State} {effect : State → State} {first : List FaultKind} (before : s.Before first)
    (done : effect s = t) (raised : t.fu.raised = s.fu.raised) (staged : t.staged = s.staged) :
    run s effect = .next t := by
  rw [run_later before done raised, State.flush_none _ (staged.trans before.staged)]

/-- A command that raises a fault which waits is its effect. -/
theorem run_raises {s t : State} {effect : State → State} {first : List FaultKind} {f : FaultReport}
    (before : s.Before first) (done : effect s = t) (raised : t.fu.raised = s.fu.raised ++ [f])
    (waits : f.kind.takenAtOnce = false) (staged : t.staged = s.staged) : run s effect = .next t := by
  have later : ∀ g ∈ t.fu.raised, g.kind ∉ [FaultKind.facetShortage, .operator, .shutter, .transport, .filmEnd] := by
    intro g here
    rw [raised, List.mem_append, List.mem_singleton] at here
    rcases here with here | rfl
    · exact (before.raised g here).1
    · exact (FaultKind.takenAtOnce_eq_false _).1 waits
  rw [run, done, State.concluded_later _ later, State.flush_none _ (staged.trans before.staged)]

/-- With none of the kinds raised that are taken before a command, it is run at once. -/
theorem runAfter_before {s : State} {must : FaultKind → Bool} {first : List FaultKind} (before : s.Before first)
    (kinds : ∀ k, must k = true → k ∈ first) (effect : State → State) : runAfter must s effect = run s effect := by
  refine runAfter_none must s effect fun f here => ?_
  by_contra taken
  exact (before.raised f here).2 (kinds _ (by simpa using taken))

theorem FaultKind.mem_beforeStart (k : FaultKind) (h : k.beforeStart = true) : k ∈ [FaultKind.startTimeout] := by
  revert h
  cases k <;> decide

/-! ### The gate's stages -/

/-- Settles O46: each report in its gate state. -/
theorem gateStages : Obligations.GateStages := by
  intro s before
  refine ⟨run_event before ?_ ?_ ?_, run_event before ?_ ?_ ?_, fun other => run_event before (if_neg other) rfl rfl,
    fun pulling four => run_event before ?_ ?_ ?_, fun film other => run_event before (if_neg other) rfl rfl,
    fun clamping => run_event before (if_pos clamping) rfl rfl⟩
  · exact ite_congr rfl (fun _ => rfl) (fun _ => rfl)
  · split <;> simp
  · split <;> simp
  · exact ite_congr rfl (fun _ => by rw [saturate_eq_min]; rfl) (fun _ => rfl)
  · split <;> rfl
  · split <;> rfl
  · exact (if_pos pulling).trans (if_pos four)
  · simp
  · simp

/-! ### The engine at rest -/

/-- Settles O44: either event in STOPPING, and in any other state. -/
theorem offlineEntered : Obligations.OfflineEntered := by
  refine fun s t before => ⟨fun other => ⟨run_event before (if_neg other) rfl rfl,
    run_event before (if_neg fun h => other h.1) rfl rfl⟩, fun stopping entered => ?_⟩
  have offline : s.enterOffline = ((State.sends { s with es := { s.es with engine := .offline, stopTimer := none } }
        [.notice (.engineState .stopping .offline none)]).ends .stop .done .none_ .empty).ends .reset
          .done .none_ .empty := by
    rw [State.enterOffline, State.setEngine_eq, State.endReply_eq_ends _ _ _ rfl rfl,
      State.endReply_eq_ends _ _ _ rfl rfl]
    simp [State.setEs, stopping, engineMoves]
  have raised : s.enterOffline.fu.raised = s.fu.raised := by rw [offline]; simp
  rw [entered, ← offline]
  exact ⟨run_later before (if_pos stopping) raised,
    fun timer => run_later before (if_pos ⟨stopping, Option.isSome_iff_ne_none.2 timer⟩) raised,
    fun timer => run_event before (if_neg fun h => by simp [timer] at h) rfl rfl⟩

/-! ### The response applied -/

/-- Settles O54: the table row by row, and a shutter that does not close. -/
theorem responseApplied_table : Obligations.ResponseApplied := by
  intro engine assigned f x applied
  have table (no : f ≠ .shutter .closing) : x = appliedByTable engine assigned f.kind := by
    rcases responseApplied_cases engine assigned f with ⟨closing, -⟩ | same
    · exact absurd closing no
    · exact applied.trans same
  refine ⟨?_, ?_, fun no => ?_⟩
  · rintro rfl
    rw [applied]
    unfold responseApplied
    split
    · rfl
    · rfl
  · rintro unlocked rfl
    rw [applied]
    exact if_neg unlocked
  · rw [table no]
    cases engine <;> cases assigned <;> simp [appliedByTable]
    all_goals cases f.kind <;> simp [FaultKind.lateApplied]

/-! ### The conditions read -/

theorem Channel.forall_iff {P : Channel → Prop} : (∀ c, P c) ↔ P .red ∧ P .green ∧ P .blue :=
  ⟨fun h => ⟨h _, h _, h _⟩, fun ⟨r, g, b⟩ c => by cases c <;> assumption⟩

theorem Rgb.every_iff {α : Type} (p : α → Bool) (v : Rgb α) : v.every p = true ↔ ∀ c, p (v.get c) = true := by
  simp [Channel.forall_iff, Rgb.every, Rgb.get, and_assoc]

theorem Rgb.get_map {α β : Type} (f : α → β) (v : Rgb α) (c : Channel) : (v.map f).get c = f (v.get c) := by
  cases c <;> rfl

theorem State.allSettled_iff (s : State) : s.allSettled = true ↔ ∀ c, (s.pl.channels.get c).laser = .settled := by
  simp [State.allSettled, Rgb.every_iff]

theorem State.allClear_iff (s : State) : s.allClear = true ↔ ∀ c, (s.pl.channels.get c).window = .clear := by
  simp [State.allClear, Rgb.every_iff]

theorem Wheel.restsAt_iff (w : Wheel) (target : Nat) : w.restsAt target = true ↔ w = ⟨some target, none⟩ := by
  obtain ⟨position, move⟩ := w
  simp [Wheel.restsAt]

theorem State.wheelsReady_iff {s : State} {e : ExposureRecord} (here : s.es.exposure = some e) :
    s.wheelsReady = true ↔ ∀ c, s.es.wheels.get c =
      ⟨some (s.pt.profiles[e.profile].channels.get c).range, none⟩ := by
  simp [State.wheelsReady, here, Wheel.restsAt_iff, State.wheelTargets, Channel.forall_iff, Rgb.get, Rgb.map, and_assoc]

theorem State.not_allSettled (s : State) : s.allSettled = false ↔ ∃ c, (s.pl.channels.get c).laser ≠ .settled := by
  rw [← Bool.not_eq_true, s.allSettled_iff, not_forall]

theorem State.not_allClear (s : State) : s.allClear = false ↔ ∃ c, (s.pl.channels.get c).window = .tripped := by
  rw [← Bool.not_eq_true, s.allClear_iff, not_forall]
  refine exists_congr fun c => ?_
  cases (s.pl.channels.get c).window <;> simp

theorem State.not_wheelsReady {s : State} {e : ExposureRecord} (here : s.es.exposure = some e) :
    s.wheelsReady = false ↔ ∃ c, s.es.wheels.get c ≠
      ⟨some (s.pt.profiles[e.profile].channels.get c).range, none⟩ := by
  rw [← Bool.not_eq_true, State.wheelsReady_iff here, not_forall]

/-! ### Positions -/

/-- Reading the conditions of PREPARING raises no fault and stages no reply. -/
theorem State.meetsPreparing_fu (s : State) : s.meetsPreparing.fu = s.fu := by
  unfold State.meetsPreparing
  split <;> simp

theorem State.meetsPreparing_staged (s : State) : s.meetsPreparing.staged = s.staged := by
  unfold State.meetsPreparing
  split <;> simp

theorem State.meetsStart_raised (s : State) : s.meetsStart.fu.raised = s.fu.raised := by
  unfold State.meetsStart State.entersReady
  split <;> simp

/-- The return of the stage to line 0. -/
theorem State.returnStage_eq (s : State) : s.returnStage = State.sends { s with es := { s.es with
    stage := .moving 0 (some (Config.ms 1000)) } } [.command .stageReturn] := rfl

/-- Settles O45: each report with a move in flight, and without. -/
theorem positionsReported : Obligations.PositionsReported := by
  refine fun s before => ⟨fun e here => State.wheelsReady_iff here, s.allSettled_iff, s.allClear_iff, fun c => ?_,
    fun other timed => ?_, fun homing timed => ?_, fun rest => ?_, fun l n moving => ?_⟩
  · have arrived : s.wheelArrived c = match (s.es.wheels.get c).move with
        | none => s
        | some (target, _) => State.meetsPreparing { s with es := { s.es with
            wheels := s.es.wheels.set c ⟨some target, none⟩ } } := by
      unfold State.wheelArrived
      cases (s.es.wheels.get c).move with
      | none => rfl
      | some m => exact State.checkPreparing_eq _
    refine run_event (effect := fun t => t.wheelArrived c) before arrived ?_ ?_
    · cases (s.es.wheels.get c).move with
      | none => rfl
      | some m => exact congrArg FaultUnit.raised (State.meetsPreparing_fu _)
    · cases (s.es.wheels.get c).move with
      | none => rfl
      | some m => exact State.meetsPreparing_staged _
  · exact (runAfter_before timed FaultKind.mem_beforeStart _).trans (run_event before (if_neg other) rfl rfl)
  · refine (runAfter_before timed FaultKind.mem_beforeStart _).trans (run_later before ?_ (State.meetsStart_raised _))
    exact (if_pos homing).trans (State.checkStarting_eq _)
  · refine run_event before ?_ rfl rfl
    unfold State.stageArrived
    split
    next l n moving => exact absurd moving (rest l n)
    · rfl
  · have arrived : s.stageArrived = if s.es.engine = .preparing ∧ l ≠ 0 then
          State.sends { s with es := { s.es with stage := .moving 0 (some (Config.ms 1000)) } }
            [.command .stageReturn]
        else State.meetsPreparing { s with es := { s.es with stage := .settled l } } := by
      unfold State.stageArrived
      rw [moving]
      exact ite_congr rfl (fun _ => rfl) (fun _ => State.checkPreparing_eq _)
    refine run_event before arrived ?_ ?_
    · split
      · simp
      · exact congrArg FaultUnit.raised (State.meetsPreparing_fu _)
    · split
      · simp
      · exact State.meetsPreparing_staged _

/-! ### The settling of a channel, and the door -/

/-- The disable command turns a channel OFF that is not. -/
theorem PowerChannel.turnOff_of (c : PowerChannel) : c.turnOff = if c.laser = .off then c
    else ⟨.off, none, c.trim, c.reading, .clear, 0, 0, 0, 0, false⟩ := by
  unfold PowerChannel.turnOff
  cases c.laser <;> rfl

theorem State.opened_sends (s : State) (l : List Sent) : ((s.sends l).setInterlock true).raise .interlock =
    State.sends ((s.setInterlock true).raise .interlock) l := by
  rw [State.sends_eq, State.sends_eq]
  rfl

/-- Settles O39: the settle timer, the door opening and the door closing. -/
theorem lasersAndDoor : Obligations.LasersAndDoor := by
  refine ⟨fun s c x before here => ⟨fun rest => ?_, fun settling timer => ?_⟩, fun s before => ?_, fun s before => ?_⟩
  · refine (runAfter_before before FaultKind.mem_beforeStart (fun t => t.settleChannel c)).trans
      (run_event before (if_neg ?_) rfl rfl)
    rw [here]
    simp only [PowerChannel.settling, Bool.and_eq_true, beq_iff_eq, Option.isSome_iff_ne_none]
    tauto
  · refine (runAfter_before before FaultKind.mem_beforeStart (fun t => t.settleChannel c)).trans
      (run_later before ?_ ?_)
    · have due : (s.pl.channels.get c).settling = true := by
        simp [PowerChannel.settling, here, settling, Option.isSome_iff_ne_none, timer]
      refine (if_pos due).trans ?_
      rw [State.checkStarting_eq, State.checkPreparing_eq, here]
      rfl
    · rw [State.meetsPreparing_fu, State.meetsStart_raised]
  · refine run_raises (f := .interlock) before ?_ ?_ rfl ?_
    · unfold State.openDoor
      rw [State.laserDisable_eq, funext PowerChannel.turnOff_of, State.opened_sends, State.notice_sends]
      rfl
    · simp
    · simp
  · refine run_event before rfl ?_ ?_
    · simp [State.sends_notice, State.sends_nil]
    · simp [State.sends_notice, State.sends_nil]

/-! ### The edge-print head -/

theorem State.entersReady_apart (s : State) : s.Apart s.enterReady := by
  rw [State.enterReady_eq]
  exact ⟨by simp [State.entersReady], by simp [State.entersReady]⟩

theorem State.enterStopping_apart (s : State) : s.Apart s.enterStopping := by
  rw [State.enterStopping_eq]
  exact ⟨by simp [State.entersStopping], by simp [State.entersStopping]⟩

theorem State.endAborting_apart (s : State) : s.Apart s.endAborting := by
  unfold State.endAborting
  split
  · exact ⟨rfl, rfl⟩
  next r _ =>
    refine (State.spoilFrame_apart s (.fault r.report.kind)).trans ?_
    dsimp only
    split
    · split
      · exact State.enterStopping_apart _
      · split
        · exact State.enterHalted_apart _ _
        · exact State.entersReady_apart _
    · exact State.enterHalted_apart _ _

/-- The head free again: the pending print begun, or the head IDLE. -/
theorem State.headFree_eq (s : State) : s.headFree = match s.tc.pendingMark with
    | none => { s with tc := { s.tc with head := .idle } }
    | some k => State.sends { s with tc := { s.tc with
        head := .printing k (Config.ms 28), pendingMark := none } } [.command (.print k)] := by
  unfold State.headFree
  cases s.tc.pendingMark <;> rfl

theorem State.headFree_fu (s : State) : s.headFree.fu = s.fu := by
  rw [State.headFree_eq]
  cases s.tc.pendingMark <;> simp

theorem State.headFree_staged (s : State) : s.headFree.staged = s.staged := by
  rw [State.headFree_eq]
  cases s.tc.pendingMark <;> simp

theorem State.headFree_es (s : State) : s.headFree.es = s.es := by
  rw [State.headFree_eq]
  cases s.tc.pendingMark <;> simp

/-- Settles O50: each mark printed, and an IDLE head. -/
theorem markPrinted : Obligations.MarkPrinted := by
  refine fun s before => ⟨fun idle => run_event before ?_ rfl rfl, fun m left printing t freed => ?_⟩
  · simp only [State.markDone, idle]
  replace freed : t = s.headFree := freed.trans s.headFree_eq.symm
  have done : s.markDone = t.onPrinted m := by
    simp only [State.markDone, printing, freed]
  have raised : t.fu.raised = s.fu.raised := by rw [freed, State.headFree_fu]
  have staged : t.staged = s.staged := by rw [freed, State.headFree_staged]
  have engine : t.es.engine = s.es.engine := by rw [freed, State.headFree_es]
  refine ⟨fun stray => run_event before (done.trans ?_) raised staged, fun live frame =>
    run_event before (done.trans ?_) raised staged, fun live spoil aborting =>
      run_later before (done.trans ?_) ((State.endAborting_apart t).1.trans raised)⟩
  · rcases stray with dead | ⟨spoil, elsewhere⟩
    · simp [State.onPrinted, dead]
    · simp [State.onPrinted, spoil, engine, elsewhere]
  · simp [State.onPrinted, live, frame, State.frameMarkPrinted, State.setEs, freed]
  · simp [State.onPrinted, live, spoil, engine, aborting]

/-! ### The timers -/

theorem FaultKind.mem_beforeWheel (k : FaultKind) (h : k.beforeWheel = true) : k ∈ [FaultKind.filterTimeout] := by
  revert h
  cases k <;> decide

theorem mem_unless {P : Prop} [Decidable P] (w x : Wait) : (w ∈ if P then [] else [x]) ↔ w = x ∧ ¬P := by
  split <;> simp [*]

/-- The conditions STARTING waits for. -/
theorem State.mem_startWaits (s : State) (w : Wait) : w ∈ s.startWaits ↔
    (w = .speed ∧ s.stu.speed ≠ .running) ∨ (w = .settle ∧ ∃ c, (s.pl.channels.get c).laser ≠ .settled) ∨
      (w = .stage ∧ s.es.stage ≠ .settled 0) ∨ (w = .gate ∧ s.tc.gate ≠ .clamped) := by
  simp only [State.startWaits, List.mem_append, mem_unless, Bool.not_eq_true, State.not_allSettled, or_assoc, ne_eq]

/-- The conditions PREPARING waits for. -/
theorem State.mem_preparingWaits {s : State} {e : ExposureRecord} (here : s.es.exposure = some e) (w : Wait) :
    w ∈ s.preparingWaits ↔
      (w = .filter ∧ ∃ c, s.es.wheels.get c ≠ ⟨some (s.pt.profiles[e.profile].channels.get c).range, none⟩) ∨
      (w = .film ∧ s.tc.gateUsed = true) ∨ (w = .stage ∧ s.es.stage ≠ .settled 0) ∨
      (w = .settle ∧ ∃ c, (s.pl.channels.get c).laser ≠ .settled) ∨
      (w = .trip ∧ ∃ c, (s.pl.channels.get c).window = .tripped) := by
  have film : (w ∈ if s.tc.gateUsed = true then [Wait.film] else []) ↔ w = .film ∧ s.tc.gateUsed = true := by
    split <;> simp [*]
  simp only [State.preparingWaits, List.mem_append, mem_unless, film, Bool.not_eq_true, State.not_wheelsReady here,
    State.not_allSettled, State.not_allClear, or_assoc, ne_eq]

/-- Whether the log has room, by its records and its reservation. -/
theorem State.logHasRoom_iff (s : State) : s.logHasRoom = true ↔
    s.rl.records.length + (if s.rl.reservation = none then 0 else 1) < 64 := by
  unfold State.logHasRoom RollLog.load
  rw [decide_eq_true_eq]
  cases s.rl.reservation <;> rfl

/-- The stage's timer expires in any engine state. -/
theorem State.stageExpired_moving {s : State} {l n : Nat} (moving : s.es.stage = .moving l (some n)) :
    s.stageExpired = if s.es.engine = .preparing ∧ l ≠ 0 then
      State.returnStage ((s.setStage (.moving l none)).raise (.stageTimeout l))
    else (s.setStage (.moving l none)).raise (.stageTimeout l) := by
  simp only [State.stageExpired, moving]

/-- Settles O43: the four expiries, and the wait reason of each engine state. -/
theorem timeoutsRaised : Obligations.TimeoutsRaised := by
  refine ⟨fun s before => ⟨?_, ?_, fun timed c => ?_, fun l n moving t raised => ⟨fun plain => ?_, fun preparing away => ?_⟩,
    fun rest => run_event before ?_ rfl rfl⟩, fun s => ?_⟩
  · by_cases timer : s.es.startTimer = none
    · exact (run_event before (if_neg (by simp [timer])) rfl rfl).trans (by rw [if_pos timer])
    · rw [if_neg timer]
      exact run_raises (f := .startTimeout s.waitReason) before (if_pos (Option.isSome_iff_ne_none.2 timer)) rfl rfl rfl
  · by_cases timer : s.es.pauseTimer = none
    · exact (run_event before (if_neg (by simp [timer])) rfl rfl).trans (by rw [if_pos timer])
    · rw [if_neg timer]
      exact run_raises (f := .pauseTimeout s.trippedSet) before (if_pos (Option.isSome_iff_ne_none.2 timer)) rfl rfl rfl
  · refine (runAfter_before timed FaultKind.mem_beforeWheel (fun t => t.wheelExpired c)).trans ?_
    cases move : (s.es.wheels.get c).move with
    | none => exact run_event before (by simp only [State.wheelExpired, move]) rfl rfl
    | some m =>
      refine run_raises (f := .filterTimeout c m.1) before (t := State.sends _ [.command (.wheelStop c)]) ?_ rfl rfl rfl
      simp only [State.wheelExpired, move]
      rfl
  · have still : ¬ (s.es.engine = .preparing ∧ l ≠ 0) := by tauto
    refine run_raises (f := .stageTimeout l) before ((s.stageExpired_moving moving).trans
      ((if_neg still).trans ?_)) ?_ rfl ?_
    · rw [raised]
      rfl
    · rw [raised]
    · rw [raised]
  · refine run_raises (f := .stageTimeout l) before ((s.stageExpired_moving moving).trans
      ((if_pos ⟨preparing, away⟩).trans ?_)) ?_ rfl ?_
    · rw [raised, State.returnStage_eq]
      rfl
    · rw [raised, State.sends_fu]
    · rw [raised, State.sends_staged]
  · unfold State.stageExpired
    split
    next l n moving => exact absurd moving (rest l n)
    · rfl
  · cases engine : s.es.engine
    case starting =>
      intro w
      simpa only [State.waitReason, engine] using s.mem_startWaits w
    case ready =>
      simp only [State.waitReason, engine, List.isEmpty_iff, State.logHasRoom_iff]
    case preparing =>
      intro e waits here conditions
      have listed (w : Wait) : w ∈ s.preparingWaits ↔ waits w := (State.mem_preparingWaits here w).trans (conditions w).symm
      have met : s.preparingWaits = [] ↔ ∀ w, ¬ waits w := by
        simp only [List.eq_nil_iff_forall_not_mem, listed]
      refine ⟨fun shutter => ?_, fun other ⟨w, waiting⟩ => ?_⟩
      · simp only [State.waitReason, engine, met, shutter, if_true]
      · have open_ : ¬ (s.tc.shutter = .opening ∨ s.preparingWaits = []) := by
          rw [met]
          exact not_or.2 ⟨other, fun none_ => none_ w waiting⟩
        simpa only [State.waitReason, engine, open_, if_false] using listed
    case exposing =>
      refine ⟨fun ⟨l, t, moving⟩ => ?_, fun rest => ?_⟩
      · simp [State.waitReason, engine, moving, Stage.isMoving]
      · cases stage : s.es.stage with
        | moving l t => exact absurd stage (rest l t)
        | _ => simp [State.waitReason, engine, stage, Stage.isMoving]
    all_goals simp [State.waitReason, engine]

end Sys2Proof.Machine
end

