-- ==== Sys2Proof/Proofs/Ends.lean ====
section
/-! PROOFS. How a frame, a blank advance and ABORTING end, and the entries to HALTED and LOCKED. -/

namespace Sys2Proof.Machine

/-! ### The ends of a frame -/

/-- The notice of a log that an append leaves nearly full. -/
def RollLog.nearlyFull (l : RollLog) : List Sent :=
  if 56 ≤ l.records.length + 1 then [.notice (.logNearlyFull (l.records.length + 1) false)] else []

/-- A frame no longer in hand: the exposure record and the line absent, the latches empty and the marks disowned. -/
def State.letsGo (s : State) : State := { s with
  es := { s.es with exposure := none, lineInProgress := none }
  du := { s.du with frameLatch := none, lineLatch := none, lineClips := Rgb.all ⟨0, 0⟩ }
  tc := s.tc.disowned }

theorem State.dropExposure_eq (s : State) : s.dropExposure = s.letsGo := State.disownMarks_eq _

/-- A spoiled frame: its record appended, its slot HELD, and its notice sent. -/
theorem State.spoilFrame_eq {s : State} {e : ExposureRecord} {r : SlotRecord} (here : s.es.exposure = some e)
    (there : s.slot e.slot = some r) (cause : Cause) : s.spoilFrame cause = State.sends { s.letsGo with
      fs := { s.fs with slots := s.fs.slots.set e.slot (some { r with phase := .held }) }
      rl := s.rl.append s.tc.footage (.spoiled (s.frameEntry e r) cause) }
      (s.rl.nearlyFull ++
        [.notice (.frameSpoiled e.slot r.key r.openSeq cause e.exposed (nextNumber s.rl.lastSeq))]) := by
  have kept (x : RollLog) (l : List Sent) : (State.sends { s with rl := x } l).setPhase e.slot .held =
      State.sends { s with
        fs := { s.fs with slots := s.fs.slots.set e.slot (some { r with phase := .held }) }
        rl := x } l := by
    rw [State.sends_eq, State.sends_eq]
    simp only [State.setPhase, State.slot] at there ⊢
    rw [there]
    rfl
  simp only [State.spoilFrame, here, there, State.append_eq]
  rw [kept, State.dropExposure_eq, State.sends_append, State.sends_notice, State.sends_nil]
  simp only [State.sends_eq, RollLog.nearlyFull]
  rfl

/-- A frame that goes back: its slot QUEUED at the head and its reservation released. -/
theorem State.returnFrame_eq {s : State} {e : ExposureRecord} {r : SlotRecord} (here : s.es.exposure = some e)
    (there : s.slot e.slot = some r) : s.returnFrame = { s.letsGo with
      fs := { s.fs with
        slots := s.fs.slots.set e.slot (some { r with phase := .queued })
        queue := e.slot :: s.fs.queue }
      rl := { s.rl with reservation := none } } := by
  simp only [State.returnFrame, here]
  rw [State.joinHead_eq there, State.dropExposure_eq]
  rfl

theorem State.spoilFrame_none {s : State} (absent : s.es.exposure = none) (cause : Cause) : s.spoilFrame cause = s := by
  simp [State.spoilFrame, absent]

theorem State.returnFrame_none {s : State} (absent : s.es.exposure = none) : s.returnFrame = s := by
  simp [State.returnFrame, absent]

/-- The end of the frame in hand changes neither the scan unit nor stop-pending. -/
theorem State.spoilFrame_stu (s : State) (cause : Cause) : (s.spoilFrame cause).stu = s.stu := by
  cases here : s.es.exposure with
  | none => rw [State.spoilFrame_none here]
  | some e =>
    cases there : s.slot e.slot with
    | none => simp [State.spoilFrame, here, there]
    | some r => simp [State.spoilFrame_eq here there, State.letsGo]

theorem State.spoilFrame_stopPending (s : State) (cause : Cause) :
    (s.spoilFrame cause).es.stopPending = s.es.stopPending := by
  cases here : s.es.exposure with
  | none => rw [State.spoilFrame_none here]
  | some e =>
    cases there : s.slot e.slot with
    | none => simp [State.spoilFrame, here, there, State.dropExposure_eq, State.letsGo, State.release]
    | some r => simp [State.spoilFrame_eq here there, State.letsGo]

/-! ### The end of a blank advance -/

theorem State.endBlankEarly_none {s : State} (absent : s.tc.blank = none) : s.endBlankEarly = s := by
  have kept : { s.tc with blank := none } = s.tc := by rw [← absent]
  rw [State.endBlankEarly, State.closeBlank_eq, State.logsBlank]
  simp only [absent]
  exact congrArg s.setTc kept

/-- A blank advance that ends early: its record, or its reservation released, unless that has been done. -/
theorem State.endBlankEarly_eq {s : State} {b : BlankAdvance} (here : s.tc.blank = some b) : s.endBlankEarly =
    if s.rl.reservation ≠ some .blank then { s with tc := { s.tc with blank := none } }
    else if b.completed = 0 then { s with
      tc := { s.tc with blank := none }, rl := { s.rl with reservation := none } }
    else State.sends { s with
      tc := { s.tc with blank := none }
      rl := s.rl.append b.start (.blank b.completed) } s.rl.nearlyFull := by
  rw [State.endBlankEarly, State.closeBlank_eq, State.logsBlank]
  simp only [here]
  split
  · rfl
  · split
    · rfl
    · simp only [State.dropBlank, State.setTc, State.sends_tc, RollLog.nearlyFull]
      rw [← State.sends_withTc]

/-! ### The end of ABORTING -/

/-- Settles O51: the append, the ends of a frame and of a blank advance, and where ABORTING leads. -/
theorem frameEnds : Obligations.FrameEnds := by
  refine ⟨fun n small => if_neg (by omega), rfl, fun l f b => rfl, fun s l distinct all => ?_,
    fun s e r t here there ended => ⟨rfl, fun cause => ?_, ?_⟩,
    fun s absent => ⟨State.spoilFrame_none absent, State.returnFrame_none absent⟩,
    fun s b here => State.endBlankEarly_eq here, fun s absent => State.endBlankEarly_none absent,
    fun s t r inHand spoiled => ⟨fun halt => ?_, fun abort => ?_⟩⟩
  · exact countP_toList_eq s.stu.facets (·.usable) l distinct all
  · rw [ended]
    exact State.spoilFrame_eq here there cause
  · rw [ended]
    exact State.returnFrame_eq here there
  · simp only [State.endAborting, inHand, halt, spoiled]
    rfl
  · have facets : t.usableFacets = s.usableFacets := by rw [spoiled, State.usableFacets, State.spoilFrame_stu]; rfl
    have pending : t.es.stopPending = s.es.stopPending := by rw [spoiled, State.spoilFrame_stopPending]
    simp only [State.endAborting, inHand, abort, if_true, ← spoiled, facets, pending, State.enterStopping_eq,
      State.enterReady_eq, Config.fewestFacets]

/-! ### The entries to HALTED and LOCKED -/

/-- A pending reply ends FAILED; that of an advance with the pull-downs it completed. -/
theorem State.failReply_short (s : State) (k : LongKind) (short : k ≠ .advance) (reason : Reason) (n : Nat) :
    s.failReply k reason n = s.ends k .failed reason .empty := by
  cases k with
  | advance => exact absurd rfl short
  | _ => exact s.endReply_eq_ends _ _ rfl rfl

theorem State.failReply_advance (s : State) (reason : Reason) (n : Nat) :
    s.failReply .advance reason n = s.ends .advance .failed reason (.advancedBefore n) :=
  s.endReply_eq_ends _ _ rfl rfl

/-- Settles O52: what is stopped, what ends, and what is answered. -/
theorem haltedAndLocked : Obligations.HaltedAndLocked := by
  intro s t u v r reason n why count halted stopped ended
  replace count : s.blankCompleted = n := count.symm
  refine ⟨?_, ?_⟩
  · have engine : t.es.engine = s.es.engine := by simp [halted, State.stopMechanisms_engine]
    unfold State.enterHalted
    simp only [State.setEngine_eq, ← halted, ← why, count, State.setInHand, State.setEs, engine,
      State.failReply_short _ .start (by decide), State.failReply_short _ .stop (by decide), State.failReply_advance]
  · have engine : u.es.engine = s.es.engine := by simp [stopped, State.stopMechanisms_engine]
    have left : (u.endFrameLocked (.fault r.report.kind)).endBlankEarly = v := by
      rw [ended, ← engine]
      unfold State.endFrameLocked
      split <;> rfl
    have there : v.es.engine = s.es.engine := by simp [← left, engine]
    unfold State.enterLocked
    simp only [State.setEs, ← stopped, left, State.setEngine_eq, ← why, count, there,
      State.failReply_short _ .start (by decide), State.failReply_short _ .stop (by decide), State.failReply_advance,
      State.failReply_short _ .reset (by decide), State.ends_fu, State.sends_fu]
    rfl

end Sys2Proof.Machine
end

