-- ==== Sys2Proof/Proofs/Takes.lean ====
section
/-! PROOFS. The Fault Unit's take, which fault is next, and the order of takes and commands. -/

namespace Sys2Proof.Machine

/-! ### One take -/

/-- The fault recorded, counted and announced. -/
theorem State.announced_eq (s : State) (f : FaultReport) : s.announced f = State.sends { s with fu := { s.fu with
      lastFault := some (s.faultRecord f)
      counts := s.fu.counts.set f.kind.index (min 65535 (s.fu.counts[f.kind.index] + 1)) } }
      (if s.es.engine = .locked then [] else [.notice (.fault (s.faultRecord f))]) := by
  have engine : (s.faultRecord f).engine = s.es.engine := rfl
  have report : (s.faultRecord f).report = f := rfl
  simp only [State.announced, State.announceFault, State.recordFault, saturate_eq_min, engine, report]
  split <;> rfl

/-- The transition of the response applied, from a state announced in the same engine state. -/
theorem State.direct_eq {s : State} {r : FaultRecord} (engine : r.engine = s.es.engine) :
    s.direct r = match r.applied with
      | .notice => s
      | .hold => s
      | .record => s
      | .pause => s.pauses
      | .abort => s.aborts r
      | .halt => if s.es.engine = .exposing ∨ s.es.engine = .paused then s.aborts r else s.enterHalted r
      | .defer => { s with es := { s.es with deferredHalt := some (s.es.deferredHalt.getD r) } }
      | .lock => s.enterLocked r := by
  have kept (x : FaultRecord) (set : s.es.deferredHalt = some x) :
      s = { s with es := { s.es with deferredHalt := some x } } := by rw [← set]
  unfold State.direct
  cases r.applied with
  | pause => exact State.enterPaused_eq s
  | abort => exact State.enterAborting_eq s r
  | halt => simp only [State.applyHalt, engine, State.enterAborting_eq]
  | defer =>
    cases set : s.es.deferredHalt with
    | none => simp only [State.deferHalt, set, State.setEs, Option.getD_none]
    | some x =>
      simp only [State.deferHalt, set, Option.getD_some]
      exact kept x set
  | _ => rfl

/-! ### The channel of a fault -/

theorem Rgb.firstSet_iff (v : Rgb Bool) (c : Channel) : v.firstSet = some c ↔
    v.get c = true ∧ ∀ d, channelNumber d < channelNumber c → v.get d = false := by
  obtain ⟨r, g, b⟩ := v
  rw [Channel.forall_iff]
  cases c <;> cases r <;> cases g <;> cases b <;> simp [Rgb.firstSet, Rgb.get, channelNumber]

/-! ### The next fault -/

theorem FaultKind.ofSample_iff (k : FaultKind) : k.ofSample = true ↔ k ∈ [FaultKind.powerTrip, .trimLimit] := by
  cases k <;> decide

theorem FaultKind.takenAtOnce_iff (k : FaultKind) : k.takenAtOnce = true ↔
    k ∈ [FaultKind.facetShortage, .operator, .shutter, .transport, .filmEnd] := by
  cases k <;> decide

/-- The image portion of the line driven. -/
theorem State.driveLine_eq (s : State) : s.driveLine = s.drivesImage := by
  unfold State.driveLine State.drivesImage
  cases s.drivenAttempt <;> rfl

/-- The faults that may be taken next, by what they follow. -/
theorem nextFaults_eq (l : List FaultReport) : nextFaults l = l.filter (fun f =>
      (f.kind = .operator ∨ ∀ g ∈ l, g.kind ≠ .operator) ∧
      (f.kind = .trimLimit → ∀ g ∈ l, g.kind ≠ .powerTrip) ∧
      (f.kind = .sosLoss → ∀ g ∈ l, g.kind ≠ .facetShortage)) := by
  refine List.filter_congr fun f _ => ?_
  rw [Bool.eq_iff_iff, decide_eq_true_eq, List.all_eq_true]
  simp only [Bool.not_eq_true', FaultKind.follows_eq_false]
  refine ⟨fun h => ⟨?_, fun trim g here => (h g here).2.1 trim, fun loss g here => (h g here).2.2 loss⟩, fun h g here =>
    ⟨fun operator => ?_, fun trim => h.2.1 trim g here, fun loss => h.2.2 loss g here⟩⟩
  · by_cases operator : f.kind = .operator
    · exact .inl operator
    · exact .inr fun g here same => operator ((h g here).1 same)
  · exact h.1.resolve_right fun none_ => none_ g here operator

/-- A fault taken in turn leaves the others raised. -/
theorem State.takeInTurn_raised (s : State) (f : FaultReport) : (s.takeInTurn f).fu.raised = s.fu.raised := by
  unfold State.takeInTurn
  rw [(State.takeEvent_apart _ f).1]
  split <;> rfl

/-- The take of the fault chosen. -/
theorem State.takeOne_some {s : State} {f : FaultReport} (chosen : chooseFault s.fu.choices s.fu.raised = some f)
    (take : State → FaultReport → State) : s.takeOne take = take { s with fu := { s.fu with
      raised := s.fu.raised.erase f
      choices := countChoice s.fu.choices s.fu.raised } } f := by
  unfold State.takeOne
  rw [chosen]
  rfl

/-- While a fault due on the event is left, the event goes on with a take. -/
theorem State.concluded_takeOne {s : State}
    (due : ∃ g ∈ s.fu.raised, g.kind ∈ [FaultKind.facetShortage, .operator, .shutter, .transport, .filmEnd]) :
    s.concluded = (s.takeOne State.takeInTurn).concluded := by
  obtain ⟨g, here, kind⟩ := due
  exact congrArg State.flush
    (s.taking_next _ _ State.takeInTurn_raised ⟨g, here, (FaultKind.takenAtOnce_iff _).2 kind⟩)

/-- Where a fault must be taken before a command, the command is the one after FAULT_TAKE. -/
theorem State.settledFor_takeOne {s : State} (must : FaultKind → Bool) (due : ∃ g ∈ s.fu.raised, must g.kind = true) :
    s.settledFor must = (s.takeOne State.takeEvent).settledFor must :=
  s.taking_next must State.takeEvent (fun t f => (State.takeEvent_apart t f).1) due

theorem runAfter_takeOne {s t : State} {must : FaultKind → Bool} (taken : s.takeOne State.takeEvent = t)
    (due : ∃ g ∈ s.fu.raised, must g.kind = true) (effect : State → State) :
    runAfter must s effect = runAfter must t effect := by
  rw [runAfter, runAfter, State.settledFor_takeOne must due, taken]

/-- The kinds that a command has taken before it, as a list. -/
theorem due_of_mem {s : State} {must : FaultKind → Bool} {first : List FaultKind}
    (due : ∃ g ∈ s.fu.raised, g.kind ∈ first) (kinds : ∀ k ∈ first, must k = true) :
    ∃ g ∈ s.fu.raised, must g.kind = true :=
  due.imp fun _ h => ⟨h.1, kinds _ h.2⟩

/-- Settles O53: the take, the channel and the facet of a record, the next fault, and the takes before a command. -/
theorem faultTaken : Obligations.FaultTaken := by
  refine ⟨fun s t f r record told => ?_, fun f c => ?_, fun f n => ?_, fun s t ready n f able place next taken u v event => ?_,
    fun s => ⟨fun none_ => ?_, fun later => s.concluded_later later, rfl⟩, fun s t first step due => ?_⟩
  · have same : s.faultRecord f = r := record.symm
    have announced : s.announced f = t := by rw [State.announced_eq, same, told]
    have es : t.es = s.es := by rw [told, State.sends_es]
    have engine : r.engine = t.es.engine := by rw [record, es]
    rw [State.takeFault_eq, announced, same, State.direct_eq engine]
    simp only [es] <;> rfl
  · cases f with
    | powerTrip set _ _ => exact Rgb.firstSet_iff set c
    | trimLimit set _ _ => exact Rgb.firstSet_iff set c
    | pauseTimeout set => exact Rgb.firstSet_iff set c
    | filterTimeout d _ => simp [FaultReport.channel, eq_comm]
    | _ => simp [FaultReport.channel]
  · cases f <;> simp [FaultReport.facet, eq_comm]
  · have ready_eq : nextFaults s.fu.raised = ready := by rw [able, nextFaults_eq]
    have chosen : chooseFault s.fu.choices s.fu.raised = some f := by rw [chooseFault_eq, ready_eq, ← place, next]
    have left (take : State → FaultReport → State) : s.takeOne take = take t f := by
      rw [State.takeOne_some chosen, taken, countChoice, ready_eq]
    have ends : v = u.takeEvent f := by
      rw [event, State.takeEvent, State.driveAfter]
      by_cases sample : f.kind.ofSample = true
      · rw [if_pos sample, if_pos ((FaultKind.ofSample_iff _).1 sample), State.driveLine_eq]
      · rw [if_neg sample, if_neg fun h => sample ((FaultKind.ofSample_iff _).2 h)]
    refine ⟨fun same => ?_, fun same due => ?_⟩
    · exact congrArg Host.Outcome.next ((left _).trans (by rw [ends, same]))
    · have turn : t.takeInTurn f = v := by
        rw [ends, same, State.takeInTurn]
        by_cases atOnce : f.kind.takenAtOnce = true
        · rw [if_pos atOnce, if_pos ((FaultKind.takenAtOnce_iff _).1 atOnce)]
        · rw [if_neg atOnce, if_neg fun h => atOnce ((FaultKind.takenAtOnce_iff _).2 h)]
      rw [State.concluded_takeOne due, left, turn]
  · rcases s.takeOne_cases State.takeEvent with ⟨-, same⟩ | ⟨f, chosen, -⟩
    · exact congrArg Host.Outcome.next same
    · rw [none_] at chosen
      cases chosen
  · have taken : s.takeOne State.takeEvent = t := Host.Outcome.next.inj step
    refine ⟨?_, ?_, ?_, ?_, ?_⟩
    · rintro rfl
      have must := due_of_mem (must := FaultKind.ofSample) due (by decide)
      exact ⟨fun n => runAfter_takeOne taken must (fun t => (t.elapse n).takeEos), runAfter_takeOne taken must _⟩
    · rintro rfl
      have must := due_of_mem (must := FaultKind.beforeStart) due (by decide)
      exact ⟨fun c => runAfter_takeOne taken must (fun t => t.settleChannel c), runAfter_takeOne taken must _,
        runAfter_takeOne taken must _⟩
    · rintro rfl n
      exact runAfter_takeOne taken (due_of_mem (must := FaultKind.beforeSos) due (by decide))
        (fun t => (t.elapse n).takeSos)
    · rintro rfl x
      have must := State.settledFor_takeOne _ (due_of_mem (must := FaultKind.beforeSample) due (by decide))
      exact congrArg (fun u : State => if u.sampleDue then
        if (u.takeSample x).attemptInRange then Host.Outcome.next (u.takeSample x).driveLine.concluded
        else (.fault .imagePosition : Host.Outcome State Fault Refusal)
        else .next u.concluded) (must.trans (by rw [taken]))
    · rintro rfl c
      exact runAfter_takeOne taken (due_of_mem (must := FaultKind.beforeWheel) due (by decide))
        (fun t => t.wheelExpired c)

end Sys2Proof.Machine
end

