-- ==== Sys2Proof/Proofs/Confirmations.lean ====
section
/-! PROOFS. The failures and the settling of the gate, and the confirmations of the shutter. -/

namespace Sys2Proof.Machine

/-! ### The gate fails -/

theorem State.logsBlank_fu (s : State) : s.logsBlank.fu = s.fu := by
  rw [← State.closeBlank_eq]
  simp

/-- A gate operation that fails: its drives stopped, the log's part of a blank advance, and its fault raised. -/
theorem State.failGate_eq {s : State} {op : GateOp} (running : s.tc.op = some op) (outcome : GateOutcome)
    (report : GateOp → FaultReport) : s.failGate outcome report =
      { (State.sends { s with tc := s.tc.failing op outcome } [.command .transportStop]).logsBlank with
        fu := { s.fu with raised := s.fu.raised ++ [report op] } } := by
  have fu : (State.sends { s with tc := s.tc.failing op outcome } [.command .transportStop]).logsBlank.fu = s.fu := by
    rw [State.logsBlank_fu, State.sends_fu]
  simp only [State.failGate, running, Transport.fail_eq_failing, State.closeBlank_eq]
  exact congrArg (fun x : FaultUnit =>
    { (State.sends { s with tc := s.tc.failing op outcome } [.command .transportStop]).logsBlank with
      fu := { x with raised := x.raised ++ [report op] } }) fu

/-- The end of an event that raises one fault, due on it: with no other raised, it is taken. -/
theorem State.concluded_alone {s t : State} {f : FaultReport} (fu : t.fu = s.fu) (alone : s.fu.raised = [])
    (due : f.kind.takenAtOnce = true) :
    State.concluded { t with fu := { s.fu with raised := s.fu.raised ++ [f] } } = (t.takeFault f).flush := by
  have same : { t with fu := { s.fu with raised := [] } } = t := by rw [← alone, ← fu]
  rw [State.concluded_once _ f (by simp [alone]) due]
  exact congrArg (fun x => (State.takeFault x f).flush) same

/-- Settles O47: the failures of the gate and of the shutter, each taken on its event. -/
theorem gateAndShutterFail : Obligations.GateAndShutterFail := by
  refine fun s before => ⟨fun op c outcome f t running why failed => ?_, fun idle => run_event before (if_neg ?_) rfl rfl,
    fun idle => run_event before (if_neg ?_) rfl rfl, fun timed way t moving failed => ?_⟩
  · have fu : t.fu = s.fu := by rw [failed, State.logsBlank_fu, State.sends_fu]
    have ends : exec c s = .next (State.concluded { t with fu := { s.fu with raised := s.fu.raised ++ [f] } }) ∧
        f.kind.takenAtOnce = true := by
      rcases why with ⟨rfl, pulling, count, rfl, rfl⟩ | ⟨rfl, clamping, rfl, rfl⟩ | ⟨rfl, timed, rfl, rfl⟩
      · refine ⟨congrArg (fun x => Host.Outcome.next (State.concluded x)) ((if_pos pulling).trans ((if_neg count).trans
          ((State.failGate_eq running _ _).trans ?_))), rfl⟩
        rw [State.transportFault, pulling, failed]
      · refine ⟨congrArg (fun x => Host.Outcome.next (State.concluded x)) ((if_pos clamping).trans
          ((if_neg Bool.false_ne_true).trans ((State.failGate_eq running _ _).trans ?_))), rfl⟩
        rw [failed]
      · refine ⟨congrArg (fun x => Host.Outcome.next (State.concluded x)) ((if_pos (Option.isSome_iff_ne_none.2 timed)).trans
          ((State.failGate_eq running _ _).trans ?_)), rfl⟩
        rw [State.transportFault, failed]
    exact ⟨ends.1, fun alone => by rw [ends.1, State.concluded_alone fu alone ends.2]⟩
  · simp [idle]
  · simp [idle]
  · have raises : s.shutterExpired = { t with fu := { s.fu with raised := s.fu.raised ++ [.shutter way] } } := by
      refine (if_pos (Option.isSome_iff_ne_none.2 timed)).trans ?_
      rcases moving with ⟨shutter, rfl⟩ | ⟨shutter, rfl⟩ <;> rw [failed, shutter] <;> rfl
    have ends : exec .shutterTimerExpiry s = .next (State.concluded
        { t with fu := { s.fu with raised := s.fu.raised ++ [.shutter way] } }) :=
      congrArg (fun x => Host.Outcome.next (State.concluded x)) raises
    exact ⟨ends, fun alone => by rw [ends, State.concluded_alone (by rw [failed]) alone rfl]⟩

/-! ### The gate settles -/

theorem State.endAdvancing_eq (s : State) : s.endAdvancing = s.leavesAdvancing := by
  unfold State.endAdvancing State.leavesAdvancing
  cases s.es.deferredHalt with
  | some r => rfl
  | none => exact ite_congr rfl (fun _ => s.enterStopping_eq) (fun _ => s.enterReady_eq)

theorem State.endAdvancing_apart (s : State) : s.Apart s.endAdvancing := by
  unfold State.endAdvancing
  split
  · exact State.enterHalted_apart _ _
  · split
    · exact State.enterStopping_apart _
    · exact State.entersReady_apart _

/-- A pull-down that is completed. -/
def Transport.pulled (t : Transport) : Transport := { t with
  gate := .clamped, op := none, opTimer := none, settleTimer := none
  footage := t.footage.advance
  gateUsed := false
  last := some ⟨.completed, .pullDown, 4⟩
  completedTotal := min 4294967295 (t.completedTotal + 1) }

theorem Transport.completePullDown_eq (t : Transport) : t.completePullDown = t.pulled := by
  rw [Transport.completePullDown, saturate_eq_min]
  rfl

/-- The last pull-down of a blank advance: its record, its reply, and the end of ADVANCING. -/
theorem State.endBlank_eq (s : State) (b : BlankAdvance) : s.endBlank b =
    ((State.sends { s with
      rl := s.rl.append b.start (.blank b.completed)
      tc := { s.tc with blank := none } } s.rl.nearlyFull).ends .advance .done .none_
        (.advanced b.completed s.tc.footage)).leavesAdvancing := by
  have dropped : (s.append b.start (.blank b.completed)).dropBlank = State.sends { s with
      rl := s.rl.append b.start (.blank b.completed)
      tc := { s.tc with blank := none } } s.rl.nearlyFull := by
    rw [State.append_eq, State.dropBlank, State.setTc, State.sends_tc, ← State.sends_withTc]
    rfl
  unfold State.endBlank
  dsimp only
  rw [dropped, State.endReply_eq_ends _ _ _ rfl rfl, State.endAdvancing_eq, State.sends_tc]

/-- Settles O48: the end of a clamp, and of a pull-down by the engine state and the blank advance. -/
theorem gateSettles : Obligations.GateSettles := by
  intro s timed
  have before : s.Before [] := ⟨fun f here => ⟨(timed.raised f here).1, nofun⟩, timed.staged⟩
  have event : exec .gateSettleExpiry s = run s State.gateSettled := runAfter_before timed FaultKind.mem_beforeStart _
  rw [event]
  refine ⟨fun other => run_event before (if_neg ?_) rfl rfl, fun settling timer => ?_⟩
  · rw [Option.isSome_iff_ne_none]
    tauto
  have due : s.tc.gate = .settling ∧ s.tc.settleTimer.isSome = true := ⟨settling, Option.isSome_iff_ne_none.2 timer⟩
  refine ⟨fun clamp => ?_, fun pull t pulled => ?_⟩
  · refine run_later before ((if_pos due).trans ?_) (State.meetsStart_raised _)
    rw [clamp]
    exact State.checkStarting_eq _
  replace pulled : t = { s with tc := s.tc.pulled } := pulled
  have settled : s.gateSettled = t.pulledDown := by
    refine (if_pos due).trans ?_
    rw [pull, pulled, ← Transport.completePullDown_eq]
    rfl
  have engine : t.es.engine = s.es.engine := by rw [pulled]
  have blank : t.tc.blank = s.tc.blank := by rw [pulled]; rfl
  have raised : t.fu.raised = s.fu.raised := by rw [pulled]
  have staged : t.staged = s.staged := by rw [pulled]
  refine ⟨fun other => run_event before (settled.trans ?_) ?_ ?_, fun advancing => ⟨fun absent => ?_, fun b here =>
    ⟨fun more => ?_, fun last => ?_⟩⟩⟩
  · exact (if_neg (by rwa [engine])).trans (State.checkPreparing_eq _)
  · rw [State.meetsPreparing_fu, raised]
  · rw [State.meetsPreparing_staged, staged]
  · have left : t.pulledDown = t.leavesAdvancing := by
      refine (if_pos (engine.trans advancing)).trans ?_
      rw [blank, absent]
      exact State.endAdvancing_eq t
    refine run_later before (settled.trans left) ?_
    rw [← State.endAdvancing_eq, (State.endAdvancing_apart t).1, raised]
  · have next : t.pulledDown = State.sends { t with tc := { t.tc.pulling with
        blank := some { b with completed := b.completed + 1 } } } [.command .clampOpen] := by
      refine (if_pos (engine.trans advancing)).trans ?_
      rw [blank, here]
      refine (if_pos more).trans ?_
      rw [State.pullDown_eq]
      simp only [State.setTc, Transport.pulling_blank]
      rw [pulled]
      rfl
    exact run_event before (settled.trans next) (by rw [State.sends_fu, raised]) (by rw [State.sends_staged, staged])
  · have end_ : t.pulledDown = t.endBlank { b with completed := b.completed + 1 } := by
      refine (if_pos (engine.trans advancing)).trans ?_
      rw [blank, here]
      exact if_neg (Nat.not_lt.2 last)
    have apart : (t.endBlank { b with completed := b.completed + 1 }).fu.raised = t.fu.raised := by
      rw [State.endBlank_eq, ← State.endAdvancing_eq, (State.endAdvancing_apart _).1, State.ends_fu, State.sends_fu]
    refine (run_later before (settled.trans end_) (apart.trans raised)).trans ?_
    rw [State.endBlank_eq, pulled]
    rfl

/-! ### The shutter's confirmations -/

/-- The digits of a mark are those of the feet and of the frames. -/
theorem Footage.digits_eq (f : Footage) : f.digits = [f.feet / 1000, f.feet / 100 % 10, f.feet / 10 % 10, f.feet % 10,
    f.frames / 10, f.frames % 10].map (fun d => BitVec.ofNat 8 (0x30 + d)) := by
  obtain ⟨⟨a, ha⟩, ⟨b, hb⟩, ⟨c, hc⟩, ⟨d, hd⟩, ⟨x, hx⟩, ⟨y, hy⟩⟩ := f
  simp only [Footage.digits, Footage.feet, Footage.frames, Digit.code, List.map_cons, List.map_nil]
  rw [show (1000 * a + 100 * b + 10 * c + d) / 1000 = a by omega,
    show (1000 * a + 100 * b + 10 * c + d) / 100 % 10 = b by omega,
    show (1000 * a + 100 * b + 10 * c + d) / 10 % 10 = c by omega,
    show (1000 * a + 100 * b + 10 * c + d) % 10 = d by omega, show (10 * x + y) / 10 = x by omega,
    show (10 * x + y) % 10 = y by omega]

/-- Whether a POWER_TRIP waits. -/
theorem State.tripWaits_eq_false (s : State) : s.tripWaits = false ↔ ∀ f ∈ s.fu.raised, f.kind ≠ .powerTrip := by
  simp [State.tripWaits]

/-- Exposure begins: the frame mark, the entry to EXPOSING, and PAUSED for a channel that tripped meanwhile. -/
theorem State.beginExposing_eq {s : State} {e : ExposureRecord} {r : SlotRecord} (here : s.es.exposure = some e)
    (there : s.slot e.slot = some r) : s.beginExposing =
      (State.sends { s with
        tc := s.tc.marking (frameMark r.label s.tc.footage)
        es := { s.es with engine := .exposing } }
        (s.tc.markCommand (frameMark r.label s.tc.footage) ++ engineMoves s.es.engine .exposing none ++
          [.notice (.frameStarted e.slot r.key r.openSeq s.tc.footage)])).pauseIfTripped := by
  simp only [State.beginExposing, here, there]
  rw [State.print_eq, State.setEngine_sends, State.notice_sends, ← here]

theorem State.pauseIfTripped_eq (s : State) : s.pauseIfTripped =
    if s.allClear = false ∧ s.assigned .powerTrip = .pause ∧ (∀ f ∈ s.fu.raised, f.kind ≠ .powerTrip)
    then s.pauses else s := by
  unfold State.pauseIfTripped
  rw [State.enterPaused_eq]
  exact if_congr (by rw [State.tripWaits_eq_false]) rfl rfl

/-- FINISHING's frame: logged, its slot FREE, and its pull-down begun in ADVANCING. -/
theorem State.finishFrame_eq {s : State} {e : ExposureRecord} {r : SlotRecord} {q : Profile}
    (here : s.es.exposure = some e) (there : s.slot e.slot = some r)
    (lowered : q = { s.pt.profiles[r.profile] with refs := s.pt.profiles[r.profile].refs - 1 }) : s.finishFrame =
      State.sends { s with
        fs := { s.fs with slots := s.fs.slots.set e.slot none }
        pt := ⟨s.pt.profiles.set r.profile q⟩
        du := { s.du with frameLatch := none, lineLatch := none, lineClips := Rgb.all ⟨0, 0⟩ }
        es := { s.es with engine := .advancing, exposure := none, lineInProgress := none }
        tc := s.tc.disowned.pulling
        rl := s.rl.append s.tc.footage (.exposed (s.frameEntry e r)) }
        (s.rl.nearlyFull ++ [.notice (.frameDone e.slot r.key e.exposed e.defects (nextNumber s.rl.lastSeq))] ++
          engineMoves s.es.engine .advancing none ++ s.tc.pullCommand) := by
  have there' (x : RollLog) (l : List Sent) : (State.sends { s with rl := x } l).slot e.slot = some r := by
    simpa [State.slot] using there
  have freed (x : RollLog) (l : List Sent) : ((State.sends { s with rl := x } l).freeSlot e.slot).dropExposure =
      State.sends { s.letsGo with
        fs := { s.fs with slots := s.fs.slots.set e.slot none }
        pt := ⟨s.pt.profiles.set r.profile q⟩
        rl := x } l := by
    rw [State.freeSlot_eq (there' x l), State.dropExposure_eq, State.sends_eq, State.sends_eq, lowered]
    rfl
  simp only [State.finishFrame, here, there, State.append_eq, State.sends_rl]
  rw [freed, State.notice_sends, State.setEngine_sends, State.pullDown_sends]
  rfl

/-- Settles O49: the open and the closed confirmation, by engine state. -/
theorem shutterConfirms : Obligations.ShutterConfirms := by
  refine ⟨fun l f digits written => ⟨?_, ?_⟩, fun s before => ⟨fun other => run_event before (if_neg other) rfl rfl,
    fun opening t opened => ⟨fun other => run_event before ?_ ?_ ?_, fun e r preparing here there u begun => ?_⟩,
    fun other => run_event before (if_neg other) rfl rfl, fun closing t closed => ?_⟩⟩
  · rw [frameMark, Footage.digits_eq, written]
  · rw [spoilMark, Footage.digits_eq, written]
    rfl
  · rw [opened]
    exact (if_pos opening).trans (if_neg other)
  · rw [opened]
  · rw [opened]
  · have begins : s.shutterOpened = u.pauseIfTripped := by
      have begins : s.shutterOpened = t.beginExposing := by
        rw [opened]
        exact (if_pos opening).trans (if_pos preparing)
      rw [begins, State.beginExposing_eq (s := t) (e := e) (r := r) (by rw [opened]; exact here)
        (by rw [opened]; exact there), begun, opened]
      simp only [preparing, engineMoves_dark (previous := .preparing) (by decide), List.append_assoc]
      rfl
    have pl : u.pl = s.pl := by rw [begun, State.sends_pl, opened]
    have fu : u.fu = s.fu := by rw [begun, State.sends_fu, opened]
    have staged : u.staged = s.staged := by rw [begun, State.sends_staged, opened]
    have same : u.pauseIfTripped = if s.allClear = false ∧ s.assigned .powerTrip = .pause ∧
        (∀ f ∈ s.fu.raised, f.kind ≠ .powerTrip) then u.pauses else u := by
      rw [State.pauseIfTripped_eq, State.allClear, State.allClear, State.assigned, State.assigned, pl, fu]
    refine run_event before (begins.trans same) ?_ ?_
    · split
      · rw [State.pauses, State.sends_fu, fu]
      · rw [fu]
    · split
      · rw [State.pauses, State.sends_staged, staged]
      · rw [staged]
  · have confirmed : s.shutterClosed = t.onClosed := by
      rw [closed]
      exact if_pos closing
    have es : t.es = s.es := by rw [closed]
    have raised : t.fu.raised = s.fu.raised := by rw [closed]
    have staged : t.staged = s.staged := by rw [closed]
    refine ⟨fun other away => run_event before (confirmed.trans ?_) ?_ ?_, fun e r q finishing here there lowered =>
      run_event before (confirmed.trans ?_) ?_ ?_, fun e aborting here => ⟨fun marked =>
        run_event before (confirmed.trans ?_) ?_ ?_, fun unmarked => run_later before (confirmed.trans ?_) ?_⟩⟩
    · have other' : t.es.engine ≠ .finishing := by rwa [es]
      have away' : t.es.engine ≠ .aborting := by rwa [es]
      unfold State.onClosed
      split
      · contradiction
      · contradiction
      · exact State.checkPreparing_eq t
    · rw [State.meetsPreparing_fu, raised]
    · rw [State.meetsPreparing_staged, staged]
    · have pt : t.pt = s.pt := by rw [closed]
      have finished := State.finishFrame_eq (s := t) (e := e) (r := r) (q := q) (by rw [es, here]) (by rw [closed]; exact there)
        (by rw [pt, lowered])
      have begins : t.onClosed = t.finishFrame := by simp only [State.onClosed, es, finishing]
      rw [begins, finished, es, finishing, engineMoves_dark (previous := .finishing) (by decide), closed]
      simp only [List.append_assoc]
      rfl
    · rw [State.sends_fu, raised]
    · rw [State.sends_staged, staged]
    · simp only [State.onClosed, State.abortingClosed, State.markPrinted, es, aborting, here, marked, if_true]
      rw [State.print_eq, closed]
      rfl
    · rw [State.sends_fu, raised]
    · rw [State.sends_staged, staged]
    · simp [State.onClosed, State.abortingClosed, State.markPrinted, es, aborting, here, unmarked]
    · rw [(State.endAborting_apart t).1, raised]

end Sys2Proof.Machine
end

