-- ==== Sys2Proof/Proofs/Scans.lean ====
section
/-! PROOFS. The scan events: the scan end and the judgement of a facet, the SOS, the EOS, the index pulse and the watch. -/

namespace Sys2Proof.Machine

/-! ### The scan end -/

theorem State.enterFinishing_eq (s : State) : s.enterFinishing =
    State.sends { s with es := { s.es with engine := .finishing }, tc := s.tc.shutting }
      (s.tc.shutCommand ++ engineMoves s.es.engine .finishing none) := by
  rw [State.enterFinishing, State.closeShutter_eq, State.setEngine_sends]

theorem State.heightOf_eq {s : State} {i : Fin 4} {r : SlotRecord} (here : s.slot i = some r) : s.heightOf i = r.height := by
  simp [State.heightOf, here]

theorem Clips.add_eq (c d : Clips) :
    Clips.add c d = ⟨min 4294967295 (c.high + d.high), min 4294967295 (c.low + d.low)⟩ := by
  rw [Clips.add, saturate_eq_min, saturate_eq_min]

/-- A scan end on a facet with no line in progress on it changes nothing. -/
theorem State.scanEnd_other {s : State} {f : Fin 8} (other : s.es.engine ≠ .exposing ∨ s.es.lineInProgress ≠ some f)
    (o : ScanOutcome) : s.scanEnd f o = s := by
  have elsewhere : ¬ (s.es.engine = .exposing ∧ s.es.lineInProgress = some f) := by tauto
  unfold State.scanEnd
  split
  · rfl
  · exact if_neg elsewhere

theorem State.countLine_fu (s : State) (e : ExposureRecord) (o : ScanOutcome) : (s.countLine e o).fu = s.fu := by
  unfold State.countLine
  dsimp only
  split
  · simp [State.stepStage, State.emptyLineLatch]
  · rw [State.enterFinishing_eq, State.sends_fu]
    rfl

theorem State.countLine_staged (s : State) (e : ExposureRecord) (o : ScanOutcome) : (s.countLine e o).staged = s.staged := by
  unfold State.countLine
  dsimp only
  split
  · simp [State.stepStage, State.emptyLineLatch]
  · rw [State.enterFinishing_eq, State.sends_staged]
    rfl

/-- A scan end raises no fault and stages no reply. -/
theorem State.scanEnd_fu (s : State) (f : Fin 8) (o : ScanOutcome) : (s.scanEnd f o).fu = s.fu := by
  unfold State.scanEnd
  split
  · rfl
  · split
    · exact State.countLine_fu ..
    · rfl

theorem State.scanEnd_staged (s : State) (f : Fin 8) (o : ScanOutcome) : (s.scanEnd f o).staged = s.staged := by
  unfold State.scanEnd
  split
  · rfl
  · split
    · exact State.countLine_staged ..
    · rfl

/-- The judgement of a scan that fails: the run of a USABLE facet, or its exclusion. -/
theorem Facet.bad_eq (e : Facet) : e.bad =
    if e.usable = false then e
    else if 3 ≤ e.run + 1 then { e with usable := false, run := 3 } else { e with run := e.run + 1 } := by
  unfold Facet.bad Facet.excludes
  cases e.usable with
  | false => rfl
  | true => by_cases excluded : 3 ≤ e.run + 1 <;> simp [Config.excludeRun, excluded]

theorem State.badScan_eq (s : State) (f : Fin 8) (o : ScanOutcome) : s.badScan f o = s.failsScan f o := by
  have excludes : (s.stu.facets[f].excludes = true) = (s.stu.facets[f].usable = true ∧ 3 ≤ s.stu.facets[f].run + 1) := by
    simp [Facet.excludes, Config.excludeRun]
  unfold State.badScan State.failsScan
  dsimp only
  rw [← Facet.bad_eq, State.announceExclusion]
  refine ite_congr excludes (fun _ => ?_) (fun _ => rfl)
  exact ite_congr rfl (fun _ => rfl) (fun _ => rfl)

theorem State.endMissed_armed {s : State} (armed : s.stu.measurement = .armed) : s.endMissed = s := by
  simp only [State.endMissed, armed]

/-- Settles O37: the line counted at a scan end, and the scan that is still timed. -/
theorem scanEnds : Obligations.ScanEnds := by
  refine ⟨fun s f o => ⟨fun other => State.scanEnd_other other o, fun e d r exposing line here there counted => ?_⟩,
    Clips.add_eq, fun s l distinct all => countP_toList_eq s.stu.facets (·.usable) l distinct all,
    fun s => ⟨State.endMissed_armed, fun f n p timing => ?_, fun f n p timing => ?_⟩⟩
  · have ends : s.scanEnd f o = s.countLine e o := by
      simp only [State.scanEnd, here]
      exact if_pos ⟨exposing, line⟩
    have count : e.count o s.du.lineClips = d := counted.symm
    have same : d.line = e.line ∧ d.slot = e.slot := by rw [counted]; exact ⟨rfl, rfl⟩
    unfold State.countLine at ends
    dsimp only at ends
    rw [count, same.1, State.heightOf_eq (i := d.slot) (by rw [same.2]; exact there)] at ends
    rw [ends]
    refine ite_congr rfl (fun _ => rfl) (fun _ => ?_)
    rw [State.enterFinishing_eq, ← exposing]
    rfl
  · simp only [State.endMissed, timing, if_true]
    rfl
  · simp only [State.endMissed, timing, Bool.false_eq_true, if_false, State.badScan_eq, saturate_eq_min]
    rfl

/-! ### The EOS -/

theorem FaultKind.mem_ofSample (k : FaultKind) (h : k.ofSample = true) : k ∈ [FaultKind.powerTrip, .trimLimit] :=
  k.ofSample_iff.1 h

/-- The measurement goes on with the ticks that pass. -/
theorem State.elapse_timing {s : State} {f : Fin 8} {n p : Nat} {slipped : Bool}
    (timing : s.stu.measurement = .timing f n slipped p) (ticks : Nat) :
    (s.elapse ticks).stu.measurement = .timing f (n + ticks) slipped p := by
  simp [State.elapse, Measurement.elapse, timing]

theorem State.elapse_armed {s : State} (armed : s.stu.measurement = .armed) (ticks : Nat) :
    (s.elapse ticks).stu.measurement = .armed := by
  simp [State.elapse, Measurement.elapse, armed]

theorem withinTolerance_iff (tolerance nominal x : Nat) :
    withinTolerance tolerance nominal x = true ↔ absDiff x nominal * 10000 ≤ tolerance * nominal :=
  decide_eq_true_iff

/-- A measured interval, and then the judgement of the facet. -/
theorem State.setFacet_measure (s : State) (f : Fin 8) (tm : Nat) (w : Facet) :
    (s.measure f tm).setFacet f w = s.setFacet f w := by
  simp [State.measure, State.setFacet, State.setStu, ScanUnit.setFacet]

theorem State.measure_facet (s : State) (f : Fin 8) (tm : Nat) :
    (s.measure f tm).stu.facets[f] = { s.stu.facets[f] with measured := some tm } := by
  simp [State.measure, State.setFacet, State.setStu, ScanUnit.setFacet]

/-- Settles O36: the stray, the slipped, the good and the bad end of scan. -/
theorem eosTaken : Obligations.EosTaken := by
  intro s u ticks sampled passed
  have before : s.Before [] := ⟨fun f here => ⟨(sampled.raised f here).1, nofun⟩, sampled.staged⟩
  have event : exec (.eos ticks) s = run s (fun t => (t.elapse ticks).takeEos) :=
    runAfter_before sampled FaultKind.mem_ofSample (fun t => (t.elapse ticks).takeEos)
  have speed : u.stu.speed = s.stu.speed := by rw [passed]; rfl
  have params : u.stu.params = s.stu.params := by rw [passed]; rfl
  have fu : u.fu = s.fu := by rw [passed]; rfl
  have staged : u.staged = s.staged := by rw [passed]; rfl
  rw [event]
  refine ⟨fun other => run_event before ?_ (by rw [fu]) staged, fun running => ?_⟩
  · rw [← passed]
    exact if_neg (by rwa [speed])
  have takes : (s.elapse ticks).takeEos = match u.stu.measurement with
      | .armed => u.strayEos
      | .timing f tm slipped _ => u.endScan f tm slipped := by
    rw [← passed]
    exact if_pos (speed.trans running)
  refine ⟨fun armed => ?_, fun f n p timing => ?_, fun f n p tm v w timing passes measured good => ?_⟩
  · refine run_event before (takes.trans ?_) (by rw [fu]) staged
    rw [show u.stu.measurement = .armed by rw [passed, State.elapse_armed armed]]
    simp only [State.strayEos, State.setStats, State.setStu, saturate_eq_min]
  · refine run_event before (takes.trans ?_) (t := State.scanEnd _ f .slipped) ?_ ?_
    · rw [show u.stu.measurement = _ by rw [passed, State.elapse_timing timing]]
      exact if_pos rfl
    · rw [State.scanEnd_fu]
      exact congrArg FaultUnit.raised fu
    · rw [State.scanEnd_staged]
      exact staged
  · have ends : (s.elapse ticks).takeEos = u.endScan f tm false := by
      rw [takes, show u.stu.measurement = .timing f tm false p by rw [passed, State.elapse_timing timing, passes]]
    have facet : u.armScan.stu.facets[f] = u.stu.facets[f] := rfl
    refine ⟨fun near => ?_, fun far => ?_⟩
    · have judged : u.endScan f tm false = State.scanEnd { u with stu := { u.stu with
            measurement := .armed, facets := u.stu.facets.set f w } } f .inTolerance := by
        refine (if_neg Bool.false_ne_true).trans ((if_pos ?_).trans ?_)
        · rw [withinTolerance_iff, params]
          exact near
        · rw [State.goodScan, State.setFacet_measure, State.measure_facet, facet, ← measured, Facet.good, good]
          rfl
      refine run_event before (ends.trans judged) ?_ ?_
      · rw [State.scanEnd_fu]
        exact congrArg FaultUnit.raised fu
      · rw [State.scanEnd_staged]
        exact staged
    · have judged : u.endScan f tm false = State.failsScan { u with stu := { u.stu with
            measurement := .armed, facets := u.stu.facets.set f v } } f .outOfTolerance := by
        refine (if_neg Bool.false_ne_true).trans ((if_neg ?_).trans ?_)
        · rw [withinTolerance_iff, params]
          omega
        · rw [State.badScan_eq, State.measure, facet, ← measured]
          rfl
      rw [run, ends, judged]

/-! ### The index pulse and the watch -/

/-- Settles O38: the index pulse by the speed state, and the watch. -/
theorem indexAndWatch : Obligations.IndexAndWatch := by
  refine ⟨fun s before => ⟨fun still => run_event before ?_ rfl rfl, fun acquiring => run_event before ?_ rfl rfl,
    fun running slipped => run_raises (f := .syncSlip s.stu.counter) before ?_ rfl rfl rfl⟩, fun s sampled => ?_⟩
  · rcases still with idle | ⟨running, aligned⟩
    · simp only [State.takeIndex, idle]
    · simp only [State.takeIndex, running, aligned, if_true]
  · simp only [State.takeIndex, acquiring, State.setStu]
  · simp only [State.takeIndex, running, slipped, if_false, State.correctSlip, State.setStu, State.raise, saturate_eq_min,
      Measurement.slip]
  have before : s.Before [] := ⟨fun f here => ⟨(sampled.raised f here).1, nofun⟩, sampled.staged⟩
  have event : exec .sosWatchExpiry s = run s State.takeWatchExpiry :=
    runAfter_before sampled FaultKind.mem_ofSample _
  rw [event]
  refine ⟨fun off => run_event before (if_neg ?_) rfl rfl, fun running watched t u n ended missed counted => ?_⟩
  · rw [Option.isSome_iff_ne_none]
    tauto
  have takes : s.takeWatchExpiry = u := by
    refine (if_pos ⟨running, Option.isSome_iff_ne_none.2 watched⟩).trans ?_
    rw [← ended, counted, missed, State.lossAtRun, State.countMissed, saturate_eq_min]
    by_cases loss : 8 ≤ t.stu.missedRun + 1
    · rw [if_pos loss, if_pos loss]
      exact if_pos loss
    · rw [if_neg loss, if_neg loss, List.append_nil]
      exact if_neg loss
  refine ⟨by rw [run, takes], fun armed => ?_⟩
  have same : t = s := ended.trans (State.endMissed_armed armed)
  have raised : u.fu.raised = s.fu.raised ++ if 8 ≤ n then [.sosLoss n] else [] := by rw [counted, same]
  have staged : u.staged = s.staged := by rw [counted, same]
  by_cases loss : 8 ≤ n
  · exact run_raises (f := .sosLoss n) before takes (by rw [raised, if_pos loss]) rfl staged
  · exact run_event before takes (by rw [raised, if_neg loss, List.append_nil]) staged

/-! ### The SOS -/

theorem FaultKind.mem_beforeSos (k : FaultKind) (h : k.beforeSos = true) :
    k ∈ [FaultKind.powerTrip, .trimLimit, .startTimeout] := by
  revert h
  cases k <;> decide

/-- The trigger of the lasers. -/
theorem State.trigger_eq (s : State) (period : Nat) : s.trigger period = s.fires period := by
  have any : s.pl.channels.any (·.laser == .settled) = true ↔ s.pl.channels.r.laser = .settled ∨
      s.pl.channels.g.laser = .settled ∨ s.pl.channels.b.laser = .settled := by
    simp [Rgb.any, or_assoc]
  unfold State.trigger State.fires
  dsimp only
  by_cases settled : s.pl.channels.any (·.laser == .settled) = true
  · rw [if_pos settled, if_pos (any.1 settled)]
    rfl
  · rw [if_neg settled, if_neg (mt any.2 settled)]
    rfl

theorem State.fires_fu (s : State) (period : Nat) : (s.fires period).fu = s.fu := by
  rw [State.fires, State.sends_fu]

theorem State.fires_staged (s : State) (period : Nat) : (s.fires period).staged = s.staged := by
  rw [State.fires, State.sends_staged]

theorem State.startsLine_iff (s : State) : s.startsLine s.stu.counter = true ↔ s.mayStart := by
  unfold State.startsLine State.mayStart
  cases s.es.exposure with
  | none => simp
  | some e =>
    simp only [Bool.and_eq_true, beq_iff_eq, Option.isNone_iff_eq_none, Option.some.injEq, exists_eq_left']
    tauto

theorem State.scanBegin_starts {s : State} (may : s.mayStart) : s.scanBegin s.stu.counter = s.beginsLine :=
  if_pos (s.startsLine_iff.2 may)

theorem State.scanBegin_waits {s : State} (not : ¬ s.mayStart) : s.scanBegin s.stu.counter = s :=
  if_neg (mt s.startsLine_iff.1 not)

/-- The timing of a scan changes nothing that decides the line attempt. -/
theorem State.timesScan_mayStart (s : State) : s.timesScan.mayStart ↔ s.mayStart := Iff.rfl

theorem State.beginScan_starts {s : State} (may : s.mayStart) : s.beginScan = s.timesScan.beginsLine :=
  State.scanBegin_starts (s := s.timesScan) (s.timesScan_mayStart.2 may)

theorem State.beginScan_waits {s : State} (not : ¬ s.mayStart) : s.beginScan = s.timesScan :=
  State.scanBegin_waits (s := s.timesScan) (mt s.timesScan_mayStart.1 not)

/-- The run of the speed lock after an SOS. -/
theorem ScanUnit.lockJudge_eq (u : ScanUnit) (n : Nat) (run : n = match u.sinceSos with
      | none => u.lockRun
      | some i => if absDiff i u.params.pn * 10000 ≤ u.params.tolerance * u.params.pn then min 16 (u.lockRun + 1)
          else 0) :
    u.lockJudge = { u with sinceSos := some 0, lockRun := n } := by
  rw [run]
  unfold ScanUnit.lockJudge
  cases u.sinceSos with
  | none => rfl
  | some i =>
    simp only [withinTolerance_iff, Config.lockRun]

/-- Settles O35: the SOS by the speed state. -/
theorem sosTaken : Obligations.SosTaken := by
  intro s u ticks timed passed
  have before : s.Before [] := ⟨fun f here => ⟨(timed.raised f here).1, nofun⟩, timed.staged⟩
  have event : exec (.sos ticks) s = run s (fun t => (t.elapse ticks).takeSos) :=
    runAfter_before timed FaultKind.mem_beforeSos (fun t => (t.elapse ticks).takeSos)
  have speed : u.stu.speed = s.stu.speed := by rw [passed]; rfl
  have fu : u.fu = s.fu := by rw [passed]; rfl
  have staged : u.staged = s.staged := by rw [passed]; rfl
  rw [event]
  refine ⟨fun idle => run_event before ?_ (by rw [fu]) staged, fun running t v ended may not => ?_,
    fun acquiring n t v judged counted locked => ?_⟩
  · rw [← passed]
    simp only [State.takeSos, speed, idle]
  · have begun : t.beginScan = v := by
      by_cases h : t.mayStart
      · rw [may h, State.beginScan_starts h]
      · rw [not h, State.beginScan_waits h]
    have timing : v.stu = t.timesScan.stu := by rw [← begun, State.beginScan, State.scanBegin_stu]; rfl
    have period : v.stu.period v.stu.counter = t.pixelPeriod := by rw [timing]; rfl
    have takes : (s.elapse ticks).takeSos = v.fires t.pixelPeriod := by
      have advanced : u.endMissed.advanceCounter = t := ended.symm
      rw [← passed]
      simp only [State.takeSos, speed, running, State.runningSos]
      rw [advanced, begun, period, State.trigger_eq]
    refine ⟨by rw [run, takes], fun armed => ?_⟩
    have same : u.endMissed = u := State.endMissed_armed (by rw [passed, State.elapse_armed armed])
    have fu' : t.fu = s.fu := by rw [ended, same, fu]
    have staged' : t.staged = s.staged := by rw [ended, same, staged]
    refine run_event before takes ?_ ?_
    · rw [State.fires_fu, ← begun]
      simp [State.beginScan, fu', State.setStu]
    · rw [State.fires_staged, ← begun]
      simp [State.beginScan, staged', State.setStu]
  · have advanced : u.advanceCounter = t := counted.symm
    have fired : (t.trigger (t.stu.period t.stu.counter)) = t.fires t.pixelPeriod := State.trigger_eq _ _
    have stu : (t.fires t.pixelPeriod).stu = t.stu := by rw [State.fires, State.sends_stu]
    have since : t.stu.sinceSos = s.stu.sinceSos.map (· + ticks) := by rw [counted, passed]; rfl
    have params : t.stu.params = s.stu.params := by rw [counted, passed]; rfl
    have lockRun : t.stu.lockRun = s.stu.lockRun := by rw [counted, passed]; rfl
    have aligned : t.stu.aligned = s.stu.aligned := by rw [counted, passed]; rfl
    have judge : t.stu.lockJudge = { t.stu with sinceSos := some 0, lockRun := n } := by
      refine ScanUnit.lockJudge_eq _ _ (judged.trans ?_)
      rw [since, params, lockRun]
      cases s.stu.sinceSos <;> rfl
    have locks : v.stu.locks = true ↔ 16 ≤ n ∧ s.stu.aligned = true := by
      have now : v.stu = { t.stu with sinceSos := some 0, lockRun := n } := by rw [locked]
      rw [ScanUnit.locks, Bool.and_eq_true, decide_eq_true_eq, now, ← aligned]
      rfl
    have takes : (s.elapse ticks).takeSos = if v.stu.locks then v.lockSpeed else v := by
      rw [← passed]
      simp only [State.takeSos, speed, acquiring, State.acquiringSos]
      rw [advanced, fired, stu, judge, locked]
      rfl
    have fu' : v.fu = s.fu := by
      rw [locked]
      exact (State.fires_fu ..).trans (by rw [counted]; exact fu)
    have staged' : v.staged = s.staged := by
      rw [locked]
      exact (State.fires_staged ..).trans (by rw [counted]; exact staged)
    refine ⟨fun short => run_event before (takes.trans (if_neg ?_)) (by rw [fu']) staged', fun long alignedOn w met => ?_⟩
    · rw [locks]
      rintro ⟨long, alignedOn⟩
      rcases short with short | off
      · omega
      · rw [off] at alignedOn
        cases alignedOn
    · have lock : (s.elapse ticks).takeSos = w.beginScan := by
        refine takes.trans ((if_pos (locks.2 ⟨long, alignedOn⟩)).trans ?_)
        rw [met, ← State.checkStarting_eq]
        rfl
      have raised : w.beginScan.fu.raised = s.fu.raised := by
        rw [State.beginScan, State.scanBegin_fu, ← fu']
        simp [State.setStu, met, State.meetsStart_raised]
      refine ⟨fun may => ?_, fun not => ?_⟩
      · rw [← State.beginScan_starts may]
        exact run_later before lock raised
      · rw [← State.beginScan_waits not]
        exact run_later before lock raised

end Sys2Proof.Machine
end

