-- ==== Sys2Proof/Proofs/Samples.lean ====
section
/-! PROOFS. A sample: the judgement and the servo of one channel, the reports, and the image portion. -/

namespace Sys2Proof.Machine

/-! ### The window -/

/-- A reading out of the window crosses its lower limit, or its upper. -/
theorem crossed_some {p : PowerParams} {target r : Nat} {limit : Limit} (h : crossed p target r = some limit) :
    (p.direction ≠ .high ∧ r < target * (32 - p.steps) / 32 ∧ limit = .lower) ∨
      (p.direction ≠ .low ∧ min 4095 (target * (32 + p.steps) / 32) < r ∧
        ¬ (p.direction ≠ .high ∧ r < target * (32 - p.steps) / 32) ∧ limit = .upper) := by
  unfold crossed windowLower windowUpper at h
  split at h
  next low => exact .inl ⟨low.1, low.2, (Option.some.inj h).symm⟩
  next notLow =>
    split at h
    next high => exact .inr ⟨high.1, high.2, notLow, (Option.some.inj h).symm⟩
    · cases h

theorem crossed_none {p : PowerParams} {target r : Nat} : crossed p target r = none ↔
    ¬ ((p.direction ≠ .high ∧ r < target * (32 - p.steps) / 32) ∨
      (p.direction ≠ .low ∧ min 4095 (target * (32 + p.steps) / 32) < r)) := by
  unfold crossed windowLower windowUpper
  split
  next low => exact iff_of_false nofun (not_not.2 (.inl low))
  next notLow =>
    split
    next high => exact iff_of_false nofun (not_not.2 (.inr high))
    next notHigh => exact iff_of_true rfl (not_or.2 ⟨notLow, notHigh⟩)

/-- A reading out of the window, judged. -/
theorem PowerChannel.judge_out (c : PowerChannel) {p : PowerParams} {target r : Nat} {limit : Limit}
    (out : crossed p target r = some limit) : c.judge p target r =
      ⟨{ c with
          outRun := min p.persistence (c.outRun + 1), inRun := 0
          window := if c.window = .clear ∧ p.persistence ≤ c.outRun + 1 then .tripped else c.window },
        if c.window = .clear ∧ p.persistence ≤ c.outRun + 1 then some limit else none, false, false, none⟩ := by
  have trips : (c.window = .clear ∧ p.persistence ≤ min p.persistence (c.outRun + 1)) ↔
      (c.window = .clear ∧ p.persistence ≤ c.outRun + 1) := by simp
  simp only [PowerChannel.judge, out, trips]
  split <;> rfl

/-- A reading in the window, judged. -/
theorem PowerChannel.judge_in (c : PowerChannel) {p : PowerParams} {target r : Nat}
    (inside : crossed p target r = none) : c.judge p target r =
      ⟨{ c with
          inRun := min p.persistence (c.inRun + 1), outRun := 0
          window := if c.window = .tripped ∧ p.persistence ≤ c.inRun + 1 then .clear else c.window },
        none, decide (c.window = .tripped ∧ p.persistence ≤ c.inRun + 1), false, none⟩ := by
  have clears : (c.window = .tripped ∧ p.persistence ≤ min p.persistence (c.inRun + 1)) ↔
      (c.window = .tripped ∧ p.persistence ≤ c.inRun + 1) := by simp
  simp only [PowerChannel.judge, inside, clears]
  split
  next h => rw [decide_eq_true h]
  next h => rw [decide_eq_false h]

/-! ### The servo -/

/-- The end of a servo block changes the trim, the accumulator and the count alone. -/
theorem ChannelSample.endBlock_eq (x : ChannelSample) (deadband : Nat) (total step : Int)
    (called : step = if (deadband : Int) < total.tdiv 16 then -1 else if total.tdiv 16 < -(deadband : Int) then 1 else 0) :
    x.endBlock deadband total =
      if step = 0 then { x with channel := { x.channel with accumulator := 0, samples := 0 } }
      else if -31 ≤ x.channel.trim + step ∧ x.channel.trim + step ≤ 31 then { x with
        channel := { x.channel with accumulator := 0, samples := 0, trim := x.channel.trim + step }
        atLimit := decide (x.channel.trim + step = 31 ∨ x.channel.trim + step = -31) }
      else { x with
        channel := { x.channel with accumulator := 0, samples := 0 }
        refused := some (decide (0 < step)) } := by
  rw [called]
  rfl

/-- What the servo leaves: all but the trim, the accumulator, the count and the reports of a step. -/
theorem ChannelSample.servo_keeps (x : ChannelSample) (deadband target r : Nat) :
    ∃ (a : Int) (n : Nat) (t : Int) (l : Bool) (f : Option Bool), x.servo deadband target r =
      { x with channel := { x.channel with accumulator := a, samples := n, trim := t }, atLimit := l, refused := f } := by
  unfold ChannelSample.servo ChannelSample.endBlock
  dsimp only
  split
  · split
    · exact ⟨_, _, _, _, _, rfl⟩
    · split
      · exact ⟨_, _, _, _, _, rfl⟩
      · exact ⟨_, _, _, _, _, rfl⟩
  · exact ⟨_, _, _, _, _, rfl⟩

/-- Settles O40: the reading, the runs and the window, and the servo. -/
theorem sampleJudged : Obligations.SampleJudged := by
  rintro c p target r x isOut total step sampled out rfl called
  refine ⟨fun idle => by rw [sampled]; exact if_neg idle, fun firing settled => ?_⟩
  have parts : x = (PowerChannel.judge { c with reading := some r, firing := false } p target r).servo p.deadband
      target r := sampled.trans (if_pos ⟨firing, settled⟩)
  obtain ⟨y, judged⟩ : ∃ y, y = PowerChannel.judge { c with reading := some r, firing := false } p target r := ⟨_, rfl⟩
  rw [← judged] at parts
  have kept : ∃ (o i : Nat) (w : Window) (t : Option Limit) (k : Bool), y = ⟨{ c with
      reading := some r, firing := false, outRun := o, inRun := i, window := w }, t, k, false, none⟩ := by
    cases crosses : crossed p target r with
    | none => exact ⟨_, _, _, _, _, judged.trans (PowerChannel.judge_in _ crosses)⟩
    | some limit => exact ⟨_, _, _, _, _, judged.trans (PowerChannel.judge_out _ crosses)⟩
  obtain ⟨a, n, t, l, f, servo⟩ := y.servo_keeps p.deadband target r
  have same : x.channel.reading = y.channel.reading ∧ x.channel.firing = y.channel.firing ∧
      x.channel.laser = y.channel.laser ∧ x.channel.settle = y.channel.settle ∧ x.channel.window = y.channel.window ∧
      x.channel.outRun = y.channel.outRun ∧ x.channel.inRun = y.channel.inRun ∧ x.trip = y.trip ∧
      x.cleared = y.cleared := by
    rw [parts, servo]
    exact ⟨rfl, rfl, rfl, rfl, rfl, rfl, rfl, rfl, rfl⟩
  obtain ⟨reading, fired, laser, settle, window, outRun, inRun, trip, cleared⟩ := same
  rw [reading, fired, laser, settle, window, outRun, inRun, trip, cleared]
  refine ⟨?_, ?_, ?_, ?_, fun outside => ?_, fun inside => ?_, fun short => ?_, fun full => ?_⟩
  · obtain ⟨_, _, _, _, _, rfl⟩ := kept
    rfl
  · obtain ⟨_, _, _, _, _, rfl⟩ := kept
    rfl
  · obtain ⟨_, _, _, _, _, rfl⟩ := kept
    exact settled
  · obtain ⟨_, _, _, _, _, rfl⟩ := kept
    rfl
  · cases crosses : crossed p target r with
    | none => exact absurd (out.1 outside) (crossed_none.1 crosses)
    | some limit =>
      rw [judged, PowerChannel.judge_out _ crosses]
      refine ⟨rfl, rfl, rfl, fun clear run => ⟨if_pos ⟨clear, run⟩, fun direction low => ?_, fun notLow => ?_⟩,
        fun stays => ⟨if_neg ?_, if_neg ?_⟩⟩
      · rcases crossed_some crosses with ⟨-, -, rfl⟩ | ⟨-, -, notLow, -⟩
        · exact if_pos ⟨clear, run⟩
        · exact absurd ⟨direction, low⟩ notLow
      · rcases crossed_some crosses with ⟨direction, low, -⟩ | ⟨-, -, -, rfl⟩
        · rcases notLow with high | above
          · exact absurd high direction
          · omega
        · exact if_pos ⟨clear, run⟩
      all_goals
        rintro ⟨clear, run⟩
        rcases stays with tripped | short
        · cases clear.symm.trans tripped
        · exact absurd run (Nat.not_le.2 short)
  · have crosses : crossed p target r = none := crossed_none.2 fun h => inside (out.2 h)
    rw [judged, PowerChannel.judge_in _ crosses]
    refine ⟨rfl, rfl, rfl, fun tripped run => ⟨if_pos ⟨tripped, run⟩, decide_eq_true ⟨tripped, run⟩⟩,
      fun stays => ⟨if_neg ?_, decide_eq_false ?_⟩⟩
    all_goals
      rintro ⟨tripped, run⟩
      rcases stays with clear | short
      · cases tripped.symm.trans clear
      · exact absurd run (Nat.not_le.2 short)
  · obtain ⟨o, i, w, t', k, rfl⟩ := kept
    have next : x = _ := parts.trans (if_neg (Nat.not_le.2 short))
    rw [next]
    exact ⟨rfl, rfl, rfl, rfl, rfl⟩
  · obtain ⟨o, i, w, t', k, rfl⟩ := kept
    have next : x = _ := parts.trans ((if_pos full).trans (ChannelSample.endBlock_eq _ _ _ step called))
    rw [next]
    refine ⟨?_, ?_, fun still => ?_, fun steps low high => ?_, fun steps beyond => ?_⟩
    · split
      · rfl
      · split <;> rfl
    · split
      · rfl
      · split <;> rfl
    · rw [if_pos still]
      exact ⟨rfl, rfl, rfl⟩
    · rw [if_neg steps, if_pos ⟨low, high⟩]
      exact ⟨rfl, rfl, decide_eq_true_iff⟩
    · rw [if_neg steps, if_neg (by dsimp only; omega)]
      exact ⟨rfl, rfl, rfl⟩

/-! ### The reports of a sample -/

theorem Rgb.firstSet_none (v : Rgb Bool) : v.firstSet = none ↔ ∀ c, v.get c = false := by
  obtain ⟨r, g, b⟩ := v
  rw [Channel.forall_iff]
  cases r <;> cases g <;> cases b <;> simp [Rgb.firstSet, Rgb.get]

/-- The first channel of those with a report. -/
theorem Rgb.firstSet_isSome {α β : Type} {v : Rgb α} {f : α → Option β} {c : Channel} {b : β} (here : f (v.get c) = some b)
    (before : ∀ d, channelNumber d < channelNumber c → f (v.get d) = none) :
    (v.map (fun z => (f z).isSome)).firstSet = some c := by
  rw [Rgb.firstSet_iff, Rgb.get_map, here]
  refine ⟨rfl, fun d earlier => ?_⟩
  rw [Rgb.get_map, before d earlier]
  rfl

theorem Rgb.firstSet_isNone {α β : Type} {v : Rgb α} {f : α → Option β} (absent : ∀ c, f (v.get c) = none) :
    (v.map (fun z => (f z).isSome)).firstSet = none := by
  rw [Rgb.firstSet_none]
  intro c
  rw [Rgb.get_map, absent c]
  rfl

theorem tripReport_none {y : Rgb ChannelSample} (absent : ∀ c, (y.get c).trip = none) (x : Rgb Nat) :
    tripReport y x = none := by
  simp only [tripReport, Rgb.firstSet_isNone absent]

theorem tripReport_some {y : Rgb ChannelSample} {c : Channel} {limit : Limit} (here : (y.get c).trip = some limit)
    (before : ∀ d, channelNumber d < channelNumber c → (y.get d).trip = none) (x : Rgb Nat) :
    tripReport y x = some (.powerTrip (y.map (fun z => z.trip.isSome)) (x.get c) limit) := by
  simp only [tripReport, Rgb.firstSet_isSome here before, here]

theorem trimReport_none {y : Rgb ChannelSample} (absent : ∀ c, (y.get c).refused = none) : trimReport y = none := by
  simp only [trimReport, Rgb.firstSet_isNone absent]

theorem trimReport_some {y : Rgb ChannelSample} {c : Channel} {up : Bool} (here : (y.get c).refused = some up)
    (before : ∀ d, channelNumber d < channelNumber c → (y.get d).refused = none) :
    trimReport y = some (.trimLimit (y.map (fun z => z.refused.isSome)) (y.get c).channel.trim up) := by
  simp only [trimReport, Rgb.firstSet_isSome here before, here]

/-- The two reports are of the two kinds of a sample. -/
theorem tripReport_kind {y : Rgb ChannelSample} {x : Rgb Nat} {f : FaultReport} (h : tripReport y x = some f) :
    f.kind = .powerTrip := by
  unfold tripReport at h
  dsimp only at h
  split at h
  · cases h
  · split at h
    · cases h
    · cases h
      rfl

theorem trimReport_kind {y : Rgb ChannelSample} {f : FaultReport} (h : trimReport y = some f) : f.kind = .trimLimit := by
  unfold trimReport at h
  dsimp only at h
  split at h
  · cases h
  · split at h
    · cases h
    · cases h
      rfl

theorem State.raise?_eq (s : State) (f : Option FaultReport) :
    s.raise? f = { s with fu := { s.fu with raised := s.fu.raised ++ f.toList } } := by
  cases f with
  | none => simp [State.raise?]
  | some f => rfl

/-! ### What a clear report does -/

theorem Rgb.any_eq_false {α : Type} (p : α → Bool) (v : Rgb α) :
    v.any p = false ↔ p v.r = false ∧ p v.g = false ∧ p v.b = false := by
  simp [Rgb.any, and_assoc]

/-- The return from PAUSED, or the conditions of PREPARING, on a clear report. -/
theorem State.onClear_eq (s : State) (y : Rgb ChannelSample) : s.onClear (y.any (·.cleared)) =
    if y.r.cleared = false ∧ y.g.cleared = false ∧ y.b.cleared = false then s
    else if s.es.engine = .paused ∧ s.allClear = true then
      State.sends { s with es := { s.es with
        engine := .exposing
        pauseTimer := none
        exposure := s.es.exposure.map (fun e => { e with pauses := min 4294967295 (e.pauses + 1) }) } }
        [.notice (.engineState .paused .exposing none)]
    else s.meetsPreparing := by
  have resume : ExposureRecord.resume = fun e => { e with pauses := min 4294967295 (e.pauses + 1) } := by
    funext e
    rw [ExposureRecord.resume, saturate_eq_min]
  unfold State.onClear
  by_cases silent : y.any (·.cleared) = false
  · rw [silent, if_neg Bool.false_ne_true, if_pos ((Rgb.any_eq_false _ _).1 silent)]
  · rw [if_pos (by simpa using silent), if_neg (mt (Rgb.any_eq_false _ _).2 silent)]
    by_cases paused : s.es.engine = .paused ∧ s.allClear = true
    · rw [if_pos paused, if_pos paused, State.leavePaused, State.setEngine_eq, resume]
      simp only [State.setEs, paused.1, engineMoves_dark (previous := .paused) (by decide)]
    · rw [if_neg paused, if_neg paused, State.checkPreparing_eq]

theorem State.noticeAtLimit_eq (s : State) (y : Rgb ChannelSample) : s.noticeAtLimit y =
    if y.r.atLimit = false ∧ y.g.atLimit = false ∧ y.b.atLimit = false then s
    else s.sends [.notice (.trimAtLimit (y.map (fun z => if z.atLimit = true then some z.channel.trim else none)))] := by
  unfold State.noticeAtLimit
  by_cases silent : y.any (·.atLimit) = false
  · rw [silent, if_neg Bool.false_ne_true, if_pos ((Rgb.any_eq_false _ _).1 silent)]
  · rw [if_pos (by simpa using silent), if_neg (mt (Rgb.any_eq_false _ _).2 silent)]
    rfl

/-- A clear report leaves the slots, the latches and the line of the frame in hand. -/
theorem State.onClear_keeps (s : State) (b : Bool) : (s.onClear b).fs = s.fs ∧ (s.onClear b).du = s.du ∧
    (s.onClear b).fu = s.fu ∧ (s.onClear b).staged = s.staged ∧
    ∀ e, (s.onClear b).es.exposure = some e → ∃ d, s.es.exposure = some d ∧ d.slot = e.slot ∧ d.line = e.line := by
  unfold State.onClear
  split
  · split
    · refine ⟨by simp [State.leavePaused], by simp [State.leavePaused], by simp [State.leavePaused],
        by simp [State.leavePaused], fun e here => ?_⟩
      rw [State.leavePaused, State.setEngine_es] at here
      obtain ⟨d, present, rfl⟩ := Option.map_eq_some_iff.1 here
      exact ⟨d, present, rfl, rfl⟩
    · rw [State.checkPreparing_eq]
      unfold State.meetsPreparing
      split
      · exact ⟨by simp, by simp, by simp, by simp, fun e here => ⟨e, by simpa using here, rfl, rfl⟩⟩
      · exact ⟨rfl, rfl, rfl, rfl, fun e here => ⟨e, here, rfl, rfl⟩⟩
  · exact ⟨rfl, rfl, rfl, rfl, fun e here => ⟨e, here, rfl, rfl⟩⟩

theorem State.noticeAtLimit_keeps (s : State) (y : Rgb ChannelSample) : (s.noticeAtLimit y).fs = s.fs ∧
    (s.noticeAtLimit y).du = s.du ∧ (s.noticeAtLimit y).fu = s.fu ∧ (s.noticeAtLimit y).staged = s.staged ∧
    (s.noticeAtLimit y).es = s.es := by
  unfold State.noticeAtLimit
  split <;> simp

/-- The reports of a sample leave the slots and the latches, and raise the two faults. -/
theorem State.reportSample_keeps (s : State) (y : Rgb ChannelSample) (x : Rgb Nat) :
    (s.reportSample y x).fs = s.fs ∧ (s.reportSample y x).du = s.du ∧
    (s.reportSample y x).fu.raised = s.fu.raised ++ (tripReport y x).toList ++ (trimReport y).toList ∧
    (s.reportSample y x).staged = s.staged ∧
    ∀ e, (s.reportSample y x).es.exposure = some e → ∃ d, s.es.exposure = some d ∧ d.slot = e.slot ∧ d.line = e.line := by
  obtain ⟨fs, du, fu, staged, exposure⟩ := State.onClear_keeps
    ((s.setChannels (y.map (·.channel))).raise? (tripReport y x)) (y.any (·.cleared))
  obtain ⟨fs', du', fu', staged', es'⟩ := State.noticeAtLimit_keeps
    (((s.setChannels (y.map (·.channel))).raise? (tripReport y x)).onClear (y.any (·.cleared))) y
  rw [fs] at fs'
  rw [du] at du'
  rw [fu] at fu'
  rw [staged] at staged'
  rw [State.reportSample, State.raise?_eq _ (trimReport y)]
  dsimp only
  rw [fs', du', fu', staged', es', State.raise?_eq]
  rw [State.raise?_eq] at exposure
  exact ⟨rfl, rfl, rfl, rfl, exposure⟩

/-! ### The image portion -/

theorem State.attemptInProgress_eq_some (s : State) (e : ExposureRecord) (r : SlotRecord) (f : Rgb LatchedChannel)
    (l : LineLatch) : s.attemptInProgress = some (e, r, f, l) ↔ s.es.engine = .exposing ∧ s.es.lineInProgress ≠ none ∧
      s.es.exposure = some e ∧ s.slot e.slot = some r ∧ s.du.frameLatch = some f ∧ s.du.lineLatch = some l := by
  unfold State.attemptInProgress State.attempt
  rw [← Option.isSome_iff_ne_none]
  by_cases begun : s.es.engine = .exposing ∧ s.es.lineInProgress.isSome = true
  · rw [if_pos begun]
    cases here : s.es.exposure with
    | none => simp
    | some d =>
      cases frame : s.du.frameLatch with
      | none => simp
      | some g =>
        cases line : s.du.lineLatch with
        | none => simp
        | some m =>
          cases there : s.slot d.slot with
          | none =>
            simp only [begun, there]
            refine ⟨nofun, fun h => ?_⟩
            obtain ⟨-, -, same, slot, -⟩ := h
            cases same
            rw [there] at slot
            cases slot
          | some q =>
            simp only [begun, there]
            refine ⟨fun h => ?_, fun h => ?_⟩
            · cases h
              exact ⟨trivial, trivial, rfl, there, rfl, rfl⟩
            · obtain ⟨-, -, same, slot, latch, latch'⟩ := h
              cases same
              rw [there] at slot
              cases slot
              cases latch
              cases latch'
              rfl
  · rw [if_neg begun]
    exact ⟨nofun, fun h => absurd ⟨h.1, h.2.1⟩ begun⟩

theorem State.attemptInRange_iff {s : State} {e : ExposureRecord} {r : SlotRecord} {f : Rgb LatchedChannel}
    {l : LineLatch} (attempt : s.attemptInProgress = some (e, r, f, l)) :
    s.attemptInRange = true ↔ r.width ≤ 4096 ∧ e.line < 3200 := by
  have within : s.attemptInRange = (decide (r.width ≤ Config.maxWidth) && decide (e.line < Config.maxHeight)) := by
    simp only [State.attemptInRange, attempt]
  rw [within, Bool.and_eq_true, decide_eq_true_eq, decide_eq_true_eq]
  rfl

/-- A line attempt lies within the image memory where its slot's width and its line do. -/
theorem State.attemptInRange_of {s : State} (width : ∀ i r, s.slot i = some r → r.width ≤ 4096)
    (line : ∀ e, s.es.exposure = some e → e.line < 3200) : s.attemptInRange = true := by
  cases attempt : s.attemptInProgress with
  | none => simp only [State.attemptInRange, attempt]
  | some a =>
    obtain ⟨e, r, f, l⟩ := a
    obtain ⟨-, -, here, there, -, -⟩ := (s.attemptInProgress_eq_some e r f l).1 attempt
    exact (State.attemptInRange_iff attempt).2 ⟨width _ _ there, line _ here⟩

theorem State.sampleFaultWaits_eq_false (s : State) :
    s.sampleFaultWaits = false ↔ ∀ g ∈ s.fu.raised, g.kind ∉ [FaultKind.powerTrip, .trimLimit] := by
  unfold State.sampleFaultWaits
  rw [List.any_eq_false]
  refine forall₂_congr fun g _ => ?_
  rw [FaultKind.ofSample_iff]

/-- When and from what the image portion is driven. -/
theorem State.drivenAttempt_eq_some (s : State) (e : ExposureRecord) (r : SlotRecord) (f : Rgb LatchedChannel)
    (l : LineLatch) : s.drivenAttempt = some (e, r, f, l) ↔
      s.es.engine = .exposing ∧ s.es.lineInProgress ≠ none ∧ s.es.exposure = some e ∧
      s.slot e.slot = some r ∧ s.du.frameLatch = some f ∧ s.du.lineLatch = some l ∧
      r.width ≤ 4096 ∧ e.line < 3200 ∧ ∀ g ∈ s.fu.raised, g.kind ∉ [FaultKind.powerTrip, .trimLimit] := by
  unfold State.drivenAttempt
  refine ⟨fun driven => ?_, fun h => ?_⟩
  · by_cases ready : s.sampleFaultWaits = false ∧ s.attemptInRange = true
    · rw [if_pos ready] at driven
      obtain ⟨exposing, begun, here, there, latch, latch'⟩ := (s.attemptInProgress_eq_some e r f l).1 driven
      obtain ⟨width, line⟩ := (State.attemptInRange_iff driven).1 ready.2
      exact ⟨exposing, begun, here, there, latch, latch', width, line, s.sampleFaultWaits_eq_false.1 ready.1⟩
    · rw [if_neg ready] at driven
      cases driven
  · obtain ⟨exposing, begun, here, there, latch, latch', width, line, none_⟩ := h
    have attempt := (s.attemptInProgress_eq_some e r f l).2 ⟨exposing, begun, here, there, latch, latch'⟩
    rw [if_pos ⟨s.sampleFaultWaits_eq_false.2 none_, (State.attemptInRange_iff attempt).2 ⟨width, line⟩⟩, attempt]

theorem State.drivesImage_fu (s : State) : s.drivesImage.fu = s.fu := by
  unfold State.drivesImage
  split
  · rfl
  · rw [State.sends_fu]

theorem State.drivesImage_staged (s : State) : s.drivesImage.staged = s.staged := by
  unfold State.drivesImage
  split
  · rfl
  · rw [State.sends_staged]

/-! ### The sample -/

/-- The kinds of a sample wait. -/
theorem FaultKind.ofSample_waits {k : FaultKind} (h : k ∈ [FaultKind.powerTrip, .trimLimit]) :
    k ∉ [FaultKind.facetShortage, .operator, .shutter, .transport, .filmEnd] := by
  cases k <;> revert h <;> decide

theorem FaultKind.mem_beforeSample (k : FaultKind) (h : k.beforeSample = true) :
    k ∈ [FaultKind.powerTrip, .trimLimit, .pauseTimeout] := by
  revert h
  cases k <;> decide

/-- Whether a sample is due. -/
theorem State.sampleDue_of {s : State} {c : Channel} (fired : (s.pl.channels.get c).firing = true) : s.sampleDue = true := by
  by_contra idle
  obtain ⟨red, green, blue⟩ := (Rgb.any_eq_false _ _).1 (Bool.eq_false_iff.2 idle)
  cases c
  · exact absurd (fired.symm.trans red) (by decide)
  · exact absurd (fired.symm.trans green) (by decide)
  · exact absurd (fired.symm.trans blue) (by decide)

/-- A sample completion with no fault raised that is taken before it. -/
theorem exec_sampleEvent {s : State} (before : s.Before [.powerTrip, .trimLimit, .pauseTimeout]) (x : Rgb Nat) :
    exec (.sampleCompletion x) s = if s.sampleDue then
      if (s.takeSample x).attemptInRange then .next (s.takeSample x).driveLine.concluded else .fault .imagePosition
      else .next s.concluded := by
  have settled : s.settledFor FaultKind.beforeSample = s := s.settledFor_none _ fun f here => by
    by_contra taken
    exact (before.raised f here).2 (FaultKind.mem_beforeSample _ (by simpa using taken))
  have unfolded : exec (.sampleCompletion x) s = if (s.settledFor FaultKind.beforeSample).sampleDue then
      if ((s.settledFor FaultKind.beforeSample).takeSample x).attemptInRange then
        .next ((s.settledFor FaultKind.beforeSample).takeSample x).driveLine.concluded else .fault .imagePosition
      else .next (s.settledFor FaultKind.beforeSample).concluded := rfl
  rw [unfolded, settled]

/-- A sample that is due: its reports, and the image portion where the line lies within the image memory. -/
theorem exec_sampleCompletion {s : State} {c : Channel} (before : s.Before [.powerTrip, .trimLimit, .pauseTimeout])
    (fired : (s.pl.channels.get c).firing = true) (x : Rgb Nat) : exec (.sampleCompletion x) s =
      if (s.reportSample (s.pl.sample x) x).attemptInRange then
        .next (s.reportSample (s.pl.sample x) x).driveLine.concluded else .fault .imagePosition := by
  have takes : s.takeSample x = s.reportSample (s.pl.sample x) x := if_pos (State.sampleDue_of fired)
  rw [exec_sampleEvent before, if_pos (State.sampleDue_of fired), takes]

/-- Settles O41: the reports in order, the image portion, and a line outside the image memory. -/
theorem sampleTaken : Obligations.SampleTaken := by
  refine ⟨fun s x before width line => ⟨fun idle => ?_, fun c fired y t u v w sampled tripped cleared limited refused => ?_⟩,
    fun s x c e r before fired exposing begun here there frame latch outside => ?_, fun y x =>
    ⟨fun absent => tripReport_none absent x, fun c limit first earlier f reported => ?_, trimReport_none,
      fun c up first earlier f reported => ?_⟩, fun s => ⟨s.drivenAttempt_eq_some, fun idle => ?_,
    fun e r f l d driven doses => ?_, rfl, s.allClear_iff⟩⟩
  · have none_ : s.sampleDue = false :=
      (Rgb.any_eq_false _ _).2 ⟨idle .red, idle .green, idle .blue⟩
    rw [exec_sampleEvent before, none_, if_neg Bool.false_ne_true,
      State.concluded_later _ fun f here => (before.raised f here).1, State.flush_none _ before.staged]
  · have reported : s.reportSample (s.pl.sample x) x = w := by
      rw [← sampled, State.reportSample, State.raise?_eq, State.onClear_eq, State.noticeAtLimit_eq, State.raise?_eq,
        refused, limited, cleared, tripped]
      rfl
    obtain ⟨fs, du, raised, staged, exposure⟩ := s.reportSample_keeps (s.pl.sample x) x
    rw [reported] at fs du raised staged exposure
    have inRange : w.attemptInRange = true := by
      refine State.attemptInRange_of (fun i r there => width i r ?_) fun e here => ?_
      · rwa [State.slot, fs] at there
      · obtain ⟨d, present, -, same⟩ := exposure e here
        rw [← same]
        exact line d present
    rw [exec_sampleCompletion before fired, reported, inRange, if_pos rfl, State.driveLine_eq, State.concluded_later,
      State.flush_none]
    · rw [State.drivesImage_staged, staged, before.staged]
    · intro f here
      rw [State.drivesImage_fu, raised, List.mem_append, List.mem_append, Option.mem_toList, Option.mem_toList] at here
      rcases here with (here | trip) | trim
      · exact (before.raised f here).1
      · exact FaultKind.ofSample_waits (by simp [tripReport_kind trip])
      · exact FaultKind.ofSample_waits (by simp [trimReport_kind trim])
  · obtain ⟨f, frame⟩ := Option.ne_none_iff_exists'.1 frame
    obtain ⟨l, latch⟩ := Option.ne_none_iff_exists'.1 latch
    have same : (s.reportSample (s.pl.sample x) x).es = s.es := by
      have still (t : State) (engine : t.es = s.es) : (t.onClear ((s.pl.sample x).any (·.cleared))).es = s.es := by
        rw [State.onClear_eq]
        have quiet : t.meetsPreparing = t := if_neg fun h => by
          rw [engine, exposing] at h
          exact absurd h.1 (by decide)
        have awake : ¬ (t.es.engine = .paused ∧ t.allClear = true) := fun h => by
          rw [engine, exposing] at h
          exact absurd h.1 (by decide)
        rw [if_neg awake, quiet, ite_self, engine]
      rw [State.reportSample, State.raise?_eq _ (trimReport _)]
      dsimp only
      rw [(State.noticeAtLimit_keeps _ _).2.2.2.2, still _ (by rw [State.raise?_eq]; rfl)]
    obtain ⟨fs, du, -, -, -⟩ := s.reportSample_keeps (s.pl.sample x) x
    have attempt : (s.reportSample (s.pl.sample x) x).attemptInProgress = some (e, r, f, l) := by
      rw [State.attemptInProgress_eq_some, State.slot, same, fs, du]
      exact ⟨exposing, begun, here, there, frame, latch⟩
    have beyond : (s.reportSample (s.pl.sample x) x).attemptInRange = false := by
      rw [← Bool.not_eq_true, State.attemptInRange_iff attempt]
      omega
    rw [exec_sampleCompletion before fired, beyond, if_neg Bool.false_ne_true]
  · rw [reported]
    refine ⟨tripReport_some first earlier x, ?_⟩
    exact Rgb.firstSet_isSome first earlier
  · rw [reported]
    refine ⟨trimReport_some first earlier, ?_⟩
    exact Rgb.firstSet_isSome first earlier
  · simp only [State.drivesImage, idle]
  · simp only [State.drivesImage, driven, State.sends_output, State.sends_nil, State.emit, doses]

end Sys2Proof.Machine
end

