-- ==== Sys2Proof/Proofs/Taking.lean ====
section
/-! PROOFS. The take of the queue head, and Reset Engine. -/

namespace Sys2Proof.Machine

/-! ### The preparations of a take -/

/-- A wheel sent to a target, or at rest there. -/
theorem Wheel.aim_eq (w : Wheel) (target : Nat) : w.aim target =
    if w.position = some target then w else { w with move := some (target, Config.ms 1500) } := rfl

/-- The move command of a wheel that is not at its target. -/
def Wheel.moveCommand (w : Wheel) (c : Channel) (target : Nat) : List Sent :=
  if w.position = some target then [] else [.command (.wheelMove c target)]

theorem Rgb.set_get {α : Type} (v : Rgb α) (c : Channel) : v.set c (v.get c) = v := by
  cases c <;> rfl

theorem State.aimWheel_sends (s : State) (l : List Sent) (c : Channel) (target : Nat) :
    (s.sends l).aimWheel c target = State.sends { s with es := { s.es with
      wheels := s.es.wheels.set c ((s.es.wheels.get c).aim target) } }
      (l ++ (s.es.wheels.get c).moveCommand c target) := by
  unfold State.aimWheel Wheel.moveCommand
  rw [State.sends_es]
  by_cases here : (s.es.wheels.get c).position = some target
  · rw [if_pos here, if_pos here, Wheel.aim_eq, if_pos here, Rgb.set_get, List.append_nil]
  · rw [if_neg here, if_neg here, State.setEs_sends, State.command_sends]
    rfl

theorem State.aimWheels_sends (s : State) (l : List Sent) (targets : Rgb Nat) : (s.sends l).aimWheels targets =
    State.sends { s with es := { s.es with wheels := Rgb.zip Wheel.aim s.es.wheels targets } }
      (l ++ ([.red, .green, .blue].filter (fun c => (s.es.wheels.get c).position ≠ some (targets.get c))).map
        (fun c => .command (.wheelMove c (targets.get c)))) := by
  have moves : ([.red, .green, .blue].filter (fun c => (s.es.wheels.get c).position ≠ some (targets.get c))).map
      (fun c => .command (.wheelMove c (targets.get c))) =
      s.es.wheels.r.moveCommand .red targets.r ++ (s.es.wheels.g.moveCommand .green targets.g ++
        s.es.wheels.b.moveCommand .blue targets.b) := by
    unfold Wheel.moveCommand
    by_cases red : s.es.wheels.r.position = some targets.r <;>
      by_cases green : s.es.wheels.g.position = some targets.g <;>
      by_cases blue : s.es.wheels.b.position = some targets.b <;>
      simp [Rgb.get, red, green, blue]
  rw [State.aimWheels, State.aimWheel_sends, State.aimWheel_sends, State.aimWheel_sends, moves]
  simp only [List.append_assoc]
  rfl

theorem State.freshFilm_sends (s : State) (l : List Sent) : (s.sends l).freshFilm =
    State.sends { s with tc := if s.tc.gateUsed then s.tc.pulling else s.tc }
      (l ++ if s.tc.gateUsed then s.tc.pullCommand else []) := by
  unfold State.freshFilm
  rw [State.sends_tc]
  split
  · exact State.pullDown_sends s l
  · rw [List.append_nil]

theorem State.bringStage_sends (s : State) (l : List Sent) : (s.sends l).bringStage =
    State.sends { s with es := { s.es with
      stage := if s.stageReturns then .moving 0 (some (Config.ms 1000)) else s.es.stage } }
      (l ++ if s.stageReturns then [.command .stageReturn] else []) := by
  have returned : (s.sends l).returnStage = State.sends { s with es := { s.es with
      stage := .moving 0 (some (Config.ms 1000)) } } (l ++ [.command .stageReturn]) := by
    rw [State.returnStage, State.sends_es, State.setEs_sends, State.command_sends]
    rfl
  unfold State.bringStage State.stageReturns
  rw [State.sends_es]
  cases stage : s.es.stage with
  | settled n =>
    by_cases home : n = 0
    · simp only [home, if_true, bne_self_eq_false, Bool.false_eq_true, if_false, List.append_nil]
      rw [← home, ← stage]
    · simp only [home, if_false, bne_iff_ne, ne_eq, not_false_eq_true, if_true, returned]
  | moving n timer =>
    cases timer with
    | none => simp only [Option.isNone_none, if_true, returned]
    | some m =>
      simp only [Option.isNone_some, Bool.false_eq_true, if_false, List.append_nil]
      rw [← stage]
  | unhomed =>
    simp only [Bool.false_eq_true, if_false, List.append_nil]
    rw [← stage]
  | homing =>
    simp only [Bool.false_eq_true, if_false, List.append_nil]
    rw [← stage]

theorem State.setPhase_some {s : State} {i : Fin 4} {r : SlotRecord} (here : s.slot i = some r) (p : Phase) :
    s.setPhase i p = s.setSlot i (some { r with phase := p }) := by
  simp only [State.setPhase, here]

/-- The take of a slot under the latch of its profile. -/
theorem State.takeSlot_eq {s : State} {i : Fin 4} {r : SlotRecord} (there : s.slot i = some r) (rest : List (Fin 4))
    {latch : Rgb LatchedChannel} {targets : Rgb Nat}
    (filled : latchFrame s.pt.profiles[r.profile].channels s.du.rollTrims s.du.shading = latch)
    (ranges : s.pt.profiles[r.profile].channels.map (·.range) = targets) : s.takeSlot i rest r =
      State.meetsPreparing (State.sends { s with
          fs := { s.fs with
            queue := rest
            slots := s.fs.slots.set i (some { r with phase := .active }) }
          rl := { s.rl with reservation := some (.frame i) }
          du := { s.du with frameLatch := some latch }
          es := { s.es with
            engine := .preparing
            exposure := some ⟨i, r.openSeq, r.profile, 0, 0, 0, 0, Rgb.all ⟨0, 0⟩, s.du.rollTrims, false⟩
            wheels := Rgb.zip Wheel.aim s.es.wheels targets
            stage := if s.stageReturns then .moving 0 (some (Config.ms 1000)) else s.es.stage }
          tc := if s.tc.gateUsed then s.tc.pulling else s.tc }
          (engineMoves s.es.engine .preparing none ++
            ([.red, .green, .blue].filter (fun c => (s.es.wheels.get c).position ≠ some (targets.get c))).map
                (fun c => .command (.wheelMove c (targets.get c))) ++
            (if s.tc.gateUsed then s.tc.pullCommand else []) ++
            (if s.stageReturns then [.command .stageReturn] else []))) := by
  have slot : (s.setQueue rest).slot i = some r := there
  have held : (((s.setQueue rest).setPhase i .active).reserve (.frame i)).fillFrameLatch r.profile = { s with
      fs := { s.fs with queue := rest, slots := s.fs.slots.set i (some { r with phase := .active }) }
      rl := { s.rl with reservation := some (.frame i) }
      du := { s.du with frameLatch := some latch } } := by
    rw [State.setPhase_some slot, ← filled]
    rfl
  unfold State.takeSlot
  dsimp only
  rw [held, State.setEngine_eq, State.sends_pt, State.aimWheels_sends, State.freshFilm_sends, State.bringStage_sends,
    State.checkPreparing_eq, ← ranges]
  rfl

/-- Settles O34: with a condition unmet nothing is taken; otherwise the take with its preparations. -/
theorem frameTaken : Obligations.FrameTaken := by
  refine fun s before => ⟨fun unmet => run_event before ?_ rfl rfl,
    fun i rest r q latch queue there channels latched ready room clear => ?_⟩
  · unfold State.takeHeadSlot
    split
    · rfl
    next i rest queue =>
      split
      · rfl
      · refine if_neg fun takes => ?_
        obtain ⟨⟨ready, room⟩, clear⟩ : (s.es.engine = .ready ∧ s.logHasRoom = true) ∧ s.es.stopPending = false := by
          simpa [State.takes] using takes
        rcases unmet with empty | busy | full | stopping
        · rw [queue] at empty
          cases empty
        · exact busy ready
        · exact absurd (of_decide_eq_true room) (Nat.not_lt.2 full)
        · rw [clear] at stopping
          cases stopping
  · have takes : s.takes = true := by
      have space : s.logHasRoom = true := decide_eq_true room
      simp [State.takes, ready, clear, space]
    have filled : latchFrame s.pt.profiles[r.profile].channels s.du.rollTrims s.du.shading = latch := by
      rw [channels]
      obtain ⟨red, green, blue⟩ := latch
      have each := Channel.forall_iff.1 latched
      simp only [Rgb.get] at each
      rw [each.1, each.2.1, each.2.2]
      rfl
    have targets : s.pt.profiles[r.profile].channels.map (·.range) = q.map (·.range) := by rw [channels]
    have taken : s.takeHeadSlot = s.takeSlot i rest r := by
      simp only [State.takeHeadSlot, queue, there, takes, if_true]
    refine (run_event before (taken.trans (State.takeSlot_eq there rest filled targets)) ?_ ?_).trans ?_
    · rw [State.meetsPreparing_fu, State.sends_fu]
    · rw [State.meetsPreparing_staged, State.sends_staged]
    · simp only [Rgb.get_map, ready, engineMoves_dark (previous := .ready) (by decide)]
      rfl

end Sys2Proof.Machine
end

