-- ==== Sys2Proof/Proofs/Reset.lean ====
section
/-! PROOFS. Reset Engine: the equation in the order of R120, and the fields it leaves. -/

namespace Sys2Proof.Machine

/-! ### What a reset stops -/

/-- A channel switched off, with its trim and its reading kept. -/
def PowerChannel.dark (c : PowerChannel) : PowerChannel :=
  if c.laser = .off then c else ⟨.off, none, c.trim, c.reading, .clear, 0, 0, 0, 0, false⟩

/-- A wheel stopped: at rest where it stood, or nowhere known. -/
def Wheel.halted (w : Wheel) : Wheel := if w.move = none then w else ⟨none, none⟩

/-- The gate's operation cut, and the shutter told to close. -/
def Transport.cutShort (t : Transport) : Transport :=
  (match t.op with
    | none => t
    | some op => t.failing op .cut).shutting

/-- The close command changes the shutter and its timer. -/
theorem Transport.shutting_eq (t : Transport) : t.shutting = { t with
    shutter := if t.shutter = .opened ∨ t.shutter = .opening then .closing else t.shutter
    shutterTimer := if t.shutter = .opened ∨ t.shutter = .opening then some (Config.ms 50) else t.shutterTimer } := by
  unfold Transport.shutting
  split <;> rfl

theorem Transport.shutting_op (t : Transport) : t.shutting.op = t.op := by rw [Transport.shutting_eq]

/-- The cut of the gate's operation and the close command touch different fields. -/
theorem Transport.cutShort_eq (t : Transport) : t.cutShort = match t.op with
    | none => t.shutting
    | some op => t.shutting.failing op .cut := by
  unfold Transport.cutShort
  cases t.op with
  | none => rfl
  | some op => rw [Transport.shutting_eq, Transport.shutting_eq]; rfl

theorem State.resetMechanisms_eq (s : State) : s.resetMechanisms = State.sends { s with
      pl := { s.pl with channels := s.pl.channels.map PowerChannel.dark }
      es := { s.es with stage := .unhomed, wheels := s.es.wheels.map Wheel.halted }
      tc := s.tc.cutShort }
      (s.cutsPulses ++ s.tc.shutCommand ++ [.command .stageStop] ++ s.wheelStops ++
        (if s.tc.op = none then [] else [.command .transportStop])) := by
  unfold State.resetMechanisms
  rw [State.laserDisable_off, State.closeShutter_sends, State.stopStage_sends, State.stopWheels_sends,
    State.stopGate_sends]
  simp only [List.append_assoc, Transport.shutting_op, Transport.cutShort_eq]
  rfl

/-! ### What a reset answers -/

/-- A pending reply that ends touches the replies, the table and what is staged. -/
theorem State.ends_form (s : State) (k : LongKind) (o : ReplyOutcome) (r : Reason) (d : ReplyData) : ∃ lp staged,
    s.ends k o r d = { s with es := { s.es with replies := s.es.replies.set k none }, lp := lp, staged := staged } := by
  unfold State.ends
  dsimp only
  split
  · exact ⟨_, _, rfl⟩
  · exact ⟨_, _, rfl⟩

/-- The four replies abandoned. -/
def State.abandons (s : State) (n : Nat) : State :=
  (((s.ends .start .failed .abandoned .empty).ends .stop .failed .abandoned .empty).ends .advance
      .failed .abandoned (.advancedBefore n)).ends .reset .failed .abandoned .empty

theorem State.abandons_form (s : State) (n : Nat) : ∃ lp staged, s.abandons n =
    { s with es := { s.es with replies := ⟨none, none, none, none⟩ }, lp := lp, staged := staged } := by
  obtain ⟨_, _, start⟩ := s.ends_form .start .failed .abandoned .empty
  obtain ⟨_, _, stop⟩ := (s.ends .start .failed .abandoned .empty).ends_form .stop .failed .abandoned .empty
  obtain ⟨_, _, advance⟩ := ((s.ends .start .failed .abandoned .empty).ends .stop .failed .abandoned .empty).ends_form
    .advance .failed .abandoned (.advancedBefore n)
  obtain ⟨lp, staged, reset⟩ := (((s.ends .start .failed .abandoned .empty).ends .stop .failed .abandoned .empty).ends
    .advance .failed .abandoned (.advancedBefore n)).ends_form .reset .failed .abandoned .empty
  refine ⟨lp, staged, reset.trans ?_⟩
  rw [advance, stop, start]
  rfl

/-- The flags and the timers cleared, and the reset's own reply pending. -/
def State.clears (s : State) (tag : Option Nat) : State := { s with
  es := { s.es with
    replies := { s.es.replies with reset := some ⟨.resetEngine, tag⟩ }
    stopPending := false, deferredHalt := none, startTimer := none, pauseTimer := none }
  fu := { s.fu with inHand := none } }

theorem State.abandonReplies_eq (s : State) (tag : Option Nat) :
    (s.abandonReplies tag).clearFlags = (s.abandons s.blankCompleted).clears tag := by
  unfold State.abandonReplies State.abandons
  dsimp only
  rw [State.failReply_short _ .start (by decide), State.failReply_short _ .stop (by decide), State.failReply_advance,
    State.failReply_short _ .reset (by decide)]
  rfl

/-- The frame or the blank advance in hand ended by a reset. -/
def State.handEnds (s : State) : State :=
  if s.es.engine = .preparing then s.returnFrame
  else if s.es.engine ∈ [Engine.exposing, .paused, .finishing, .aborting] then s.spoilFrame .reset
  else if s.es.engine = .advancing then s.endBlankEarly else s

theorem State.endInHand_eq (s : State) : s.endInHand = s.handEnds := by
  unfold State.endInHand State.handEnds
  cases s.es.engine <;> rfl

theorem State.handEnds_engine (s : State) : s.handEnds.es.engine = s.es.engine := by
  unfold State.handEnds
  split
  · simp
  · split
    · simp
    · split <;> simp

theorem State.handEnds_raised (s : State) : s.handEnds.fu.raised = s.fu.raised := by
  unfold State.handEnds
  split
  · exact s.returnFrame_apart.1
  · split
    · exact (s.spoilFrame_apart _).1
    · split
      · exact s.endBlankEarly_apart.1
      · rfl

/-- What a reset makes of a state in which it stands in the table. -/
def State.resets (s : State) (tag : Option Nat) : State :=
  (((s.resetMechanisms.abandons s.blankCompleted).clears tag).handEnds)

theorem Transport.cutShort_blank (t : Transport) : t.cutShort.blank = t.blank := by
  rw [Transport.cutShort_eq, Transport.shutting_eq]
  cases t.op <;> rfl

theorem State.resetMechanisms_blank (s : State) : s.resetMechanisms.blankCompleted = s.blankCompleted := by
  rw [State.resetMechanisms_eq, State.blankCompleted, State.blankCompleted, State.sends_tc, Transport.cutShort_blank]

theorem State.resets_engine (s : State) (tag : Option Nat) : (s.resets tag).es.engine = s.es.engine := by
  obtain ⟨lp, staged, abandoned⟩ := s.resetMechanisms.abandons_form s.blankCompleted
  rw [State.resets, State.handEnds_engine, abandoned, State.clears]
  dsimp only
  rw [State.resetMechanisms_eq, State.sends_es]

theorem State.resets_raised (s : State) (tag : Option Nat) : (s.resets tag).fu.raised = s.fu.raised := by
  obtain ⟨lp, staged, abandoned⟩ := s.resetMechanisms.abandons_form s.blankCompleted
  rw [State.resets, State.handEnds_raised, abandoned, State.clears]
  dsimp only
  rw [State.resetMechanisms_eq, State.sends_fu]

theorem decideResetEngine_eq (s : State) (tag : Option Nat) (p : List Byte) : decideResetEngine s tag p =
    if s.es.engine = .stopping then s.resets tag else (s.resets tag).entersStopping := by
  have ended : ((s.resetMechanisms.abandonReplies tag).clearFlags).endInHand = s.resets tag := by
    rw [State.endInHand_eq, State.abandonReplies_eq, State.resetMechanisms_blank, State.resets]
  unfold decideResetEngine State.resetToStopping
  rw [ended, State.resets_engine, State.enterStopping_eq]

/-- An accepted Reset Engine. -/
theorem exec_resetEngine {s : State} {tag : Nat} {p : List Byte} (accepts : s.Accepts tag .resetEngine p) :
    exec .resetEngine s = .next (if s.es.engine = .stopping then
        (s.takeRecord.enterTable tag .resetEngine).resets (some tag)
      else ((s.takeRecord.enterTable tag .resetEngine).resets (some tag)).entersStopping).flush := by
  have engine : (s.takeRecord.enterTable tag .resetEngine).es.engine = s.es.engine := by simp
  refine exec_decided (q := .resetEngine) false accepts ((decideResetEngine_eq _ _ p).trans (by rw [engine])) ?_
  split
  · rw [State.resets_raised]
    simp
  · rw [← State.enterStopping_eq, (State.enterStopping_apart _).1, State.resets_raised]
    simp

/-- The reset as the equation of R120. -/
theorem engineReset_order (s : State) (tag n : Nat) (p : List Byte) (u v w x y : State)
    (accepts : s.Accepts tag .resetEngine p) (count : n = s.blankCompleted)
    (stopped : u = State.sends { s.takeRecord.enterTable tag .resetEngine with
      pl := { s.pl with channels := s.pl.channels.map PowerChannel.dark }
      es := { s.es with stage := .unhomed, wheels := s.es.wheels.map Wheel.halted }
      tc := s.tc.cutShort }
      (s.cutsPulses ++ s.tc.shutCommand ++ [.command .stageStop] ++ s.wheelStops ++
        (if s.tc.op = none then [] else [.command .transportStop])))
    (abandoned : v = u.abandons n)
    (cleared : w = { v with
      es := { v.es with
        replies := { v.es.replies with reset := some ⟨.resetEngine, some tag⟩ }
        stopPending := false, deferredHalt := none, startTimer := none, pauseTimer := none }
      fu := { s.fu with inHand := none } })
    (ended : x = if s.es.engine = .preparing then w.returnFrame
      else if s.es.engine ∈ [Engine.exposing, .paused, .finishing, .aborting] then w.spoilFrame .reset
      else if s.es.engine = .advancing then w.endBlankEarly else w)
    (entered : y = if s.es.engine = .stopping then x else x.entersStopping) :
    exec .resetEngine s = .next y.flush := by
  have first : (s.takeRecord.enterTable tag .resetEngine).resetMechanisms = u := by
    obtain ⟨Q, F, H, O, form⟩ := s.takeRecord_form
    rw [State.resetMechanisms_eq, stopped, form]
    rfl
  have blank : (s.takeRecord.enterTable tag .resetEngine).blankCompleted = n := by
    rw [count]
    simp [State.blankCompleted]
  have fu : u.fu = s.fu := by
    rw [stopped, State.sends_fu]
    simp
  obtain ⟨lp, staged, form⟩ := u.abandons_form n
  rw [← abandoned] at form
  have fu' : v.fu = s.fu := by rw [form, fu]
  have engine : w.es.engine = s.es.engine := by
    rw [cleared, form, stopped, State.sends_es]
  have fourth : v.clears (some tag) = w := by rw [cleared, State.clears, fu']
  have sixth : w.handEnds = x := by rw [State.handEnds, engine, ended]
  rw [exec_resetEngine accepts, State.resets, first, blank, ← abandoned, fourth, sixth, entered]

/-! ### What a reset leaves -/

/-- A state but for the link, the notices and what is put out. -/
def State.inner (s : State) : State :=
  { s with nu := State.reset.nu, lp := State.reset.lp, staged := [], out := [] }

theorem State.sends_inner (s : State) (l : List Sent) : (s.sends l).inner = s.inner := by
  rw [State.sends_eq]
  rfl

theorem State.flush_inner (s : State) : s.flush.inner = s.inner := rfl

theorem State.taken_inner (s : State) (tag : Nat) (q : Request) : (s.takeRecord.enterTable tag q).inner = s.inner := by
  obtain ⟨Q, F, H, O, form⟩ := s.takeRecord_form
  rw [form]
  rfl

/-- A reset's state before the end of the frame or of the blank advance in hand. -/
def State.halted (s : State) (tag : Option Nat) : State := { s with
  pl := { s.pl with channels := s.pl.channels.map PowerChannel.dark }
  es := { s.es with
    stage := .unhomed
    wheels := s.es.wheels.map Wheel.halted
    replies := ⟨none, none, some ⟨.resetEngine, tag⟩, none⟩
    stopPending := false, deferredHalt := none, startTimer := none, pauseTimer := none }
  tc := s.tc.cutShort
  fu := { s.fu with inHand := none } }

theorem State.cleared_inner (s : State) (tag : Option Nat) (n : Nat) :
    ((s.resetMechanisms.abandons n).clears tag).inner = (s.halted tag).inner := by
  obtain ⟨lp, staged, abandoned⟩ := s.resetMechanisms.abandons_form n
  rw [abandoned, State.resetMechanisms_eq, State.sends_eq]
  rfl

/-- The fields the end of the frame or of the blank advance in hand leaves. -/
structure State.HandEnded (s : State) (fs : FrameStore) (rl : RollLog) (du : DoseUnit) : Prop where
  frame : ∀ e r, s.es.exposure = some e → s.slot e.slot = some r →
    (s.es.engine = .preparing → fs.slots[e.slot] = some { r with phase := .queued } ∧
      fs.queue = e.slot :: s.fs.queue ∧ rl = { s.rl with reservation := none }) ∧
    (s.es.engine ≠ .preparing → fs.slots[e.slot] = some { r with phase := .held } ∧
      fs.queue = s.fs.queue ∧ rl = s.rl.append s.tc.footage (.spoiled (s.frameEntry e r) .reset))
  frameless : s.es.exposure = none → fs = s.fs
  blank : ∀ b, s.tc.blank = some b → rl = if 0 < b.completed then
    s.rl.append b.start (.blank b.completed) else { s.rl with reservation := none }
  neither : s.es.exposure = none → s.tc.blank = none → rl = s.rl
  others : ∀ j, (∀ e, s.es.exposure = some e → e.slot ≠ j) → fs.slots[j] = s.fs.slots[j]
  image : fs.image = s.fs.image
  opens : fs.openCounter = s.fs.openCounter
  latches : du = { s.du with
    frameLatch := none, lineLatch := none
    lineClips := if s.es.exposure = none then s.du.lineClips else Rgb.all ⟨0, 0⟩ }

/-- The transport after the end of what is in hand: as the cut left it, with no blank advance. -/
structure Transport.LeftBy (t : Transport) (k : Transport) : Prop where
  blank : t.blank = none
  op : t.op = k.op
  shutter : t.shutter = k.shutter
  footage : t.footage = k.footage
  gate : t.gate = k.gate
  gateUsed : t.gateUsed = k.gateUsed

/-- The frame in hand has a slot. -/
theorem InHand.slot_exists {s : State} (h : InHand s) {e : ExposureRecord} (here : s.es.exposure = some e) :
    ∃ r, s.slot e.slot = some r := by
  have active := (h.active e.slot).2 ⟨e, here, rfl⟩
  obtain ⟨r, there, -⟩ := Option.map_eq_some_iff.1 active
  exact ⟨r, there⟩

/-- With the frame in hand in agreement there is no blank advance beside a frame. -/
theorem InHand.blank_none {s : State} (h : InHand s) {e : ExposureRecord} (here : s.es.exposure = some e) :
    s.tc.blank = none := by
  by_contra some_
  have advancing := h.blank (Option.isSome_iff_ne_none.2 some_)
  have held := h.present
  rw [here, advancing] at held
  cases held

theorem InHand.holdsFrame {s : State} (h : InHand s) {e : ExposureRecord} (here : s.es.exposure = some e) :
    s.es.engine = .preparing ∨ s.es.engine ∈ [Engine.exposing, .paused, .finishing, .aborting] := by
  have held := h.present
  rw [here] at held
  revert held
  cases s.es.engine <;> simp [Engine.holdsFrame]

/-- What is left of a state whose frame and blank advance have ended. -/
def State.handed (s : State) (fs : FrameStore) (rl : RollLog) (du : DoseUnit) (tc : Transport) : State :=
  { s with
    fs := fs, rl := rl, du := du, tc := tc
    es := { s.es with exposure := none, lineInProgress := none } }

theorem State.handEnds_frame {s w : State} (h : InHand s) {tag : Option Nat} {lp : LinkPort} {nu : NoticeUnit}
    {staged : List Reply} {out : List Output}
    (cleared : w = { s.halted tag with lp := lp, nu := nu, staged := staged, out := out }) {e : ExposureRecord}
    (here : s.es.exposure = some e) : ∃ fs rl du tc,
      w.handEnds.inner = ((s.halted tag).handed fs rl du tc).inner ∧ s.HandEnded fs rl du ∧ tc.LeftBy s.tc.cutShort := by
  obtain ⟨r, there⟩ := h.slot_exists here
  have absent := h.blank_none here
  have here' : w.es.exposure = some e := by rw [cleared]; exact here
  have there' : w.slot e.slot = some r := by rw [cleared]; exact there
  have engine : w.es.engine = s.es.engine := by rw [cleared]; rfl
  have left : (s.tc.cutShort.disowned).LeftBy s.tc.cutShort :=
    ⟨(s.tc.cutShort_blank).trans absent, rfl, rfl, rfl, rfl, rfl⟩
  have latches : { s.du with frameLatch := none, lineLatch := none, lineClips := Rgb.all ⟨0, 0⟩ } = { s.du with
      frameLatch := none, lineLatch := none
      lineClips := if s.es.exposure = none then s.du.lineClips else Rgb.all ⟨0, 0⟩ } := by
    rw [if_neg (by rw [here]; nofun)]
  have footage : s.tc.cutShort.footage = s.tc.footage := by
    rw [Transport.cutShort_eq, Transport.shutting_eq]
    cases s.tc.op <;> rfl
  have others (x : Option SlotRecord) (j : Fin 4) (away : ∀ d, s.es.exposure = some d → d.slot ≠ j) :
      (s.fs.slots.set e.slot x)[j] = s.fs.slots[j] :=
    Vector.getElem_set_ne _ _ fun same => away e here (Fin.ext same)
  by_cases preparing : s.es.engine = .preparing
  · refine ⟨{ s.fs with
        slots := s.fs.slots.set e.slot (some { r with phase := .queued }), queue := e.slot :: s.fs.queue },
      { s.rl with reservation := none }, _, _, ?_, ⟨?_, ?_, ?_, ?_, others _, rfl, rfl, latches⟩, left⟩
    · rw [State.handEnds, if_pos (engine.trans preparing), State.returnFrame_eq here' there', cleared]
      rfl
    · intro d q same slot
      rw [here] at same
      cases same
      rw [there] at slot
      cases slot
      exact ⟨fun _ => ⟨by simp, rfl, rfl⟩, fun other => absurd preparing other⟩
    · rw [here]
      nofun
    · rw [absent]
      nofun
    · rw [here]
      nofun
  · have later := (h.holdsFrame here).resolve_left preparing
    refine ⟨{ s.fs with slots := s.fs.slots.set e.slot (some { r with phase := .held }) },
      s.rl.append s.tc.footage (.spoiled (s.frameEntry e r) .reset), _, _, ?_,
      ⟨?_, ?_, ?_, ?_, others _, rfl, rfl, latches⟩, left⟩
    · rw [State.handEnds, if_neg (by rwa [engine]), if_pos (by rwa [engine]), State.spoilFrame_eq here' there',
        State.sends_inner, cleared, ← footage]
      rfl
    · intro d q same slot
      rw [here] at same
      cases same
      rw [there] at slot
      cases slot
      exact ⟨fun now => absurd now preparing, fun _ => ⟨by simp, rfl, rfl⟩⟩
    · rw [here]
      nofun
    · rw [absent]
      nofun
    · rw [here]
      nofun

/-- Without a frame in hand the latches are empty and no line is in progress. -/
theorem InHand.frameless {s : State} (h : InHand s) (absent : s.es.exposure = none) :
    s.es.lineInProgress = none ∧ s.du = { s.du with
      frameLatch := none, lineLatch := none
      lineClips := if s.es.exposure = none then s.du.lineClips else Rgb.all ⟨0, 0⟩ } := by
  have line : s.es.lineInProgress = none := by
    by_contra some_
    have exposing := h.line (Option.isSome_iff_ne_none.2 some_)
    have held := h.present
    rw [absent, exposing] at held
    cases held
  have frame : s.du.frameLatch = none := by
    have latched := h.latched
    rw [absent] at latched
    exact Option.isSome_eq_false_iff.1 latched |> Option.isNone_iff_eq_none.1
  have latch : s.du.lineLatch = none := by
    have latched := h.lineLatched
    rw [line] at latched
    exact Option.map_eq_none_iff.1 latched
  refine ⟨line, ?_⟩
  rw [if_pos absent]
  exact (by rw [← frame, ← latch] : s.du = { s.du with frameLatch := none, lineLatch := none })

theorem State.handEnds_frameless {s w : State} (h : InHand s) {tag : Option Nat} {lp : LinkPort} {nu : NoticeUnit}
    {staged : List Reply} {out : List Output}
    (cleared : w = { s.halted tag with lp := lp, nu := nu, staged := staged, out := out })
    (absent : s.es.exposure = none) : ∃ fs rl du tc,
      w.handEnds.inner = ((s.halted tag).handed fs rl du tc).inner ∧ s.HandEnded fs rl du ∧ tc.LeftBy s.tc.cutShort := by
  obtain ⟨line, latches⟩ := h.frameless absent
  have engine : w.es.engine = s.es.engine := by rw [cleared]; rfl
  have held : s.es.engine.holdsFrame = false := by
    rw [← h.present, absent]
    rfl
  have noFrame : ¬ s.es.engine = .preparing ∧ s.es.engine ∉ [Engine.exposing, .paused, .finishing, .aborting] := by
    revert held
    cases s.es.engine <;> simp [Engine.holdsFrame]
  have ends : w.handEnds = if s.es.engine = .advancing then w.endBlankEarly else w := by
    rw [State.handEnds, engine, if_neg noFrame.1, if_neg noFrame.2]
  have unchanged : { s.es with exposure := none, lineInProgress := none } = s.es := by rw [← absent, ← line]
  have framed (x : ExposureRecord) (same : s.es.exposure = some x) : False := by
    rw [absent] at same
    cases same
  cases blank : s.tc.blank with
  | none =>
    have kept : w.handEnds = w := by
      rw [ends]
      split
      · refine State.endBlankEarly_none ?_
        rw [cleared]
        exact s.tc.cutShort_blank.trans blank
      · rfl
    refine ⟨s.fs, s.rl, s.du, s.tc.cutShort, ?_, ⟨fun e r same => (framed e same).elim, fun _ => rfl, ?_,
      fun _ _ => rfl, fun _ _ => rfl, rfl, rfl, latches⟩, ⟨s.tc.cutShort_blank.trans blank, rfl, rfl, rfl, rfl, rfl⟩⟩
    · rw [kept, cleared]
      exact congrArg (fun x : Sequencer => ({ s.halted tag with es := { x with
        stage := .unhomed
        wheels := s.es.wheels.map Wheel.halted
        replies := ⟨none, none, some ⟨.resetEngine, tag⟩, none⟩
        stopPending := false, deferredHalt := none, startTimer := none, pauseTimer := none } } : State).inner)
        unchanged.symm
    · rw [blank]
      nofun
  | some b =>
    have advancing := h.blank (by rw [blank]; rfl)
    have reserved : s.rl.reservation = some .blank := by
      have reserved := h.reserved
      rw [absent, blank] at reserved
      exact reserved
    have here : w.tc.blank = some b := by
      rw [cleared]
      exact s.tc.cutShort_blank.trans blank
    have rl : w.rl = s.rl := by rw [cleared]; rfl
    have early : w.handEnds.inner = ({ w with
        tc := { w.tc with blank := none }
        rl := if 0 < b.completed then s.rl.append b.start (.blank b.completed)
          else { s.rl with reservation := none } } : State).inner := by
      rw [ends, if_pos advancing, State.endBlankEarly_eq here, rl, if_neg (by simp [reserved])]
      by_cases began : b.completed = 0
      · rw [if_pos began, if_neg (by omega)]
      · rw [if_neg began, if_pos (by omega), State.sends_inner]
    refine ⟨s.fs, if 0 < b.completed then s.rl.append b.start (.blank b.completed)
        else { s.rl with reservation := none }, s.du, { s.tc.cutShort with blank := none }, ?_,
      ⟨fun e r same => (framed e same).elim, fun _ => rfl, ?_, ?_, fun _ _ => rfl, rfl, rfl, latches⟩,
      ⟨rfl, rfl, rfl, rfl, rfl, rfl⟩⟩
    · rw [early, cleared]
      exact congrArg (fun x : Sequencer => ({ s.halted tag with
        tc := { s.tc.cutShort with blank := none }
        rl := if 0 < b.completed then s.rl.append b.start (.blank b.completed)
          else { s.rl with reservation := none }
        es := { x with
          stage := .unhomed
          wheels := s.es.wheels.map Wheel.halted
          replies := ⟨none, none, some ⟨.resetEngine, tag⟩, none⟩
          stopPending := false, deferredHalt := none, startTimer := none, pauseTimer := none } } : State).inner)
        unchanged.symm
    · rw [blank]
      rintro x ⟨⟩
      rfl
    · rw [blank]
      nofun

/-- A reset before it enters STOPPING. -/
theorem State.resets_inner {s : State} (h : InHand s) (tag : Nat) : ∃ fs rl du tc,
    ((s.takeRecord.enterTable tag .resetEngine).resets (some tag)).inner =
      ((s.halted (some tag)).handed fs rl du tc).inner ∧ s.HandEnded fs rl du ∧ tc.LeftBy s.tc.cutShort := by
  obtain ⟨w, cleared⟩ : ∃ w, w = ((s.takeRecord.enterTable tag .resetEngine).resetMechanisms.abandons
    (s.takeRecord.enterTable tag .resetEngine).blankCompleted).clears (some tag) := ⟨_, rfl⟩
  have inner : w.inner = (s.halted (some tag)).inner := by
    obtain ⟨Q, F, H, O, form⟩ := s.takeRecord_form
    rw [cleared, State.cleared_inner, form]
    rfl
  have form : w = { s.halted (some tag) with lp := w.lp, nu := w.nu, staged := w.staged, out := w.out } := by
    have linked := congrArg
      (fun x : State => ({ x with lp := w.lp, nu := w.nu, staged := w.staged, out := w.out } : State)) inner
    exact linked
  rw [State.resets, ← cleared]
  cases here : s.es.exposure with
  | none => exact State.handEnds_frameless h form here
  | some e => exact State.handEnds_frame h form here

/-! ### The entry to STOPPING -/

theorem PowerChannel.dark_dark (c : PowerChannel) : c.dark.dark = c.dark := by
  unfold PowerChannel.dark
  by_cases off : c.laser = .off
  · rw [if_pos off, if_pos off]
  · rw [if_neg off, if_pos rfl]

theorem PowerChannel.dark_off (c : PowerChannel) : c.dark.laser = .off := by
  unfold PowerChannel.dark
  split
  next off => exact off
  · rfl

theorem PowerChannel.dark_trim (c : PowerChannel) : c.dark.trim = c.trim := by
  unfold PowerChannel.dark
  split <;> rfl

theorem Wheel.halted_halted (w : Wheel) : w.halted.halted = w.halted := by
  unfold Wheel.halted
  by_cases rest : w.move = none
  · rw [if_pos rest, if_pos rest]
  · rw [if_neg rest, if_pos rfl]

theorem Wheel.halted_fields (w : Wheel) : w.halted.move = none ∧
    w.halted.position = if w.move = none then w.position else none := by
  unfold Wheel.halted
  split
  next rest => exact ⟨rest, rfl⟩
  · exact ⟨rfl, rfl⟩

/-- The entry to STOPPING, but for what it sends. -/
theorem State.entersStopping_inner (s : State) : s.entersStopping.inner = ({ s with
      stu := s.stu.rest
      pl := { s.pl with channels := s.pl.channels.map PowerChannel.dark }
      es := { s.es with
        engine := .stopping
        stage := .unhomed
        wheels := s.es.wheels.map Wheel.halted
        startTimer := none, pauseTimer := none, stopPending := false
        stopTimer := some (Config.ms 10000) }
      tc := s.tc.cutShort
      fu := { s.fu with inHand := none } } : State).inner := by
  unfold State.entersStopping
  dsimp only
  rw [State.sends_inner, mechanismsStopped, State.sends_eq]
  rfl

theorem Transport.cutShort_idle {t : Transport} (idle : t.op = none) : t.cutShort = t.shutting := by
  rw [Transport.cutShort_eq, idle]

theorem Transport.cutShort_op (t : Transport) : t.cutShort.op = none := by
  rw [Transport.cutShort_eq, Transport.shutting_eq]
  cases t.op <;> rfl

theorem Transport.cutShort_shutter (t : Transport) : t.cutShort.shutter = t.shutting.shutter := by
  rw [Transport.cutShort_eq]
  cases t.op <;> rfl

theorem Transport.cutShort_footage (t : Transport) : t.cutShort.footage = t.footage := by
  rw [Transport.cutShort_eq, Transport.shutting_eq]
  cases t.op <;> rfl

/-- A shutter told to close is told no more. -/
theorem Transport.shutting_shutter (t : Transport) {k : Transport} (same : t.shutter = k.shutting.shutter) :
    t.shutting.shutter = k.shutting.shutter := by
  rw [Transport.shutting_eq, Transport.shutting_eq] at *
  dsimp only at same ⊢
  rw [same]
  cases k.shutter <;> rfl

/-- Cut again, the transport is as it was left. -/
theorem Transport.LeftBy.cutShort {t k : Transport} (left : t.LeftBy k.cutShort) : t.cutShort.LeftBy k.cutShort := by
  have idle : t.op = none := left.op.trans k.cutShort_op
  have same : t.shutter = k.shutting.shutter := left.shutter.trans k.cutShort_shutter
  obtain ⟨blank, op, -, footage, gate, gateUsed⟩ := left
  refine ⟨t.cutShort_blank.trans blank, t.cutShort_op.trans k.cutShort_op.symm, ?_, t.cutShort_footage.trans footage, ?_, ?_⟩
  · rw [t.cutShort_shutter, k.cutShort_shutter, t.shutting_shutter same]
  · rw [← gate, Transport.cutShort_idle idle, Transport.shutting_eq]
  · rw [← gateUsed, Transport.cutShort_idle idle, Transport.shutting_eq]

/-- The fields of an accepted reset. -/
theorem resetEngine_leaves {s : State} {tag : Nat} {p : List Byte} (accepts : s.Accepts tag .resetEngine p)
    (h : InHand s) : ∃ (t : State) (fs : FrameStore) (rl : RollLog) (du : DoseUnit) (tc : Transport),
      exec .resetEngine s = .next t ∧ s.HandEnded fs rl du ∧ tc.LeftBy s.tc.cutShort ∧
      t.inner = ({ (s.halted (some tag)).handed fs rl du tc with
        stu := if s.es.engine = .stopping then s.stu else s.stu.rest
        es := { ((s.halted (some tag)).handed fs rl du tc).es with
          engine := .stopping
          stopTimer := if s.es.engine = .stopping then s.es.stopTimer else some (Config.ms 10000) } } : State).inner := by
  obtain ⟨fs, rl, du, tc, inner, ended, left⟩ := State.resets_inner h tag
  by_cases stopping : s.es.engine = .stopping
  · refine ⟨_, fs, rl, du, tc, exec_resetEngine accepts, ended, left, ?_⟩
    rw [State.flush_inner, if_pos stopping, if_pos stopping, if_pos stopping, inner, ← stopping]
    rfl
  · refine ⟨_, fs, rl, du, tc.cutShort, exec_resetEngine accepts, ended, left.cutShort, ?_⟩
    rw [State.flush_inner, if_neg stopping, if_neg stopping, if_neg stopping, State.entersStopping_inner]
    refine (congrArg (fun x : State => ({ x with
      stu := x.stu.rest
      pl := { x.pl with channels := x.pl.channels.map PowerChannel.dark }
      es := { x.es with
        engine := .stopping
        stage := .unhomed
        wheels := x.es.wheels.map Wheel.halted
        startTimer := none, pauseTimer := none, stopPending := false
        stopTimer := some (Config.ms 10000) }
      tc := x.tc.cutShort
      fu := { x.fu with inHand := none } } : State)) inner).trans ?_
    have channels : (s.pl.channels.map PowerChannel.dark).map PowerChannel.dark = s.pl.channels.map PowerChannel.dark := by
      simp only [Rgb.map, PowerChannel.dark_dark]
    have wheels : (s.es.wheels.map Wheel.halted).map Wheel.halted = s.es.wheels.map Wheel.halted := by
      simp only [Rgb.map, Wheel.halted_halted]
    simp only [State.inner, State.handed, State.halted, channels, wheels]

/-- Settles O32: the equation of R120, and the fields it leaves. -/
theorem engineReset : Obligations.EngineReset := by
  refine ⟨fun s tag n p u v w x y accepts count stopped abandoned cleared ended entered =>
    engineReset_order s tag n p u v w x y accepts count stopped abandoned cleared ended entered,
    fun s tag p accepts h => ?_⟩
  obtain ⟨t, fs, rl, du, tc, event, ended, left, inner⟩ := resetEngine_leaves accepts h
  have fs_eq : t.fs = fs := congrArg State.fs inner
  have rl_eq : t.rl = rl := congrArg State.rl inner
  have du_eq : t.du = du := congrArg State.du inner
  have tc_eq : t.tc = tc := congrArg State.tc inner
  have stu_eq : t.stu = if s.es.engine = .stopping then s.stu else s.stu.rest := congrArg State.stu inner
  have pl_eq : t.pl = { s.pl with channels := s.pl.channels.map PowerChannel.dark } := congrArg State.pl inner
  have es_eq := congrArg State.es inner
  have rest : s.stu.rest.speed = .idle ∧ s.stu.rest.params = s.stu.params ∧ s.stu.rest.facets = s.stu.facets := by
    rw [ScanUnit.rest_eq]
    split
    next idle => exact ⟨idle, rfl, rfl⟩
    · exact ⟨rfl, rfl, rfl⟩
  have gate : tc.gate = s.tc.cutShort.gate ∧ tc.gateUsed = s.tc.cutShort.gateUsed := ⟨left.gate, left.gateUsed⟩
  rw [Transport.cutShort_eq, Transport.shutting_eq] at gate
  refine ⟨t, event, ?_, congrArg Sequencer.engine es_eq, congrArg Sequencer.stage es_eq, fun c => ?_,
    congrArg Sequencer.stopPending es_eq, congrArg Sequencer.deferredHalt es_eq, congrArg Sequencer.startTimer es_eq,
    congrArg Sequencer.pauseTimer es_eq, congrArg Sequencer.exposure es_eq, congrArg Sequencer.lineInProgress es_eq,
    congrArg Sequencer.replies es_eq, congrArg Sequencer.stopTimer es_eq, ?_, ?_, ?_, ?_, fun cut => ?_, fun uncut => ?_,
    congrArg State.fu inner, ?_, ?_, ?_, ?_, ?_, ?_, ?_, (congrArg State.admission inner :), (congrArg State.pt inner :), ?_, ?_,
    ?_, ?_, ?_, fun c => ?_, (congrArg Sequencer.linePitch es_eq :),
    (congrArg Sequencer.pauseMs es_eq :), (congrArg State.pending inner :)⟩
  · rw [State.allOff, pl_eq]
    exact ⟨PowerChannel.dark_off _, PowerChannel.dark_off _, PowerChannel.dark_off _⟩
  · have wheels : t.es.wheels = s.es.wheels.map Wheel.halted := congrArg Sequencer.wheels es_eq
    rw [wheels, Rgb.get_map]
    exact Wheel.halted_fields _
  · rw [tc_eq, left.shutter, Transport.cutShort_shutter]
  · rw [tc_eq, left.op, Transport.cutShort_op]
  · rw [tc_eq, left.blank]
  · rw [tc_eq, left.footage, Transport.cutShort_footage]
  · obtain ⟨op, running⟩ := Option.ne_none_iff_exists'.1 cut
    rw [running] at gate
    rw [tc_eq]
    exact gate
  · rw [uncut] at gate
    rw [tc_eq]
    exact gate
  · intro e r here there
    rw [State.slot, fs_eq, rl_eq]
    exact ended.frame e r here there
  · rw [fs_eq]
    exact ended.frameless
  · rw [rl_eq]
    exact ended.blank
  · rw [rl_eq]
    exact ended.neither
  · intro j away
    rw [State.slot, State.slot, fs_eq]
    exact ended.others j away
  · rw [fs_eq, ended.image]
  · rw [fs_eq, ended.opens]
  · rw [du_eq]
    exact ended.latches
  · rw [stu_eq, apply_ite ScanUnit.speed, rest.1]
  · rw [stu_eq, apply_ite ScanUnit.params, rest.2.1, ite_self]
  · rw [stu_eq, apply_ite ScanUnit.facets, rest.2.2, ite_self]
  · rw [pl_eq]
  · rw [pl_eq, Rgb.get_map, PowerChannel.dark_trim]

end Sys2Proof.Machine
end

