-- ==== Sys2Proof/Proofs/LinkReset.lean ====
section
/-! PROOFS. Link up and link reset, and the decision of a record in hand that a link reset has left without its tag. -/

namespace Sys2Proof.Machine

/-! ### A decision with its tag and without -/

/-- A state with the link, the staged replies and the raised faults of another. -/
structure State.Beside (s u : State) : Prop where
  up : u.lp.up = s.lp.up
  outstanding : u.lp.outstanding = s.lp.outstanding
  staged : u.staged = s.staged
  raised : u.fu.raised = s.fu.raised

/-- What a request's owner makes of it in the table and what it makes of it without a tag: the same, but for the
reply. -/
structure Tagless (tag : Nat) (q : Request) (s answered silent : State) : Prop where
  reply : ∃ a, answered = (silent.enterTable tag q).answer (some tag) q a
  beside : s.Beside silent

theorem Tagless.refuse (s : State) (tag : Nat) (q : Request) (reason : Reason) (field : Nat) (d : ReplyData) :
    Tagless tag q s ((s.enterTable tag q).refuse (some tag) q reason field d) (s.refuse none q reason field d) :=
  ⟨⟨_, rfl⟩, rfl, rfl, rfl, rfl⟩

/-- An effect that leaves the link alone, and then the reply. -/
theorem Tagless.answer {s t u : State} {tag : Nat} {q : Request} (same : t = u.enterTable tag q) (beside : s.Beside u)
    (a : Answer) : Tagless tag q s (t.answer (some tag) q a) u :=
  ⟨⟨a, by rw [same]⟩, beside⟩

theorem Tagless.done {s t u : State} {tag : Nat} {q : Request} (same : t = u.enterTable tag q) (beside : s.Beside u)
    (d : ReplyData) : Tagless tag q s (t.done (some tag) q d) u := .answer same beside _

theorem Tagless.ite {tag : Nat} {q : Request} {s x y x' y' : State} {c c' : Prop} [Decidable c] [Decidable c']
    (same : c' ↔ c) (yes : Tagless tag q s x y) (no : Tagless tag q s x' y') :
    Tagless tag q s (if c' then x else x') (if c then y else y') := by
  by_cases h : c
  · rwa [if_pos h, if_pos (same.2 h)]
  · rwa [if_neg h, if_neg (mt same.1 h)]

theorem State.beside_self (s : State) : s.Beside s := ⟨rfl, rfl, rfl, rfl⟩

/-- The decision of every immediate request but Abort Frame has the same effect without its tag. -/
def Request.Tagless (q : Request) : Prop := ∀ (film : Bool) (s : State) (tag : Nat) (p : List Byte),
  Machine.Tagless tag q s (q.owner film p (s.enterTable tag q) (some tag) p) (q.owner film p s none p)

/-! ### The Link Port's requests -/

theorem tagless_identify : Request.identify.Tagless := fun _ s _ _ => .done rfl s.beside_self _

theorem tagless_status : Request.status.Tagless := fun _ s _ _ => .done rfl s.beside_self _

theorem tagless_checkpoint : Request.checkpoint.Tagless := fun _ _ _ _ => ⟨⟨_, rfl⟩, rfl, rfl, rfl, rfl⟩

theorem tagless_setNoticeMask : Request.setNoticeMask.Tagless := fun film s tag p =>
  .ite Iff.rfl (.refuse s ..) (.done (s.setMask_enterTable _ tag _) ⟨by simp, by simp, by simp, by simp⟩ _)

/-! ### Settings -/

theorem State.setParameter_beside (s : State) (x : Parameter) (v : Nat) : s.Beside (s.setParameter x v) := by
  cases x <;> exact ⟨rfl, rfl, rfl, rfl⟩

theorem tagless_setParameter : Request.setParameter.Tagless := by
  intro film s tag p
  unfold Request.owner decideSetParameter
  dsimp only
  cases Parameter.ofId (wordAt p 0) with
  | none => exact .refuse s ..
  | some x =>
    have pair : (s.enterTable tag .setParameter).pairHolds x (longAt p 4) = s.pairHolds x (longAt p 4) := by
      cases x <;> rfl
    have geometry : (s.enterTable tag .setParameter).geometryHolds x (longAt p 4) = s.geometryHolds x (longAt p 4) := by
      cases x <;> rfl
    exact .ite Iff.rfl (.refuse s ..) (.ite Iff.rfl (.refuse s ..) (.ite (by rw [pair]) (.refuse s ..)
      (.ite (by rw [geometry]) (.refuse s ..) (.done (s.setParameter_enterTable x _ tag _) (s.setParameter_beside x _) _))))

theorem tagless_setRollTrim : Request.setRollTrim.Tagless := fun _ _ _ _ => ⟨⟨_, rfl⟩, rfl, rfl, rfl, rfl⟩

theorem tagless_setFacetGains : Request.setFacetGains.Tagless := by
  intro film s tag p
  refine .ite Iff.rfl (.refuse s ..) ?_
  cases badGain p with
  | none => exact ⟨⟨_, rfl⟩, rfl, rfl, rfl, rfl⟩
  | some f => exact .refuse s ..

theorem State.notice_enterTable (s : State) (tag : Nat) (q : Request) (p : NoticePayload) :
    (s.enterTable tag q).notice p = (s.notice p).enterTable tag q := s.sends_enterTable [.notice p] tag q

theorem State.Beside.notice {s u : State} (beside : s.Beside u) (p : NoticePayload) : s.Beside (u.notice p) := by
  obtain ⟨up, outstanding, staged, raised⟩ := beside
  exact ⟨by simp [up], by simp [outstanding], by simp [staged], by simp [raised]⟩

theorem State.noticeRestored_beside {s u : State} (beside : s.Beside u) (n : Nat) : s.Beside (u.noticeRestored n) := by
  unfold State.noticeRestored
  split
  · exact beside.notice _
  · exact beside

theorem State.noticeRestored_enterTable (s : State) (n tag : Nat) (q : Request) :
    (s.enterTable tag q).noticeRestored n = (s.noticeRestored n).enterTable tag q := by
  unfold State.noticeRestored
  split
  · exact s.notice_enterTable tag q _
  · rfl

theorem tagless_restoreFacets : Request.restoreFacets.Tagless := by
  intro film s tag p
  refine .ite Iff.rfl (.refuse s ..) (.done ?_ ?_ _)
  · exact State.noticeRestored_enterTable (s.setStu { s.stu with facets := mapTable Facet.restore s.stu.facets }) _ tag _
  · exact State.noticeRestored_beside (s := s)
      (u := s.setStu { s.stu with facets := mapTable Facet.restore s.stu.facets }) ⟨rfl, rfl, rfl, rfl⟩ _

theorem tagless_setFootage : Request.setFootage.Tagless := fun _ s _ _ =>
  .ite Iff.rfl (.refuse s ..) (.ite Iff.rfl (.refuse s ..) (.ite Iff.rfl (.refuse s ..)
    ⟨⟨_, rfl⟩, rfl, rfl, rfl, rfl⟩))

theorem tagless_setFaultResponse : Request.setFaultResponse.Tagless := by
  intro film s tag p
  unfold Request.owner decideSetFaultResponse
  dsimp only
  cases FaultKind.ofCode (byteAt p 0) with
  | none => exact .refuse s ..
  | some k =>
    dsimp only
    cases allowedResponse k (byteAt p 1) with
    | none => exact .refuse s ..
    | some r => exact ⟨⟨_, rfl⟩, rfl, rfl, rfl, rfl⟩

theorem tagless_readLog : Request.readLog.Tagless := by
  intro film s tag p
  unfold Request.owner
  dsimp only
  cases asksRepeat p with
  | true => exact .done rfl s.beside_self _
  | false => exact .ite Iff.rfl (.refuse s ..) (.ite Iff.rfl (.refuse s ..) ⟨⟨_, rfl⟩, rfl, rfl, rfl, rfl⟩)

/-! ### Rules and profiles -/

theorem tagless_writeRule : Request.writeRule.Tagless := by
  intro film s tag p
  unfold Request.owner decideWriteRule
  dsimp only
  cases index? (byteAt p 0) 32 with
  | none => exact .refuse s ..
  | some i =>
    refine .ite Iff.rfl (.refuse s ..) ?_
    cases index? (byteAt p 2) 8 with
    | none => exact .refuse s ..
    | some k =>
      refine .ite Iff.rfl (.refuse s ..) ?_
      unfold State.writeRule
      cases badLabelPosition (ruleAt p k).label with
      | none => exact ⟨⟨_, rfl⟩, rfl, rfl, rfl, rfl⟩
      | some n => exact .refuse s ..

theorem tagless_readRule : Request.readRule.Tagless := by
  intro film s tag p
  unfold Request.owner decideReadRule
  dsimp only
  cases index? (byteAt p 0) 32 with
  | none => exact .refuse s ..
  | some i => exact .done rfl s.beside_self _

theorem tagless_loadProfile : Request.loadProfile.Tagless := by
  intro film s tag p
  unfold Request.owner decideLoadProfile
  dsimp only
  cases index? (byteAt p 0) 8 with
  | none => exact .refuse s ..
  | some i =>
    dsimp only
    cases badProfileField p with
    | some offset => exact .refuse s ..
    | none =>
      unfold State.loadProfile
      cases badCurve p with
      | some x => exact .refuse s ..
      | none => exact .ite Iff.rfl (.refuse s ..) ⟨⟨_, rfl⟩, rfl, rfl, rfl, rfl⟩

theorem tagless_readProfile : Request.readProfile.Tagless := by
  intro film s tag p
  unfold Request.owner decideReadProfile
  dsimp only
  cases index? (byteAt p 0) 8 with
  | none => exact .refuse s ..
  | some i => exact .done rfl s.beside_self _

/-! ### Frames -/

theorem tagless_openFrame : Request.openFrame.Tagless := by
  intro film s tag p
  refine .ite Iff.rfl (.refuse s ..) (.ite Iff.rfl (.refuse s ..) ?_)
  have search : (s.enterTable tag .openFrame).admission.search (BitVec.ofNat 32 (longAt p 0)) (wordAt p 6) =
      s.admission.search (BitVec.ofNat 32 (longAt p 0)) (wordAt p 6) := rfl
  rw [search]
  cases s.admission.search (BitVec.ofNat 32 (longAt p 0)) (wordAt p 6) with
  | none => exact .refuse s ..
  | some i =>
    refine .ite Iff.rfl (.refuse s ..) ?_
    have free : (s.enterTable tag .openFrame).freeSlotIndex = s.freeSlotIndex := rfl
    rw [free]
    cases s.freeSlotIndex with
    | none => exact .refuse s ..
    | some slot => exact ⟨⟨_, rfl⟩, rfl, rfl, rfl, rfl⟩

theorem State.setPhase_enterTable (s : State) (tag : Nat) (q : Request) (i : Fin 4) (x : Phase) :
    (s.enterTable tag q).setPhase i x = (s.setPhase i x).enterTable tag q := by
  have slot : (s.enterTable tag q).slot i = s.slot i := rfl
  unfold State.setPhase
  rw [slot]
  cases s.slot i <;> rfl

theorem State.freeSlot_enterTable (s : State) (tag : Nat) (q : Request) (i : Fin 4) :
    (s.enterTable tag q).freeSlot i = (s.freeSlot i).enterTable tag q := by
  have slot : (s.enterTable tag q).slot i = s.slot i := rfl
  unfold State.freeSlot
  rw [slot]
  cases s.slot i <;> rfl

theorem State.setPhase_beside (s : State) (i : Fin 4) (x : Phase) : s.Beside (s.setPhase i x) :=
  ⟨by simp, by simp, by simp, by simp⟩

theorem State.freeSlot_beside (s : State) (i : Fin 4) : s.Beside (s.freeSlot i) :=
  ⟨by simp, by simp, by simp, by simp⟩

/-- The common checks of a slot, and then the request's own decision. -/
theorem Tagless.addressSlot {s : State} {tag : Nat} {q : Request} {p : List Byte} {own own' : Fin 4 → State}
    (owns : ∀ i, Machine.Tagless tag q s (own i) (own' i)) :
    Machine.Tagless tag q s ((s.enterTable tag q).addressSlot (some tag) q p own) (s.addressSlot none q p own') := by
  unfold State.addressSlot
  cases index? (byteAt p 0) 4 with
  | none => exact .refuse s ..
  | some i => exact .ite Iff.rfl (.refuse s ..) (.ite Iff.rfl (.refuse s ..) (owns i))

theorem tagless_closeFrame : Request.closeFrame.Tagless := by
  intro film s tag p
  refine Tagless.addressSlot fun i => ?_
  have slot : (s.enterTable tag .closeFrame).slot i = s.slot i := rfl
  unfold State.closeSlot
  rw [slot]
  cases s.slot i with
  | none => exact .refuse s ..
  | some r =>
    refine .ite Iff.rfl (.refuse s ..) (.ite Iff.rfl (.refuse s ..) (.done ?_ ?_ _))
    · unfold State.joinTail
      rw [State.setPhase_enterTable]
      rfl
    · obtain ⟨up, outstanding, staged, raised⟩ := s.setPhase_beside i .queued
      exact ⟨up, outstanding, staged, raised⟩

theorem tagless_requeueFrame : Request.requeueFrame.Tagless := by
  intro film s tag p
  refine Tagless.addressSlot fun i => ?_
  have slot : (s.enterTable tag .requeueFrame).slot i = s.slot i := rfl
  unfold State.requeueSlot
  rw [slot]
  cases s.slot i with
  | none => exact .refuse s ..
  | some r =>
    refine .ite Iff.rfl (.done ?_ ?_ _) (.refuse s ..)
    · unfold State.joinHead
      rw [State.setPhase_enterTable]
      rfl
    · obtain ⟨up, outstanding, staged, raised⟩ := s.setPhase_beside i .queued
      exact ⟨up, outstanding, staged, raised⟩

theorem State.noticeEmptied_enterTable (s : State) (tag : Nat) (q : Request) :
    (s.enterTable tag q).noticeEmptied = s.noticeEmptied.enterTable tag q := by
  have read : ((s.enterTable tag q).es.engine = .ready ∧ (s.enterTable tag q).fs.queue = []) =
      (s.es.engine = .ready ∧ s.fs.queue = []) := rfl
  unfold State.noticeEmptied
  by_cases empties : s.es.engine = .ready ∧ s.fs.queue = []
  · rw [if_pos empties, if_pos (read ▸ empties), State.notice_enterTable]
  · rw [if_neg empties, if_neg (read ▸ empties)]

theorem State.noticeEmptied_beside {s u : State} (beside : s.Beside u) : s.Beside u.noticeEmptied := by
  unfold State.noticeEmptied
  split
  · exact beside.notice _
  · exact beside

theorem State.leaveQueue_beside {s u : State} (beside : s.Beside u) (i : Fin 4) : s.Beside (u.leaveQueue i) :=
  ⟨beside.up, beside.outstanding, beside.staged, beside.raised⟩

theorem tagless_discardFrame : Request.discardFrame.Tagless := by
  intro film s tag p
  refine Tagless.addressSlot fun i => ?_
  have slot : (s.enterTable tag .discardFrame).slot i = s.slot i := rfl
  unfold State.discardSlot
  rw [slot]
  cases s.slot i with
  | none => exact .refuse s ..
  | some r =>
    dsimp only
    cases r.phase with
    | filling => exact .done (s.freeSlot_enterTable tag _ i) (s.freeSlot_beside i) _
    | active => exact .refuse s ..
    | held => exact .done (s.freeSlot_enterTable tag _ i) (s.freeSlot_beside i) _
    | queued =>
      have left : ((s.enterTable tag .discardFrame).freeSlot i).leaveQueue i =
          ((s.freeSlot i).leaveQueue i).enterTable tag .discardFrame := by
        rw [State.freeSlot_enterTable]
        rfl
      refine .done ?_ ?_ _
      · exact (congrArg State.noticeEmptied left).trans (State.noticeEmptied_enterTable ..)
      · exact State.noticeEmptied_beside (State.leaveQueue_beside (s.freeSlot_beside i) i)

/-! ### The end of the event with a reply and without -/

/-- The reply of a decision goes out last, after all that the event puts out without it. -/
def State.RepliesLast (s : State) : Prop :=
  ∀ r : Reply, State.concluded { s with staged := [r] } =
    { s.concluded with out := s.concluded.out ++ [.reply r] }

theorem State.flush_replies (s : State) (r : Reply) (empty : s.staged = []) :
    State.flush { s with staged := [r] } = { s.flush with out := s.flush.out ++ [.reply r] } := by
  simp [State.flush, empty]

theorem State.repliesLast_later {s : State} (empty : s.staged = []) (later : ∀ f ∈ s.fu.raised,
    f.kind ∉ [FaultKind.facetShortage, .operator, .shutter, .transport, .filmEnd]) : s.RepliesLast := by
  intro r
  rw [State.concluded_later s later, State.concluded_later { s with staged := [r] } later, s.flush_replies r empty]

theorem State.announced_withStaged (s : State) (f : FaultReport) (x : List Reply) :
    State.announced { s with staged := x } f = { s.announced f with staged := x } := by
  rw [State.announced_eq, State.announced_eq, ← State.sends_withStaged]
  rfl

theorem State.pauses_withStaged (s : State) (x : List Reply) :
    State.pauses { s with staged := x } = { s.pauses with staged := x } := by
  unfold State.pauses
  rw [← State.sends_withStaged]

theorem State.aborts_withStaged (s : State) (r : FaultRecord) (x : List Reply) :
    State.aborts { s with staged := x } r = { s.aborts r with staged := x } := by
  unfold State.aborts
  rw [← State.sends_withStaged]

/-- What an OPERATOR does in EXPOSING and PAUSED: nothing that ends a pending reply. -/
theorem appliedByTable_operator {e : Engine} (imaging : e = .exposing ∨ e = .paused) (assigned : Response) :
    appliedByTable e assigned .operator ∈ [Applied.notice, .hold, .pause, .abort, .halt] := by
  rcases imaging with rfl | rfl <;> cases assigned <;> decide

/-- The take of an OPERATOR leaves what is staged. -/
theorem State.takeFault_operator_withStaged {s : State} (imaging : s.es.engine = .exposing ∨ s.es.engine = .paused)
    (n : Nat) (x : List Reply) : State.takeFault { s with staged := x } (.operator n) =
      { s.takeFault (.operator n) with staged := x } := by
  have engine : (s.announced (.operator n)).es.engine = s.es.engine := by simp
  have record : State.faultRecord { s with staged := x } (.operator n) = s.faultRecord (.operator n) := rfl
  have applied : (s.faultRecord (.operator n)).applied ∈ [Applied.notice, .hold, .pause, .abort, .halt] :=
    appliedByTable_operator imaging _
  rw [State.takeFault_eq, State.takeFault_eq, State.announced_withStaged, record,
    State.direct_eq (s := { s.announced (.operator n) with staged := x }) (by simp [State.faultRecord]),
    State.direct_eq (s := s.announced (.operator n)) (by simp [State.faultRecord])]
  revert applied
  cases (s.faultRecord (.operator n)).applied with
  | notice => exact fun _ => rfl
  | hold => exact fun _ => rfl
  | pause => exact fun _ => State.pauses_withStaged _ x
  | abort => exact fun _ => State.aborts_withStaged _ _ x
  | halt =>
    intro _
    have light : (s.announced (.operator n)).es.engine = .exposing ∨ (s.announced (.operator n)).es.engine = .paused := by
      rwa [engine]
    exact (if_pos light).trans ((State.aborts_withStaged _ _ x).trans
      (congrArg (fun t : State => { t with staged := x }) (if_pos light).symm))
  | defer => simp
  | lock => simp
  | record => simp

theorem State.takeFault_operator_staged {s : State} (imaging : s.es.engine = .exposing ∨ s.es.engine = .paused)
    (n : Nat) : (s.takeFault (.operator n)).staged = s.staged :=
  (congrArg State.staged (State.takeFault_operator_withStaged imaging n s.staged) :)

theorem State.repliesLast_operator {s : State} (empty : s.staged = []) (later : ∀ f ∈ s.fu.raised,
    f.kind ∉ [FaultKind.facetShortage, .operator, .shutter, .transport, .filmEnd])
    (imaging : s.es.engine = .exposing ∨ s.es.engine = .paused) (n : Nat) : (s.raise (.operator n)).RepliesLast := by
  intro r
  have silent := State.concluded_operator (s := s.raise (.operator n)) (l := s.fu.raised) rfl later
  have answered := State.concluded_operator (s := { s.raise (.operator n) with staged := [r] }) (l := s.fu.raised) rfl later
  have replied := State.flush_replies _ r ((State.takeFault_operator_staged imaging n).trans empty)
  rw [silent, answered]
  exact (congrArg State.flush (State.takeFault_operator_withStaged imaging n [r])).trans replied

/-! ### A request in hand without its tag -/

/-- The reply of a request just entered in the table is staged, and its entry leaves the table. -/
theorem State.answer_entered {s : State} {tag : Nat} {q : Request} (a : Answer) (up : s.lp.up = true)
    (empty : s.staged = []) (fresh : ∀ o ∈ s.lp.outstanding, o.tag ≠ tag) :
    ∃ r, (s.enterTable tag q).answer (some tag) q a = { s with staged := [r] } := by
  have gone := outstanding_restored s.lp.outstanding tag q fresh
  simp only [State.answer, State.enterTable, State.stage, gone, up, if_true, empty, List.nil_append]
  rw [← up]
  exact ⟨_, rfl⟩

/-- A decision with its tag is the decision without it and one reply, which goes out last. -/
def OnlyReplies (answered silent : State) : Prop :=
  ∃ r, answered = { silent with staged := [r] } ∧ silent.RepliesLast

theorem OnlyReplies.ite {x y x' y' : State} {c c' : Prop} [Decidable c] [Decidable c'] (same : c' ↔ c)
    (yes : c → OnlyReplies x y) (no : ¬ c → OnlyReplies x' y') :
    OnlyReplies (if c' then x else x') (if c then y else y') := by
  by_cases h : c
  · rw [if_pos h, if_pos (same.2 h)]
    exact yes h
  · rw [if_neg h, if_neg (mt same.1 h)]
    exact no h

section
variable {s : State} {tag : Nat} {q : Request}

theorem Tagless.onlyReplies {answered silent : State} (same : Tagless tag q s answered silent) (up : s.lp.up = true)
    (empty : s.staged = []) (fresh : ∀ o ∈ s.lp.outstanding, o.tag ≠ tag) (later : ∀ f ∈ s.fu.raised,
      f.kind ∉ [FaultKind.facetShortage, .operator, .shutter, .transport, .filmEnd]) : OnlyReplies answered silent := by
  obtain ⟨⟨a, answer⟩, beside⟩ := same
  obtain ⟨r, staged⟩ := State.answer_entered (q := q) a (beside.up.trans up) (beside.staged.trans empty)
    (by rwa [beside.outstanding])
  exact ⟨r, answer.trans staged, State.repliesLast_later (beside.staged.trans empty) (by rwa [beside.raised])⟩

theorem onlyReplies_abortFrame (p : List Byte) (up : s.lp.up = true) (empty : s.staged = [])
    (fresh : ∀ o ∈ s.lp.outstanding, o.tag ≠ tag) (later : ∀ f ∈ s.fu.raised,
      f.kind ∉ [FaultKind.facetShortage, .operator, .shutter, .transport, .filmEnd]) :
    OnlyReplies (decideAbortFrame (s.enterTable tag .abortFrame) (some tag) p) (decideAbortFrame s none p) := by
  have refused (reason : Reason) (field : Nat) (d : ReplyData) :=
    (Tagless.refuse s tag .abortFrame reason field d).onlyReplies up empty fresh later
  refine .ite Iff.rfl (fun _ => refused _ _ _) fun imaging => .ite Iff.rfl (fun _ => refused _ _ _) fun _ =>
    .ite Iff.rfl (fun _ => refused _ _ _) fun _ => ?_
  obtain ⟨r, staged⟩ := State.answer_entered (s := s.raise (.operator s.activeSequence)) (q := .abortFrame)
    { outcome := .done } up empty fresh
  exact ⟨r, staged, State.repliesLast_operator empty later (by tauto) _⟩

end

/-- Every immediate request but Abort Frame. -/
theorem Request.tagless {q : Request} (immediate : q.isLong = false) (other : q ≠ .abortFrame) : q.Tagless := by
  cases q with
  | identify => exact tagless_identify
  | status => exact tagless_status
  | checkpoint => exact tagless_checkpoint
  | setParameter => exact tagless_setParameter
  | setNoticeMask => exact tagless_setNoticeMask
  | openFrame => exact tagless_openFrame
  | closeFrame => exact tagless_closeFrame
  | discardFrame => exact tagless_discardFrame
  | requeueFrame => exact tagless_requeueFrame
  | writeRule => exact tagless_writeRule
  | readRule => exact tagless_readRule
  | loadProfile => exact tagless_loadProfile
  | readProfile => exact tagless_readProfile
  | setRollTrim => exact tagless_setRollTrim
  | setFacetGains => exact tagless_setFacetGains
  | restoreFacets => exact tagless_restoreFacets
  | setFootage => exact tagless_setFootage
  | setFaultResponse => exact tagless_setFaultResponse
  | readLog => exact tagless_readLog
  | abortFrame => exact absurd rfl other
  | startEngine => cases immediate
  | resumeEngine => cases immediate
  | stopEngine => cases immediate
  | resetEngine => cases immediate
  | advanceFilm => cases immediate

theorem State.Accepts.onlyReplies {s : State} {tag : Nat} {q : Request} {p : List Byte} (accepts : s.Accepts tag q p)
    (immediate : q.isLong = false) (film : Bool) : OnlyReplies
      (q.owner film p (s.takeRecord.enterTable tag q) (some tag) p) (q.owner film p s.takeRecord none p) := by
  have up : s.takeRecord.lp.up = true := by simpa using accepts.up
  have empty : s.takeRecord.staged = [] := by simpa using accepts.before.staged
  have fresh : ∀ o ∈ s.takeRecord.lp.outstanding, o.tag ≠ tag := by simpa using accepts.fresh
  have later : ∀ f ∈ s.takeRecord.fu.raised,
      f.kind ∉ [FaultKind.facetShortage, .operator, .shutter, .transport, .filmEnd] := fun f here =>
    (accepts.before.raised f (by simpa using here)).1
  by_cases abort : q = .abortFrame
  · subst abort
    exact onlyReplies_abortFrame p up empty fresh later
  · exact (q.tagless immediate abort film s.takeRecord tag p).onlyReplies up empty fresh later

/-- The command of a request in hand without its tag is the end of the event of its owner's decision without it. -/
theorem exec_untagged {s : State} {r : Record} {tag : Nat} {q : Request} {p : List Byte} (film : Bool)
    (accepts : s.Accepts tag q p) (first : s.lp.queue.head? = some r) :
    exec (q.command film p) { s.takeRecord with lp := { s.takeRecord.lp with held := some ⟨r, false⟩ } } =
      .next (q.owner film p s.takeRecord none p).concluded := by
  obtain ⟨r', first', judged⟩ := (s.head_free accepts.free _).1 accepts.head
  obtain rfl : r' = r := by simpa [first'] using first
  have back : { s.takeRecord with lp := { s.takeRecord.lp with held := none } } = s.takeRecord := by
    rw [← s.takeRecord_empties]
  have decided := State.onRequestWhen_inHand
    { s.takeRecord with lp := { s.takeRecord.lp with held := some ⟨r', false⟩ } } tag q p ⟨r', false⟩ rfl judged
    (q.picks p) (q.picks_self p) (q.owner film p)
  have unlocked : s.takeRecord.es.engine = .locked → q.acceptedInLocked = true := by simpa using accepts.unlocked
  rw [exec_command, run, decided]
  exact congrArg (fun t => Host.Outcome.next (State.concluded t))
    ((congrArg (fun t => State.handToOwner t none q p (q.owner film p)) back).trans
      (s.takeRecord.handToOwner_unlocked none q p _ unlocked))

/-! ### Link up and link reset -/

theorem State.notice_hello {s : State} (up : s.lp.up = true) (c : HelloCause) :
    s.notice (.hello c) = s.puts [.notice ⟨1, .hello c⟩] :=
  (if_pos (Or.inl rfl)).trans (if_pos up)

theorem exec_linkUp {s : State} (before : s.Before []) (down : s.lp.up = false) : exec .linkUp s =
    .next (State.puts { s with lp := { s.lp with up := true, flow := .go } }
      [.flow .go, .notice ⟨1, .hello .powerOn⟩]) := by
  refine run_event (effect := State.bringUp) before ?_ rfl rfl
  refine (if_neg (by simp [down])).trans ((State.notice_hello rfl _).trans ?_)
  simp [State.puts, State.sendFlow, State.emit]

theorem exec_linkReset {s : State} (before : s.Before []) (up : s.lp.up = true) : exec .linkReset s =
    .next (State.puts { s with
      lp := ⟨true, [], .go, [], 0, none, ⟨0, none⟩, s.lp.held.map (fun h => ⟨h.record, false⟩)⟩
      es := { s.es with replies := s.es.replies.dropTags } } [.flow .go, .notice ⟨1, .hello .linkReset⟩]) := by
  refine run_event (effect := State.resetLink) before ?_ rfl rfl
  refine (if_pos up).trans ((State.notice_hello (by exact up) _).trans ?_)
  simp [State.puts, State.sendFlow, State.emit, State.setEs, LinkPort.clear, up]

/-- Settles O4: LP's two link events, and a request in hand whose tag a link reset has dropped, which is decided as it
would have been but for its reply. -/
theorem linkUpAndReset : Obligations.LinkUpAndReset := by
  refine ⟨fun s before => ⟨exec_linkUp before, exec_linkReset before⟩, fun s t u r tag q p film accepts first hand => ?_⟩
  subst hand
  refine ⟨fun immediate run => ?_, fun stop later free clear => ?_⟩
  · obtain ⟨reply, answered, last⟩ := accepts.onlyReplies immediate film
    have decided : t = State.concluded { q.owner film p s.takeRecord none p with staged := [reply] } := by
      rw [← answered, ← s.onRequestWhen_accepts tag q p accepts _ (q.picks_self p) (q.owner film p)]
      rw [exec_command] at run
      exact (Host.Outcome.next.inj run).symm
    rw [exec_untagged film accepts first, decided, last reply]
    exact ⟨⟨reply, by simp⟩, by simp⟩
  · subst stop
    have notIdle : ¬ (s.es.engine = .offline ∨ s.es.engine = .stopping) := by
      rintro (engine | engine) <;> rw [engine] at later <;> simp [Engine.stopsLater] at later
    have decided : decideStopEngine s.takeRecord none p = { s.takeRecord with es := { s.es with
        stopPending := true, replies := { s.es.replies with stop := some ⟨.stopEngine, none⟩ } } } := by
      refine (if_neg (by simpa [free, clear] using notIdle)).trans ((if_pos (by simpa using later)).trans ?_)
      simp [State.setPending, State.setEs, PendingReplies.set]
    refine (exec_untagged (q := .stopEngine) film accepts first).trans (congrArg Host.Outcome.next ?_)
    refine (congrArg State.concluded decided).trans ?_
    rw [State.concluded_later _ fun f here => (accepts.before.raised f (by simpa using here)).1,
      State.flush_none _ (by simpa using accepts.before.staged)]

end Sys2Proof.Machine
end

