-- ==== Sys2Proof/Proofs/Fields.lean ====
section
/-! PROOFS. What a field reads as at its offset, and the frame of a record (Table 12-1). -/

namespace Sys2Proof.Machine

/-! ### Lengths -/

@[simp] theorem le8_length (n : Nat) : (le8 n).length = 1 := by simp [le8]
@[simp] theorem le16_length (n : Nat) : (le16 n).length = 2 := by simp [le16]
@[simp] theorem le32_length (n : Nat) : (le32 n).length = 4 := by simp [le32]
@[simp] theorem zeros_length (n : Nat) : (zeros n).length = n := List.length_replicate
@[simp] theorem signed8_length (x : Int) : (signed8 x).length = 1 := by simp [signed8]
@[simp] theorem flag_length (b : Bool) : (flag b).length = 1 := by simp [flag]
@[simp] theorem index8_length (o : Option Nat) : (index8 o).length = 1 := by simp [index8]
@[simp] theorem line16_length (o : Option Nat) : (line16 o).length = 2 := by simp [line16]
@[simp] theorem footage_bytes_length (f : Footage) : f.bytes.length = 3 := by simp [Footage.bytes]

/-! ### A field at its offset -/

section
variable {l m : List Byte} {i : Nat}

@[simp] theorem byteAt_append_left (here : i < l.length) : byteAt (l ++ m) i = byteAt l i := by
  rw [byteAt, byteAt, List.getElem?_append_left here]

@[simp] theorem byteAt_append_right (past : l.length ≤ i) : byteAt (l ++ m) i = byteAt m (i - l.length) := by
  rw [byteAt, byteAt, List.getElem?_append_right past]

@[simp] theorem wordAt_append_left (here : i + 1 < l.length) : wordAt (l ++ m) i = wordAt l i := by
  rw [wordAt, wordAt, byteAt_append_left (by omega), byteAt_append_left here]

@[simp] theorem wordAt_append_right (past : l.length ≤ i) : wordAt (l ++ m) i = wordAt m (i - l.length) := by
  rw [wordAt, wordAt, byteAt_append_right past, byteAt_append_right (by omega), Nat.sub_add_comm past]

@[simp] theorem longAt_append_left (here : i + 3 < l.length) : longAt (l ++ m) i = longAt l i := by
  rw [longAt, longAt, wordAt_append_left (by omega), wordAt_append_left (by omega)]

@[simp] theorem longAt_append_right (past : l.length ≤ i) : longAt (l ++ m) i = longAt m (i - l.length) := by
  rw [longAt, longAt, wordAt_append_right past, wordAt_append_right (by omega), Nat.sub_add_comm past]

@[simp] theorem drop_append_past (past : l.length ≤ i) : (l ++ m).drop i = m.drop (i - l.length) := by
  rw [List.drop_append, List.drop_of_length_le past, List.nil_append]

end

@[simp] theorem byteAt_le8 (n : Nat) : byteAt (le8 n) 0 = n % 256 := by simp [byteAt, le8]

@[simp] theorem wordAt_le16 (n : Nat) : wordAt (le16 n) 0 = n % 65536 := by
  simp [wordAt, byteAt, le16]
  omega

@[simp] theorem longAt_le32 (n : Nat) : longAt (le32 n) 0 = n % 4294967296 := by
  rw [longAt, le32, wordAt_append_left (by simp), wordAt_append_right (by simp), wordAt_le16]
  simp
  omega

/-- A signed byte reads as its value modulo 256. -/
@[simp] theorem byteAt_signed8 (x : Int) : (byteAt (signed8 x) 0 : Int) = x % 256 := by
  simp [byteAt, signed8, BitVec.toNat_ofInt]
  omega

@[simp] theorem byteAt_flag (b : Bool) : byteAt (flag b) 0 = if b then 1 else 0 := by cases b <;> rfl

@[simp] theorem byteAt_index8 (o : Option Nat) : byteAt (index8 o) 0 = o.getD 0xFF % 256 := byteAt_le8 _

@[simp] theorem wordAt_line16 (o : Option Nat) : wordAt (line16 o) 0 = o.getD 0xFFFF % 65536 := wordAt_le16 _

@[simp] theorem byteAt_zeros (n i : Nat) : byteAt (zeros n) i = 0 := by
  simp only [byteAt, zeros, List.getElem?_replicate]
  split <;> rfl

@[simp] theorem wordAt_zeros (n i : Nat) : wordAt (zeros n) i = 0 := by simp [wordAt]

@[simp] theorem longAt_zeros (n i : Nat) : longAt (zeros n) i = 0 := by simp [longAt]

@[simp] theorem drop_zeros (n k : Nat) : (zeros n).drop k = zeros (n - k) := List.drop_replicate

@[simp] theorem padTo_eq {n : Nat} {l : List Byte} (short : l.length ≤ n) : padTo n l = l ++ zeros (n - l.length) := by
  rw [padTo, List.take_append, List.take_of_length_le short, zeros, List.take_replicate]
  congr 2
  omega

theorem Footage.feet_lt (f : Footage) : f.feet < 65536 := by
  unfold Footage.feet
  omega

theorem Footage.frames_lt (f : Footage) : f.frames < 256 := by
  unfold Footage.frames
  omega

@[simp] theorem wordAt_footage (f : Footage) : wordAt f.bytes 0 = f.feet := by
  simp [Footage.bytes, Nat.mod_eq_of_lt f.feet_lt]

@[simp] theorem byteAt_footage (f : Footage) : byteAt f.bytes 2 = f.frames := by
  simp [Footage.bytes, Nat.mod_eq_of_lt f.frames_lt]

/-! ### The record frame -/

/-- The header and the payload of a record, which its CRC is over. -/
def recordBody (kind tag code level : Nat) (p : List Byte) : List Byte :=
  le8 kind ++ le8 tag ++ le8 code ++ le8 level ++ le16 p.length ++ zeros 2 ++ p

theorem recordBytes_eq (kind tag code level : Nat) (p : List Byte) : recordBytes kind tag code level p =
    recordBody kind tag code level p ++ le32 (crc32 (recordBody kind tag code level p)).toNat := rfl

@[simp] theorem recordBody_length (kind tag code level : Nat) (p : List Byte) :
    (recordBody kind tag code level p).length = 8 + p.length := by
  simp [recordBody]
  omega

/-- The fields of a record, its payload and its trailer. -/
theorem recordBytes_fields {kind tag code level : Nat} {p r : List Byte} (kinds : kind < 256) (tags : tag < 256)
    (codes : code < 256) (levels : level < 256) (size : p.length ≤ 16390)
    (made : r = recordBytes kind tag code level p) :
    r.length = 12 + p.length ∧ byteAt r 0 = kind ∧ byteAt r 1 = tag ∧ byteAt r 2 = code ∧
      byteAt r 3 = level ∧ wordAt r 4 = p.length ∧ wordAt r 6 = 0 ∧ payloadOf r = p ∧
      longAt r (8 + p.length) = (crc32 (r.take (8 + p.length))).toNat := by
  have whole : r.take (8 + p.length) = recordBody kind tag code level p := by
    rw [made, recordBytes_eq, List.take_left' (by simp)]
  have carried : wordAt r 4 = p.length := by
    rw [made, recordBytes_eq, wordAt_append_left (by rw [recordBody_length]; omega)]
    simp [recordBody]
    omega
  refine ⟨?_, ?_, ?_, ?_, ?_, carried, ?_, ?_, ?_⟩
  · simp [made, recordBytes_eq]
    omega
  · simp [made, recordBytes_eq, recordBody, Nat.mod_eq_of_lt kinds]
  · simp [made, recordBytes_eq, recordBody, Nat.mod_eq_of_lt tags]
  · simp [made, recordBytes_eq, recordBody, Nat.mod_eq_of_lt codes]
  · simp [made, recordBytes_eq, recordBody, Nat.mod_eq_of_lt levels]
  · simp [made, recordBytes_eq, recordBody]
  · rw [payloadOf, payloadLength, carried, made, recordBytes_eq]
    simp [recordBody]
  · rw [whole, made, recordBytes_eq, longAt_append_right (by simp)]
    simp [Nat.mod_eq_of_lt (BitVec.isLt _)]

end Sys2Proof.Machine
end

