-- ==== Sys2Proof/Proofs/DataFields.lean ====
section
/-! PROOFS. The data of replies and the payloads of notices field by field, and the codes of Tables 12-2 and 12-9. -/

namespace Sys2Proof.Machine

/-! ### Fields in order -/

@[simp] theorem fieldsOf_nil : fieldsOf [] = [] := rfl

@[simp] theorem fieldsOf_append (l m : List (Nat × Nat)) : fieldsOf (l ++ m) = fieldsOf l ++ fieldsOf m :=
  List.flatMap_append

@[simp] theorem fieldsOf_byte (v : Nat) (l : List (Nat × Nat)) : fieldsOf ((1, v) :: l) = le8 v ++ fieldsOf l := by
  simp [fieldsOf, le8]

@[simp] theorem fieldsOf_word (v : Nat) (l : List (Nat × Nat)) : fieldsOf ((2, v) :: l) = le16 v ++ fieldsOf l := by
  simp [fieldsOf, le16, List.range_succ]

@[simp] theorem fieldsOf_long (v : Nat) (l : List (Nat × Nat)) : fieldsOf ((4, v) :: l) = le32 v ++ fieldsOf l := by
  simp [fieldsOf, le32, le16, List.range_succ, Nat.div_div_eq_div_mul]

theorem fieldsOf_flatMap {α : Type} (f : α → List (Nat × Nat)) (l : List α) :
    fieldsOf (l.flatMap f) = l.flatMap fun x => fieldsOf (f x) :=
  List.flatMap_assoc

theorem fieldsOf_map {α : Type} (f : α → Nat × Nat) (l : List α) :
    fieldsOf (l.map f) = l.flatMap fun x => fieldsOf [f x] := by
  rw [← fieldsOf_flatMap, List.map_eq_flatMap]

theorem flag_eq (b : Bool) : flag b = le8 b.toNat := by cases b <;> rfl

theorem signed8_eq (x : Int) : signed8 x = le8 (x % 256).toNat := by
  refine congrArg (· :: []) (BitVec.eq_of_toNat_eq ?_)
  simp [BitVec.toNat_ofInt]
  omega

theorem signed16_eq (x : Int) : signed16 x = le16 (x % 65536).toNat := by
  simp [signed16, BitVec.toNat_ofInt]

theorem signed32_eq (x : Int) : signed32 x = le32 (x % 4294967296).toNat := by
  simp [signed32, BitVec.toNat_ofInt]

/-- The code of an item, or what stands for its absence. -/
theorem getD_code {α : Type} (code : α → Nat) (o : Option α) (absent : Nat) :
    (o.map code).getD absent = o.elim absent code := by
  cases o <;> rfl

theorem channelSet_isSome {α : Type} (x : Rgb (Option α)) : channelSet (x.map (·.isSome)) =
    (if x.r.isSome then 1 else 0) + (if x.g.isSome then 2 else 0) + (if x.b.isSome then 4 else 0) := rfl

/-! ### The data of replies and the payloads of notices -/

/-- The first posted error, or its absence. -/
theorem PostedErrors.bytes_eq (p : PostedErrors) : p.bytes = fieldsOf ([(2, p.count)] ++ p.first.elim
    [(1, 0xFF), (2, 0xFFFF), (1, 0)] fun f => [(1, f.slot), (2, f.line), (1, f.reason.code)]) := by
  cases first : p.first <;> simp [PostedErrors.bytes, first]
  rfl

theorem checkpoint_fields (p : PostedErrors) (errors : Nat) (first : Option LinkError) :
    ReplyData.bytes (.checkpoint p errors first) = fieldsOf ([(2, p.count)] ++ p.first.elim
      [(1, 0xFF), (2, 0xFFFF), (1, 0)] (fun f => [(1, f.slot), (2, f.line), (1, f.reason.code)]) ++
        [(2, errors), (1, first.elim 0 LinkError.code)]) := by
  simp [ReplyData.bytes, p.bytes_eq, getD_code]

/-! ### The fault record -/

theorem FaultReport.data_length (f : FaultReport) : f.data.length ≤ 8 := by
  cases f <;> simp [FaultReport.data]

@[simp] theorem FaultRecord.bytes_length (r : FaultRecord) : r.bytes.length = 20 := by
  simp [FaultRecord.bytes, r.report.data_length]

theorem FaultKind.code_lt (k : FaultKind) : k.code < 256 := by cases k <;> decide

theorem Engine.code_lt (e : Engine) : e.code < 256 := by cases e <;> decide

theorem Applied.code_lt (a : Applied) : a.code < 256 := by cases a <;> decide

theorem Gate.code_lt (g : Gate) : g.code < 256 := by cases g <;> decide

theorem GateOp.code_lt (o : GateOp) : o.code < 256 := by cases o <;> decide

theorem channelSet_eq (x : Rgb Bool) : channelSet x % 256 =
    (if x.r then 1 else 0) + (if x.g then 2 else 0) + (if x.b then 4 else 0) := by
  unfold channelSet
  split <;> split <;> split <;> rfl

theorem startWaitSet_eq (w : List Wait) : startWaitSet w % 256 =
    (if Wait.speed ∈ w then 1 else 0) + (if Wait.settle ∈ w then 2 else 0) +
      (if Wait.stage ∈ w then 4 else 0) + (if Wait.gate ∈ w then 8 else 0) := by
  simp only [startWaitSet, List.contains_iff_mem]
  split <;> split <;> split <;> split <;> rfl

/-- An absent index is 0xFF. -/
theorem getD_index {α : Type} (place : α → Nat) (small : ∀ a, place a < 256) (o : Option α) :
    (o.map place).getD 0xFF % 256 = o.elim 0xFF place := by
  cases o with
  | none => rfl
  | some a => exact Nat.mod_eq_of_lt (small a)

/-- The fields of a fault record ahead of its data. -/
theorem FaultRecord.bytes_fields (r : FaultRecord) : byteAt r.bytes 0 = 0x41 + r.report.kind.index.val ∧
    byteAt r.bytes 1 = r.engine.code ∧ byteAt r.bytes 2 = r.applied.code ∧
    byteAt r.bytes 3 = r.slot.elim 0xFF (·.val) ∧ wordAt r.bytes 4 = r.line.elim 0xFFFF (· % 65536) ∧
    byteAt r.bytes 6 = r.report.channel.elim 0xFF channelNumber ∧ byteAt r.bytes 7 = r.facet.elim 0xFF (·.val) ∧
    wordAt r.bytes 8 = r.footage.feet ∧ byteAt r.bytes 10 = r.footage.frames ∧ byteAt r.bytes 11 = 0 := by
  have places : channelPlace = channelNumber := funext channelPlace_eq
  refine ⟨?_, ?_, ?_, ?_, ?_, ?_, ?_, by simp [FaultRecord.bytes], by simp [FaultRecord.bytes],
    by simp [FaultRecord.bytes]⟩
  · simpa [FaultRecord.bytes, FaultKind.code] using r.report.kind.code_lt
  · simp [FaultRecord.bytes, Engine.code_lt]
  · simp [FaultRecord.bytes, Applied.code_lt]
  · simpa [FaultRecord.bytes] using getD_index Fin.val (fun i => by omega) r.slot
  · cases line : r.line <;> simp [FaultRecord.bytes, line]
  · simpa [FaultRecord.bytes, places] using getD_index channelNumber (fun c => by cases c <;> decide) r.report.channel
  · simpa [FaultRecord.bytes] using getD_index Fin.val (fun i => by omega) r.facet

/-! ### The roll log record -/

@[simp] theorem take_append_whole {l m : List Byte} {n : Nat} (size : l.length = n) : (l ++ m).take n = l :=
  List.take_left' size

@[simp] theorem FrameEntry.head_length (e : FrameEntry) (outcome : Nat) : (e.head outcome).length = 4 := by
  simp [FrameEntry.head]

@[simp] theorem rgb32_length (x : Rgb Nat) : (rgb32 x).length = 12 := by simp [rgb32]

@[simp] theorem FrameEntry.bytes_length (e : FrameEntry) : e.bytes.length = 52 := by simp [FrameEntry.bytes]

theorem Cause.code_lt (c : Cause) : c.code < 256 := by
  cases c with
  | reset => decide
  | fault k => exact k.code_lt

/-- The bytes of a frame's record, of either outcome: its outcome, then the fields, with the cause at offset 11. -/
def frameBytes (r : LogRecord) (e : FrameEntry) (outcome cause : Nat) : List Byte :=
  le32 r.seq ++ (e.head outcome ++ r.footage.bytes ++ le8 cause ++ e.bytes)

theorem LogRecord.bytes_exposed {r : LogRecord} {e : FrameEntry} (body : r.body = .exposed e) :
    r.bytes = frameBytes r e 1 0 := by
  rw [LogRecord.bytes, body]
  rfl

theorem LogRecord.bytes_spoiled {r : LogRecord} {e : FrameEntry} {c : Cause} (body : r.body = .spoiled e c) :
    r.bytes = frameBytes r e 2 c.code := by
  rw [LogRecord.bytes, body]
  rfl

theorem LogRecord.bytes_blank {r : LogRecord} {n : Nat} (body : r.body = .blank n) : r.bytes =
    le32 r.seq ++ (le8 3 ++ (le8 0xFF ++ le8 0xFF ++ le8 0xFF) ++ r.footage.bytes ++ zeros 7 ++ le8 n ++ zeros 45) := by
  rw [LogRecord.bytes, body]
  rfl

theorem LogRecord.cases (r : LogRecord) : (∃ e outcome cause, r.bytes = frameBytes r e outcome cause) ∨
    ∃ n, r.body = .blank n := by
  cases body : r.body with
  | exposed e => exact .inl ⟨e, _, _, bytes_exposed body⟩
  | spoiled e c => exact .inl ⟨e, _, _, bytes_spoiled body⟩
  | blank n => exact .inr ⟨n, rfl⟩

/-- The fields every record has. -/
theorem LogRecord.bytes_fields (r : LogRecord) : r.bytes.length = 64 ∧ longAt r.bytes 0 = r.seq % 4294967296 ∧
    wordAt r.bytes 8 = r.footage.feet ∧ byteAt r.bytes 10 = r.footage.frames ∧ wordAt r.bytes 22 = 0 := by
  rcases r.cases with ⟨e, outcome, cause, frame⟩ | ⟨n, blank⟩
  · rw [frame]
    simp [frameBytes, FrameEntry.bytes]
  · rw [bytes_blank blank]
    simp

/-- The fields of a frame. -/
theorem frameBytes_fields (r : LogRecord) (e : FrameEntry) (outcome cause : Nat) {b : List Byte}
    (made : b = frameBytes r e outcome cause) :
      byteAt b 5 = e.slot.val ∧ byteAt b 6 = e.rule.val ∧ byteAt b 7 = e.profile.val ∧
      longAt b 12 = e.key.toNat ∧ wordAt b 16 = e.stock % 65536 ∧ byteAt b 18 = 0 ∧
      (byteAt b 19 : Int) = e.trims.r % 256 ∧ (byteAt b 20 : Int) = e.trims.g % 256 ∧
      (byteAt b 21 : Int) = e.trims.b % 256 ∧ (b.drop 24).take 8 = e.label.toList ∧
      wordAt b 32 = e.exposed % 65536 ∧ wordAt b 34 = e.defects % 65536 ∧
      longAt b 36 = e.pauses % 4294967296 ∧ longAt b 40 = e.clips.r.high % 4294967296 ∧
      longAt b 44 = e.clips.g.high % 4294967296 ∧ longAt b 48 = e.clips.b.high % 4294967296 ∧
      longAt b 52 = e.clips.r.low % 4294967296 ∧ longAt b 56 = e.clips.g.low % 4294967296 ∧
      longAt b 60 = e.clips.b.low % 4294967296 := by
  have slot := Nat.mod_eq_of_lt (show e.slot.val < 256 by omega)
  have rule := Nat.mod_eq_of_lt (show e.rule.val < 256 by omega)
  have profile := Nat.mod_eq_of_lt (show e.profile.val < 256 by omega)
  have key := Nat.mod_eq_of_lt e.key.isLt
  subst made
  simp [frameBytes, FrameEntry.head, FrameEntry.bytes, rgb32, Rgb.map, slot, rule, profile, key]

theorem frameBytes_outcome (r : LogRecord) (e : FrameEntry) (outcome cause : Nat) :
    byteAt (frameBytes r e outcome cause) 4 = outcome % 256 ∧ byteAt (frameBytes r e outcome cause) 11 = cause % 256 := by
  simp [frameBytes, FrameEntry.head]

/-- The fields of a blank run. -/
theorem LogRecord.bytes_blank_fields {r : LogRecord} {n : Nat} (body : r.body = .blank n) {b : List Byte}
    (made : b = r.bytes) : byteAt b 4 = 3 ∧ byteAt b 5 = 0xFF ∧ byteAt b 6 = 0xFF ∧ byteAt b 7 = 0xFF ∧
      byteAt b 11 = 0 ∧ longAt b 12 = 0 ∧ wordAt b 16 = 0 ∧ byteAt b 18 = n % 256 ∧
      b.drop 19 = List.replicate 45 0 := by
  rw [made, bytes_blank body]
  simp
  rfl

/-! ### Rules and profiles -/

theorem Rule.bytes_fields {i n : Nat} {r : Rule} {b : List Byte} (index : i < 32)
    (made : b = ReplyData.bytes (.rule i r n)) :
    b.length = 25 ∧ byteAt b 0 = i ∧ byteAt b 1 = (if r.valid = true then 1 else 0) ∧
    byteAt b 2 = r.profile.val ∧ byteAt b 3 = 0 ∧ longAt b 4 = r.key.toNat ∧
    longAt b 8 = r.mask.toNat ∧ (b.drop 12).take 8 = r.label.toList ∧
    wordAt b 20 = r.minHeight % 65536 ∧ wordAt b 22 = 0 ∧ byteAt b 24 = n % 256 := by
  have place := Nat.mod_eq_of_lt (show i < 256 by omega)
  have profile := Nat.mod_eq_of_lt (show r.profile.val < 256 by omega)
  have key := Nat.mod_eq_of_lt r.key.isLt
  have mask := Nat.mod_eq_of_lt r.mask.isLt
  subst made
  simp [ReplyData.bytes, Rule.bytes, place, profile, key, mask]

theorem words_length (l : List Nat) : (l.flatMap le16).length = 2 * l.length := by
  induction l with
  | nil => rfl
  | cons v l ih =>
    simp [ih]
    omega

/-- A list of two-byte fields. -/
theorem wordAt_words {l : List Nat} {k : Nat} (here : k < l.length) : wordAt (l.flatMap le16) (2 * k) = l[k] % 65536 := by
  induction l generalizing k with
  | nil => simp at here
  | cons v l ih =>
    cases k with
    | zero => simp
    | succ k =>
      have past : 2 * (k + 1) - 2 = 2 * k := by omega
      rw [List.flatMap_cons, wordAt_append_right (by simp), le16_length, past,
        ih (by simpa using here), List.getElem_cons_succ]

@[simp] theorem curve_length (c : Curve) : (c.toList.flatMap le16).length = 66 := by
  rw [words_length, Vector.length_toList]

@[simp] theorem ProfileChannel.bytes_length (c : ProfileChannel) : c.bytes.length = 74 := by
  simp [ProfileChannel.bytes]

/-- The fields of a channel in its 74 bytes. -/
theorem ProfileChannel.bytes_fields (x : ProfileChannel) : byteAt x.bytes 0 = x.range % 256 ∧
    (x.bytes.drop 1).take 3 = [0, 0, 0] ∧ longAt x.bytes 4 = x.scale % 4294967296 ∧
    ∀ k : Fin 33, wordAt x.bytes (8 + 2 * k.val) = x.curve[k] % 65536 := by
  refine ⟨by simp [ProfileChannel.bytes], ?_, by simp [ProfileChannel.bytes], fun k => ?_⟩
  · simp [ProfileChannel.bytes]
    rfl
  · have past : 8 + 2 * k.val - 8 = 2 * k.val := by omega
    rw [ProfileChannel.bytes, wordAt_append_right (by simp), show (le8 x.range ++ zeros 3 ++ le32 x.scale).length = 8 by simp,
      past, wordAt_words (by simp)]
    exact congrArg (· % 65536) (by simp)

section
variable {head x tail : List Byte} {i : Nat}

/-- A part in the middle reads as it does by itself. -/
theorem byteAt_middle (inside : i < x.length) : byteAt (head ++ (x ++ tail)) (head.length + i) = byteAt x i := by
  rw [byteAt_append_right (by omega), Nat.add_sub_cancel_left, byteAt_append_left inside]

theorem wordAt_middle (inside : i + 1 < x.length) : wordAt (head ++ (x ++ tail)) (head.length + i) = wordAt x i := by
  rw [wordAt_append_right (by omega), Nat.add_sub_cancel_left, wordAt_append_left inside]

theorem longAt_middle (inside : i + 3 < x.length) : longAt (head ++ (x ++ tail)) (head.length + i) = longAt x i := by
  rw [longAt_append_right (by omega), Nat.add_sub_cancel_left, longAt_append_left inside]

theorem take_middle {n : Nat} (inside : i + n ≤ x.length) :
    ((head ++ (x ++ tail)).drop (head.length + i)).take n = (x.drop i).take n := by
  rw [drop_append_past (by omega), Nat.add_sub_cancel_left, List.drop_append_of_le_length (by omega),
    List.take_append_of_le_length (by rw [List.length_drop]; omega)]

end

/-- The fields of a profile ahead of those of its channels. -/
def Profile.common (q : Profile) (i : Nat) : List Byte :=
  le8 i ++ flag q.valid ++ flag q.channels.r.enabled ++ flag q.channels.g.enabled ++ flag q.channels.b.enabled ++
    zeros 1 ++ le16 q.stock

@[simp] theorem Profile.common_length (q : Profile) (i : Nat) : (q.common i).length = 8 := by simp [Profile.common]

theorem profile_bytes (i : Nat) (q : Profile) : ReplyData.bytes (.profile i q) = q.common i ++
    (q.channels.r.bytes ++ (q.channels.g.bytes ++ (q.channels.b.bytes ++ le8 q.refs))) := by
  simp [ReplyData.bytes, Profile.bytes, Profile.common]

/-- The 74 bytes of a channel stand in the profile. -/
theorem profile_channel (i : Nat) (q : Profile) (c : Channel) : ∃ head tail,
    ReplyData.bytes (.profile i q) = head ++ ((q.channels.get c).bytes ++ tail) ∧
      head.length = 8 + 74 * channelNumber c := by
  cases c with
  | red => exact ⟨q.common i, _, profile_bytes i q, by simp [channelNumber]⟩
  | green => exact ⟨q.common i ++ q.channels.r.bytes, _, by rw [profile_bytes, List.append_assoc]; rfl,
      by simp [channelNumber]⟩
  | blue => exact ⟨q.common i ++ (q.channels.r.bytes ++ q.channels.g.bytes), _,
      by rw [profile_bytes, List.append_assoc, List.append_assoc]; rfl, by simp [channelNumber]⟩

/-- The fields of a profile. -/
theorem Profile.bytes_fields {i : Nat} {q : Profile} {b : List Byte} (index : i < 8)
    (made : b = ReplyData.bytes (.profile i q)) :
    b.length = 231 ∧ byteAt b 0 = i ∧ byteAt b 1 = (if q.valid = true then 1 else 0) ∧
    byteAt b 5 = 0 ∧ wordAt b 6 = q.stock % 65536 ∧ byteAt b 230 = q.refs % 256 ∧
    ∀ (c : Channel) (n : Nat) (x : ProfileChannel), n = channelNumber c → x = q.channels.get c →
      byteAt b (2 + n) = (if x.enabled = true then 1 else 0) ∧
      byteAt b (8 + 74 * n) = x.range % 256 ∧ (b.drop (9 + 74 * n)).take 3 = [0, 0, 0] ∧
      longAt b (12 + 74 * n) = x.scale % 4294967296 ∧
      ∀ k : Fin 33, wordAt b (16 + 74 * n + 2 * k.val) = x.curve[k] % 65536 := by
  have place := Nat.mod_eq_of_lt (show i < 256 by omega)
  subst made
  refine ⟨by simp [profile_bytes], ?_, ?_, ?_, ?_, by simp [profile_bytes], ?_⟩
  iterate 4 simp [profile_bytes, Profile.common, place]
  rintro c n x rfl rfl
  obtain ⟨range, spare, scale, curve⟩ := (q.channels.get c).bytes_fields
  obtain ⟨head, tail, made, place⟩ := profile_channel i q c
  have size := (q.channels.get c).bytes_length
  refine ⟨?_, ?_, ?_, ?_, fun k => ?_⟩
  · rw [profile_bytes]
    cases c <;> simp [Profile.common, channelNumber, Rgb.get] <;> rfl
  · rw [made, ← place, ← range]
    exact byteAt_middle (i := 0) (by omega)
  · rw [made, show 9 + 74 * channelNumber c = head.length + 1 by omega, take_middle (by omega), spare]
  · rw [made, show 12 + 74 * channelNumber c = head.length + 4 by omega, longAt_middle (by omega), scale]
  · rw [made, show 16 + 74 * channelNumber c + 2 * k.val = head.length + (8 + 2 * k.val) by omega,
      wordAt_middle (by omega), curve]

/-! ### The Read Log reply, the identity, replies and notices -/

@[simp] theorem reservationBytes_length (o : Option Reservation) : (reservationBytes o).length = 2 := by
  rcases o with _ | _ | _ <;> simp [reservationBytes]

/-- The Read Log reply, with the reservation's two bytes as they are. -/
theorem log_fields {records : List LogRecord} {occupancy last : Nat} {held : Option Reservation} {b : List Byte}
    (made : b = ReplyData.bytes (.log records occupancy held last)) :
    byteAt b 0 = records.length % 256 ∧ byteAt b 1 = byteAt (reservationBytes held) 0 ∧
    byteAt b 2 = byteAt (reservationBytes held) 1 ∧ byteAt b 3 = occupancy % 256 ∧
    longAt b 4 = last % 4294967296 ∧ longAt b 8 = 0 ∧ b.drop 12 = records.flatMap LogRecord.bytes := by
  subst made
  simp [ReplyData.bytes]

/-- The fields of a reply ahead of its data. -/
theorem Reply.payload_fields (r : Reply) :
    byteAt r.payload 0 = r.code % 256 ∧ byteAt r.payload 1 = r.reason.code ∧
    byteAt r.payload 2 = r.engine.code ∧ byteAt r.payload 3 = min 255 r.field ∧
    (r.field ≤ 255 → r.payload.drop 4 = r.data.bytes) ∧
    (255 < r.field → wordAt r.payload 4 = r.field % 65536 ∧ r.payload.drop 6 = r.data.bytes) := by
  have reason : r.reason.code < 256 := by
    cases r.reason with
    | fault k => exact k.code_lt
    | _ => decide
  have engine := r.engine.code_lt
  by_cases long : 255 < r.field
  · simp [Reply.payload, fieldBytes, long, reason, engine, Nat.mod_eq_of_lt]
    omega
  · simp [Reply.payload, fieldBytes, long, reason, engine, Nat.mod_eq_of_lt]
    omega

/-- Chapter 12's frame is LP's own: a request framed so is judged that request. -/
theorem judge_requestRecord {tag : Nat} {q : Request} {p : List Byte} (tags : tag < 256) (size : p.length ≤ 16390) :
    judge (requestRecord tag q p) = .request tag q p := by
  obtain ⟨whole, kind, tagged, code, -, carried, -, payload, sum⟩ := recordBytes_fields (level := 0) (kind := 1)
    (by decide) tags (show q.code < 256 by cases q <;> decide) (by decide) size rfl
  have found : Request.ofCode q.code = some q := by cases q <;> rfl
  have long : payloadLength (recordBytes 1 tag q.code 0 p) = p.length := carried
  rw [requestRecord, judge_kind ((framed_iff _).2 ⟨by omega, by omega, by omega⟩)
    ((checked_iff _).2 (by rw [long]; exact sum.symm)), judgeKind, if_pos kind, code, tagged, payload, found]

end Sys2Proof.Machine
end

