-- ==== Sys2Proof/Proofs/StatusFields.lean ====
section
/-! PROOFS. The Status reply item by item (R197, LOG 14): each item as the fields it is made of. -/

namespace Sys2Proof.Machine

/-! ### The items of a part -/

theorem Flow.code_eq (f : Flow) : f.code = if f = .go then 0 else 1 := by cases f <;> rfl

theorem Window.code_eq (w : Window) : w.code = if w = .clear then 0 else 1 := by cases w <;> rfl

theorem MarkKind.code_eq (k : MarkKind) : k.code = if k = .frame then 1 else 2 := by cases k <;> rfl

/-- A set of wait reasons is the sum of the bits of those in it. -/
theorem waitSet_eq (w : List Wait) : waitSet w = le16 ([(Wait.speed, 1), (.settle, 2), (.stage, 4), (.gate, 8),
    (.empty, 16), (.logFull, 32), (.filter, 64), (.film, 128), (.trip, 256), (.shutter, 512), (.print, 1024),
    (.polygon, 2048)].map (fun x => if x.1 ∈ w then x.2 else 0)).sum := by
  have sum (l : List Wait) (n : Nat) : l.foldl (fun n x => if w.contains x then n + 2 ^ x.bit else n) n =
      n + (l.map fun x => if x ∈ w then 2 ^ x.bit else 0).sum := by
    induction l generalizing n with
    | nil => rfl
    | cons x l ih =>
      rw [List.foldl_cons, ih, List.map_cons, List.sum_cons, ← Nat.add_assoc]
      by_cases here : x ∈ w <;> simp [here]
  rw [waitSet, sum, Nat.zero_add]
  rfl

theorem outstanding_fields : Outstanding.bytes = fun o =>
    fieldsOf [(1, o.tag), (1, o.request.code), (1, o.request.isLong.toNat)] := by
  funext o
  simp [Outstanding.bytes, flag_eq]

theorem pending_fields : pendingBytes = fun o => o.elim (fieldsOf [(2, 0), (1, 0)]) fun n =>
    fieldsOf [(2, n.count), (1, n.payload.bytes.length)] ++ n.payload.bytes := by
  funext o
  cases o <;> simp [pendingBytes, counted]

theorem slot_fields : slotBytes = fun o => o.elim
    (fieldsOf [(1, 0), (4, 0), (2, 0), (2, 0), (1, 0xFF), (1, 0xFF)] ++ List.replicate 16 0) fun x =>
      fieldsOf [(1, phaseCode (some x.phase)), (4, x.key.toNat), (2, x.width), (2, x.height), (1, x.rule.val),
        (1, x.profile.val)] ++ x.label.toList ++
        fieldsOf [(2, x.presenceCount), (2, x.rewrites), (4, x.openSeq)] := by
  funext o
  cases o with
  | none => rfl
  | some x => simp [slotBytes]

theorem profileSummary_fields : profileSummary = fun p => fieldsOf [(1, p.1.toNat), (2, p.2.1), (1, p.2.2)] := by
  funext p
  simp [profileSummary, flag_eq]

theorem shading_fields (x : Rgb Shading) : shadingBytes x.r ++ (shadingBytes x.g ++ shadingBytes x.b) =
    fieldsOf ((x.r.toList ++ x.g.toList ++ x.b.toList).map (fun v => (4, v))) := by
  simp [shadingBytes, fieldsOf_map]

theorem activeDose_fields (o : Option (Rgb Int × Rgb Clips)) : activeDoseBytes o = fieldsOf
    (o.elim (List.replicate 28 (1, 0)) fun y => [(1, 1), (1, (y.1.r % 256).toNat), (1, (y.1.g % 256).toNat),
      (1, (y.1.b % 256).toNat), (4, y.2.r.high), (4, y.2.g.high), (4, y.2.b.high), (4, y.2.r.low), (4, y.2.g.low),
      (4, y.2.b.low)]) := by
  cases o with
  | none => rfl
  | some y => simp [activeDoseBytes, rgbSigned8, clipBytes, rgb32, Rgb.map, flag_eq, signed8_eq]

theorem measurement_fields (o : Option (Fin 8 × Nat)) : measurementBytes o = fieldsOf
    (o.elim [(1, 0), (1, 0xFF), (4, 0)] fun y => [(1, 1), (1, y.1.val), (4, y.2)]) := by
  cases o with
  | none => rfl
  | some y => simp [measurementBytes]

theorem facet_fields : Facet.bytes = fun f => fieldsOf [(1, f.usable.toNat), (4, f.interval),
    (1, f.measured.isSome.toNat), (4, f.measured.getD 0), (1, f.run), (2, f.gain)] := by
  funext f
  simp [Facet.bytes, facetState, flag_eq]

theorem channel_fields (c : ChannelReport) : c.bytes = fieldsOf [(1, c.laser.code), (1, (c.trim % 256).toNat),
    (1, c.reading.isSome.toNat), (2, c.reading.getD 0), (1, if c.window = .clear then 0 else 1), (1, c.outRun),
    (1, c.inRun), (4, (c.accumulator % 4294967296).toNat), (1, c.samples)] := by
  simp [ChannelReport.bytes, flag_eq, signed8_eq, signed32_eq, Window.code_eq]

theorem reply_fields (o : Option PendingReply) : replyEntry o = fieldsOf (o.elim [(1, 0), (1, 0), (1, 0)] fun x =>
    [(1, x.request.code), (1, x.tag.isSome.toNat), (1, x.tag.getD 0)]) := by
  cases o with
  | none => rfl
  | some x => simp [replyEntry, flag_eq]

/-- The stage's state and line, as fields. -/
def Stage.fields : Stage → List (Nat × Nat)
  | .unhomed => [(1, 0), (2, 0xFFFF)]
  | .homing => [(1, 1), (2, 0xFFFF)]
  | .settled l => [(1, 2), (2, l)]
  | .moving l _ => [(1, 3), (2, l)]

theorem stage_fields (x : Stage) : x.bytes = fieldsOf x.fields := by
  cases x <;> simp [Stage.bytes, Stage.fields, line16]

theorem wheel_fields (w : Wheel) : w.bytes = fieldsOf [(1, w.position.getD 0xFF), (1, w.move.isSome.toNat),
    (1, (w.move.map (·.1)).getD 0xFF)] := by
  simp [Wheel.bytes, index8, flag_eq]

theorem exposure_fields (held : Bool) (o : Option ExposureRecord) : exposureBytes held o = fieldsOf
    (o.elim ([(1, 0), (1, 0xFF), (4, 0), (1, 0xFF), (2, 0xFFFF)] ++ List.replicate 37 (1, 0)) fun e =>
      [(1, 1), (1, e.slot.val), (4, e.openSeq), (1, e.profile.val), (2, e.line), (2, e.exposed), (2, e.defects),
        (4, e.pauses), (4, e.clips.r.high), (4, e.clips.g.high), (4, e.clips.b.high), (4, e.clips.r.low),
        (4, e.clips.g.low), (4, e.clips.b.low), (1, (e.trims.r % 256).toNat), (1, (e.trims.g % 256).toNat),
        (1, (e.trims.b % 256).toNat), (1, held.toNat), (1, e.marked.toNat)]) := by
  cases o with
  | none => rfl
  | some e => simp [exposureBytes, line16, clipBytes, rgb32, Rgb.map, rgbSigned8, flag_eq, signed8_eq]

theorem lastGate_fields (o : Option LastOperation) : lastGateBytes o = fieldsOf
    (o.elim [(1, 0), (1, 0), (1, 0)] fun x => [(1, x.outcome.code), (1, x.op.code), (1, x.count)]) := by
  cases o with
  | none => rfl
  | some x => simp [lastGateBytes]

theorem pendingMark_fields (o : Option Mark) : pendingMarkBytes o = o.elim (List.replicate 15 0) fun m =>
    fieldsOf [(1, if m.kind = .frame then 1 else 2)] ++ (m.characters ++ List.replicate 14 0).take 14 := by
  cases o with
  | none => rfl
  | some m => simp [pendingMarkBytes, MarkKind.code_eq, padTo, zeros]

theorem blank_fields (o : Option BlankAdvance) : blankBytes o = fieldsOf (o.elim (List.replicate 6 (1, 0)) fun b =>
    [(1, 1), (1, b.count), (1, b.completed), (2, b.start.feet), (1, b.start.frames)]) := by
  cases o with
  | none => rfl
  | some b => simp [blankBytes, flag_eq, Footage.bytes]

theorem fault_fields (o : Option FaultRecord) : faultBytes o = o.elim (List.replicate 20 0) FaultRecord.bytes := by
  cases o <;> rfl

theorem lock_fields (o : Option LockPair) : lockBytes o = o.elim (List.replicate 44 0) LockPair.bytes := by
  cases o <;> rfl

/-- The reservation and its slot, as fields. -/
def reservationFields : Option Reservation → List (Nat × Nat)
  | none => [(1, 0), (1, 0xFF)]
  | some (.frame i) => [(1, 1), (1, i.val)]
  | some .blank => [(1, 2), (1, 0xFF)]

theorem reservation_fields (o : Option Reservation) : reservationBytes o = fieldsOf (reservationFields o) := by
  rcases o with _ | _ | _ <;> simp [reservationBytes, reservationFields] <;> rfl

/-! ### The parts -/

/-- LP's part with the mask that NU's begins with. -/
theorem StatusReport.link_fields (r : StatusReport) : r.linkPart ++ le8 r.notices.mask =
    fieldsOf ([(1, r.up.toNat), (1, r.occupancy), (1, if r.flow = .go then 0 else 1), (1, r.outstanding.length)] ++
      r.outstanding.flatMap (fun o => [(1, o.tag), (1, o.request.code), (1, o.request.isLong.toNat)]) ++
      [(2, r.errors), (1, r.firstError.elim 0 LinkError.code), (2, r.posted.count)] ++
      (r.posted.first.elim [(1, 0xFF), (2, 0xFFFF), (1, 0)] fun f => [(1, f.slot), (2, f.line), (1, f.reason.code)]) ++
      [(1, r.notices.mask)]) := by
  simp [StatusReport.linkPart, counted, outstanding_fields, PostedErrors.bytes_eq, fieldsOf_flatMap, flag_eq,
    Flow.code_eq, getD_code]

/-- FS's part after its slots, PT's and DU's. -/
theorem StatusReport.frame_fields (r : StatusReport) : r.framePart = r.slots.flatMap slotBytes ++
    fieldsOf ([(1, r.queue.length)] ++ r.queue.map (fun i => (1, i.val)) ++
      r.profiles.flatMap (fun p => [(1, p.1.toNat), (2, p.2.1), (1, p.2.2)]) ++
      [(2, (r.rollTrims.r % 65536).toNat), (2, (r.rollTrims.g % 65536).toNat),
        (2, (r.rollTrims.b % 65536).toNat)] ++
      (r.shading.r.toList ++ r.shading.g.toList ++ r.shading.b.toList).map (fun v => (4, v)) ++
      (r.activeDose.elim (List.replicate 28 (1, 0)) fun y => [(1, 1), (1, (y.1.r % 256).toNat),
        (1, (y.1.g % 256).toNat), (1, (y.1.b % 256).toNat), (4, y.2.r.high), (4, y.2.g.high), (4, y.2.b.high),
        (4, y.2.r.low), (4, y.2.g.low), (4, y.2.b.low)])) := by
  rw [fieldsOf_append, fieldsOf_append, ← shading_fields, ← activeDose_fields]
  simp [StatusReport.framePart, counted, profileSummary_fields, fieldsOf_flatMap, fieldsOf_map, signed16_eq]

/-- STU's part and PL's. -/
theorem StatusReport.scan_fields (r : StatusReport) : r.scanPart = fieldsOf
    ([(1, r.speed.code), (1, r.counter.val), (1, r.aligned.toNat)] ++
      (r.measurement.elim [(1, 0), (1, 0xFF), (4, 0)] fun y => [(1, 1), (1, y.1.val), (4, y.2)]) ++
      [(2, r.scanStats.strayEos), (2, r.scanStats.missedEos), (2, r.scanStats.missedSos),
        (2, r.scanStats.slips)] ++
      r.facets.toList.flatMap (fun f => [(1, f.usable.toNat), (4, f.interval), (1, f.measured.isSome.toNat),
        (4, f.measured.getD 0), (1, f.run), (2, f.gain)]) ++
      [(1, r.interlockOpen.toNat)] ++
      [r.channels.r, r.channels.g, r.channels.b].flatMap (fun c => [(1, c.laser.code), (1, (c.trim % 256).toNat),
        (1, c.reading.isSome.toNat), (2, c.reading.getD 0), (1, if c.window = .clear then 0 else 1), (1, c.outRun),
        (1, c.inRun), (4, (c.accumulator % 4294967296).toNat), (1, c.samples)])) := by
  simp [StatusReport.scanPart, measurement_fields, facet_fields, channel_fields, fieldsOf_flatMap, interlockState,
    flag_eq]

/-- ES's part. -/
theorem StatusReport.engine_fields (r : StatusReport) : r.enginePart = fieldsOf
    ([(1, r.engine.code), (2, ([(Wait.speed, 1), (.settle, 2), (.stage, 4), (.gate, 8), (.empty, 16),
        (.logFull, 32), (.filter, 64), (.film, 128), (.trip, 256), (.shutter, 512), (.print, 1024),
        (.polygon, 2048)].map (fun x => if x.1 ∈ r.waiting then x.2 else 0)).sum),
        (1, r.stopPending.toNat), (1, r.deferredHalt.elim 0 FaultKind.code)] ++
      [r.replies.start, r.replies.stop, r.replies.reset, r.replies.advance].flatMap (fun o =>
        o.elim [(1, 0), (1, 0), (1, 0)] fun x => [(1, x.request.code), (1, x.tag.isSome.toNat), (1, x.tag.getD 0)]) ++
      r.stage.fields ++
      [r.wheels.r, r.wheels.g, r.wheels.b].flatMap (fun w => [(1, w.position.getD 0xFF),
        (1, w.move.isSome.toNat), (1, (w.move.map (·.1)).getD 0xFF)]) ++
      [(4, r.linePitch), (4, r.pauseMs)] ++
      (r.exposure.elim ([(1, 0), (1, 0xFF), (4, 0), (1, 0xFF), (2, 0xFFFF)] ++ List.replicate 37 (1, 0)) fun e =>
        [(1, 1), (1, e.slot.val), (4, e.openSeq), (1, e.profile.val), (2, e.line), (2, e.exposed), (2, e.defects),
          (4, e.pauses), (4, e.clips.r.high), (4, e.clips.g.high), (4, e.clips.b.high), (4, e.clips.r.low),
          (4, e.clips.g.low), (4, e.clips.b.low), (1, (e.trims.r % 256).toNat), (1, (e.trims.g % 256).toNat),
          (1, (e.trims.b % 256).toNat), (1, r.reservationHeld.toNat), (1, e.marked.toNat)]) ++
      [(1, r.lineInProgress.elim 0xFF (·.val))]) := by
  rw [StatusReport.enginePart, waitSet_eq, reply_fields, reply_fields, reply_fields, reply_fields, stage_fields,
    exposure_fields]
  simp only [wheel_fields, flag_eq, index8, getD_code, fieldsOf_append, fieldsOf_byte, fieldsOf_word,
    fieldsOf_long, fieldsOf_nil, List.flatMap_cons, List.flatMap_nil, List.append_assoc,
    List.append_nil]

/-- TC's part, around the pending print. -/
theorem StatusReport.transport_fields (r : StatusReport) : r.transportPart = fieldsOf
    ([(1, r.gate.code), (1, r.gateOp.elim 0 GateOp.code), (1, r.perforations)] ++
      (r.lastGate.elim [(1, 0), (1, 0), (1, 0)] fun x => [(1, x.outcome.code), (1, x.op.code), (1, x.count)]) ++
      [(1, r.shutter.code), (2, r.footage.feet), (1, r.footage.frames), (1, r.gateUsed.toNat),
        (1, r.printing.elim 0 fun k => if k = .frame then 1 else 2)]) ++
    (r.pendingMark.elim (List.replicate 15 0) fun m =>
      fieldsOf [(1, if m.kind = .frame then 1 else 2)] ++ (m.characters ++ List.replicate 14 0).take 14) ++
    fieldsOf ((r.blank.elim (List.replicate 6 (1, 0)) fun b =>
        [(1, 1), (1, b.count), (1, b.completed), (2, b.start.feet), (1, b.start.frames)]) ++
      [(4, r.pullDowns.1), (4, r.pullDowns.2)]) := by
  have kinds : MarkKind.code = fun k => if k = .frame then 1 else 2 := funext MarkKind.code_eq
  rw [StatusReport.transportPart, lastGate_fields, pendingMark_fields, blank_fields, kinds]
  simp only [flag_eq, getD_code, Footage.bytes, fieldsOf_append, fieldsOf_byte, fieldsOf_word, fieldsOf_long,
    fieldsOf_nil, List.append_assoc, List.append_nil]

/-- FU's part, RL's and the parameters. -/
theorem StatusReport.last_fields (r : StatusReport) : r.faultPart ++ r.parameterPart = fieldsOf
    (r.responses.toList.map (fun x => (1, x.code)) ++ r.faultCounts.toList.map (fun n => (2, n))) ++
    [r.lastFault, r.inHand].flatMap (fun o => o.elim (List.replicate 20 0) FaultRecord.bytes) ++
    r.lockPair.elim (List.replicate 44 0) LockPair.bytes ++
    fieldsOf ([(1, r.logOccupancy)] ++ reservationFields r.reservation ++
      [(4, r.lastSeq), (4, r.oldestSeq.getD 0), (1, r.batchLength), (4, r.timing.tn), (4, r.timing.pn),
        (4, r.timing.tolerance), (4, r.timing.nsp), (4, r.timing.l0), (4, r.power.targets.r),
        (4, r.power.targets.g), (4, r.power.targets.b), (4, r.power.deadband), (4, r.power.steps),
        (4, r.power.direction.code), (4, r.power.persistence), (4, r.power.settleMs)]) := by
  simp only [StatusReport.faultPart, StatusReport.parameterPart, fault_fields, lock_fields, reservation_fields, rgb32,
    fieldsOf_append, fieldsOf_map, fieldsOf_byte, fieldsOf_word, fieldsOf_long, fieldsOf_nil, List.flatMap_cons,
    List.flatMap_nil, List.append_assoc, List.append_nil]

end Sys2Proof.Machine
end

