-- ==== Sys2Proof/Proofs/RecordLayouts.lean ====
section
/-! PROOFS. The byte layouts and code values of chapter 12, put together. -/

namespace Sys2Proof.Machine

theorem Request.ofCode_iff (n : Nat) (q : Request) : Request.ofCode n = some q ↔ q.code = n := by
  constructor
  · intro found
    unfold Request.ofCode at found
    split at found <;> cases found <;> rfl
  · rintro rfl
    cases q <;> rfl

theorem FaultKind.ofCode_iff (n : Nat) (k : FaultKind) : FaultKind.ofCode n = some k ↔ (Reason.fault k).code = n := by
  constructor
  · intro found
    unfold FaultKind.ofCode at found
    split at found <;> cases found <;> rfl
  · rintro rfl
    cases k <;> rfl

theorem Response.ofCode_iff (n : Nat) (r : Response) : Response.ofCode n = some r ↔ r.code = n := by
  constructor
  · intro found
    unfold Response.ofCode at found
    split at found <;> cases found <;> rfl
  · rintro rfl
    cases r <;> rfl

theorem LockPair.bytes_eq (p : LockPair) : p.bytes = (match p.first with
    | none => List.replicate 24 0
    | some r => [1, 0, 0, 0] ++ r.bytes) ++ p.second.bytes := by
  cases first : p.first <;> simp [LockPair.bytes, first] <;> rfl

/-- The parts of a Status reply, with the mask that NU's part begins with put to LP's. -/
theorem StatusReport.bytes_parts (r : StatusReport) : r.bytes = (r.linkPart ++ le8 r.notices.mask) ++
    r.notices.pending.toList.flatMap pendingBytes ++ r.framePart ++ r.scanPart ++ r.enginePart ++ r.transportPart ++
      (r.faultPart ++ r.parameterPart) := by
  simp only [StatusReport.bytes, StatusReport.noticePart, List.append_assoc]

/-- Settles O7: each record's fields at their offsets, each reply's and notice's data field by field, and the codes. -/
theorem recordLayouts : Obligations.RecordLayouts := by
  refine ⟨fun tag q p => judge_requestRecord, fun kind tag code level p r => recordBytes_fields,
    fun r => ⟨rfl, r.payload_fields⟩, fun n => ⟨le16 n.count, rfl, wordAt_le16 _, rfl⟩, ?_,
    LockPair.bytes_eq, ?_, ?_, ?_, fun _ => rfl, fun _ => rfl, fun i n r b => Rule.bytes_fields,
    fun i q b => Profile.bytes_fields, ?_, ?_, ?_,
    rfl, rfl, Request.ofCode_iff, rfl, rfl, fun _ => rfl, FaultKind.ofCode_iff, rfl, Response.ofCode_iff, rfl, rfl,
    rfl, rfl, rfl, rfl, rfl, rfl⟩
  · rintro r b rfl
    obtain ⟨kind, engine, applied, slot, line, channel, facet, feet, frames, spare⟩ := r.bytes_fields
    refine ⟨r.bytes_length, kind, engine, applied, slot.trans (by cases r.slot <;> rfl),
      line.trans (by cases r.line <;> rfl), channel.trans (by cases r.report.channel <;> rfl),
      facet.trans (by cases r.facet <;> rfl), feet, frames, spare, ?_⟩
    cases report : r.report with
    | powerTrip tripped reading limit =>
      cases limit <;> simp [FaultRecord.bytes, report, FaultReport.data, channelSet_eq] <;> rfl
    | pauseTimeout tripped =>
      simp [FaultRecord.bytes, report, FaultReport.data, channelSet_eq]
      rfl
    | trimLimit set trim up =>
      simp [FaultRecord.bytes, report, FaultReport.data, channelSet_eq]
      rfl
    | startTimeout w =>
      simp [FaultRecord.bytes, report, FaultReport.data, startWaitSet_eq]
      rfl
    | transport cause gate n op =>
      cases cause <;> simp [FaultRecord.bytes, report, FaultReport.data, gate.code_lt, op.code_lt] <;> rfl
    | filmEnd n op =>
      simp [FaultRecord.bytes, report, FaultReport.data, op.code_lt]
      rfl
    | shutter way => cases way <;> simp [FaultRecord.bytes, report, FaultReport.data] <;> rfl
    | syncSlip f =>
      have place := Nat.mod_eq_of_lt (show f.val < 256 by omega)
      simp [FaultRecord.bytes, report, FaultReport.data, place]
      rfl
    | _ =>
      simp [FaultRecord.bytes, report, FaultReport.data]
      rfl
  · rintro r b rfl
    obtain ⟨size, seq, feet, frames, spare⟩ := r.bytes_fields
    refine ⟨size, seq, feet, frames, spare, ?_, fun e body => ?_, fun e body => ?_, fun e k body => ?_,
      fun n body => LogRecord.bytes_blank_fields body rfl⟩
    · rintro e (body | ⟨c, body⟩)
      · exact frameBytes_fields r e _ _ (LogRecord.bytes_exposed body)
      · exact frameBytes_fields r e _ _ (LogRecord.bytes_spoiled body)
    · rw [LogRecord.bytes_exposed body]
      exact frameBytes_outcome r e 1 0
    · rw [LogRecord.bytes_spoiled body]
      exact frameBytes_outcome r e 2 _
    · obtain ⟨outcome, cause⟩ := frameBytes_outcome r e 2 k.code
      rw [LogRecord.bytes_spoiled body]
      exact ⟨outcome, cause.trans (Nat.mod_eq_of_lt k.code_lt)⟩
  · intro records occupancy last held b made
    obtain ⟨count, kind, slot, rest⟩ := log_fields made
    refine ⟨count, kind.trans ?_, slot.trans ?_, rest⟩
    · rcases held with _ | _ | _ <;> rfl
    · rcases held with _ | i | _
      · rfl
      · have place := Nat.mod_eq_of_lt (show i.val < 256 by omega)
        simp [reservationBytes, place]
      · rfl
  · rintro cause b rfl
    rcases cause with _ | _ | _ <;> decide
  · intro d
    cases d with
    | empty => rfl
    | identity => trivial
    | status => trivial
    | rule => trivial
    | profile => trivial
    | log => trivial
    | checkpoint p errors first =>
      refine (checkpoint_fields p errors first).trans ?_
      cases p.first <;> cases first <;> rfl
    | allowed l => simp [ReplyData.bytes, allowedBytes, fieldsOf_map]
    | conditions => simp [ReplyData.bytes, conditionBytes, flag_eq]
    | loaded => simp [ReplyData.bytes, flag_eq]
    | curveOrder => simp [ReplyData.bytes, channelPlace_eq]
    | trims => simp [ReplyData.bytes, signed16_eq]
    | heightFalls => simp [ReplyData.bytes, index8]
    | footage => simp [ReplyData.bytes, Footage.bytes]
    | advanced => simp [ReplyData.bytes, Footage.bytes]
    | _ => simp [ReplyData.bytes]
  · intro p
    cases p with
    | queueEmpty => rfl
    | fault => rfl
    | locked => rfl
    | hello => trivial
    | engineState previous new cause =>
      cases cause with
      | none => simp [NoticePayload.bytes]
      | some k =>
        simp [NoticePayload.bytes]
        rfl
    | facetChange facet usable count => cases facet <;> simp [NoticePayload.bytes, index8, facetState, flag_eq]
    | trimAtLimit x => simp [NoticePayload.bytes, channelSet_isSome, signed8_eq]
    | frameSpoiled slot key openSeq cause exposed seq =>
      cases cause
      all_goals
        simp [NoticePayload.bytes]
        rfl
    | _ => simp [NoticePayload.bytes, Footage.bytes, flag_eq, interlockState]
  · refine fun r => ⟨?_, rfl⟩
    rw [r.bytes_parts, r.link_fields, r.frame_fields, r.scan_fields, r.engine_fields, r.transport_fields, r.last_fields,
      pending_fields, slot_fields]
    simp only [fieldsOf_append, List.append_assoc]
    -- What is left on both sides is the same case splits, which smart unfolding does not look into.
    set_option smartUnfolding false in
    rfl

end Sys2Proof.Machine
end
